-- ==== Sys2Proof/Word.lean ====
section
/-! DEFINITION. The word types of the device and their plainest arithmetic. -/

namespace Sys2Proof

/-- A byte of memory. -/
abbrev Byte := BitVec 8

/-- A 32-bit register (R84, R91). -/
abbrev Word := BitVec 32

/-- A 64-bit register pair, PC or instruction word (R25, R32). -/
abbrev DWord := BitVec 64

end Sys2Proof
end

