-- ==== Sys2Proof/Syntax.lean ====
section
/-! DEFINITION. The syntax of the machine: operands, word layouts (R27, R28, R36, R41, R48, R131, R205, R247) and the one
inductive `Instr`, with one constructor for each row of spec/opcode_table.json: the words a program can hold and the
events that the device, the host and the driver bring about. -/

namespace Sys2Proof

/-- The special registers of R31, in the order of their codes 0x50..0x5F. -/
inductive SReg
  | lane | group | team | tpos | cluster | core | owner | depth
  | pc | repix | frec | spillbase | spilltop | world | stage | clock
deriving DecidableEq, Repr

/-- An operand of an F-form word (R30). -/
inductive Opd
  | w (i : Fin 32)
  | s (i : Fin 32)
  | q (i : Fin 8)
  | sr (r : SReg)
  | m (i : Fin 16)
  | zero
deriving DecidableEq, Repr

/-- The type codes 0x0..0xC of R33. -/
inductive Ty
  | s32 | n32 | s64 | n64 | b32 | b64 | s16x2 | s8x4 | f32 | h2 | bh2 | n16x2 | n8x4
deriving DecidableEq, Repr

/-- A guard: predicate q, inverted when `pn` (R27). -/
structure Guard where
  pn : Bool
  pq : Fin 8
deriving DecidableEq, Repr

/-- The three last-use bits (R27, R35). -/
structure LastUse where
  a : Bool
  b : Bool
  c : Bool
deriving DecidableEq, Repr

/-- A register F-form word (R27). -/
structure FWord where
  guard : Guard
  d : Opd
  a : Opd
  b : Opd
  c : Opd
  lu : LastUse
  ty : Ty
  sc : BitVec 3
  sub : BitVec 5
  mod : BitVec 4
deriving DecidableEq, Repr

/-- An immediate form (R28), with the extension of an IMMX prefix where there is one (R51). -/
structure IWord where
  guard : Guard
  d : Opd
  a : Opd
  lua : Bool
  ty : Ty
  sub : BitVec 5
  imm : BitVec 18
  ext : Option (BitVec 46)
deriving DecidableEq, Repr

/-- An offset form of R131: BRA, BRA.U, CALL and TRAP. -/
structure OffWord where
  guard : Guard
  sub : BitVec 5
  off : BitVec 18
deriving DecidableEq, Repr

/-- A memory form (R205): `r` is the destination of a load or the data of a store. -/
structure MWord where
  guard : Guard
  r : Opd
  base : Opd
  index : Opd
  disp : BitVec 7
  lu : LastUse
  ty : Ty
  sc : BitVec 3
  sub : BitVec 5
  mod : BitVec 4
deriving DecidableEq, Repr

/-- A matrix operand (R247). -/
inductive MOpd
  | acc (i : Fin 16)
  | z (i : Fin 2)
  | m (i : Fin 16)
  | none
deriving DecidableEq, Repr

/-- A matrix-stream word (R247). -/
structure ZWord where
  d : MOpd
  a : MOpd
  u1 : Fin 32
  u2 : Fin 32
  rf : Bool
  n : BitVec 6
  rm : BitVec 3
  sub : BitVec 4
  mod : BitVec 4
deriving DecidableEq, Repr

/-- PERMB, PERMLD and PERMST stand in a pipe's program (R152, R153) or in a matrix stream (R264). -/
inductive PermWord
  | pipe (f : FWord)
  | stream (z : ZWord)
deriving DecidableEq, Repr

/-- A flag assignment of a clause header. -/
abbrev FlagSet := Option (Fin 16)

/-- A clause header (R41). -/
structure HWord where
  wait : BitVec 12
  seta : FlagSet
  setb : FlagSet
  len : BitVec 5
deriving DecidableEq, Repr

/-- A REP prefix (R48). -/
structure RepPrefix where
  count : BitVec 8
  sd : BitVec 2
  sa : BitVec 2
  sb : BitVec 2
  sc : BitVec 2
deriving DecidableEq, Repr, Inhabited

/-- The pairable operations (R37). -/
inductive HalfOp
  | nop | iadd | isub | irsb | iaddi | imin | imax | iabs
  | and | andi | or | ori | xor | xori | not | brev
  | shl | shli | shr | shri | popc | clz | imul
  | mov | movi | sel | imuli | iadds | isubs | irsbi | movu
  | fadd | fsub | fmul | ffma | fmin | fmax | fabs | fneg
  | hadd | hsub | hmul | hfma | hmin | hmax | habs | hneg
deriving DecidableEq, Repr

/-- A half of a P-form word (R36). Bit 5 of `d` and `a` tells a uniform register from a window register. -/
structure Half where
  op : HalfOp
  pq : Fin 8
  d : BitVec 6
  a : BitVec 6
  lu : Bool
  pty : Ty
  m6 : BitVec 6
deriving DecidableEq, Repr

/-- Where the distributor puts one team: a core, a team slot and one group slot for each group (R17, R302). -/
structure Seat where
  core : Nat
  tslot : Nat
  gslots : List Nat
deriving DecidableEq, Repr

/-- A debug comparator (R359). -/
structure Comparator where
  addr : Nat
  mask : Nat
  reads : Bool
  writes : Bool
deriving DecidableEq, Repr

/-- The parameters the driver sets through a service core (R129, R174, R201, R304, R312, R328, R360, R364, R370, R404). -/
inductive Param
  | lapq | quant | walkbudget | parkth | wt | poolmax | otc | shq | wdlim | ercap | hrt | fabid | poolbase | poollen
deriving DecidableEq, Repr

/-- The device counters of R334 that the driver can clear (R348). -/
inductive DeviceCounter
  | noclaim | nowin | dcorr | dpoison | wsat (slice index : Nat)
deriving DecidableEq, Repr

/-- An access of a service core, by DPA, or of a peer device's engine, by an allotment address of its queue's owner (R240, R279, R316),
performed at the home slice. A read at system scope obtains the
host's copy first, and so does a compare-and-swap (R217, R242). A peer's engine delivers a reduce-add with its tag (R285). -/
inductive PeerAccess
  | read (addr n : Nat) (sys : Bool)
  | write (addr : Nat) (data : List Byte)
  | cas (addr : Nat) (expected new : List Byte)
  | reduceAdd (queue seq iter : Nat) (bf16 : Bool) (addr : Nat) (data : List Byte)
deriving DecidableEq, Repr

/-- A peer's access with the owner whose map translates it (R240, R279). -/
structure PeerRequest where
  owner : Nat
  access : PeerAccess
deriving DecidableEq, Repr

/-- Bytes that the host writes; with expected bytes, a compare-and-swap of the host (R241, R276). -/
structure HostStore where
  data : List Byte
  expected : Option (List Byte) := none
deriving DecidableEq, Repr

/-- The data-rate points of R11. -/
inductive DataRate
  | g64 | g96 | g128
deriving DecidableEq, Repr

/-- A firmware image (R401). -/
structure Firmware where
  version : Nat
  signer : BitVec 256
  limpor : List Byte
  sc : List Byte
  signature : BitVec 512
deriving DecidableEq, Repr

/-- One constructor for each row of spec/opcode_table.json, in the table's order. -/
inductive Instr
  /-- IADD (R98): Adds two integer sources lane by lane, modulo the lane width. -/
  | iadd (f : FWord)
  /-- IADDI (R98): Adds a sign-extended immediate to an integer source. -/
  | iaddi (f : IWord)
  /-- ISUB (R98): Subtracts source b from source a lane by lane. -/
  | isub (f : FWord)
  /-- IRSBI (R98): Subtracts source a from an immediate. -/
  | irsbi (f : IWord)
  /-- IMUL (R98): Multiplies two scalar integers, keeping the low bits. -/
  | imul (f : FWord)
  /-- IMULI (R98): Multiplies a scalar integer by an immediate. -/
  | imuli (f : IWord)
  /-- IMULHI (R98): Gives the high half of the product of two scalar integers. -/
  | imulhi (f : FWord)
  /-- IMAD (R98): Computes a × b + c on scalar integers. -/
  | imad (f : FWord)
  /-- IMADW (R98): Computes a 64-bit a × b + c from 32-bit factors. -/
  | imadw (f : FWord)
  /-- IMIN (R98): Gives the smaller of two integers per lane. -/
  | imin (f : FWord)
  /-- IMAX (R98): Gives the larger of two integers per lane. -/
  | imax (f : FWord)
  /-- IABS (R98): Gives the absolute value of a signed integer per lane. -/
  | iabs (f : FWord)
  /-- IADDS (R98): Adds with saturation per lane. -/
  | iadds (f : FWord)
  /-- ISUBS (R98): Subtracts with saturation per lane. -/
  | isubs (f : FWord)
  /-- LEA (R98): Adds a shifted and extended 32-bit index to a 64-bit address. -/
  | lea (f : FWord)
  /-- LEAI (R98): Adds an immediate to a 64-bit address. -/
  | leai (f : IWord)
  /-- AND (R99): Bitwise AND of two sources. -/
  | and (f : FWord)
  /-- ANDI (R99): Bitwise AND with a sign-extended immediate. -/
  | andi (f : IWord)
  /-- OR (R99): Bitwise OR of two sources. -/
  | or (f : FWord)
  /-- ORI (R99): Bitwise OR with a sign-extended immediate. -/
  | ori (f : IWord)
  /-- XOR (R99): Bitwise XOR of two sources. -/
  | xor (f : FWord)
  /-- XORI (R99): Bitwise XOR with a sign-extended immediate. -/
  | xori (f : IWord)
  /-- NOT (R99): Bitwise complement of a source. -/
  | not (f : FWord)
  /-- SHL (R99): Shifts left by a register amount, giving 0 for amounts of the width or more. -/
  | shl (f : FWord)
  /-- SHLI (R99): Shifts left by an immediate amount. -/
  | shli (f : IWord)
  /-- SHR (R99): Shifts right arithmetically or logically by a register amount. -/
  | shr (f : FWord)
  /-- SHRI (R99): Shifts right by an immediate amount. -/
  | shri (f : IWord)
  /-- DSH (R99): Double shift of the concatenation of b and a towards bit 0 or bit 63. -/
  | dsh (f : FWord)
  /-- BFE (R99): Extracts a bit field and extends it by signedness. -/
  | bfe (f : FWord)
  /-- BFI (R99): Inserts a bit field into c. -/
  | bfi (f : FWord)
  /-- POPC (R99): Counts the one bits of a source. -/
  | popc (f : FWord)
  /-- CLZ (R99): Counts the leading zero bits of a source. -/
  | clz (f : FWord)
  /-- ICMP (R100): Compares two integers and combines the result with a predicate. -/
  | icmp (f : FWord)
  /-- ICMPI (R100): Compares an integer with an immediate. -/
  | icmpi (f : IWord)
  /-- FCMP (R100): Compares two FP32 values and combines the result with a predicate. -/
  | fcmp (f : FWord)
  /-- PLOG (R100): Combines three predicates by two logic operations. -/
  | plog (f : FWord)
  /-- SEL (R101): Selects a or b by a predicate. -/
  | sel (f : FWord)
  /-- SELI (R101): Selects a or an immediate by a predicate. -/
  | seli (f : IWord)
  /-- MOV (R101): Copies a source unchanged. -/
  | mov (f : FWord)
  /-- MOVI (R101): Writes an immediate, extended by IMMX to 64 bits where present. -/
  | movi (f : IWord)
  /-- MOVU (R101): Writes the per-thread value of the lowest-numbered active thread into a uniform register. -/
  | movu (f : FWord)
  /-- VOTE (R102): Gives whether all, any or all-equal predicate values hold over the run's active threads. -/
  | vote (f : FWord)
  /-- BALLOT (R102): Gives the mask of active threads whose predicate is set. -/
  | ballot (f : FWord)
  /-- MATCH (R102): Gives masks of active threads holding equal values. -/
  | matchT (f : FWord)
  /-- PRMT (R99): Permutes bytes of a and b under selectors in c. -/
  | prmt (f : FWord)
  /-- BREV (R99): Reverses the bit order of a source. -/
  | brev (f : FWord)
  /-- FADD (R105): Adds two FP32 values with one rounding. -/
  | fadd (f : FWord)
  /-- FSUB (R105): Subtracts two FP32 values with one rounding. -/
  | fsub (f : FWord)
  /-- FMUL (R105): Multiplies two FP32 values with one rounding. -/
  | fmul (f : FWord)
  /-- FFMA (R105): Fused FP32 multiply-add with one rounding. -/
  | ffma (f : FWord)
  /-- FMIN (R105): Gives the smaller FP32 value, ordering -0 below +0. -/
  | fmin (f : FWord)
  /-- FMAX (R105): Gives the larger FP32 value. -/
  | fmax (f : FWord)
  /-- FCLAMP (R105): Clamps an FP32 value between b and c. -/
  | fclamp (f : FWord)
  /-- FRCP (R106): Long-latency 12-bit reciprocal estimate. -/
  | frcp (f : FWord)
  /-- FRSQ (R106): Long-latency 12-bit reciprocal square root estimate. -/
  | frsq (f : FWord)
  /-- FEX2 (R106): Long-latency 12-bit estimate of 2 to the x. -/
  | fex2 (f : FWord)
  /-- FLG2 (R106): Long-latency 12-bit estimate of log2 x. -/
  | flg2 (f : FWord)
  /-- FSIN (R106): Long-latency 12-bit estimate of sin(pi x). -/
  | fsin (f : FWord)
  /-- FCOS (R106): Long-latency 12-bit estimate of cos(pi x). -/
  | fcos (f : FWord)
  /-- FROUND (R105): Rounds an FP32 value to an integer value under a rounding mode. -/
  | fround (f : FWord)
  /-- FABS (R105): Clears the FP32 sign bit. -/
  | fabs (f : FWord)
  /-- FNEG (R105): Inverts the FP32 sign bit. -/
  | fneg (f : FWord)
  /-- HADD (R107): Adds packed 16-bit floating-point lanes. -/
  | hadd (f : FWord)
  /-- HSUB (R107): Subtracts packed 16-bit floating-point lanes. -/
  | hsub (f : FWord)
  /-- HMUL (R107): Multiplies packed 16-bit floating-point lanes. -/
  | hmul (f : FWord)
  /-- HFMA (R107): Fused multiply-add on packed 16-bit floating-point lanes. -/
  | hfma (f : FWord)
  /-- HMIN (R107): Per-lane minimum of packed 16-bit floating-point values. -/
  | hmin (f : FWord)
  /-- HMAX (R107): Per-lane maximum of packed 16-bit floating-point values. -/
  | hmax (f : FWord)
  /-- HABS (R107): Clears the sign bit of each 16-bit lane. -/
  | habs (f : FWord)
  /-- HNEG (R107): Inverts the sign bit of each 16-bit lane. -/
  | hneg (f : FWord)
  /-- HDOT2 (R107): Two-lane dot product added to an FP32 value with one rounding. -/
  | hdot2 (f : FWord)
  /-- LMUL (R108): Multiplies packed LN6 codes in the exponent domain. -/
  | lmul (f : FWord)
  /-- LADD (R108): Adds packed LN6 codes and rounds to LN6. -/
  | ladd (f : FWord)
  /-- CVT (R109): Converts between scalar integer and FP32 types. -/
  | cvt (f : FWord)
  /-- CVTL (R110): Converts the lanes of a two-lane type. -/
  | cvtl (f : FWord)
  /-- CVTN (R111): Rounds an FP32 value into one narrow field of a register. -/
  | cvtn (f : FWord)
  /-- CVTW (R112): Widens one narrow field to FP32 exactly. -/
  | cvtw (f : FWord)
  /-- DEQ (R113): Dequantises one element by a scale to FP32. -/
  | deq (f : FWord)
  /-- BDOT_DB4 (R115): Adds two DB4 blocks into an FP32 accumulator, omitting and counting non-finite blocks with .skipnan. -/
  | bdotDb4 (f : FWord)
  /-- BDOT_MXFP4 (R115): Adds one 16-element MXFP4 chunk into an FP32 accumulator. -/
  | bdotMxfp4 (f : FWord)
  /-- BDOT_TSC (R115): Applies two BF16 tensor scales to an FP32 accumulator with one rounding. -/
  | bdotTsc (f : FWord)
  /-- QBLK (R114): Turns a block's largest magnitude into an E8M0 or E5M2 scale code. -/
  | qblk (f : FWord)
  /-- SHFL (R117): Reads a register of another thread of the run by index, up, down or butterfly. -/
  | shfl (f : FWord)
  /-- SHFLX (R117): Shuffle within segments of width W. -/
  | shflx (f : FWord)
  /-- XBAR (R118): Applies a crossbar pattern table to gather bytes from other threads. -/
  | xbar (f : FWord)
  /-- SCAN (R119): Inclusive or exclusive scan over the run in ascending thread index. -/
  | scan (f : FWord)
  /-- SCANSEG (R119): Segmented scan restarting at predicate-marked heads. -/
  | scanseg (f : FWord)
  /-- REDUCE (R119): Reduces the run's values and gives the result to every thread. -/
  | reduce (f : FWord)
  /-- REDUCEU (R119): Reduces the run's values into a uniform register. -/
  | reduceu (f : FWord)
  /-- XPIPE (R120): Long-latency read of a register of any thread of the same team. -/
  | xpipe (f : FWord)
  /-- BCAST (R117): Gives every thread the register of one uniformly chosen thread. -/
  | bcast (f : FWord)
  /-- BRA (R132): Branches each active thread to a PC-relative target, taking a lap on a backward branch. -/
  | bra (f : OffWord)
  /-- BRA_U (R132): Branches the whole run by the lowest thread's predicate and counts disagreement in UVIOL. -/
  | braU (f : OffWord)
  /-- BRX (R133): Branches each active thread through a 64-bit register. -/
  | brx (f : FWord)
  /-- BRX_U (R133): Branches active threads to the lowest active thread's register target, counting disagreement. -/
  | brxU (f : FWord)
  /-- CALL (R134): Enters a routine, writing the link, shifting the window, spilling and raising DEPTH. -/
  | call (f : OffWord)
  /-- CALLX (R134): Enters a routine at a register target. -/
  | callx (f : FWord)
  /-- RET (R135): Returns through the link, freeing and filling registers, or exits at depth 0. -/
  | ret (f : FWord)
  /-- EXIT (R136): Marks each active thread exited and frees its rows. -/
  | exit (f : FWord)
  /-- BACKOFF (R137): Moves each active thread into backing off for an exponentially growing delay. -/
  | backoff (f : FWord)
  /-- YIELD (R138): Marks active threads lapped and starts a quantum. -/
  | yield (f : FWord)
  /-- SYNCG (R139): Barrier over the group's live threads, optionally releasing and acquiring at group scope. -/
  | syncg (f : FWord)
  /-- TRAP (R140): Raises the fault SVC with an 18-bit code. -/
  | trap (f : OffWord)
  /-- BKPT (R140): Raises the fault DEBUG. -/
  | bkpt (f : FWord)
  /-- NOP (R140): Does nothing and ends a clause. -/
  | nop (f : FWord)
  /-- LDG (R209): Long-latency load from global memory through L1 by cache operation and order. -/
  | ldg (f : MWord)
  /-- LDL (R209): Long-latency load from the team's scratch. -/
  | ldl (f : MWord)
  /-- LDX (R209): Long-latency load from cluster scratch. -/
  | ldx (f : MWord)
  /-- LDU (R210): Uniform load made once per run into a uniform register. -/
  | ldu (f : MWord)
  /-- LDV (R211): Loads 16 or 32 bytes into consecutive window registers. -/
  | ldv (f : MWord)
  /-- LDVQ (R212): VQ load expanding an index byte through a codebook. -/
  | ldvq (f : MWord)
  /-- PREFG (R213): Asks for a line to be brought into L2 or L1, never faulting. -/
  | prefg (f : MWord)
  /-- STG (R214): Posts a store to global memory, writing through L1. -/
  | stg (f : MWord)
  /-- STL (R214): Posts a store to the team's scratch. -/
  | stl (f : MWord)
  /-- STX (R214): Posts a store to cluster scratch. -/
  | stx (f : MWord)
  /-- STV (R211): Stores 16 or 32 bytes from consecutive window registers. -/
  | stv (f : MWord)
  /-- ATOMG (R216): Atomic read-modify-write on global memory at the point its scope selects. -/
  | atomg (f : FWord)
  /-- ATOML (R216): Atomic read-modify-write on scratch. -/
  | atoml (f : FWord)
  /-- ATOMX (R216): Atomic read-modify-write on cluster scratch. -/
  | atomx (f : FWord)
  /-- REDG (R216): Posted atomic reduction on global memory with no returned value. -/
  | redg (f : FWord)
  /-- REDX (R216): Posted atomic reduction on cluster scratch. -/
  | redx (f : FWord)
  /-- CASG (R216): Compare-and-swap on global memory. -/
  | casg (f : FWord)
  /-- CASL (R216): Compare-and-swap on scratch. -/
  | casl (f : FWord)
  /-- CASX (R216): Compare-and-swap on cluster scratch. -/
  | casx (f : FWord)
  /-- FENCE_FULL (R221): Full fence at a scope, ordering earlier stores before later loads. -/
  | fenceFull (f : FWord)
  /-- FENCE_ACQ (R221): Makes earlier loads and atomics acquires at the scope. -/
  | fenceAcq (f : FWord)
  /-- FENCE_REL (R221): Makes later stores and atomics releases of earlier accesses at the scope. -/
  | fenceRel (f : FWord)
  /-- CINV_L1 (R222): Invalidates every L1 line of the issuing owner on the core. -/
  | cinvL1 (f : FWord)
  /-- CINV_LINE (R222): Invalidates the L1 line holding an address. -/
  | cinvLine (f : MWord)
  /-- CINV_CODE (R222): Invalidates the owner's fetched instruction words on the core. -/
  | cinvCode (f : FWord)
  /-- MONARM (R223): Arms the thread's monitor on a 128-byte line at its home slice. -/
  | monarm (f : MWord)
  /-- MONWAIT (R223): Waits until the armed line is written, a time limit passes or the monitor is lost. -/
  | monwait (f : FWord)
  /-- TILEDEF (R147): Checks a tile geometry and creates a tile descriptor. -/
  | tiledef (f : FWord)
  /-- TILEFREE (R150): Clears an empty or ready tile descriptor with no hold. -/
  | tilefree (f : FWord)
  /-- TILEST (R150): Reads a tile descriptor's state and tags. -/
  | tilest (f : FWord)
  /-- TILESET_FILL (R148): Moves an empty tile to filling and sets ftag. -/
  | tilesetFill (f : FWord)
  /-- TILESET_READY (R148): Moves a filling tile to ready as a team-scope release. -/
  | tilesetReady (f : FWord)
  /-- TILESET_DRAIN (R148): Moves a ready tile to draining and sets dtag, waiting for hold 0. -/
  | tilesetDrain (f : FWord)
  /-- TILESET_EMPTY (R148): Moves a ready or draining tile to empty, waiting for hold 0. -/
  | tilesetEmpty (f : FWord)
  /-- TILESET_REARM (R148): Moves a draining tile back to ready. -/
  | tilesetRearm (f : FWord)
  /-- PERMB (R152): Builds permutation table entries by stably sorting SL4 codes. -/
  | permb (f : PermWord)
  /-- PERMLD (R153): Copies scratch into permutation table entries. -/
  | permld (f : PermWord)
  /-- PERMST (R153): Copies permutation table entries into scratch. -/
  | permst (f : PermWord)
  /-- PATLD (R155): Loads a crossbar pattern table from scratch and tags it with the owner. -/
  | patld (f : FWord)
  /-- PATRD (R155): Reads one crossbar pattern table entry. -/
  | patrd (f : FWord)
  /-- CBLD (R156): Copies 2 KiB of scratch into a VQ codebook and tags it with the owner. -/
  | cbld (f : FWord)
  /-- LSCFG (R157): Requests new modes for local-store banks, changing those whose conditions hold. -/
  | lscfg (f : FWord)
  /-- LSST (R158): Reads the local-store bank configuration. -/
  | lsst (f : FWord)
  /-- MLDA (R254): Loads a tile register, its format tag and scales from a ready scratch tile. -/
  | mlda (z : ZWord)
  /-- MMA (R255): Accumulates a dense tile product into accumulator memory by DotChunks. -/
  | mma (z : ZWord)
  /-- MMA_CONV (R256): Accumulates a dense INT8 product whose B operand is gathered from an image by a convolution descriptor. -/
  | mmaConv (z : ZWord)
  /-- MMAS (R257): Computes a sorted-level product into a running-sum register. -/
  | mmas (z : ZWord)
  /-- MZFLUSH (R259): Folds a running-sum register into accumulator memory with one rounding. -/
  | mzflush (z : ZWord)
  /-- MZCLR (R259): Clears a running-sum register and its state. -/
  | mzclr (z : ZWord)
  /-- MCVT (R261): Converts and scales an accumulator tile into a scratch tile of a narrow format. -/
  | mcvt (z : ZWord)
  /-- MSTORE (R260): Drains half an accumulator tile as FP32 into a scratch tile. -/
  | mstore (z : ZWord)
  /-- MZERO (R259): Sets every element of an accumulator tile to +0. -/
  | mzero (z : ZWord)
  /-- MBAR_ARR (R262): Makes one sequencer arrival at a hardware barrier after earlier words complete. -/
  | mbarArr (z : ZWord)
  /-- MBAR_WAIT (R262): Holds the stream until a barrier's phase bit differs from ph. -/
  | mbarWait (z : ZWord)
  /-- MWAITT (R263): Holds the stream until a tile is in the named state. -/
  | mwaitt (z : ZWord)
  /-- MFENCE (R263): Holds the stream until every earlier matrix word has completed. -/
  | mfence (z : ZWord)
  /-- MEND (R263): Ends the matrix stream. -/
  | mend (z : ZWord)
  /-- CPYQ (R293): Claims a copy-queue slot, fills origin fields and submits a packet from uniform registers. -/
  | cpyq (f : FWord)
  /-- QSTAT (R294): Long-latency read of a field of a copy queue's control block. -/
  | qstat (f : FWord)
  /-- PUSHQ (R306): Pushes an item from scratch into the next stage's input queue, waiting while it is full. -/
  | pushq (f : FWord)
  /-- POPQ (R307): Takes the next item of the team's input queue into scratch, or reports empty or closed. -/
  | popq (f : FWord)
  /-- QCLOSE_OUT (R308): Closes the input queue of the next stage. -/
  | qcloseOut (f : FWord)
  /-- QCLOSE_LAUNCH (R308): Closes stage 0's input of an open launch. -/
  | qcloseLaunch (f : FWord)
  /-- LAUNCH (R309): Adds one child item per active thread to an open launch's stage 0. -/
  | launch (f : FWord)
  /-- LAUNCH_U (R309): Adds one child item per run to an open launch's stage 0. -/
  | launchU (f : FWord)
  /-- SVC_S (R319): Posts service requests into the owner's service ring and continues. -/
  | svcS (f : FWord)
  /-- SVC_P (R319): Posts service requests and parks the threads until their reply stamps arrive. -/
  | svcP (f : FWord)
  /-- BARINIT (R342): Sets a hardware barrier's expected count and resets its phase state. -/
  | barinit (f : FWord)
  /-- BARARR_ARR (R342): Makes an arrival at a hardware barrier as a team-scope release. -/
  | bararrArr (f : FWord)
  /-- BARARR_TX (R342): Makes an arrival carrying a transaction byte count. -/
  | bararrTx (f : FWord)
  /-- BARARR_CPL (R342): Credits transaction bytes to a hardware barrier. -/
  | bararrCpl (f : FWord)
  /-- BARWAIT (R342): Continues if the phase differs from the parity, otherwise waits for completion. -/
  | barwait (f : FWord)
  /-- BARTEST_PH (R342): Tests whether a barrier's phase differs from a parity. -/
  | bartestPh (f : FWord)
  /-- BARTEST_ST (R342): Reads a barrier's state bits. -/
  | bartestSt (f : FWord)
  /-- CBARINIT (R345): Sets a cluster barrier's expected count. -/
  | cbarinit (f : FWord)
  /-- CBARARR (R345): Makes an arrival at a cluster barrier as a cluster-scope release. -/
  | cbararr (f : FWord)
  /-- CBARWAIT (R345): Waits for a cluster barrier phase. -/
  | cbarwait (f : FWord)
  /-- WAITC (R338): Waits until a class's outstanding count is at most a threshold, then acquires at device scope. -/
  | waitc (f : FWord)
  /-- RDCNT (R346): Reads a counter chosen by selector. -/
  | rdcnt (f : FWord)
  /-- CLRCNT (R347): Returns and atomically clears a group counter. -/
  | clrcnt (f : FWord)
  /-- TLBW (R177): Checks and installs a translation entry, removing overlapping ones. -/
  | tlbw (f : FWord)
  /-- TLBINV (R178): Removes the owner's translation entries on the cores its scope names. -/
  | tlbinv (f : FWord)
  /-- WALKRD (R179): Hands claimable miss records to handler threads. -/
  | walkrd (f : FWord)
  /-- TRET_RETRY (R180): Releases a record so that its waiters retry, as a device-scope release. -/
  | tretRetry (f : FWord)
  /-- TRET_EXIT (R180): Releases a record so that its waiters exit. -/
  | tretExit (f : FWord)
  /-- FPOP (R181): Atomically pops a frame from the owner's pool. -/
  | fpop (f : FWord)
  /-- FPUSH (R181): Atomically pushes a frame onto the owner's pool. -/
  | fpush (f : FWord)
  /-- OWNHALT (R182): Halts the issuing owner with cause SELF and a code. -/
  | ownhalt (f : FWord)
  /-- SEAL_OUT (R365): Writes a sealed context as an encrypted image to owner memory and frees its shadow space. -/
  | sealOut (f : FWord)
  /-- SEAL_IN (R365): Reads and verifies an evicted context image back into the shadow store. -/
  | sealIn (f : FWord)
  /-- SEAL_SIZE (R365): Gives the byte size of a context's image. -/
  | sealSize (f : FWord)
  /-- CLAUSE (R42): Clause header that waits on masked flags and assigns flags to the body's long-latency words. -/
  | clause (h : HWord)
  /-- REP (R49): Repeat prefix that checks register ranges and issues the next word count times with strided registers. -/
  | rep (p : RepPrefix) (body : DWord)
  /-- REP_REPETITION (R49): One repetition of a REP sequence, issued as its own issue of the run. -/
  | repRepetition (core gslot : Nat)
  /-- PAIR (R40): Issues a P-form word's two halves in one slot after reading all sources. -/
  | pair (h1 h0 : Half)
  /-- LONG_LATENCY_COMPLETE (R44): A long-latency operation writes its last destination, clears its flag and readies waiting threads. -/
  | longLatencyComplete (op : Nat)
  /-- QUANTUM_END (R128): qcnt reaches QUANT or no entry is ready, so lapped threads become ready. -/
  | quantumEnd (group : Nat)
  /-- BACKOFF_EXPIRE (R137): A backing-off thread's delay counter, ticked every 16 ac, reaches 0 and the thread becomes ready. -/
  | backoffExpire (thread : Nat)
  /-- GROUP_RETIRE (R136): A group whose threads have exited and operations completed retires and frees its slot and rows. -/
  | groupRetire (group : Nat)
  /-- COMPLETION_NOTIFY (R281): An engine's completion notification reaches the origin core and marks an outstanding entry complete. -/
  | completionNotify (note : Nat)
  /-- HANDLER_START (R172): The core starts an owner's handler group in an idle slot with an unclaimed record. -/
  | handlerStart (core owner depth : Nat)
  /-- WALK_WINDOW_END (R174): A 100 µs window ends, resetting handler issue budgets and counting exhausted windows. -/
  | walkWindowEnd (core : Nat)
  /-- SWAP_OUT (R183): A team or cluster waiting on a handler for PARKTH with no issue is sealed and released. -/
  | swapOut (core tslot : Nat)
  /-- DEF_REPLENISH (R304): With no ready owner holding positive deficit, every owner slot's deficit is raised by 256 × WT. -/
  | defReplenish (core : Nat)
  /-- TEAM_PLACE (R302): A distributor creates a team or cluster of an eligible stage on a suitable core. -/
  | teamPlace (launch stage : Nat) (seats : List Seat)
  /-- TEAM_REENTER (R303): A swapped-out or sealed team that is ready again is placed and restored. -/
  | teamReenter (ctx : Nat) (seats : List Seat)
  /-- STAGE_COMPLETE (R300): A stage's input is closed and empty with no team left, closing the next input. -/
  | stageComplete (launch stage : Nat)
  /-- STALL_ENLARGE (R311): An owner stalled for 4 800 ac has its smallest full queue enlarged by 64 entries. -/
  | stallEnlarge (owner : Nat)
  /-- COMMAND_START (R277): An engine reads a valid head slot of an idle queue as a system-scope acquire and starts it. -/
  | commandStart (q : Nat)
  /-- PACKET_COPY (R282): Copy command transferring row bytes unchanged. -/
  | packetCopy (q : Nat)
  /-- PACKET_GATHER (R283): Gather command taking level-1 source rows from an index list. -/
  | packetGather (q : Nat)
  /-- PACKET_QUANTISE (R284): Quantise command dividing elements by supplied scales and packing them. -/
  | packetQuantise (q : Nat)
  /-- PACKET_REDUCE_ADD (R285): Reduce-add command adding source elements into the destination atomically. -/
  | packetReduceAdd (q : Nat)
  /-- PACKET_SCRUB (R286): Scrub command correcting and rewriting lines and writing a poison bitmap. -/
  | packetScrub (q : Nat)
  /-- PACKET_MIGRATE (R287): Migrate command moving an extent between tiers in 4 KiB units. -/
  | packetMigrate (q : Nat)
  /-- PACKET_DECODE (R288): Decode command decoding a JPEG stream into patches. -/
  | packetDecode (q : Nat)
  /-- COPY_ITERATION (R280): One iteration of a command's loop nest, checked before its accesses. -/
  | copyIteration (q : Nat)
  /-- COMMAND_COMPLETE (R281): After the payload is performed, the engine writes the stamp, readies the tile, notifies, raises the event, clears the slot and advances rd. -/
  | commandComplete (q : Nat)
  /-- REDUCE_ADD_DELIVERY (R285): A tagged reduce-add delivery reaches the home slice and is applied once or dropped. -/
  | reduceAddDelivery (delivery : Nat)
  /-- QCB_RESUME (R290): ctl = 1 on a stopped queue rereads the slot and resumes at iv. -/
  | qcbResume (q : Nat)
  /-- QCB_ABANDON (R277): ctl = 2 on a stopped queue abandons the head command with a saturated stamp. -/
  | qcbAbandon (q : Nat)
  /-- ENGINE_RESET (R372): A copy engine resets, pausing its commands at iteration boundaries. -/
  | engineReset (engine : Nat)
  /-- ENGINE_RESET_END (R372): A copy engine leaves reset and resumes each command at its recorded iv. -/
  | engineResetEnd (engine : Nat)
  /-- PARKED_WAKE (R320): An on-core parked thread's reply stamp becomes nonzero and the thread becomes ready as a system-scope acquire. -/
  | parkedWake (thread : Nat)
  /-- COMET_FORM (R320): A group whose live threads are all parked writes its context to a park frame and frees its slot and rows. -/
  | cometForm (group frame : Nat)
  /-- COMET_REENTER (R321): A comet whose parked threads are all answered is restored into a free group slot. -/
  | cometReenter (comet gslot : Nat)
  /-- MONITOR_WAKE (R223): A write to the armed line is performed at the home slice, ending MONWAIT with status 1. -/
  | monitorWake (thread : Nat)
  /-- MONWAIT_TIMEOUT (R223): MONWAIT's time limit passes, ending the wait with status 2. -/
  | monwaitTimeout (thread : Nat)
  /-- MONITOR_LOST (R223): The monitor is lost, ending the wait with status 3. -/
  | monitorLost (thread : Nat)
  /-- DEBUG_HIT (R359): A performed access matches a debug comparator, raising DEBUG or setting pbk. -/
  | debugHit (hit : Nat)
  /-- OPERATION_ABANDON (R360): An operation not completed after WDLIM is abandoned and the thread faults with WATCHDOG. -/
  | operationAbandon (op : Nat) (writes : Bool)
  /-- SEAL_CONTEXT (R361): A partition's teams stop at word boundaries, drain and are saved into the shadow store. -/
  | sealContext (teams : List Nat)
  /-- RESTORE (R361): A sealed context is restored onto cores, recovering entries and raising pending DEBUG. -/
  | restore (ctx : Nat) (seats : List Seat)
  /-- PREEMPT (R364): The distributor pre-empts a team whose base die's shadow store has room. -/
  | preempt (core tslot : Nat)
  /-- SEAL_EVICT_REQUEST (R364): While SHUSED exceeds SHQ, a SEAL record asks the owner to evict its oldest context. -/
  | sealEvictRequest (owner : Nat)
  /-- SEAL_BRINGIN_REQUEST (R364): Choosing to place an evicted team raises a SEAL record asking for bring-in. -/
  | sealBringinRequest (ctx core : Nat)
  /-- OWNER_HALT (R367): An owner halts: issue stops, operations drain, queues halt, teams are sealed and OSTAT becomes halted. -/
  | ownerHalt (owner : Nat)
  /-- DRIVER_HALT (R366): The driver halts an owner with cause DRIVER. -/
  | driverHalt (owner : Nat)
  /-- OWNER_RESUME (R368): The driver resumes a halted owner, idling its queues and re-entering its teams. -/
  | ownerResume (owner : Nat)
  /-- OWNER_CREATE (R24): The driver creates an owner in a fixed world. -/
  | ownerCreate (owner world : Nat) (reserve : BitVec 128)
  /-- OWNER_DESTROY (R370): The driver destroys an owner, dropping its state and sweeping its allotment with zeros. -/
  | ownerDestroy (owner : Nat)
  /-- ERASURE_END (R370): The zero sweep of a destroyed owner ends and the erasure event is raised. -/
  | erasureEnd (owner : Nat)
  /-- WORLD_CHANGE (R369): A core's world latch changes after its teams are sealed and its storage is cleared. -/
  | worldChange (core world : Nat)
  /-- ALLOT_MAP_WRITE (R167): A service core checks and writes an allotment map change. -/
  | allotMapWrite (owner index : Nat) (entry : BitVec 128)
  /-- QBIND_WRITE (R274): A service core writes a copy-queue binding. -/
  | qbindWrite (q : Nat) (entry : BitVec 128)
  /-- SRING_WRITE (R315): A service core writes an owner's service ring entry. -/
  | sringWrite (owner : Nat) (entry : BitVec 128)
  /-- UMASK_WRITE (R191): A service core changes a slice's umbra way masks, sealing removed ways' lines. -/
  | umaskWrite (slice world : Nat) (ways : BitVec 16)
  /-- FWIN_WRITE (R196): A service core writes or clears a format window after draining its alias accesses. -/
  | fwinWrite (slice index : Nat) (entry : BitVec 256)
  /-- CLAIM_WRITE (R159): A service core writes an event claim entry. -/
  | claimWrite (source : Nat) (entry : BitVec 32)
  /-- DBG_WRITE (R359): The driver sets an owner's debug comparators. -/
  | dbgWrite (owner index : Nat) (cmp : Comparator)
  /-- OWNER_PARAM_WRITE (R174): The driver sets an owner or device parameter with no row of its own (LAPQ, QUANT, WALKBUDGET, PARKTH, WT, POOLMAX, OTC, SHQ, WDLIM, ERCAP, HRT, FABID). -/
  | ownerParamWrite (param : Param) (owner value : Nat)
  /-- DEVICE_COUNTER_CLEAR (R348): The driver clears a device counter through a service core. -/
  | deviceCounterClear (counter : DeviceCounter)
  /-- ATTEST_REPORT (R403): Limpor returns a signed attestation report for an owner and nonce. -/
  | attestReport (owner : Option Nat) (nonce : BitVec 256)
  /-- SC_EVENT_COMPLETE (R160): A service core completes an event, logging a handled record if the host claims it. -/
  | scEventComplete (event : Nat)
  /-- SC_EVENT_FORWARD (R160): A service core forwards an event to the host, or receives lost when h = 0. -/
  | scEventForward (event : Nat)
  /-- CLAIM_TIMER_EXPIRE (R160): The 20 µs timer of an event held by a service core expires. -/
  | claimTimerExpire (event : Nat)
  /-- HOST_EVENT_ACK (R160): The host acknowledges an event. -/
  | hostEventAck (event : Nat)
  /-- HOST_WINDOW_WRITE (R324): The host writes a command window, discarded when the owner is absent or before ready. -/
  | hostWindowWrite (offset : Nat) (data : List Byte)
  /-- HOST_LAUNCH_RECORD (R327): A host launch record is accepted and its descriptor checked under R298. -/
  | hostLaunchRecord (owner : Nat)
  /-- HOST_ITEMS_RECORD (R327): A host items record pushes items into an open launch's stage 0, waiting while full. -/
  | hostItemsRecord (owner : Nat)
  /-- HOST_CLOSE_RECORD (R327): A host close record closes stage 0's input of an open launch. -/
  | hostCloseRecord (owner : Nat)
  /-- HOST_MEM_READ (R241): A host CXL.mem read that misses its caches is performed at the home slice. -/
  | hostMemRead (dpa : Nat)
  /-- HOST_MEM_WRITE (R241): A host write-back or snoop response is performed at the home slice; with expected bytes, that of a host compare-and-swap (R276). -/
  | hostMemWrite (dpa : Nat) (data : HostStore)
  /-- BACK_INVALIDATE_COMPLETE (R242): A back-invalidate snoop of a host copy completes. -/
  | backInvalidateComplete (line : Nat)
  /-- PEER_ACCESS (R240): An access from a peer device is performed at this device's home slice. -/
  | peerAccess (peer : Nat) (access : PeerRequest)
  /-- SWITCH_RELEASE_ACK (R239): A switch acknowledges a source's release once its counted stores are acknowledged. -/
  | switchReleaseAck (switch source : Nat)
  /-- LINK_REPLAY (R404): A flit failing its CRC is replayed and counted once. -/
  | linkReplay (link owner : Nat)
  /-- LINK_RETRAIN (R404): A link seeing 64 replays within 1 ms retrains and raises its event. -/
  | linkRetrain (link : Nat)
  /-- LINK_DOWN (R404): A link failing to retrain within 1 ms is taken down. -/
  | linkDown (link : Nat)
  /-- EXPANDER_DOWN (R371): An expander port goes down and raises its event. -/
  | expanderDown (port : Nat)
  /-- HOST_LINK_RETRAIN (R371): The host link retrains and raises its event. -/
  | hostLinkRetrain
  /-- HBM_RATE_SWITCH (R200): A service core moves an HBM4E channel between data-rate points in paused steps. -/
  | hbmRateSwitch (channel : Nat) (rate : DataRate)
  /-- ROW_HAMMER_LIMIT (R201): A row reaching HRT activations triggers refresh management and limits the causing owners. -/
  | rowHammerLimit (row : Nat) (counts : List (Nat × Nat))
  /-- ROW_REFRESH (R201): A row refresh resets its activation counts and lifts the limits. -/
  | rowRefresh (row : Nat)
  /-- HBM_CHANNEL_RESET (R372): An HBM4E channel controller resets with its stack in self-refresh and reissues requests. -/
  | hbmChannelReset (channel : Nat)
  /-- SERVICE_CORE_RESET (R372): A service core resets and reloads its verified image. -/
  | serviceCoreReset (sc : Nat)
  /-- CORE_WATCHDOG (R372): A core with a ready entry but no issue for 10 ms is sealed, reset and restored. -/
  | coreWatchdog (core : Nat)
  /-- TC0_SHARE_WINDOW (R328): A 1 µs window ends and held TC0 requests beyond the share proceed. -/
  | tc0ShareWindow
  /-- THERMAL_STEP_DOWN (R399): A base die reaching 95 or 102 °C steps its channels down. -/
  | thermalStepDown (die celsius : Nat)
  /-- THERMAL_STEP_UP (R399): After 10 ms below 90 °C the channels step up one point. -/
  | thermalStepUp (die celsius : Nat)
  /-- THERMAL_TRIP (R399): A die reaching 110 °C stops issue and removes power from its arrays. -/
  | thermalTrip (die celsius : Nat)
  /-- POWER_GOOD (R400): The rail rises and the device verifies firmware, trains memory and links and sets ready. -/
  | powerGood
  /-- POWER_LOSS (R398): The rail falls below 48 V and every array loses its contents. -/
  | powerLoss
  /-- MATRIX_WORD_COMPLETE (R249): A matrix word that has occupied its unit finishes: it lowers the hold of the tiles it read, applies its counter increments, and for MSTORE or MCVT makes the tile's final transition. -/
  | matrixWordComplete (core : Nat)
  /-- STORE_PERFORMED (R214): A posted store or reduction is performed at its point of coherence and its write acknowledgement returns to the issuing core. -/
  | storePerformed (op : Nat)
  /-- SERVICE_CORE_ACCESS (R316): A service core, acting as an agent, reads or writes device memory, for example to answer a service call by writing reply words, a stamp or rd. -/
  | serviceCoreAccess (sc : Nat) (access : PeerAccess)
  /-- LINK_RETRAINED (R404): A Crady link completes its retraining within 1 ms and returns to the up state. -/
  | linkRetrained (link : Nat)
  /-- RECOVERY_WINDOW_WRITE (R400): In recovery, the driver writes a new firmware image to flash through the recovery window. -/
  | recoveryWindowWrite (image : Firmware)
deriving DecidableEq, Repr

/-- A word of the shadow store that holds none of a team's register rows, predicates, scratch, accumulator memory, tile registers, running sums,
barriers and records (R202, R362): of a thread its PC, SPILLBASE, SPILLTOP, half of its FREC, or the rest of its state with its entry of the
Orrery; of a group ORBIT, the counters, or the outstanding entries; of a team a tile descriptor, a cluster barrier entry, a quarter of an entry
of permutation table memory, or a word of its stream's state (0 the next word's address, 1 its index, 2 and 3 eight of MTAG, 4 PSRC) and
eight bytes of the exponents of its running sums (log 44, DESIGN CHOICE). -/
inductive SavedItem
  | pc (lane : Nat) | spillbase (lane : Nat) | spilltop (lane : Nat) | frec (lane : Nat) (high : Bool) | entry (lane : Nat)
  | orbit | counters | opc
  | tile (index : Nat) | cbar (index : Nat) | perm (entry quarter : Nat) | stream (word : Nat) | zew (i : Nat) | zea (i : Nat)
deriving DecidableEq, Repr, Inhabited

/-- Where an error of the storage arrays strikes (R202): an 8-byte word of device memory or of a team's scratch, a word of an L1
line by its place in the list, a register row, two elements of accumulator memory, eight bytes of a tile register, a running
sum, a uniform register row, eight bytes of an item in a FIFO bank, a transfer on an expander port, eight bytes of the host
command windows, or a word of the shadow store. -/
inductive ErrorSite
  | memory (word : Nat)
  | scratch (team word : Nat)
  | l1 (core place word : Nat)
  | row (thread row : Nat)
  | acc (team pair : Nat)
  | tileReg (team unit : Nat)
  | sums (team i : Nat)
  | shadow (ctx uid lane row : Nat)
  | uniRow (group row : Nat)
  | fifo (launch stage item word : Nat)
  | shadowScratch (ctx uid word : Nat)
  | shadowAcc (ctx uid pair : Nat)
  | shadowTile (ctx uid unit : Nat)
  | shadowSums (ctx uid i : Nat)
  | shadowUni (ctx uid row : Nat)
  | shadowPreds (ctx uid lane : Nat)
  | shadowScales (ctx uid unit : Nat)
  | shadowBar (ctx uid bar : Nat)
  | shadowRec (ctx i : Nat)
  | shadowItem (ctx uid : Nat) (item : SavedItem)
  | scales (team unit : Nat)
  | cxl (port : Nat)
  | window (word : Nat)
deriving DecidableEq, Repr, Inhabited

/-- What the machine does next, where the spec leaves the order of its agents open (R380). `issue` lets a group slot of a
core issue, `sequence` lets a core's matrix sequencer issue, `tick` lets ac pass (R93), `reachL1` lets a posted store update
a hit L1 line before it is performed (R189, R227), the drops remove what may be dropped at any time (R164, R189, R191, R54), `fetchAhead` reads a word of code before a fetch needs it and `turnCode` says which of the words
held of an address a fetch returns (R54),
`perform` performs a long-latency operation whose rows `landRow` then writes one by one (R45), `farFail` is the failure of
every retry of a far-tier access (R199), `matRead` reads a scratch location for the sequencer's next word, or for one so many words later, before its other reads
and `matWrite` performs one scratch write of a matrix word in flight (R265), `engineRead` and `engineWrite` do the same for a copy command's
payload, in a team's scratch or in device memory (R238), `matAhead` performs one scratch write of a word that comes so many words after the
sequencer's next one (R265), `engineAhead` makes the iteration that comes so many after a command's next one (R238), `ackSent` is the acknowledgement of a write that has left the device (R239), `error` is an error of the arrays, met by an owner's access or by the device's own
(R202), `event` is an event of the table, `bringUp` ends the device's coming up (R400), and `withFailure` is a choice during which every retry of each access to a port's expander
fails (R199). -/
inductive Choice
  | issue (core gslot : Nat)
  | sequence (core : Nat)
  | tick (ac : Nat)
  | reachL1 (op : Nat)
  | dropL1 (core line : Nat)
  | dropTlb (core owner page : Nat)
  | dropCode (core dpa : Nat)
  | fetchAhead (core gslot word : Nat)
  | turnCode (core i : Nat)
  | dropL2 (line : Nat)
  | perform (op : Nat)
  | landRow (op row : Nat)
  | farFail (op : Nat)
  | matRead (core ahead word : Nat)
  | matWrite (core op write : Nat)
  | matDone (core op : Nat)
  | matAhead (core ahead write : Nat)
  | engineAhead (queue ahead : Nat)
  | bringUp
  | engineRead (queue : Nat) (team : Option Nat) (word : Nat)
  | engineWrite (queue write : Nat)
  | addElem (delivery elem : Nat)
  | ackSent (i : Nat)
  | error (site : ErrorSite) (corrected : Bool) (owner : Option Nat)
  | event (i : Instr)
  | withFailure (port : Nat) (c : Choice)
deriving DecidableEq, Repr, Inhabited

end Sys2Proof
end

