-- ==== Sys2Proof/Config.lean ====
section
/-! DEFINITION. The free values: what the manual leaves open and what only Limpor or a standard outside the manual fixes.
None has a body, so nothing can be proved of its value. -/

namespace Sys2Proof.Config

/-- The next move of the machine when the tape of `State` is empty: applied to the counter `State.draws` (R380, log 2, DESIGN CHOICE). -/
opaque choice : Nat → Choice

/-- AES-256-XTS of one 16-byte block: world key (its generation), line DPA[45:7] and block of the line (R192, log 12, PRESUMED). -/
opaque xts : Nat → Nat → Nat → Equiv.Perm (BitVec 128)

/-- AES-256-GCM of an evicted context: image key generation, context identifier and eviction count (R365, log 13, DESIGN CHOICE). -/
opaque imageByte : Nat → Nat → Nat → Nat → Byte

/-- The bytes of the image of a context: the layout of a context in its image is not stated (R365, log 13, DESIGN CHOICE). -/
opaque imageSize : Nat → Nat

/-- The bytes that a park frame holds while a comet occupies it (R320, log 14, DESIGN CHOICE). -/
opaque frameByte : Nat → Nat → Byte

/-- SHA-512 (R401, R403, log 15, PRESUMED). -/
opaque sha512 : List Byte → BitVec 512

/-- Ed25519 verification: public key, message digest, signature (R401, log 15, PRESUMED). -/
opaque ed25519Verify : BitVec 256 → BitVec 512 → BitVec 512 → Bool

/-- The device identity key's Ed25519 signature (R402, R403, log 15, PRESUMED). -/
opaque identitySign : BitVec 512 → BitVec 512

/-- The key digest fused at manufacture (R401, log 15, PRESUMED). -/
opaque fusedKeyDigest : BitVec 512

/-- The rollback counter's value at manufacture (R401, log 15, PRESUMED). -/
opaque fusedRollback : Nat

/-- Registers that a comet restores from a park frame that some agent has written (R320, log 14, DESIGN CHOICE). -/
opaque frameWord : Nat → Nat → Word

/-- Whether a wait on a monitor ends with status 3, which may be returned at any moment (R223, log 16, DESIGN CHOICE). -/
opaque monitorLost : Nat → Bool

/-- A byte that an engine reads from a peer's or the host's memory: draw and address (R279, log 22, DESIGN CHOICE). -/
opaque outsideByte : Nat → Nat → Byte

/-- Whether an engine's access to a peer or to host space fails after its retries (R289, log 22, DESIGN CHOICE). -/
opaque outsideFails : Nat → Bool

/-- The address that a queue records when it stops with cause ILLOP (R275, R289, log 23, DESIGN CHOICE). -/
opaque stopAddress : Nat → Nat

/-- The bytes of far memory installed behind FX0 and FX1 (R199, log 24, DESIGN CHOICE). -/
opaque farInstalled : Nat → Nat

/-- What a performance counter gains while ac pass, where timing alone decides it: counter, core, owner and the clock (R349, log 29,
DESIGN CHOICE). -/
opaque perfGain : Nat → Nat → Nat → Nat → Nat

/-- Which of the free ways of its set a new L1 line takes (R188, log 51, DESIGN CHOICE). -/
opaque l1Way : Nat → Nat

/-- The ac after which an entry of a table that is being rewritten holds what was written: the write and the entry (R118, R145, log 52,
DESIGN CHOICE). -/
opaque entryDelay : Nat → Nat → Nat

/-- The ac that the change of one bank takes within an LSCFG: the write and the bank (R157, R158, log 52, DESIGN CHOICE). -/
opaque bankDelay : Nat → Nat → Nat

/-- Whether a FIFO bank of a core holds items when LSCFG tests it: draw and bank (R157, R299, log 59, DESIGN CHOICE). -/
opaque fifoHolds : Nat → Nat → Bool

/-- The set of an L2 slice that a line belongs to, and the way of its set that it takes (R191, log 53, DESIGN CHOICE). -/
opaque l2Set : Nat → Nat
/-- See `l2Set`. -/
opaque l2Way : Nat → Nat

/-- The HBM4E row that a DPA lies in, by bank (R201, log 69, DESIGN CHOICE). -/
opaque hbmRow : Nat → Nat

/-- Whether a request that reaches an HBM4E row activates it (R201, log 69, DESIGN CHOICE). -/
opaque activates : Nat → Bool

/-- Whether a Crady link has trained when the device comes up, and whether an expander port has (R400, log 70, DESIGN CHOICE). -/
opaque linkTrains : Nat → Bool
/-- See `linkTrains`. -/
opaque portTrains : Nat → Bool

/-- The FABID of the peer behind a Crady link (R404, log 22, DESIGN CHOICE). -/
opaque peerFabid : Nat → Nat

/-- The device identity key's public half, and the bytes of its certificate (R402, log 71, DESIGN CHOICE). -/
opaque identityPublic : BitVec 256
/-- See `identityPublic`. -/
opaque identityCertificate : List Byte

/-- Whether a command that pauses or halts was within its last iteration, which it then makes again (R238, log 66, DESIGN CHOICE). -/
opaque iterationRepeated : Nat → Bool

end Sys2Proof.Config
end

