-- ==== Sys2Proof/Machine/Numbers.lean ====
section
/-! DEFINITION. The number formats, decoding, rounding and the exact sums of "Numbers" (R56..R83). -/

namespace Sys2Proof.Machine

/-- A decoded value (R56): `exact0` is a real zero that carries no sign; `fin m e` is m × 2^e with m ≠ 0. -/
inductive Val
  | nan
  | inf (neg : Bool)
  | zero (neg : Bool)
  | exact0
  | fin (m : Int) (e : Int)
deriving DecidableEq, Repr

/-- The binary floating-point formats of R57, and the E12 format of R106. -/
inductive Fmt
  | fp32 | bf16 | fp16 | e5m2 | e4m3 | e3m2 | e2m3 | e2m1 | e12
deriving DecidableEq, Repr

/-- The rounding modes of R34. -/
inductive Rm
  | rn | rz | ru | rd | ra
deriving DecidableEq, Repr

/-- The rounding mode of an sc field (R34). -/
def Rm.ofCode (c : Nat) : Option Rm :=
  match c with
  | 0 => some .rn
  | 1 => some .rz
  | 2 => some .ru
  | 3 => some .rd
  | 4 => some .ra
  | _ => none

/-- Exponent bits (R57). -/
def Fmt.expBits : Fmt → Nat
  | .fp32 => 8 | .bf16 => 8 | .fp16 => 5 | .e5m2 => 5 | .e4m3 => 4 | .e3m2 => 3 | .e2m3 => 2 | .e2m1 => 2 | .e12 => 8

/-- Mantissa bits (R57, R106). -/
def Fmt.mant : Fmt → Nat
  | .fp32 => 23 | .bf16 => 7 | .fp16 => 10 | .e5m2 => 2 | .e4m3 => 3 | .e3m2 => 2 | .e2m3 => 3 | .e2m1 => 1 | .e12 => 11

/-- Exponent bias (R57). -/
def Fmt.bias : Fmt → Nat
  | .fp32 => 127 | .bf16 => 127 | .fp16 => 15 | .e5m2 => 15 | .e4m3 => 7 | .e3m2 => 3 | .e2m3 => 1 | .e2m1 => 1
  | .e12 => 127

/-- Whether the format has infinities (R57). -/
def Fmt.hasInf : Fmt → Bool
  | .fp32 => true | .bf16 => true | .fp16 => true | .e5m2 => true | .e12 => true
  | .e4m3 => false | .e3m2 => false | .e2m3 => false | .e2m1 => false

/-- The code of the largest finite magnitude (R57). -/
def Fmt.maxCode : Fmt → Nat
  | .fp32 => 0x7F7FFFFF | .bf16 => 0x7F7F | .fp16 => 0x7BFF | .e5m2 => 0x7B | .e4m3 => 0x7E
  | .e3m2 => 0x1F | .e2m3 => 0x1F | .e2m1 => 0x7 | .e12 => 0x7F7FF

/-- NaNResult (R57, R76): the canonical NaN, or +0 where the format has none. -/
def Fmt.nanCode : Fmt → Nat
  | .fp32 => 0x7FC00000 | .bf16 => 0x7FC0 | .fp16 => 0x7E00 | .e5m2 => 0x7E | .e4m3 => 0x7F
  | .e3m2 => 0 | .e2m3 => 0 | .e2m1 => 0 | .e12 => 0x7FC00

/-- The bits of a format below its sign. -/
def Fmt.magBits (f : Fmt) : Nat := f.expBits + f.mant

/-- The magnitude of the infinity code. -/
def Fmt.infCode (f : Fmt) : Nat := (2 ^ f.expBits - 1) * 2 ^ f.mant

/-- A sign and a magnitude code as one code. -/
def Fmt.pack (f : Fmt) (neg : Bool) (mag : Nat) : Nat := (if neg then 2 ^ f.magBits else 0) + mag

/-- Whether a magnitude code is a NaN code (R57). -/
def Fmt.isNanMag (f : Fmt) (mag : Nat) : Bool :=
  match f with
  | .e4m3 => mag == 0x7F
  | .e3m2 => false
  | .e2m3 => false
  | .e2m1 => false
  | _ => f.infCode < mag

/-- The decoded value of a code (R57, R58). -/
def Fmt.decode (f : Fmt) (code : Nat) : Val :=
  let mag := code % 2 ^ f.magBits
  let neg := (code / 2 ^ f.magBits) % 2 == 1
  let ex := mag / 2 ^ f.mant
  let m := mag % 2 ^ f.mant
  if f.isNanMag mag then .nan
  else if f.hasInf && mag == f.infCode then .inf neg
  else if mag == 0 then .zero neg
  else
    let sig := if ex == 0 then m else 2 ^ f.mant + m
    let e : Int := (if ex == 0 then 1 else (ex : Int)) - f.bias - f.mant
    .fin (if neg then -(sig : Int) else sig) e

/-- The sign of a value; NaN and a real zero count as positive. -/
def Val.neg : Val → Bool
  | .nan => false
  | .inf n => n
  | .zero n => n
  | .exact0 => false
  | .fin m _ => m < 0

/-- The value with its sign changed. -/
def Val.negate : Val → Val
  | .nan => .nan
  | .inf n => .inf (!n)
  | .zero n => .zero (!n)
  | .exact0 => .exact0
  | .fin m e => .fin (-m) e

/-- Whether a value is NaN. -/
def Val.isNan : Val → Bool
  | .nan => true
  | _ => false

/-- Whether a value is NaN or an infinity. -/
def Val.nonFinite : Val → Bool
  | .nan => true
  | .inf _ => true
  | _ => false

/-- Whether a value is a zero of any kind. -/
def Val.isZero : Val → Bool
  | .zero _ => true
  | .exact0 => true
  | _ => false

/-- An integer as a value; 0 is +0 (R79). -/
def Val.ofInt (v : Int) : Val := if v = 0 then .zero false else .fin v 0

/-- m × 2^e as an exact sum: a real zero where m = 0. -/
def Val.exact (m e : Int) : Val := if m = 0 then .exact0 else .fin m e

/-- 2^n times a value, exactly. -/
def Val.scale (n : Int) : Val → Val
  | .fin m e => .fin m (e + n)
  | v => v

/-- The exact sum m1 × 2^e1 + m2 × 2^e2, as a mantissa and an exponent. -/
def dyAdd (m1 e1 m2 e2 : Int) : Int × Int :=
  if e1 ≤ e2 then (m1 + m2 * 2 ^ (e2 - e1).toNat, e1) else (m1 * 2 ^ (e1 - e2).toNat + m2, e2)

/-- The product of two decoded values: ScaleMul of R80, with the zero signs of R79. -/
def mulVal (a b : Val) : Val :=
  match a, b with
  | .nan, _ => .nan
  | _, .nan => .nan
  | .inf s, y => if y.isZero then .nan else .inf (s != y.neg)
  | x, .inf s => if x.isZero then .nan else .inf (x.neg != s)
  | .exact0, _ => .exact0
  | _, .exact0 => .exact0
  | .zero s, y => .zero (s != y.neg)
  | x, .zero s => .zero (x.neg != s)
  | .fin m1 e1, .fin m2 e2 => .fin (m1 * m2) (e1 + e2)

/-- The exact sum of two decoded values under a rounding mode, which decides the sign of a zero sum (R79). -/
def addVal (rm : Rm) (a b : Val) : Val :=
  match a, b with
  | .nan, _ => .nan
  | _, .nan => .nan
  | .inf s, .inf t => if s = t then .inf s else .nan
  | .inf s, _ => .inf s
  | _, .inf s => .inf s
  | .exact0, y => y
  | x, .exact0 => x
  | .zero s, .zero t => if s = t then .zero s else .zero (rm == .rd)
  | .zero _, y => y
  | x, .zero _ => x
  | .fin m1 e1, .fin m2 e2 =>
    let r := dyAdd m1 e1 m2 e2
    if r.1 = 0 then .zero (rm == .rd) else .fin r.1 r.2

/-- Whether x < y; NaN is never less; the two zeros are equal. -/
def Val.lt (x y : Val) : Bool :=
  match x, y with
  | .nan, _ => false
  | _, .nan => false
  | .inf s, .inf t => s && !t
  | .inf s, _ => s
  | _, .inf t => !t
  | x, y =>
    let mx := match x with | .fin m e => (m, e) | _ => ((0 : Int), (0 : Int))
    let my := match y with | .fin m e => (m, e) | _ => ((0 : Int), (0 : Int))
    (dyAdd mx.1 mx.2 (-my.1) my.2).1 < 0

/-- Whether two values are equal as numbers: −0 equals +0, NaN equals nothing (R100). -/
def Val.numEq (x y : Val) : Bool := !x.isNan && !y.isNan && !(x.lt y) && !(y.lt x)

/-- The order of FMIN and FMAX: as `lt`, with −0 below +0 (R105). -/
def Val.ltTotal (x y : Val) : Bool := x.lt y || (x.isZero && y.isZero && x.neg && !y.neg)

/-- The integer that N/D (D > 0) rounds to in magnitude, for a value of the sign `neg` (R74, R78). -/
def roundRatio (neg : Bool) (N D : Nat) (rm : Rm) : Nat :=
  let lo := N / D
  let r := N % D
  let up := match rm with
    | .rn => D < 2 * r || (D == 2 * r && lo % 2 == 1)
    | .ra => D ≤ 2 * r
    | .rz => false
    | .ru => !neg
    | .rd => neg
  if r == 0 then lo else if up then lo + 1 else lo

/-- ⌊log2 (n / d)⌋ for positive n and d. -/
def floorLog2Ratio (n d : Nat) : Int :=
  let l : Int := (Nat.log2 n : Int) - Nat.log2 d
  let ge := if 0 ≤ l then d * 2 ^ l.toNat ≤ n else d ≤ n * 2 ^ (-l).toNat
  if ge then l else l - 1

/-- Overflow (R75): the code for a sign, a format and a rounding mode. -/
def overflowCode (neg : Bool) (f : Fmt) (rm : Rm) : Nat :=
  if f.hasInf then
    match rm with
    | .rn => f.pack neg f.infCode
    | .ra => f.pack neg f.infCode
    | .rz => f.pack neg f.maxCode
    | .ru => if neg then f.pack true f.maxCode else f.pack false f.infCode
    | .rd => if neg then f.pack true f.infCode else f.pack false f.maxCode
  else f.pack neg f.maxCode

/-- The magnitude code, not yet tested for overflow, of n/d × 2^e with n, d > 0 (R74). -/
def roundMag (neg : Bool) (n d : Nat) (e : Int) (f : Fmt) (rm : Rm) : Nat :=
  let qmin : Int := 1 - f.bias - f.mant
  let q : Int := max (floorLog2Ratio n d + e) (1 - f.bias) - f.mant
  let k := e - q
  let y := if 0 ≤ k then roundRatio neg (n * 2 ^ k.toNat) d rm else roundRatio neg n (d * 2 ^ (-k).toNat) rm
  (q - qmin).toNat * 2 ^ f.mant + y

/-- The code of n/d × 2^e with n, d > 0 (R74). -/
def roundRat (neg : Bool) (n d : Nat) (e : Int) (f : Fmt) (rm : Rm) : Nat :=
  let mag := roundMag neg n d e f rm
  if f.maxCode < mag then overflowCode neg f rm else f.pack neg mag

/-- Round (R74). A real zero rounds as the zero that R79 gives an exact sum of zero. -/
def round (x : Val) (f : Fmt) (rm : Rm) : Nat :=
  match x with
  | .nan => f.nanCode
  | .inf s => overflowCode s f rm
  | .zero s => f.pack s 0
  | .exact0 => f.pack (rm == .rd) 0
  | .fin m e => roundRat (m < 0) m.natAbs 1 e f rm

/-- Whether rounding overflows, an infinity counting as overflow (R75, R76, R261). -/
def overflows (x : Val) (f : Fmt) (rm : Rm) : Bool :=
  match x with
  | .inf _ => true
  | .fin m e => f.maxCode < roundMag (m < 0) m.natAbs 1 e f rm
  | _ => false

/-- SatRound (R76). -/
def satRound (x : Val) (f : Fmt) (rm : Rm) : Nat :=
  if overflows x f rm then f.pack x.neg f.maxCode else round x f rm

/-- RoundInt of a value (R78); zeros give 0. NaN and infinities have no integer and give 0; callers treat them first. -/
def roundInt (x : Val) (rm : Rm) : Int :=
  match x with
  | .fin m e =>
    let neg := m < 0
    let a := if 0 ≤ e then roundRatio neg (m.natAbs * 2 ^ e.toNat) 1 rm else roundRatio neg m.natAbs (2 ^ (-e).toNat) rm
    if neg then -(a : Int) else a
  | _ => 0

/-- SatS_n (R78). -/
def satS (n : Nat) (v : Int) : Int := max (-(2 : Int) ^ (n - 1)) (min v (2 ^ (n - 1) - 1))

/-- SatN_n (R78). -/
def satN (n : Nat) (v : Int) : Int := max 0 (min v (2 ^ n - 1))

/-- ToInt (R78). -/
def toInt (x : Val) (n : Nat) (signed : Bool) (rm : Rm) : Int :=
  match x with
  | .nan => 0
  | .inf s =>
    if signed then (if s then -(2 : Int) ^ (n - 1) else 2 ^ (n - 1) - 1) else (if s then 0 else 2 ^ n - 1)
  | x => if signed then satS n (roundInt x rm) else satN n (roundInt x rm)

/-- FMIN's choice between two codes of one format (R105). -/
def minCode (f : Fmt) (a b : Nat) : Nat :=
  let x := f.decode a
  let y := f.decode b
  if x.isNan && y.isNan then f.nanCode
  else if x.isNan then b else if y.isNan then a
  else if y.ltTotal x then b else a

/-- FMAX's choice between two codes of one format (R105). -/
def maxCode (f : Fmt) (a b : Nat) : Nat :=
  let x := f.decode a
  let y := f.decode b
  if x.isNan && y.isNan then f.nanCode
  else if x.isNan then b else if y.isNan then a
  else if x.ltTotal y then b else a

/-! ### Scales and logarithmic formats -/

/-- DecodeE8M0 (R66). -/
def decodeE8M0 (c : Nat) : Val := if c % 256 == 255 then .nan else .fin 1 ((c % 256 : Nat) - 127 : Int)

/-- The constants c[F] of R70. -/
def ln6c (f : Nat) : Nat :=
  match f % 4 with
  | 0 => 4096
  | 1 => 4871
  | 2 => 5793
  | _ => 6889

/-- Mag of R257: c[F] × 2^I, and 0 for a zero code. -/
def ln6Mag (code : Nat) : Nat := if code % 32 == 0 then 0 else ln6c (code % 4) * 2 ^ (code / 4 % 8)

/-- LinLN6 (R70). -/
def linLN6 (code : Nat) : Val :=
  let neg := code / 32 % 2 == 1
  if code % 32 == 0 then .zero neg
  else .fin (if neg then -(ln6Mag code : Int) else ln6Mag code) (-16)

/-- QLin (R71). -/
def qLin (neg : Bool) (E : Int) : Val :=
  let c : Int := ln6c (E % 4).toNat
  .fin (if neg then -c else c) (E / 4 - 12)

/-- The quarter-octave exponent of a nonzero LN6 code (R71). -/
def ln6Exp (code : Nat) : Int := (code % 32 : Nat) - 16

/-- The LN6 product of two codes (R71). -/
def ln6Mul (a b : Nat) : Val :=
  let neg := (a / 32 % 2 == 1) != (b / 32 % 2 == 1)
  if a % 32 == 0 || b % 32 == 0 then .zero neg else qLin neg (ln6Exp a + ln6Exp b)

/-- The magnitude code 0..31 nearest to N/D in units of 2^−16; a tie goes to the code with even F (R77). -/
def nearestLN6 (N D : Nat) : Nat :=
  ((List.range 32).foldl (fun (best : Nat × Nat) k =>
    let v := ln6Mag k * D
    let dist := if v ≤ N then N - v else v - N
    if dist < best.2 || (dist == best.2 && k % 2 == 0) then (k, dist) else best) (0, N)).1

/-- RoundLN6 (R77). -/
def roundLN6 (x : Val) : Nat :=
  match x with
  | .nan => 0
  | .inf s => (if s then 32 else 0) + 31
  | .zero s => if s then 32 else 0
  | .exact0 => 0
  | .fin m e =>
    let k := e + 16
    (if m < 0 then 32 else 0) +
      (if 0 ≤ k then nearestLN6 (m.natAbs * 2 ^ k.toNat) 1 else nearestLN6 m.natAbs (2 ^ (-k).toNat))

/-! ### Exact summation -/

/-- AddRNE (R80). -/
def addRNE (acc v : Val) : Val :=
  match v with
  | .exact0 => acc
  | v => Fmt.fp32.decode (round (addVal .rn acc v) .fp32 .rn)

/-- The exact sum of a list of finite products, as a mantissa and an exponent. -/
def exactSum (ps : List Val) : Int × Int :=
  ps.foldl (fun acc p => match p with
    | .fin m e => if acc.1 = 0 then (m, e) else dyAdd acc.1 acc.2 m e
    | _ => acc) (0, 0)

/-- ChunkSum: the exact value of one chunk from its products (R81). -/
def chunkSum (ps : List Val) : Val :=
  if ps.any Val.isNan then .nan
  else
    let pos := ps.any (fun p => p == .inf false)
    let neg := ps.any (fun p => p == .inf true)
    if pos && neg then .nan else if pos then .inf false else if neg then .inf true
    else let s := exactSum ps; Val.exact s.1 s.2

/-- The products of a list of pairs; ∞ × 0 and a NaN factor give NaN (R81). -/
def products (as bs : List Val) : List Val := List.zipWith mulVal as bs

/-- One chunk added into an accumulator (R81). -/
def addChunk (acc : Val) (ps : List Val) (g : Val) : Val := addRNE acc (mulVal (chunkSum ps) g)

/-- The FP32 code of an accumulator, a NaN written canonically (R59). -/
def fp32Code (v : Val) : Nat := round v .fp32 .rn

/-! ### The special functions of R106 -/

/-- ⌊√n⌋, one bit a round from bit `k − 1` down. -/
def isqrtAux (n : Nat) : Nat → Nat → Nat
  | 0, r => r
  | k + 1, r => let t := r + 2 ^ k; isqrtAux n k (if t * t ≤ n then t else r)

/-- ⌊√n⌋. -/
def isqrt (n : Nat) : Nat := isqrtAux n (Nat.log2 n / 2 + 1) 0

/-- The fixed-point precision of the series below, in bits (log 10, UNVERIFIED). -/
def seriesBits : Nat := 420

/-- Σ ± x^(2k+1)/(2k+1) from term k on, for atan (alternating) and atanh; `p` is the power of x in fixed point, `xx` is x². -/
def atanSeries (alt : Bool) (xx : Nat) : Nat → Nat → Nat → Int
  | 0, _, _ => 0
  | fuel + 1, k, p =>
    let term : Int := p / (2 * k + 1)
    let rest := atanSeries alt xx fuel (k + 1) (p * xx / 2 ^ seriesBits)
    if alt then term - rest else term + rest

/-- π in fixed point, by Machin's formula. -/
def piFix : Nat :=
  let one := 2 ^ seriesBits
  let at5 := atanSeries true (one / 25) 200 0 (one / 5)
  let at239 := atanSeries true (one / 57121) 60 0 (one / 239)
  (16 * at5 - 4 * at239).toNat

/-- ln 2 = 2 atanh (1/3) in fixed point. -/
def ln2Fix : Nat :=
  let one := 2 ^ seriesBits
  (2 * atanSeries false (one / 9) 140 0 (one / 3)).toNat

/-- Σ x^k/k! from term k on. -/
def expSeries (x : Nat) : Nat → Nat → Nat → Nat
  | 0, _, _ => 0
  | fuel + 1, k, term => term + expSeries x fuel (k + 1) (term * x / 2 ^ seriesBits / (k + 1))

/-- Σ (−1)^k x^(2k+1)/(2k+1)! from term k on. -/
def sinSeries (xx : Nat) : Nat → Nat → Nat → Int
  | 0, _, _ => 0
  | fuel + 1, k, term =>
    (term : Int) - sinSeries xx fuel (k + 1) (term * xx / 2 ^ seriesBits / ((2 * k + 2) * (2 * k + 3)))

/-- An inexact fixed-point magnitude a/2^P, rounded to E12; the bit below the last marks it inexact. -/
def roundInexact (neg : Bool) (a : Nat) (P e : Int) : Nat := roundRat neg (2 * a + 1) 1 (e - P - 1) .e12 .rn

/-- An E12 code widened to FP32 by twelve zero mantissa bits (R106). -/
def widenE12 (c : Nat) : Nat := c * 2 ^ 12

/-- m × 2^e mod 2 in fixed point, for a finite value. -/
def mod2Fix (m e : Int) : Nat :=
  let k := e + seriesBits
  let x : Int := if 0 ≤ k then m * 2 ^ k.toNat else m / 2 ^ (-k).toNat
  (x % (2 ^ (seriesBits + 1))).toNat

/-- sin(π r) for r in [0, 2) in fixed point: `none` is an exact zero, `some (neg, none)` is ±1, otherwise the magnitude. -/
def sinPi (r : Nat) : Option (Bool × Option Nat) :=
  let one := 2 ^ seriesBits
  let neg := one ≤ r
  let r1 := if neg then r - one else r
  let r2 := if one < 2 * r1 then one - r1 else r1
  if r2 == 0 then none
  else if 2 * r2 == one then some (neg, none)
  else
    let x := piFix * r2 / one
    some (neg, some (sinSeries (x * x / one) 90 0 x).toNat)

/-- FRCP (R106): the FP32 code of the estimate. -/
def frcp (x : Val) : Nat :=
  match x with
  | .nan => Fmt.fp32.nanCode
  | .inf s => Fmt.fp32.pack s 0
  | .zero s => Fmt.fp32.pack s Fmt.fp32.infCode
  | .exact0 => Fmt.fp32.infCode
  | .fin m e => widenE12 (roundRat (m < 0) 1 m.natAbs (-e) .e12 .rn)

/-- FRSQ (R106). -/
def frsq (x : Val) : Nat :=
  match x with
  | .nan => Fmt.fp32.nanCode
  | .inf s => if s then Fmt.fp32.nanCode else 0
  | .zero s => Fmt.fp32.pack s Fmt.fp32.infCode
  | .exact0 => Fmt.fp32.infCode
  | .fin m e =>
    if m < 0 then Fmt.fp32.nanCode
    else
      let odd := e % 2 == 1
      let a := if odd then m.natAbs * 2 else m.natAbs
      let h := (if odd then e - 1 else e) / 2
      let K : Nat := 120
      let s := isqrt (2 ^ (2 * K) / a)
      if s * s * a == 2 ^ (2 * K) then widenE12 (roundRat false s 1 (-h - K) .e12 .rn)
      else widenE12 (roundInexact false s K (-h))

/-- FEX2 (R106). -/
def fex2 (x : Val) : Nat :=
  match x with
  | .nan => Fmt.fp32.nanCode
  | .inf s => if s then 0 else Fmt.fp32.infCode
  | .zero _ => 0x3F800000
  | .exact0 => 0x3F800000
  | .fin m e =>
    let n : Int := if 0 ≤ e then m * 2 ^ (min e 40).toNat else m / 2 ^ (-e).toNat
    if 128 ≤ n then Fmt.fp32.infCode
    else if n < -139 then 0
    else
      let one := 2 ^ seriesBits
      let frac : Nat := if 0 ≤ e then 0 else
        (m % 2 ^ (-e).toNat).toNat * one / 2 ^ (-e).toNat
      if frac == 0 then widenE12 (roundRat false 1 1 n .e12 .rn)
      else widenE12 (roundInexact false (expSeries (ln2Fix * frac / one) 110 0 one) seriesBits n)

/-- FLG2 (R106). -/
def flg2 (x : Val) : Nat :=
  match x with
  | .nan => Fmt.fp32.nanCode
  | .inf s => if s then Fmt.fp32.nanCode else Fmt.fp32.infCode
  | .zero _ => Fmt.fp32.pack true Fmt.fp32.infCode
  | .exact0 => Fmt.fp32.pack true Fmt.fp32.infCode
  | .fin m e =>
    if m < 0 then Fmt.fp32.nanCode
    else
      let a := m.natAbs
      let l := Nat.log2 a
      let k := e + l
      let one := 2 ^ seriesBits
      if a == 2 ^ l then
        (if k = 0 then 0 else widenE12 (Machine.round (Val.ofInt k) .e12 .rn))
      else
        let y := a * one / 2 ^ l
        let z := (y - one) * one / (y + one)
        let lny := (2 * atanSeries false (z * z / one) 150 0 z).toNat
        let lg : Int := k * one + (lny * one / ln2Fix : Nat)
        widenE12 (roundInexact (lg < 0) lg.natAbs seriesBits 0)

/-- FSIN and FCOS share this: the code of sin(π r), with the sign of an exact zero given (R106). -/
def sinCode (r : Nat) (zeroNeg : Bool) : Nat :=
  match sinPi r with
  | none => Fmt.fp32.pack zeroNeg 0
  | some (neg, none) => Fmt.fp32.pack neg 0x3F800000
  | some (neg, some a) => widenE12 (roundInexact neg a seriesBits 0)

/-- FSIN (R106). -/
def fsin (x : Val) : Nat :=
  match x with
  | .nan => Fmt.fp32.nanCode
  | .inf _ => Fmt.fp32.nanCode
  | .zero s => Fmt.fp32.pack s 0
  | .exact0 => 0
  | .fin m e => sinCode (mod2Fix m e) (m < 0)

/-- FCOS (R106): cos(π x) = sin(π (x + 1/2)). -/
def fcos (x : Val) : Nat :=
  match x with
  | .nan => Fmt.fp32.nanCode
  | .inf _ => Fmt.fp32.nanCode
  | .zero _ => 0x3F800000
  | .exact0 => 0x3F800000
  | .fin m e => sinCode ((mod2Fix m e + 2 ^ (seriesBits - 1)) % 2 ^ (seriesBits + 1)) false

end Sys2Proof.Machine
end

