-- ==== Sys2Proof/Machine/Alu.lean ====
section
/-! DEFINITION. The values of the integer, logic, bit and packed operations, lane by lane (R63, R97..R99, R101, R105,
R107, R108). A value is 64 bits wide; a 32-bit value has bits 63:32 zero. -/

namespace Sys2Proof.Machine

/-- The width of a type's register operand (R33). -/
def tyBits : Ty → Nat
  | .s64 => 64 | .n64 => 64 | .b64 => 64
  | .s32 => 32 | .n32 => 32 | .b32 => 32 | .s16x2 => 32 | .s8x4 => 32 | .f32 => 32 | .h2 => 32 | .bh2 => 32
  | .n16x2 => 32 | .n8x4 => 32

/-- The lane width of a type (R63). -/
def laneBits : Ty → Nat
  | .s16x2 => 16 | .n16x2 => 16 | .h2 => 16 | .bh2 => 16
  | .s8x4 => 8 | .n8x4 => 8
  | .s64 => 64 | .n64 => 64 | .b64 => 64
  | .s32 => 32 | .n32 => 32 | .b32 => 32 | .f32 => 32

/-- The number of lanes of a type. -/
def laneCount (t : Ty) : Nat := tyBits t / laneBits t

/-- Whether a type's integers are signed (R33). -/
def tySigned : Ty → Bool
  | .s32 => true | .s64 => true | .s16x2 => true | .s8x4 => true
  | .n32 => false | .n64 => false | .b32 => false | .b64 => false | .f32 => false | .h2 => false | .bh2 => false
  | .n16x2 => false | .n8x4 => false

/-- A w-bit number read as signed or unsigned (R78). -/
def asInt (signed : Bool) (w n : Nat) : Int :=
  let m := n % 2 ^ w
  if signed && 2 ^ (w - 1) ≤ m then (m : Int) - 2 ^ w else m

/-- Lane k of a value, as a number. -/
def laneOf (w : Nat) (x : BitVec 64) (k : Nat) : Nat := x.toNat / 2 ^ (w * k) % 2 ^ w

/-- A value from its lanes, each taken modulo 2^w (R97). -/
def packLanes (w n : Nat) (g : Nat → Int) : BitVec 64 :=
  BitVec.ofNat 64 ((List.range n).foldl (fun acc k => acc + (g k % 2 ^ w).toNat * 2 ^ (w * k)) 0)

/-- A three-source operation on the lanes of a type, as exact integers. -/
def intLanes (t : Ty) (f : Int → Int → Int → Int) (a b c : BitVec 64) : BitVec 64 :=
  let w := laneBits t
  let g (x : BitVec 64) (k : Nat) : Int := asInt (tySigned t) w (laneOf w x k)
  packLanes w (laneCount t) (fun k => f (g a k) (g b k) (g c k))

/-- A sign-extended immediate truncated to the lane width and copied into every lane (R97). -/
def immLanes (t : Ty) (imm : BitVec 64) : BitVec 64 := packLanes (laneBits t) (laneCount t) (fun _ => imm.toNat)

/-- Saturation to a lane of a type (R78). -/
def satLane (t : Ty) (v : Int) : Int := if tySigned t then satS (laneBits t) v else satN (laneBits t) v

/-- IADD (R98). -/
def aluAdd (t : Ty) (a b : BitVec 64) : BitVec 64 := intLanes t (fun x y _ => x + y) a b 0
/-- ISUB (R98). -/
def aluSub (t : Ty) (a b : BitVec 64) : BitVec 64 := intLanes t (fun x y _ => x - y) a b 0
/-- IMUL (R98). -/
def aluMul (t : Ty) (a b : BitVec 64) : BitVec 64 := intLanes t (fun x y _ => x * y) a b 0
/-- IMULHI (R98). -/
def aluMulHi (t : Ty) (a b : BitVec 64) : BitVec 64 := intLanes t (fun x y _ => x * y / 2 ^ laneBits t) a b 0
/-- IMAD (R98). -/
def aluMad (t : Ty) (a b c : BitVec 64) : BitVec 64 := intLanes t (fun x y z => x * y + z) a b c
/-- IMADW (R98): 32-bit factors extended by type, a 64-bit sum. -/
def aluMadW (t : Ty) (a b c : BitVec 64) : BitVec 64 :=
  BitVec.ofInt 64 (asInt (tySigned t) 32 a.toNat * asInt (tySigned t) 32 b.toNat + c.toNat)
/-- IMIN (R98). -/
def aluMin (t : Ty) (a b : BitVec 64) : BitVec 64 := intLanes t (fun x y _ => min x y) a b 0
/-- IMAX (R98). -/
def aluMax (t : Ty) (a b : BitVec 64) : BitVec 64 := intLanes t (fun x y _ => max x y) a b 0
/-- IABS (R98). -/
def aluAbs (t : Ty) (a : BitVec 64) : BitVec 64 := intLanes t (fun x _ _ => x.natAbs) a 0 0
/-- IADDS (R98). -/
def aluAddS (t : Ty) (a b : BitVec 64) : BitVec 64 := intLanes t (fun x y _ => satLane t (x + y)) a b 0
/-- ISUBS (R98). -/
def aluSubS (t : Ty) (a b : BitVec 64) : BitVec 64 := intLanes t (fun x y _ => satLane t (x - y)) a b 0
/-- LEA (R98). -/
def aluLea (t : Ty) (a b : BitVec 64) (sh : Nat) : BitVec 64 :=
  BitVec.ofInt 64 (a.toNat + asInt (tySigned t) 32 b.toNat * 2 ^ sh)
/-- LEAI (R98). -/
def aluLeaI (a imm : BitVec 64) : BitVec 64 := a + imm

/-- The low bits of a value that a type's operand holds. -/
def trunc (t : Ty) (x : BitVec 64) : BitVec 64 := if tyBits t = 64 then x else x &&& 0xFFFFFFFF

/-- NOT (R99). -/
def aluNot (t : Ty) (a : BitVec 64) : BitVec 64 := trunc t (~~~a)
/-- SHL (R99); `n` is the whole 32-bit amount. -/
def aluShl (t : Ty) (a : BitVec 64) (n : Nat) : BitVec 64 := if tyBits t ≤ n then 0 else trunc t (a <<< n)
/-- SHR (R99): arithmetic for signed types, logical for unsigned ones. -/
def aluShr (t : Ty) (a : BitVec 64) (n : Nat) : BitVec 64 :=
  let w := tyBits t
  packLanes w 1 (fun _ => asInt (tySigned t) w a.toNat / 2 ^ min n w)
/-- DSH (R99): towards bit 63 with `left`. -/
def aluDsh (left : Bool) (a b c : BitVec 64) : BitVec 64 :=
  let n := min (c.toNat % 2 ^ 32) 32
  let x := b.toNat % 2 ^ 32 * 2 ^ 32 + a.toNat % 2 ^ 32
  BitVec.ofNat 64 (if left then x * 2 ^ n % 2 ^ 64 / 2 ^ 32 else x / 2 ^ n % 2 ^ 32)
/-- BFE (R99). -/
def aluBfe (t : Ty) (a b : BitVec 64) : BitVec 64 :=
  let w := tyBits t
  let pos := b.toNat % 256
  let len := min (b.toNat / 256 % 256) w
  let x := asInt (tySigned t) w a.toNat
  let f := (x / 2 ^ pos % 2 ^ len).toNat
  packLanes w 1 (fun _ => if len = 0 then 0 else asInt (tySigned t) len f)
/-- BFI (R99). -/
def aluBfi (t : Ty) (a b c : BitVec 64) : BitVec 64 :=
  let w := tyBits t
  let pos := b.toNat % 256
  let len := min (b.toNat / 256 % 256) w
  let m : BitVec 64 := BitVec.ofNat 64 ((2 ^ len - 1) * 2 ^ pos % 2 ^ w)
  (c &&& ~~~m) ||| (BitVec.ofNat 64 (a.toNat * 2 ^ pos % 2 ^ w) &&& m)
/-- The number of 1 bits below bit n. -/
def popCount (x : Nat) (n : Nat) : Nat := (List.range n).foldl (fun acc i => acc + x / 2 ^ i % 2) 0
/-- POPC (R99). -/
def aluPopc (t : Ty) (a : BitVec 64) : BitVec 64 := BitVec.ofNat 64 (popCount a.toNat (tyBits t))
/-- CLZ (R99). -/
def aluClz (t : Ty) (a : BitVec 64) : BitVec 64 :=
  let x := a.toNat % 2 ^ tyBits t
  BitVec.ofNat 64 (if x = 0 then tyBits t else tyBits t - 1 - Nat.log2 x)
/-- A byte of an 8-byte string chosen by a 4-bit selector, whose bit 3 copies the byte's sign (R99, R118). -/
def selByte (x sel : Nat) : Nat :=
  let y := x / 2 ^ (8 * (sel % 8)) % 256
  if sel / 8 % 2 = 1 then (if 128 ≤ y then 255 else 0) else y
/-- The four bytes that four selectors choose from Concat(b, a) (R99, R118). -/
def permBytes (a b sel : Nat) : Nat :=
  let x := b % 2 ^ 32 * 2 ^ 32 + a % 2 ^ 32
  (List.range 4).foldl (fun acc k => acc + selByte x (sel / 2 ^ (4 * k) % 16) * 2 ^ (8 * k)) 0
/-- PRMT (R99). -/
def aluPrmt (a b c : BitVec 64) : BitVec 64 := BitVec.ofNat 64 (permBytes a.toNat b.toNat c.toNat)
/-- BREV (R99). -/
def aluBrev (t : Ty) (a : BitVec 64) : BitVec 64 :=
  let w := tyBits t
  BitVec.ofNat 64 ((List.range w).foldl (fun acc i => acc + a.toNat / 2 ^ (w - 1 - i) % 2 * 2 ^ i) 0)

/-! ### Floating point: FP32 and packed lanes -/

/-- The format of a type's lanes (R105, R107). -/
def laneFmt : Ty → Fmt
  | .h2 => .fp16
  | .bh2 => .bf16
  | _ => .fp32

/-- An operation on the lane codes of a floating-point type. -/
def floatLanes (t : Ty) (f : Fmt → Nat → Nat → Nat → Nat) (a b c : BitVec 64) : BitVec 64 :=
  let w := laneBits t
  packLanes w (laneCount t) (fun k => f (laneFmt t) (laneOf w a k) (laneOf w b k) (laneOf w c k))

/-- FADD and HADD (R105, R107). -/
def fpAdd (t : Ty) (rm : Rm) (a b : BitVec 64) : BitVec 64 :=
  floatLanes t (fun f x y _ => round (addVal rm (f.decode x) (f.decode y)) f rm) a b 0
/-- FSUB and HSUB. -/
def fpSub (t : Ty) (rm : Rm) (a b : BitVec 64) : BitVec 64 :=
  floatLanes t (fun f x y _ => round (addVal rm (f.decode x) (f.decode y).negate) f rm) a b 0
/-- FMUL and HMUL. -/
def fpMul (t : Ty) (rm : Rm) (a b : BitVec 64) : BitVec 64 :=
  floatLanes t (fun f x y _ => round (mulVal (f.decode x) (f.decode y)) f rm) a b 0
/-- FFMA and HFMA: one rounding. -/
def fpFma (t : Ty) (rm : Rm) (a b c : BitVec 64) : BitVec 64 :=
  floatLanes t (fun f x y z => round (addVal rm (mulVal (f.decode x) (f.decode y)) (f.decode z)) f rm) a b c
/-- FMIN and HMIN. -/
def fpMin (t : Ty) (a b : BitVec 64) : BitVec 64 := floatLanes t (fun f x y _ => minCode f x y) a b 0
/-- FMAX and HMAX. -/
def fpMax (t : Ty) (a b : BitVec 64) : BitVec 64 := floatLanes t (fun f x y _ => maxCode f x y) a b 0
/-- FABS and HABS: a bit operation. -/
def fpAbs (t : Ty) (a : BitVec 64) : BitVec 64 := floatLanes t (fun f x _ _ => x % 2 ^ f.magBits) a 0 0
/-- FNEG and HNEG: a bit operation. -/
def fpNeg (t : Ty) (a : BitVec 64) : BitVec 64 :=
  floatLanes t (fun f x _ _ => (x + 2 ^ f.magBits) % 2 ^ (f.magBits + 1)) a 0 0
/-- FROUND (R105): a zero result takes the sign of the source, infinities pass. -/
def fpRoundInt (rm : Rm) (a : BitVec 64) : BitVec 64 :=
  let x := Fmt.fp32.decode a.toNat
  BitVec.ofNat 64 (match x with
    | .fin m _ => let r := roundInt x rm; if r = 0 then Fmt.fp32.pack (m < 0) 0 else round (.fin r 0) .fp32 rm
    | .inf s => Fmt.fp32.pack s Fmt.fp32.infCode
    | x => round x .fp32 rm)
/-- HDOT2 (R107): one rounding of the exact sum of three terms. R79 keeps a sign in the sum of two zeros only: a sum of three that is zero is +0,
and -0 under .rd. -/
def fpDot2 (t : Ty) (rm : Rm) (a b c : BitVec 64) : BitVec 64 :=
  let f := laneFmt t
  let p (k : Nat) : Val := mulVal (f.decode (laneOf 16 a k)) (f.decode (laneOf 16 b k))
  let v : Val := match addVal rm (addVal rm (p 0) (p 1)) (Fmt.fp32.decode c.toNat) with
    | .zero _ => .zero (rm == .rd)
    | v => v
  BitVec.ofNat 64 (round v .fp32 rm)
/-- One byte of LMUL (R108). -/
def lmulByte (a b : Nat) : Nat :=
  let neg := (a / 32 % 2 == 1) != (b / 32 % 2 == 1)
  if a % 32 == 0 || b % 32 == 0 then (if neg then 32 else 0)
  else
    let e := ln6Exp a + ln6Exp b
    if -15 ≤ e ∧ e ≤ 15 then (if neg then 32 else 0) + (e + 16).toNat else roundLN6 (qLin neg e)
/-- One byte of LADD (R108). -/
def laddByte (a b : Nat) : Nat := roundLN6 (addVal .rn (linLN6 a) (linLN6 b))
/-- LMUL (R108). -/
def aluLmul (a b : BitVec 64) : BitVec 64 := packLanes 8 4 (fun k => lmulByte (laneOf 8 a k) (laneOf 8 b k))
/-- LADD (R108). -/
def aluLadd (a b : BitVec 64) : BitVec 64 := packLanes 8 4 (fun k => laddByte (laneOf 8 a k) (laneOf 8 b k))

end Sys2Proof.Machine
end

