-- ==== Sys2Proof/Machine/Shape.lean ====
section
/-! DEFINITION. The static checks of a word: steps 2 and 4 of R53 as each instruction's entry gives them: the operands it
uses and what they may name (R28..R30), its types (R33), sc (R34), sub, mod and last-use bits (R35). -/

namespace Sys2Proof.Machine

/-- What an operand field may name. -/
inductive Kind
  /-- Not used: 0x7F, with its last-use bit clear (R29). -/
  | no
  /-- Any operand code. -/
  | any
  /-- Any but a uniform register: the destination of a form without a uniform form (R30). -/
  | nu
  /-- A window register. -/
  | w
  /-- A window register or zero. -/
  | w0
  /-- A uniform register. -/
  | s
  /-- A uniform register or zero. -/
  | s0
  /-- A window or uniform register. -/
  | ws
  /-- A window or uniform register or zero. -/
  | ws0
  /-- A predicate. -/
  | q
  /-- A window or uniform register or a predicate. -/
  | wsq
  /-- A window or uniform register, a predicate or zero. -/
  | wsq0
  /-- MOVU's source: a window register, a special register or a predicate (R101). -/
  | perThread
deriving DecidableEq, Repr

/-- Whether an operand is of a kind (log 6, DEDUCED). MOVU's source may be zero and any special register (log 49, DEDUCED). -/
def Kind.ok (k : Kind) (o : Opd) : Bool :=
  match o with
  | .w _ => !(k == .no || k == .s || k == .s0 || k == .q)
  | .s _ => !(k == .no || k == .nu || k == .w || k == .w0 || k == .q || k == .perThread)
  | .q _ => k == .any || k == .nu || k == .q || k == .wsq || k == .wsq0 || k == .perThread
  | .sr _ => k == .any || k == .nu || k == .perThread
  | .m _ => k == .any || k == .nu
  | .zero => k == .no || k == .any || k == .nu || k == .w0 || k == .s0 || k == .ws0 || k == .wsq0 || k == .perThread

/-- A use that R32 gives to step 6 of R53 and not to step 4: a tile register, a special register as destination, or a predicate as
destination in a 64-bit position. -/
def stepSix (dst wide : Bool) : Opd → Bool
  | .m _ => true
  | .sr _ => dst
  | .q _ => dst && wide
  | .w _ => false | .s _ => false | .zero => false

/-- Whether a field of a kind passes step 4 of R53: its operand is of the kind, or R32 judges it at step 6. Words whose table gives
ILLOP to every other operand kind are strict. -/
def Kind.passes (k : Kind) (strict dst wide : Bool) (o : Opd) : Bool :=
  k.ok o || (!strict && k != .no && stepSix dst wide o)

/-- Whether an operand is a window register. -/
def isWin : Opd → Bool
  | .w _ => true
  | .s _ => false | .q _ => false | .sr _ => false | .m _ => false | .zero => false

/-- Whether an operand is a uniform register. -/
def isUni : Opd → Bool
  | .s _ => true
  | .w _ => false | .q _ => false | .sr _ => false | .m _ => false | .zero => false

/-- Whether a last-use bit is allowed: only on a used operand that names a window register (R29, R35). -/
def luOk (k : Kind) (o : Opd) (lu : Bool) : Bool := !lu || (k != .no && isWin o)

/-- The shape of a register word: its operands, and the codes its type, sc, sub and mod fields take. -/
structure FShape where
  d : Kind := .no
  a : Kind := .no
  b : Kind := .no
  c : Kind := .no
  ty : List Ty := [.b32]
  sc : List Nat := [0]
  sub : List Nat := [0]
  mod : List Nat := [0]
  /-- Last-use bits may be set. -/
  lu : Bool := true
  /-- Operands of other kinds raise ILLOP, whatever R32 says of them (R131, R144, R176, R292, R305, R318, R342, R345). -/
  strict : Bool := false
  /-- d is in a 64-bit position. -/
  dw : Bool := false

/-- Whether a register word has a shape. -/
def FShape.ok (h : FShape) (f : FWord) : Bool :=
  h.d.passes h.strict true h.dw f.d && h.a.passes h.strict false false f.a && h.b.passes h.strict false false f.b &&
  h.c.passes h.strict false false f.c &&
  luOk h.a f.a f.lu.a && luOk h.b f.b f.lu.b && luOk h.c f.c f.lu.c &&
  (h.lu || !(f.lu.a || f.lu.b || f.lu.c)) &&
  h.ty.contains f.ty && h.sc.contains f.sc.toNat && h.sub.contains f.sub.toNat && h.mod.contains f.mod.toNat

/-- A source that a uniform form may take (R92); `q7` admits the predicate q7. -/
def uniSource (q7 : Bool) : Opd → Bool
  | .s _ => true
  | .zero => true
  | .q i => q7 && i == 7
  | .sr r => match r with
    | .group => true | .team => true | .cluster => true | .core => true | .owner => true | .world => true
    | .stage => true | .clock => true | .pc => true | .depth => true
    | .lane => false | .tpos => false | .repix => false | .frec => false | .spillbase => false | .spilltop => false
  | .w _ => false
  | .m _ => false

/-- The rule of uniform forms for a word of "Registers: window, uniform, predicate and thread state" (R92). -/
def uniRule (q7 : Bool) (f : FWord) : Bool :=
  !isUni f.d || (uniSource q7 f.a && uniSource q7 f.b && uniSource q7 f.c)

/-- The shape of an immediate form. -/
structure IShape where
  a : Kind := .any
  ty : List Ty
  sub : List Nat := [0]
  /-- The immediate is a shift amount, 0..w − 1 (R99). -/
  shift : Bool := false
  /-- q7 is a source of its uniform form (R92). -/
  q7 : Bool := false

/-- The immediate of a word as 64 bits: sign-extended, or joined to the extension of an IMMX prefix (R28, R51). -/
def immValue (f : IWord) : BitVec 64 :=
  match f.ext with
  | none => f.imm.signExtend 64
  | some e => (e ++ f.imm : BitVec 64)

/-- The immediate that a type uses: all 64 bits, or bits 31:0 (R51). -/
def immUsed (f : IWord) : Nat := (immValue f).toNat % 2 ^ tyBits f.ty

/-- Whether an immediate word has a shape, the rule of uniform forms included (R92). -/
def IShape.ok (h : IShape) (f : IWord) : Bool :=
  h.a.ok f.a && luOk h.a f.a f.lua && h.ty.contains f.ty && h.sub.contains f.sub.toNat &&
  (!isUni f.d || uniSource h.q7 f.a) && (!h.shift || immUsed f < tyBits f.ty)

/-- Type lists of R98..R101. -/
def tyAll : List Ty := [.s32, .n32, .s64, .n64, .s16x2, .n16x2, .s8x4, .n8x4]
/-- The scalar types of R98. -/
def tyScalar : List Ty := [.s32, .n32, .s64, .n64]
/-- The 32-bit and packed types of IADDS and ISUBS. -/
def tySat : List Ty := [.s32, .n32, .s16x2, .n16x2, .s8x4, .n8x4]
/-- .b32 and .b64. -/
def tyB : List Ty := [.b32, .b64]
/-- .h2 and .bh2. -/
def tyH : List Ty := [.h2, .bh2]

/-- 0..n − 1 as sub, mod or sc codes. -/
def upto (n : Nat) : List Nat := List.range n

/-- The comb field of ICMP and FCMP (R100). -/
def combMods : List Nat := [0, 1, 2, 4, 5, 6]

/-- PLOG's sub field (R100). -/
def plogSubs : List Nat := [0, 1, 2, 4, 5, 6, 8, 9, 10]

/-- Integer and logic words whose d, a and b are used. -/
def shAB (ty : List Ty) : FShape := { d := .any, a := .any, b := .any, ty }
/-- Those with all of d, a, b and c. -/
def shABC (ty : List Ty) : FShape := { d := .any, a := .any, b := .any, c := .any, ty }
/-- Those with d and a. -/
def shA (ty : List Ty) : FShape := { d := .any, a := .any, ty }

/-- A word of R97..R101 with its uniform rule. -/
def intOk (h : FShape) (f : FWord) : Bool := h.ok f && uniRule false f
/-- The same where q7 is a source of the uniform form. -/
def intOkQ (h : FShape) (f : FWord) : Bool := h.ok f && uniRule true f

/-- A floating-point word (R105, R107): no uniform destination; with `rm`, sc is a rounding mode. -/
def shF (ty : List Ty) (n : Nat) (rm : Bool) : FShape :=
  { d := .nu, a := .any, b := if 2 ≤ n then .any else .no, c := if 3 ≤ n then .any else .no, ty,
    sc := if rm then upto 5 else [0] }

/-- The fields of a narrow format code of R65 (R111): how many a register holds, or 0 for a code without fields. -/
def narrowFields (code : Nat) : Nat :=
  match code with
  | 0 => 2 | 1 => 2 | 2 => 4 | 3 => 4 | 4 => 4 | 5 => 4 | 6 => 8 | 7 => 4 | 8 => 8 | 0xE => 4
  | _ => 0

/-- The element format of a DEQ format code (R113). -/
def deqElement (code : Nat) : Nat :=
  match code with
  | 0x9 => 2 | 0xA => 5 | 0xB => 6 | 0xC => 7 | 0xD => 6
  | c => c

/-- Types that CVT converts between (R109). -/
def cvtTys : List Ty := [.s32, .n32, .s64, .n64, .f32]

/-- Types that CVTL converts between (R110). -/
def cvtlTys : List Ty := [.s16x2, .h2, .bh2, .n16x2]

/-- A type by its code (R33). -/
def tyOfCode (c : Nat) : Option Ty :=
  match c with
  | 0 => some .s32 | 1 => some .n32 | 2 => some .s64 | 3 => some .n64 | 4 => some .b32 | 5 => some .b64
  | 6 => some .s16x2 | 7 => some .s8x4 | 8 => some .f32 | 9 => some .h2 | 10 => some .bh2 | 11 => some .n16x2
  | 12 => some .n8x4
  | _ => none

/-- The code of a type (R33). -/
def tyCode : Ty → Nat
  | .s32 => 0 | .n32 => 1 | .s64 => 2 | .n64 => 3 | .b32 => 4 | .b64 => 5 | .s16x2 => 6 | .s8x4 => 7 | .f32 => 8
  | .h2 => 9 | .bh2 => 10 | .n16x2 => 11 | .n8x4 => 12

/-! ### The P-form (R36..R39) -/

/-- The operand of a half's 6-bit D or A field (R36). -/
def halfOpd (x : BitVec 6) : Opd :=
  if x.toNat < 32 then .w (Fin.ofNat 32 x.toNat) else .s (Fin.ofNat 32 x.toNat)

/-- What a half takes besides D, and the rule of its m6 field (R38). -/
inductive HalfKind
  /-- NOP: every field is zero. -/
  | none
  /-- D and A, m6 zero. -/
  | reg
  /-- D and a 6-bit immediate. -/
  | imm
  /-- D and a shift amount below 32. -/
  | shift
  /-- D, A and a predicate in m6. -/
  | select
  /-- D, A and a uniform register in m6. -/
  | fused
deriving DecidableEq, Repr

/-- The kind of each pairable operation (R38). -/
def halfKind : HalfOp → HalfKind
  | .nop => .none
  | .iaddi | .andi | .ori | .xori | .movi | .imuli | .irsbi => .imm
  | .shli | .shri => .shift
  | .sel => .select
  | .ffma | .hfma => .fused
  | .iadd | .isub | .irsb | .imin | .imax | .iabs | .and | .or | .xor | .not | .brev | .shl | .shr | .popc | .clz | .imul
  | .mov | .iadds | .isubs | .movu | .fadd | .fsub | .fmul | .fmin | .fmax | .fabs | .fneg
  | .hadd | .hsub | .hmul | .hmin | .hmax | .habs | .hneg => .reg

/-- The types that each pairable operation accepts (R38). -/
def halfTypes : HalfOp → List Ty
  | .nop => [.s32]
  | .iadd | .isub | .irsb | .iaddi | .irsbi | .imin | .imax | .iadds | .isubs => [.s32, .n32, .s16x2, .s8x4]
  | .iabs => [.s32, .s16x2, .s8x4]
  | .imul | .imuli | .shr | .shri => [.s32, .n32]
  | .and | .andi | .or | .ori | .xor | .xori | .not | .brev | .shl | .shli | .popc | .clz | .mov | .movi | .sel | .movu => [.b32]
  | .fadd | .fsub | .fmul | .ffma | .fmin | .fmax | .fabs | .fneg => [.f32]
  | .hadd | .hsub | .hmul | .hfma | .hmin | .hmax | .habs | .hneg => tyH

/-- Whether a half reads A. -/
def usesA (h : Half) : Bool :=
  match halfKind h.op with
  | .reg => true | .select => true | .fused => true
  | .none => false | .imm => false | .shift => false

/-- Rules 1 and 7 of R39, and rule 6, for one half; SEL with a uniform D is the uniform form, whose predicate is q7 (R38, R92). -/
def halfOk (h : Half) : Bool :=
  match halfKind h.op with
  | .none => h == { op := .nop, pq := 0, d := 0, a := 0, lu := false, pty := .s32, m6 := 0 }
  | kind =>
    (halfTypes h.op).contains h.pty &&
    (usesA h || h.a == 0) && (!h.lu || (usesA h && isWin (halfOpd h.a))) &&
    (match kind with
     | .none => true | .imm => true
     | .reg => h.m6 == 0
     | .shift => h.m6.toNat < 32
     | .select => h.m6.toNat < 8 && (!isUni (halfOpd h.d) || h.m6 == 7)
     | .fused => h.m6.toNat < 32) &&
    (if h.op = .movu then isUni (halfOpd h.d) && isWin (halfOpd h.a)
     else !(isUni (halfOpd h.d) && usesA h && isWin (halfOpd h.a)))

/-- Whether two fields name window registers of one bank (R39). -/
def sameBank (x y : BitVec 6) : Bool := x.toNat < 32 && y.toNat < 32 && x.toNat % 4 == y.toNat % 4

/-- Whether a half's A, or its fused uniform source, is a given D field (rule 4 of R39). -/
def halfReads (h : Half) (d : BitVec 6) : Bool :=
  (usesA h && h.a == d) || (halfKind h.op == .fused && h.m6.toNat + 32 == d.toNat)

/-- The rules of R39; NOP halves are exempt from rules 2 to 6 (log 7, DEDUCED). -/
def pairOk (h1 h0 : Half) : Bool :=
  halfOk h1 && halfOk h0 &&
  (h1.op == .nop || h0.op == .nop ||
    (!sameBank h1.d h0.d && !(usesA h1 && usesA h0 && sameBank h1.a h0.a) && !halfReads h1 h0.d && !halfReads h0 h1.d &&
     !(isUni (halfOpd h1.d) && isUni (halfOpd h0.d))))

/-! ### The H-form (R41, R46) -/

/-- A clause header that R46 makes illegal at issue (log 9, DEDUCED). -/
def badHeader (h : HWord) : Bool :=
  let valid (f : FlagSet) : Bool := match f with | some k => 12 ≤ k.val | none => false
  h.len == 0 || valid h.seta || valid h.setb || (h.seta.isSome && h.seta == h.setb)

/-! ### Memory forms (R205, R211..R215, R222, R223) -/

/-- The shape of a memory form. -/
structure MShape where
  r : Kind := .no
  base : Kind := .ws0
  index : Kind := .any
  ty : List Ty := [.b32]
  sub : List Nat
  mod : List Nat
  /-- sc may hold a scope where the order is not plain. -/
  order : Bool := false
  /-- The register is data of a store, which may have a last-use bit. -/
  data : Bool := false

/-- Whether a load's destination is in a 64-bit position: .b64 by its size (R205), or by the type of LDVQ (R212). -/
def MShape.wide (h : MShape) (f : MWord) : Bool := if h.ty.contains .b64 then tyBits f.ty == 64 else f.sub.toNat % 8 == 5

/-- Whether a memory form has a shape. -/
def MShape.ok (h : MShape) (f : MWord) : Bool :=
  h.r.passes false (!h.data) (h.wide f) f.r && h.base.passes false false false f.base && h.index.passes false false false f.index &&
  luOk h.base f.base f.lu.a && luOk h.index f.index f.lu.b && (if h.data then luOk h.r f.r f.lu.c else !f.lu.c) &&
  h.ty.contains f.ty && h.sub.contains f.sub.toNat && h.mod.contains f.mod.toNat &&
  (f.sc == 0 || (h.order && f.mod.toNat / 4 != 0 && f.sc.toNat < 7))

/-- sub codes of cache operations and sizes (R205). -/
def memSubs (caches sizes : List Nat) : List Nat := caches.flatMap (fun c => sizes.map (fun z => 8 * c + z))

/-- mod codes of orders or spaces, with any index shift. -/
def memMods (orders : List Nat) : List Nat := orders.flatMap (fun o => (upto 4).map (fun h => 4 * o + h))

/-- A load: LDG with every cache operation, LDL and LDX with none (R209). -/
def shLoad (caches : List Nat) : MShape :=
  { r := .w0, sub := memSubs caches (upto 6), mod := memMods [0, 1], order := true }
/-- LDU (R210). -/
def shLdu : MShape :=
  { r := .s, base := .s0, index := .s0, sub := memSubs (upto 3) [4, 5], mod := memMods [0, 1], order := true }
/-- LDV and STV (R211); the cache operation belongs to space g. A uniform register as data raises ILLOP (log 50, DEDUCED). -/
def shVec (data : Bool) : MShape :=
  { r := .w0, sub := memSubs (upto 3) [6, 7], mod := memMods (upto 3), data }
/-- The cache rule of LDV and STV (R211). -/
def vecOk (f : MWord) : Bool := f.mod.toNat / 4 == 0 || f.sub.toNat / 8 == 0
/-- LDVQ (R212). -/
def shLdvq : MShape := { r := .w0, ty := tyB, sub := memSubs (upto 3) (upto 8), mod := upto 4 }
/-- PREFG (R213). -/
def shPrefg : MShape := { sub := [0, 1], mod := upto 4 }
/-- A store (R214). -/
def shStore (caches : List Nat) : MShape :=
  { r := .ws0, sub := memSubs caches (upto 6), mod := memMods [0, 2], order := true, data := true }
/-- CINV.line and MONARM (R222, R223). -/
def shLine (sub : Nat) : MShape := { sub := [sub], mod := upto 4 }

/-- The types of the operations of an atomic (R216). -/
def atomTys (sub : Nat) : List Ty :=
  match sub with
  | 0 => [.s32, .n32, .s64, .n64, .f32, .h2, .bh2]
  | 1 => [.s32, .n32, .s64, .n64, .f32]
  | 2 => [.s32, .n32, .s64, .n64, .f32]
  | 7 => [.n32]
  | _ => tyB
/-- Scopes 1..6 (R215). -/
def scopes16 : List Nat := [1, 2, 3, 4, 5, 6]
/-- An atomic (R215); reductions take no .exch, .inc, .acq or .ar. -/
def atomOk (posted : Bool) (f : FWord) : Bool :=
  let h : FShape :=
    { d := if posted then .no else .w0, a := .ws, b := .any, ty := atomTys f.sub.toNat, sc := scopes16, dw := tyBits f.ty == 64
      sub := if posted then upto 6 else upto 8, mod := if posted then [0, 2] else upto 4 }
  h.ok f
/-- A compare-and-swap (R215, R216). -/
def casOk (f : FWord) : Bool :=
  FShape.ok { d := .w0, a := .ws, b := .any, c := .any, ty := tyB, sc := scopes16, mod := upto 4, dw := tyBits f.ty == 64 } f
/-- FENCE of one kind (R221). -/
def shFence (sub : Nat) : FShape := { sc := upto 7, sub := [sub] }

/-! ### Control flow (R131), tables (R150..R158), barriers and counters, queues and services, handler forms -/

/-- The shape of a control-flow register word: type 0, no operands (R131). -/
def shCtrl : FShape := { ty := [.s32], strict := true }
/-- BRX, BRX.U and CALLX: a register pair, last use allowed (R131). -/
def shJump (sub : List Nat) : FShape := { a := .ws, ty := [.s32], sub, strict := true }
/-- A table instruction: no last use (R144). -/
def shTab (d a b c : Kind) (sub : List Nat) : FShape := { d, a, b, c, sub, lu := false, strict := true }

end Sys2Proof.Machine
end

