-- ==== Sys2Proof/Machine/Forms.lean ====
section
/-! DEFINITION. Which words are legal: the checks of steps 2 to 4 of R53 for every instruction, one line each, from its entry
in the chapter that its rule names. -/

namespace Sys2Proof.Machine

/-- The format codes of CVTN and CVTW (R111). -/
def narrowMods : List Nat := upto 9 ++ [0xE]

/-- Types, operations and rounding of the scans and reductions (R119). -/
def scanOk (h : FShape) (f : FWord) : Bool :=
  FShape.ok { h with ty := [.s32, .n32, .f32], sub := upto 3, sc := if f.ty = .f32 ∧ f.sub = 0 then upto 5 else [0] } f ||
  FShape.ok { h with ty := [.b32], sub := [3, 4, 5] } f

/-- A uniform destination takes a uniform a (R176, R292, R305). -/
def uniA (f : FWord) : Bool := !isUni f.d || isUni f.a

/-- A uniform d needs a uniform a and b (R92, R176). -/
def uniAB (f : FWord) : Bool := uniA f && (!isUni f.d || isUni f.b)

/-- A uniform destination takes a uniform b (R342). -/
def uniB (f : FWord) : Bool := !isUni f.d || isUni f.b

/-! ### Matrix forms (R247, R248) -/

/-- What a matrix operand field may name. -/
inductive ZKind
  | no | acc | z | mreg
deriving DecidableEq, Repr

/-- Whether a matrix operand is of a kind. -/
def ZKind.ok (k : ZKind) (o : MOpd) : Bool :=
  match o with
  | .acc _ => k == .acc
  | .z _ => k == .z
  | .m _ => k == .mreg
  | .none => k == .no

/-- The shape of a matrix word: the fields that it uses. -/
structure ZShape where
  d : ZKind := .no
  a : ZKind := .no
  u1 : Bool := false
  u2 : Bool := false
  rf : Bool := false
  n : Bool := false
  rm : Bool := false
  sub : List Nat := [0]
  mod : List Nat := [0]

/-- Whether a matrix word has a shape: an unused field holds 0 (R248). -/
def ZShape.ok (h : ZShape) (z : ZWord) : Bool :=
  h.d.ok z.d && h.a.ok z.a && (h.u1 || z.u1 == 0) && (h.u2 || z.u2 == 0) && (h.rf || !z.rf) && (h.n || z.n == 0) &&
  (if h.rm then z.rm.toNat < 5 else z.rm == 0) && h.sub.contains z.sub.toNat && h.mod.contains z.mod.toNat

/-! ### Every instruction -/

/-- Whether an instruction passes steps 2 to 4 of R53. The words that a REP repeats are checked by the decoder, and an event
is no word. -/
def formOk : Instr → Bool
  | .iadd f => intOk (shAB tyAll) f
  | .iaddi f => IShape.ok { ty := tyAll } f
  | .isub f => intOk (shAB tyAll) f
  | .irsbi f => IShape.ok { ty := tyAll } f
  | .imul f => intOk (shAB tyScalar) f
  | .imuli f => IShape.ok { ty := tyScalar } f
  | .imulhi f => intOk (shAB tyScalar) f
  | .imad f => intOk (shABC tyScalar) f
  | .imadw f => intOk (shABC [.s32, .n32]) f
  | .imin f => intOk (shAB tyAll) f
  | .imax f => intOk (shAB tyAll) f
  | .iabs f => intOk (shA [.s32, .s64, .s16x2, .s8x4]) f
  | .iadds f => intOk (shAB tySat) f
  | .isubs f => intOk (shAB tySat) f
  | .lea f => intOk { shAB [.s32, .n32] with mod := upto 16 } f
  | .leai f => IShape.ok { ty := [.b64] } f
  | .and f => intOk (shAB tyB) f
  | .andi f => IShape.ok { ty := tyB } f
  | .or f => intOk (shAB tyB) f
  | .ori f => IShape.ok { ty := tyB } f
  | .xor f => intOk (shAB tyB) f
  | .xori f => IShape.ok { ty := tyB } f
  | .not f => intOk (shA tyB) f
  | .shl f => intOk (shAB tyB) f
  | .shli f => IShape.ok { ty := tyB, shift := true } f
  | .shr f => intOk (shAB tyScalar) f
  | .shri f => IShape.ok { ty := tyScalar, shift := true } f
  | .dsh f => intOk { shABC [.b32] with sub := upto 2 } f
  | .bfe f => intOk (shAB tyScalar) f
  | .bfi f => intOk (shABC tyB) f
  | .popc f => intOk (shA tyB) f
  | .clz f => intOk (shA tyB) f
  | .icmp f => intOkQ { shABC tyScalar with c := .q, sub := upto 6, mod := combMods } f
  | .icmpi f => IShape.ok { ty := tyScalar, sub := upto 6 } f
  | .fcmp f => intOkQ { shABC [.f32] with c := .q, sub := upto 8, mod := combMods } f
  | .plog f => intOkQ { d := .any, a := .q, b := .q, c := .q, sub := plogSubs, mod := upto 8 } f
  | .sel f => intOkQ { shABC tyB with c := .q } f
  | .seli f => IShape.ok { ty := tyB, sub := upto 16, q7 := true } f && (!isUni f.d || f.sub.toNat % 8 == 7)
  | .mov f => intOk (shA tyB) f
  | .movi f => IShape.ok { a := .no, ty := tyB } f
  | .movu f => FShape.ok { d := .s, a := .perThread, ty := tyB } f && isUni f.d
  | .vote f => FShape.ok { d := .any, a := .q, sub := upto 3 } f
  | .ballot f => FShape.ok { d := .ws0, a := .q } f
  | .matchT f => FShape.ok { d := .w0, a := .any, ty := tyB, sub := upto 2 } f
  | .prmt f => intOk (shABC [.b32]) f
  | .brev f => intOk (shA tyB) f
  | .fadd f => (shF [.f32] 2 true).ok f
  | .fsub f => (shF [.f32] 2 true).ok f
  | .fmul f => (shF [.f32] 2 true).ok f
  | .ffma f => (shF [.f32] 3 true).ok f
  | .fmin f => (shF [.f32] 2 false).ok f
  | .fmax f => (shF [.f32] 2 false).ok f
  | .fclamp f => (shF [.f32] 3 false).ok f
  | .frcp f => (shF [.f32] 1 false).ok f
  | .frsq f => (shF [.f32] 1 false).ok f
  | .fex2 f => (shF [.f32] 1 false).ok f
  | .flg2 f => (shF [.f32] 1 false).ok f
  | .fsin f => (shF [.f32] 1 false).ok f
  | .fcos f => (shF [.f32] 1 false).ok f
  | .fround f => (shF [.f32] 1 true).ok f
  | .fabs f => (shF [.f32] 1 false).ok f
  | .fneg f => (shF [.f32] 1 false).ok f
  | .hadd f => (shF tyH 2 true).ok f
  | .hsub f => (shF tyH 2 true).ok f
  | .hmul f => (shF tyH 2 true).ok f
  | .hfma f => (shF tyH 3 true).ok f
  | .hmin f => (shF tyH 2 false).ok f
  | .hmax f => (shF tyH 2 false).ok f
  | .habs f => (shF tyH 1 false).ok f
  | .hneg f => (shF tyH 1 false).ok f
  | .hdot2 f => (shF tyH 3 true).ok f
  | .lmul f => (shF [.n8x4] 2 false).ok f
  | .ladd f => (shF [.n8x4] 2 false).ok f
  | .cvt f => FShape.ok { shF cvtTys 1 true with sub := upto 2, mod := [0, 1, 2, 3, 8] } f && f.mod.toNat != tyCode f.ty
  | .cvtl f => FShape.ok { shF cvtlTys 1 true with mod := [6, 9, 10, 11] } f && f.mod.toNat != tyCode f.ty
  | .cvtn f => FShape.ok { shF [.f32] 1 true with c := .any, sub := upto 8 ++ (upto 8).map (16 + ·), mod := narrowMods } f &&
    f.sub.toNat % 8 < narrowFields f.mod.toNat && !(f.mod == 0xE && f.sc != 0)
  | .cvtw f => FShape.ok { shF [.f32] 1 false with sub := upto 8, mod := narrowMods } f && f.sub.toNat % 8 < narrowFields f.mod.toNat
  | .deq f => FShape.ok { shF [.f32] 2 true with sub := upto 32, mod := upto 15 } f &&
    f.sub.toNat % 8 < narrowFields (deqElement f.mod.toNat)
  | .bdotDb4 f => FShape.ok { shF [.f32] 3 false with mod := upto 2 } f
  | .bdotMxfp4 f => FShape.ok { shF [.f32] 3 false with sub := [1], mod := upto 4 } f
  | .bdotTsc f => FShape.ok { shF [.f32] 2 false with sub := [2] } f
  | .qblk f => FShape.ok { shF [.f32] 1 false with mod := [9, 10, 11, 12] } f || FShape.ok { shF [.f32] 1 false with sub := [1], mod := [13] } f
  | .shfl f => FShape.ok { shF tyB 3 false with sub := upto 4 } f
  | .shflx f => FShape.ok { shF tyB 3 false with sub := upto 4, mod := upto 6 } f
  | .xbar f => FShape.ok { shF [.b32] 3 false with sub := upto 16 } f
  | .scan f => scanOk { d := .w, a := .any, mod := upto 2 } f
  | .scanseg f => scanOk { d := .w, a := .any, c := .q, mod := upto 2 } f
  | .reduce f => scanOk { d := .w, a := .any } f
  | .reduceu f => scanOk { d := .s, a := .any } f
  | .xpipe f => FShape.ok { d := .nu, a := .w, b := .any, ty := tyB } f
  | .bcast f => FShape.ok { d := .nu, a := .any, b := .s0, c := .any, ty := tyB } f
  | .bra f => f.sub == 0
  | .braU f => f.sub == 0
  | .brx f => (shJump [0]).ok f
  | .brxU f => (shJump [0]).ok f
  | .call f => f.sub == 1 || f.sub == 2 || f.sub == 3
  | .callx f => (shJump [1, 2, 3]).ok f
  | .ret f => shCtrl.ok f
  | .exit f => shCtrl.ok f
  | .backoff f => shCtrl.ok f
  | .yield f => shCtrl.ok f
  | .syncg f => FShape.ok { shCtrl with sc := upto 2 } f
  | .trap f => f.sub == 0
  | .bkpt f => shCtrl.ok f
  | .nop f => shCtrl.ok f
  | .ldg f => (shLoad (upto 3)).ok f
  | .ldl f => (shLoad [0]).ok f
  | .ldx f => (shLoad [0]).ok f
  | .ldu f => shLdu.ok f
  | .ldv f => (shVec false).ok f && vecOk f
  | .ldvq f => shLdvq.ok f
  | .prefg f => shPrefg.ok f
  | .stg f => (shStore (upto 3)).ok f
  | .stl f => (shStore [0]).ok f
  | .stx f => (shStore [0]).ok f
  | .stv f => (shVec true).ok f && vecOk f
  | .atomg f => atomOk false f
  | .atoml f => atomOk false f
  | .atomx f => atomOk false f
  | .redg f => atomOk true f
  | .redx f => atomOk true f
  | .casg f => casOk f
  | .casl f => casOk f
  | .casx f => casOk f
  | .fenceFull f => (shFence 0).ok f
  | .fenceAcq f => (shFence 1).ok f
  | .fenceRel f => (shFence 2).ok f
  | .cinvL1 f => FShape.ok {} f
  | .cinvLine f => (shLine 1).ok f
  | .cinvCode f => FShape.ok { sub := [2] } f
  | .monarm f => (shLine 5).ok f
  | .monwait f => FShape.ok { d := .w0, a := .any } f
  | .tiledef f => (shTab .s .no .s .s [0]).ok f
  | .tilefree f => (shTab .s0 .s .no .no [0]).ok f
  | .tilest f => (shTab .ws .s .no .no [0]).ok f
  | .tilesetFill f => (shTab .ws0 .s .s0 .no [0]).ok f
  | .tilesetReady f => (shTab .ws0 .s .s0 .no [1]).ok f
  | .tilesetDrain f => (shTab .ws0 .s .s0 .no [2]).ok f
  | .tilesetEmpty f => (shTab .ws0 .s .s0 .no [3]).ok f
  | .tilesetRearm f => (shTab .ws0 .s .s0 .no [4]).ok f
  | .permb f => match f with
    | .pipe f => FShape.ok { shTab .no .s .no .no [0] with mod := upto 4 } f
    | .stream z => ZShape.ok { a := .mreg, mod := upto 4 } z
  | .permld f => match f with
    | .pipe f => (shTab .no .s .s .no [0]).ok f
    | .stream z => ZShape.ok { u1 := true, u2 := true } z
  | .permst f => match f with
    | .pipe f => (shTab .no .s .s .no [0]).ok f
    | .stream z => ZShape.ok { u1 := true, u2 := true } z
  | .patld f => (shTab .no .s .no .no (upto 16)).ok f
  | .patrd f => (shTab .w .ws .no .no (upto 16)).ok f
  | .cbld f => (shTab .no .s .no .no (upto 8)).ok f
  | .lscfg f => (shTab .s0 .s .no .no (upto 3)).ok f
  | .lsst f => (shTab .ws .no .no .no [0]).ok f
  | .mlda z => ZShape.ok { d := .mreg, u1 := true, mod := upto 2 } z
  | .mma z => ZShape.ok { d := .acc, a := .mreg, u1 := true, rf := true, mod := upto 2 } z
  | .mmaConv z => ZShape.ok { d := .acc, a := .mreg, u1 := true, u2 := true, rf := true, n := true } z && z.u2.val ≤ 26
  | .mmas z => ZShape.ok { d := .z, a := .mreg, u1 := true, u2 := true, mod := upto 4 } z
  | .mzflush z => ZShape.ok { d := .acc, a := .z, mod := upto 2 } z
  | .mzclr z => ZShape.ok { d := .z } z
  | .mcvt z => ZShape.ok { a := .acc, u1 := true, u2 := true, rm := true, sub := [0, 1, 2, 3, 7, 9, 12], mod := upto 4 } z &&
    (z.sub.toNat ≤ 3 || z.mod.toNat % 2 == 0)
  | .mstore z => ZShape.ok { a := .acc, u1 := true, mod := upto 4 } z
  | .mzero z => ZShape.ok { d := .acc } z
  | .mbarArr z => ZShape.ok { n := true } z
  | .mbarWait z => ZShape.ok { n := true, mod := upto 2 } z
  | .mwaitt z => ZShape.ok { u1 := true, sub := upto 4 } z
  | .mfence z => ZShape.ok {} z
  | .mend z => ZShape.ok {} z
  | .cpyq f => FShape.ok { strict := true, d := .s0, a := .s, b := .s, lu := false } f && (f.b == .s 0 || f.b == .s 16)
  | .qstat f => FShape.ok { strict := true, d := .ws, a := .ws, ty := [.b64], sub := upto 5, lu := false } f && uniA f
  | .pushq f => FShape.ok { strict := true, d := .ws0, a := .ws } f && uniA f
  | .popq f => FShape.ok { strict := true, d := .ws0, a := .ws } f && uniA f
  | .qcloseOut f => FShape.ok { strict := true, d := .ws0 } f
  | .qcloseLaunch f => FShape.ok { strict := true, d := .ws0, a := .s, sub := [1] } f
  | .launch f => FShape.ok { strict := true, d := .w0, a := .s, b := .ws, ty := [.b64] } f
  | .launchU f => FShape.ok { strict := true, d := .ws0, a := .s, b := .ws, ty := [.b64] } f
  | .svcS f => FShape.ok { strict := true, d := .w0, a := .w, b := .w, ty := [.b64] } f && !f.lu.a && (f.a == .w 0 || f.a == .w 8 || f.a == .w 16)
  | .svcP f => FShape.ok { strict := true, d := .w0, a := .w, b := .w, ty := [.b64] } f && !f.lu.a && (f.a == .w 0 || f.a == .w 8 || f.a == .w 16)
  | .barinit f => FShape.ok { strict := true, a := .s0, b := .s } f
  | .bararrArr f => FShape.ok { strict := true, d := .ws0, a := .s0 } f
  | .bararrTx f => FShape.ok { strict := true, d := .ws0, a := .s0, b := .ws, sub := [1] } f && uniB f
  | .bararrCpl f => FShape.ok { strict := true, d := .ws0, a := .s0, b := .ws, sub := [2] } f && uniB f
  | .barwait f => FShape.ok { strict := true, a := .s0, b := .wsq } f
  | .bartestPh f => FShape.ok { strict := true, d := .wsq, a := .s0, b := .wsq } f
  | .bartestSt f => FShape.ok { strict := true, d := .wsq, a := .s0, sub := [1] } f
  | .cbarinit f => FShape.ok { strict := true, a := .s0, b := .s } f
  | .cbararr f => FShape.ok { strict := true, d := .ws0, a := .s0 } f
  | .cbarwait f => FShape.ok { strict := true, a := .s0, b := .wsq } f
  | .waitc f => FShape.ok { a := .s0, sub := upto 4 } f
  | .rdcnt f => FShape.ok { d := .wsq, a := .s0, ty := tyB, sub := upto 17 } f && !(f.sub == 0 && isUni f.d)
  | .clrcnt f => FShape.ok { d := .ws0, ty := tyB, sub := [2, 3, 4, 5], dw := f.ty == .b64 } f
  | .tlbw f => FShape.ok { strict := true, a := .ws, b := .ws, ty := [.b64] } f
  | .tlbinv f => FShape.ok { strict := true, a := .ws, ty := [.b64], sub := upto 2, sc := [2, 4, 5] } f ||
    FShape.ok { strict := true, ty := [.b64], sub := [2], sc := [2, 4, 5] } f
  | .walkrd f => FShape.ok { strict := true, d := .w, ty := [.b64] } f && (match f.d with | .w i => i.val % 4 == 0 | _ => false)
  | .tretRetry f => FShape.ok { strict := true, a := .ws } f
  | .tretExit f => FShape.ok { strict := true, a := .ws, sub := [1] } f
  | .fpop f => FShape.ok { strict := true, d := .ws } f
  | .fpush f => FShape.ok { strict := true, d := .ws0, a := .ws } f && uniA f
  | .ownhalt f => FShape.ok { strict := true, a := .ws0 } f
  | .sealOut f => FShape.ok { strict := true, d := .ws0, a := .ws, b := .ws, ty := [.b64] } f && uniAB f
  | .sealIn f => FShape.ok { strict := true, d := .ws0, a := .ws, b := .ws, ty := [.b64], sub := [1] } f && uniAB f
  | .sealSize f => FShape.ok { strict := true, d := .ws, a := .ws, ty := [.b64], sub := [2] } f && uniA f
  | .clause _ => true
  | .rep _ _ => true
  | .repRepetition _ _ => true
  | .pair h1 h0 => pairOk h1 h0
  | .longLatencyComplete _ => true
  | .quantumEnd _ => true
  | .backoffExpire _ => true
  | .groupRetire _ => true
  | .completionNotify _ => true
  | .handlerStart _ _ _ => true
  | .walkWindowEnd _ => true
  | .swapOut _ _ => true
  | .defReplenish _ => true
  | .teamPlace _ _ _ => true
  | .teamReenter _ _ => true
  | .stageComplete _ _ => true
  | .stallEnlarge _ => true
  | .commandStart _ => true
  | .packetCopy _ => true
  | .packetGather _ => true
  | .packetQuantise _ => true
  | .packetReduceAdd _ => true
  | .packetScrub _ => true
  | .packetMigrate _ => true
  | .packetDecode _ => true
  | .copyIteration _ => true
  | .commandComplete _ => true
  | .reduceAddDelivery _ => true
  | .qcbResume _ => true
  | .qcbAbandon _ => true
  | .engineReset _ => true
  | .engineResetEnd _ => true
  | .parkedWake _ => true
  | .cometForm _ _ => true
  | .cometReenter _ _ => true
  | .monitorWake _ => true
  | .monwaitTimeout _ => true
  | .monitorLost _ => true
  | .debugHit _ => true
  | .operationAbandon _ _ => true
  | .sealContext _ => true
  | .restore _ _ => true
  | .preempt _ _ => true
  | .sealEvictRequest _ => true
  | .sealBringinRequest _ _ => true
  | .ownerHalt _ => true
  | .driverHalt _ => true
  | .ownerResume _ => true
  | .ownerCreate _ _ _ => true
  | .ownerDestroy _ => true
  | .erasureEnd _ => true
  | .worldChange _ _ => true
  | .allotMapWrite _ _ _ => true
  | .qbindWrite _ _ => true
  | .sringWrite _ _ => true
  | .umaskWrite _ _ _ => true
  | .fwinWrite _ _ _ => true
  | .claimWrite _ _ => true
  | .dbgWrite _ _ _ => true
  | .ownerParamWrite _ _ _ => true
  | .deviceCounterClear _ => true
  | .attestReport _ _ => true
  | .scEventComplete _ => true
  | .scEventForward _ => true
  | .claimTimerExpire _ => true
  | .hostEventAck _ => true
  | .hostWindowWrite _ _ => true
  | .hostLaunchRecord _ => true
  | .hostItemsRecord _ => true
  | .hostCloseRecord _ => true
  | .hostMemRead _ => true
  | .hostMemWrite _ _ => true
  | .backInvalidateComplete _ => true
  | .peerAccess _ _ => true
  | .switchReleaseAck _ _ => true
  | .linkReplay _ _ => true
  | .linkRetrain _ => true
  | .linkDown _ => true
  | .expanderDown _ => true
  | .hostLinkRetrain => true
  | .hbmRateSwitch _ _ => true
  | .rowHammerLimit _ _ => true
  | .rowRefresh _ => true
  | .hbmChannelReset _ => true
  | .serviceCoreReset _ => true
  | .coreWatchdog _ => true
  | .tc0ShareWindow => true
  | .thermalStepDown _ _ => true
  | .thermalStepUp _ _ => true
  | .thermalTrip _ _ => true
  | .powerGood => true
  | .powerLoss => true
  | .matrixWordComplete _ => true
  | .storePerformed _ => true
  | .serviceCoreAccess _ _ => true
  | .linkRetrained _ => true
  | .recoveryWindowWrite _ => true

end Sys2Proof.Machine
end

