-- ==== Sys2Proof/Decode.lean ====
section
/-! DEFINITION. The decoder of 64-bit words (R25..R31, R33, R36, R37, R41, R48, R51, R53, R55, R131, R205, R247), total on
any bytes, and the encoder, both written from the spec's layouts. `none` is a rejection: the word is illegal by steps 1 to 4
of R53, or a prefix stands before a word that it may not stand before (R49, R51). -/

namespace Sys2Proof

open Machine

/-! ### Codes -/

/-- The special registers by their codes 0x50..0x5F (R31). -/
def sregs : List SReg :=
  [.lane, .group, .team, .tpos, .cluster, .core, .owner, .depth, .pc, .repix, .frec, .spillbase, .spilltop, .world, .stage,
   .clock]

/-- The 7-bit code of an operand (R30). -/
def opdCode : Opd → BitVec 7
  | .w i => BitVec.ofNat 7 i.val
  | .s i => BitVec.ofNat 7 (0x20 + i.val)
  | .q i => BitVec.ofNat 7 (0x40 + i.val)
  | .sr r => BitVec.ofNat 7 (0x50 + sregs.findIdx (fun x => x == r))
  | .m i => BitVec.ofNat 7 (0x60 + i.val)
  | .zero => 0x7F

/-- The operand of a 7-bit code, where it is not reserved (R30). -/
def opdOf (c : BitVec 7) : Option Opd :=
  let n := c.toNat
  if n < 0x20 then some (.w (Fin.ofNat 32 n))
  else if n < 0x40 then some (.s (Fin.ofNat 32 (n - 0x20)))
  else if n < 0x48 then some (.q (Fin.ofNat 8 (n - 0x40)))
  else if n < 0x50 then none
  else if n < 0x60 then sregs[n - 0x50]?.map .sr
  else if n < 0x70 then some (.m (Fin.ofNat 16 (n - 0x60)))
  else if n = 0x7F then some .zero
  else none

/-- The 7-bit code of a matrix operand (R247). -/
def mopdCode : MOpd → BitVec 7
  | .acc i => BitVec.ofNat 7 i.val
  | .z i => BitVec.ofNat 7 (0x10 + i.val)
  | .m i => BitVec.ofNat 7 (0x60 + i.val)
  | .none => 0x7F

/-- The matrix operand of a 7-bit code (R247). -/
def mopdOf (c : BitVec 7) : Option MOpd :=
  let n := c.toNat
  if n < 0x10 then some (.acc (Fin.ofNat 16 n))
  else if n < 0x12 then some (.z (Fin.ofNat 2 (n - 0x10)))
  else if 0x60 ≤ n ∧ n < 0x70 then some (.m (Fin.ofNat 16 (n - 0x60)))
  else if n = 0x7F then some .none
  else none

/-- A bit of one bit's width. -/
def bit1 (b : Bool) : BitVec 1 := if b then 1 else 0

/-- The three last-use bits as a field, a's highest (R27). -/
def luBits (l : LastUse) : BitVec 3 := bit1 l.a ++ bit1 l.b ++ bit1 l.c

/-- The last-use bits of a field. -/
def luOf (x : BitVec 3) : LastUse := ⟨x.getLsbD 2, x.getLsbD 1, x.getLsbD 0⟩

/-- The pairable map (R37); 0x17 is reserved, and so is every code from 0x30 on. -/
def halfOps : List (Option HalfOp) :=
  [some .nop, some .iadd, some .isub, some .irsb, some .iaddi, some .imin, some .imax, some .iabs,
   some .and, some .andi, some .or, some .ori, some .xor, some .xori, some .not, some .brev,
   some .shl, some .shli, some .shr, some .shri, some .popc, some .clz, some .imul, none,
   some .mov, some .movi, some .sel, some .imuli, some .iadds, some .isubs, some .irsbi, some .movu,
   some .fadd, some .fsub, some .fmul, some .ffma, some .fmin, some .fmax, some .fabs, some .fneg,
   some .hadd, some .hsub, some .hmul, some .hfma, some .hmin, some .hmax, some .habs, some .hneg]

/-- The pty codes of a half (R36). -/
def halfTys : List Ty := [.s32, .n32, .b32, .f32, .h2, .bh2, .s16x2, .s8x4]

/-! ### The F-form (R27) -/

/-- The fields of an F-form word below its kind bit, without bits 3:0 (R27). -/
structure RawF where
  op : BitVec 8
  guard : Guard
  d : BitVec 7
  a : BitVec 7
  b : BitVec 7
  c : BitVec 7
  lu : BitVec 3
  ty : BitVec 4
  sc : BitVec 3
  sub : BitVec 5
  mod : BitVec 4
deriving DecidableEq, Repr

/-- The word of the fields of an F-form (R27). -/
def packRaw (r : RawF) : DWord :=
  (0 : BitVec 1) ++ r.op ++ bit1 r.guard.pn ++ BitVec.ofNat 3 r.guard.pq.val ++ r.d ++ r.a ++ r.b ++ r.c ++ r.lu ++ r.ty ++
    r.sc ++ r.sub ++ r.mod ++ (0 : BitVec 4)

/-- The fields of an F-form word (R27). -/
def rawOf (w : DWord) : RawF :=
  { op := w.extractLsb' 55 8
    guard := ⟨w.getLsbD 54, Fin.ofNat 8 (w.extractLsb' 51 3).toNat⟩
    d := w.extractLsb' 44 7
    a := w.extractLsb' 37 7
    b := w.extractLsb' 30 7
    c := w.extractLsb' 23 7
    lu := w.extractLsb' 20 3
    ty := w.extractLsb' 16 4
    sc := w.extractLsb' 13 3
    sub := w.extractLsb' 8 5
    mod := w.extractLsb' 4 4 }

/-- The fields of a register word (R27). -/
def rawFWord (op : BitVec 8) (f : FWord) : RawF :=
  { op, guard := f.guard, d := opdCode f.d, a := opdCode f.a, b := opdCode f.b, c := opdCode f.c, lu := luBits f.lu
    ty := BitVec.ofNat 4 (tyCode f.ty), sc := f.sc, sub := f.sub, mod := f.mod }

/-- The register word of fields whose codes are not reserved. -/
def fwordOf (r : RawF) : Option FWord :=
  match opdOf r.d, opdOf r.a, opdOf r.b, opdOf r.c, tyOfCode r.ty.toNat with
  | some d, some a, some b, some c, some ty =>
    some { guard := r.guard, d, a, b, c, lu := luOf r.lu, ty, sc := r.sc, sub := r.sub, mod := r.mod }
  | _, _, _, _, _ => none

/-- The fields of an immediate form: imm[17:4] in bits 36:23, imm[3:0] in bits 7:4 (R28). -/
def rawIWord (op : BitVec 8) (f : IWord) : RawF :=
  { op, guard := f.guard, d := opdCode f.d, a := opdCode f.a, b := f.imm.extractLsb' 11 7, c := f.imm.extractLsb' 4 7
    lu := bit1 f.lua ++ (0 : BitVec 2), ty := BitVec.ofNat 4 (tyCode f.ty), sc := 0, sub := f.sub, mod := f.imm.extractLsb' 0 4 }

/-- The immediate form of fields; last-use bits 21 and 20 and sc are zero (R28, R97). -/
def iwordOf (ext : Option (BitVec 46)) (r : RawF) : Option IWord :=
  match opdOf r.d, opdOf r.a, tyOfCode r.ty.toNat with
  | some d, some a, some ty =>
    if r.lu.extractLsb' 0 2 = 0 ∧ r.sc = 0 then
      some { guard := r.guard, d, a, lua := r.lu.getLsbD 2, ty, sub := r.sub, imm := r.b ++ r.c ++ r.mod, ext }
    else none
  | _, _, _ => none

/-- The fields of an offset form (R131). -/
def rawOWord (op : BitVec 8) (f : OffWord) : RawF :=
  { op, guard := f.guard, d := 0x7F, a := 0x7F, b := f.off.extractLsb' 11 7, c := f.off.extractLsb' 4 7, lu := 0, ty := 0
    sc := 0, sub := f.sub, mod := f.off.extractLsb' 0 4 }

/-- The offset form of fields. -/
def owordOf (r : RawF) : Option OffWord :=
  if r.d = 0x7F ∧ r.a = 0x7F ∧ r.lu = 0 ∧ r.ty = 0 ∧ r.sc = 0 then
    some { guard := r.guard, sub := r.sub, off := r.b ++ r.c ++ r.mod }
  else none

/-- The fields of a memory form; a store has its data in c and its displacement in d, any other the reverse (R205). -/
def rawMWord (store : Bool) (op : BitVec 8) (f : MWord) : RawF :=
  { op, guard := f.guard, d := if store then f.disp else opdCode f.r, a := opdCode f.base, b := opdCode f.index
    c := if store then opdCode f.r else f.disp, lu := luBits f.lu, ty := BitVec.ofNat 4 (tyCode f.ty), sc := f.sc, sub := f.sub
    mod := f.mod }

/-- The memory form of fields. -/
def mwordOf (store : Bool) (r : RawF) : Option MWord :=
  match opdOf (if store then r.c else r.d), opdOf r.a, opdOf r.b, tyOfCode r.ty.toNat with
  | some x, some base, some index, some ty =>
    some { guard := r.guard, r := x, base, index, disp := if store then r.d else r.c, lu := luOf r.lu, ty, sc := r.sc
           sub := r.sub, mod := r.mod }
  | _, _, _, _ => none

/-! ### Matrix-stream words (R247) -/

/-- The word of a matrix form. -/
def packZ (op : BitVec 8) (z : ZWord) : DWord :=
  (0 : BitVec 1) ++ op ++ (0 : BitVec 1) ++ (7 : BitVec 3) ++ mopdCode z.d ++ mopdCode z.a ++ BitVec.ofNat 5 z.u1.val ++
    BitVec.ofNat 5 z.u2.val ++ (0 : BitVec 5) ++ bit1 z.rf ++ z.n ++ z.rm ++ z.sub ++ z.mod ++ (0 : BitVec 4)

/-- The matrix form of a word: pn is 0, pq is 7 and u3 is 0 (R247). -/
def zwordOf (w : DWord) : Option ZWord :=
  match mopdOf (w.extractLsb' 44 7), mopdOf (w.extractLsb' 37 7) with
  | some d, some a =>
    if w.extractLsb' 51 4 = 7 ∧ w.extractLsb' 22 5 = 0 then
      some { d, a, u1 := Fin.ofNat 32 (w.extractLsb' 32 5).toNat, u2 := Fin.ofNat 32 (w.extractLsb' 27 5).toNat
             rf := w.getLsbD 21, n := w.extractLsb' 15 6, rm := w.extractLsb' 12 3, sub := w.extractLsb' 8 4
             mod := w.extractLsb' 4 4 }
    else none
  | _, _ => none

/-! ### The opcode map (R55) -/

/-- The register words of row 0x0_ of the opcode map (R55). -/
def fRow0 (lo _ : Nat) : Option (FWord → Instr) :=
  match lo with
  | 0 => some .iadd
  | 2 => some .isub
  | 4 => some .imul
  | 6 => some .imulhi
  | 7 => some .imad
  | 8 => some .imadw
  | 9 => some .imin
  | 10 => some .imax
  | 11 => some .iabs
  | 12 => some .iadds
  | 13 => some .isubs
  | 14 => some .lea
  | _ => none

/-- The register words of row 0x1_ of the opcode map (R55). -/
def fRow1 (lo _ : Nat) : Option (FWord → Instr) :=
  match lo with
  | 0 => some .and
  | 2 => some .or
  | 4 => some .xor
  | 6 => some .not
  | 7 => some .shl
  | 9 => some .shr
  | 11 => some .dsh
  | 12 => some .bfe
  | 13 => some .bfi
  | 14 => some .popc
  | 15 => some .clz
  | _ => none

/-- The register words of row 0x2_ of the opcode map (R55). -/
def fRow2 (lo _ : Nat) : Option (FWord → Instr) :=
  match lo with
  | 0 => some .icmp
  | 2 => some .fcmp
  | 3 => some .plog
  | 4 => some .sel
  | 6 => some .mov
  | 8 => some .movu
  | 9 => some .vote
  | 10 => some .ballot
  | 11 => some .matchT
  | 12 => some .prmt
  | 13 => some .brev
  | _ => none

/-- The register words of row 0x3_ of the opcode map (R55). -/
def fRow3 (lo _ : Nat) : Option (FWord → Instr) :=
  match lo with
  | 0 => some .fadd
  | 1 => some .fsub
  | 2 => some .fmul
  | 3 => some .ffma
  | 4 => some .fmin
  | 5 => some .fmax
  | 6 => some .fclamp
  | 7 => some .frcp
  | 8 => some .frsq
  | 9 => some .fex2
  | 10 => some .flg2
  | 11 => some .fsin
  | 12 => some .fcos
  | 13 => some .fround
  | 14 => some .fabs
  | 15 => some .fneg
  | _ => none

/-- The register words of row 0x4_ of the opcode map (R55). -/
def fRow4 (lo _ : Nat) : Option (FWord → Instr) :=
  match lo with
  | 0 => some .hadd
  | 1 => some .hsub
  | 2 => some .hmul
  | 3 => some .hfma
  | 4 => some .hmin
  | 5 => some .hmax
  | 6 => some .habs
  | 7 => some .hneg
  | 8 => some .hdot2
  | 9 => some .lmul
  | 10 => some .ladd
  | _ => none

/-- The register words of row 0x5_ of the opcode map (R55). -/
def fRow5 (lo sub : Nat) : Option (FWord → Instr) :=
  match lo with
  | 0 => some .cvt
  | 1 => some .cvtl
  | 2 => some .cvtn
  | 3 => some .cvtw
  | 4 => some .deq
  | 5 => match sub with
    | 0 => some .bdotDb4
    | 1 => some .bdotMxfp4
    | 2 => some .bdotTsc
    | _ => none
  | 6 => some .qblk
  | _ => none

/-- The register words of row 0x6_ of the opcode map (R55). -/
def fRow6 (lo _ : Nat) : Option (FWord → Instr) :=
  match lo with
  | 0 => some .shfl
  | 1 => some .shflx
  | 2 => some .xbar
  | 3 => some .scan
  | 4 => some .scanseg
  | 5 => some .reduce
  | 6 => some .reduceu
  | 7 => some .xpipe
  | 8 => some .bcast
  | _ => none

/-- The register words of row 0x7_ of the opcode map (R55). -/
def fRow7 (lo _ : Nat) : Option (FWord → Instr) :=
  match lo with
  | 2 => some .brx
  | 3 => some .brxU
  | 5 => some .callx
  | 6 => some .ret
  | 7 => some .exit
  | 8 => some .backoff
  | 9 => some .yield
  | 10 => some .syncg
  | 12 => some .bkpt
  | 13 => some .nop
  | _ => none

/-- The register words of row 0xA_ of the opcode map (R55). -/
def fRowA (lo sub : Nat) : Option (FWord → Instr) :=
  match lo with
  | 0 => some .atomg
  | 1 => some .atoml
  | 2 => some .atomx
  | 3 => some .redg
  | 4 => some .redx
  | 5 => some .casg
  | 6 => some .casl
  | 7 => some .casx
  | 8 => match sub with
    | 0 => some .fenceFull
    | 1 => some .fenceAcq
    | 2 => some .fenceRel
    | _ => none
  | 9 => match sub with
    | 0 => some .cinvL1
    | 2 => some .cinvCode
    | _ => none
  | 11 => some .monwait
  | _ => none

/-- The register words of row 0xB_ of the opcode map (R55). -/
def fRowB (lo sub : Nat) : Option (FWord → Instr) :=
  match lo with
  | 0 => some .tiledef
  | 1 => some .tilefree
  | 2 => some .tilest
  | 3 => match sub with
    | 0 => some .tilesetFill
    | 1 => some .tilesetReady
    | 2 => some .tilesetDrain
    | 3 => some .tilesetEmpty
    | 4 => some .tilesetRearm
    | _ => none
  | 7 => some .patld
  | 8 => some .patrd
  | 9 => some .cbld
  | 10 => some .lscfg
  | 11 => some .lsst
  | 4 => some (fun f => .permb (.pipe f))
  | 5 => some (fun f => .permld (.pipe f))
  | 6 => some (fun f => .permst (.pipe f))
  | _ => none

/-- The register words of row 0xD_ of the opcode map (R55). -/
def fRowD (lo sub : Nat) : Option (FWord → Instr) :=
  match lo with
  | 0 => some .cpyq
  | 1 => some .qstat
  | 2 => some .pushq
  | 3 => some .popq
  | 4 => match sub with
    | 0 => some .qcloseOut
    | 1 => some .qcloseLaunch
    | _ => none
  | 5 => some .launch
  | 6 => some .launchU
  | 7 => some .svcS
  | 8 => some .svcP
  | _ => none

/-- The register words of row 0xE_ of the opcode map (R55). -/
def fRowE (lo sub : Nat) : Option (FWord → Instr) :=
  match lo with
  | 0 => some .barinit
  | 1 => match sub with
    | 0 => some .bararrArr
    | 1 => some .bararrTx
    | 2 => some .bararrCpl
    | _ => none
  | 2 => some .barwait
  | 3 => match sub with
    | 0 => some .bartestPh
    | 1 => some .bartestSt
    | _ => none
  | 4 => some .cbarinit
  | 5 => some .cbararr
  | 6 => some .cbarwait
  | 7 => some .waitc
  | 8 => some .rdcnt
  | 9 => some .clrcnt
  | _ => none

/-- The register words of row 0xF_ of the opcode map (R55). -/
def fRowF (lo sub : Nat) : Option (FWord → Instr) :=
  match lo with
  | 0 => some .tlbw
  | 1 => some .tlbinv
  | 2 => some .walkrd
  | 3 => match sub with
    | 0 => some .tretRetry
    | 1 => some .tretExit
    | _ => none
  | 4 => some .fpop
  | 5 => some .fpush
  | 6 => some .ownhalt
  | 7 => match sub with
    | 0 => some .sealOut
    | 1 => some .sealIn
    | 2 => some .sealSize
    | _ => none
  | _ => none

/-- The register words of the opcode map (R55), by opcode and sub. -/
def fCon (op sub : Nat) : Option (FWord → Instr) :=
  let lo := op % 16
  match op / 16 with
  | 0x0 => fRow0 lo sub
  | 0x1 => fRow1 lo sub
  | 0x2 => fRow2 lo sub
  | 0x3 => fRow3 lo sub
  | 0x4 => fRow4 lo sub
  | 0x5 => fRow5 lo sub
  | 0x6 => fRow6 lo sub
  | 0x7 => fRow7 lo sub
  | 0xA => fRowA lo sub
  | 0xB => fRowB lo sub
  | 0xD => fRowD lo sub
  | 0xE => fRowE lo sub
  | 0xF => fRowF lo sub
  | _ => none

/-- The immediate forms of the opcode map (R28, R55). -/
def iCon (op : Nat) : Option (IWord → Instr) :=
  match op with
  | 0x01 => some .iaddi
  | 0x03 => some .irsbi
  | 0x05 => some .imuli
  | 0x0F => some .leai
  | 0x11 => some .andi
  | 0x13 => some .ori
  | 0x15 => some .xori
  | 0x18 => some .shli
  | 0x1A => some .shri
  | 0x21 => some .icmpi
  | 0x25 => some .seli
  | 0x27 => some .movi
  | _ => none

/-- The offset forms (R131). -/
def oCon (op : Nat) : Option (OffWord → Instr) :=
  match op with
  | 0x70 => some .bra
  | 0x71 => some .braU
  | 0x74 => some .call
  | 0x7B => some .trap
  | _ => none

/-- The memory forms (R205); CINV.line is CINV with sub 1 (R222). -/
def mCon (op sub : Nat) : Option (MWord → Instr) :=
  match op with
  | 0x80 => some .ldg
  | 0x81 => some .ldl
  | 0x82 => some .ldx
  | 0x83 => some .ldu
  | 0x84 => some .ldv
  | 0x85 => some .ldvq
  | 0x86 => some .prefg
  | 0x90 => some .stg
  | 0x91 => some .stl
  | 0x92 => some .stx
  | 0x93 => some .stv
  | 0xA9 => match sub with
    | 1 => some .cinvLine
    | _ => none
  | 0xAA => some .monarm
  | _ => none

/-- The words of a matrix stream (R248, R264). -/
def zCon (op : Nat) : Option (ZWord → Instr) :=
  match op with
  | 0xB4 => some (fun z => .permb (.stream z))
  | 0xB5 => some (fun z => .permld (.stream z))
  | 0xB6 => some (fun z => .permst (.stream z))
  | 0xC0 => some .mlda
  | 0xC1 => some .mma
  | 0xC2 => some .mmaConv
  | 0xC3 => some .mmas
  | 0xC4 => some .mzflush
  | 0xC5 => some .mzclr
  | 0xC6 => some .mcvt
  | 0xC7 => some .mstore
  | 0xC8 => some .mzero
  | 0xC9 => some .mbarArr
  | 0xCA => some .mbarWait
  | 0xCB => some .mwaitt
  | 0xCC => some .mfence
  | 0xCD => some .mend
  | _ => none

/-- How the fields of a pipe word are laid out, by opcode and sub. -/
inductive Layout
  | reg | imm | off | load | store
deriving DecidableEq, Repr

/-- The layout of an opcode (R28, R131, R205). -/
def layoutOf (op sub : Nat) : Layout :=
  if (iCon op).isSome then .imm
  else if (oCon op).isSome then .off
  else if op / 16 = 9 then .store
  else if (mCon op sub).isSome then .load
  else .reg

/-- A pipe word before its checks: an IMMX extension belongs to an immediate form only (R51). -/
def pipeWord (ext : Option (BitVec 46)) (r : RawF) : Option Instr :=
  let op := r.op.toNat
  let sub := r.sub.toNat
  match layoutOf op sub with
  | .imm => (iCon op).bind (fun k => (iwordOf ext r).map k)
  | .off => if ext.isNone then (oCon op).bind (fun k => (owordOf r).map k) else none
  | .load => if ext.isNone then (mCon op sub).bind (fun k => (mwordOf false r).map k) else none
  | .store => if ext.isNone then (mCon op sub).bind (fun k => (mwordOf true r).map k) else none
  | .reg => if ext.isNone then (fCon op sub).bind (fun k => (fwordOf r).map k) else none

/-- An F-form word of a pipe's program or of a matrix stream: bits 3:0 are zero, and the instruction passes its checks. -/
def decodeF (stream : Bool) (ext : Option (BitVec 46)) (w : DWord) : Option Instr :=
  if w.extractLsb' 0 4 ≠ 0 then none
  else
    let i := if stream then (zCon (w.extractLsb' 55 8).toNat).bind (fun k => (zwordOf w).map k) else pipeWord ext (rawOf w)
    i.filter formOk

/-! ### The P-form (R36) -/

/-- A half's 31 bits. -/
def packHalf (h : Half) : BitVec 31 :=
  BitVec.ofNat 6 (halfOps.findIdx (fun x => x == some h.op)) ++ BitVec.ofNat 3 h.pq.val ++ h.d ++ h.a ++ bit1 h.lu ++
    BitVec.ofNat 3 (halfTys.findIdx (fun x => x == h.pty)) ++ h.m6

/-- The half of 31 bits, where its op6 is not reserved. -/
def halfOf (x : BitVec 31) : Option Half :=
  match halfOps[(x.extractLsb' 25 6).toNat]?, halfTys[(x.extractLsb' 6 3).toNat]? with
  | some (some op), some pty =>
    some { op, pq := Fin.ofNat 8 (x.extractLsb' 22 3).toNat, d := x.extractLsb' 16 6, a := x.extractLsb' 10 6
           lu := x.getLsbD 9, pty, m6 := x.extractLsb' 0 6 }
  | _, _ => none

/-- The word of two halves: half 1 in bits 61:31 (R36). -/
def packPair (h1 h0 : Half) : DWord := (2 : BitVec 2) ++ packHalf h1 ++ packHalf h0

/-- A P-form word. -/
def decodeP (w : DWord) : Option Instr :=
  match halfOf (w.extractLsb' 31 31), halfOf (w.extractLsb' 0 31) with
  | some h1, some h0 => if pairOk h1 h0 then some (.pair h1 h0) else none
  | _, _ => none

/-! ### The H-form and the prefixes (R41, R48) -/

/-- A flag assignment's five bits: valid, and the number (R41). -/
def packFlag : FlagSet → BitVec 5
  | none => 0
  | some k => (1 : BitVec 1) ++ BitVec.ofNat 4 k.val

/-- The flag assignment of five bits. -/
def flagOf (x : BitVec 5) : FlagSet := if x.getLsbD 4 then some (Fin.ofNat 16 (x.extractLsb' 0 4).toNat) else none

/-- The word of a clause header. -/
def packH (h : HWord) : DWord :=
  (6 : BitVec 3) ++ h.wait ++ packFlag h.seta ++ packFlag h.setb ++ h.len ++ (0 : BitVec 34)

/-- An H-form word: bits 33:0 are zero; what R46 forbids is raised at issue. -/
def decodeH (w : DWord) : Option Instr :=
  if w.extractLsb' 0 34 = 0 then
    some (.clause { wait := w.extractLsb' 49 12, seta := flagOf (w.extractLsb' 44 5), setb := flagOf (w.extractLsb' 39 5)
                    len := w.extractLsb' 34 5 })
  else none

/-- The word of a REP prefix (R48). -/
def packRep (p : RepPrefix) : DWord := (0x38 : BitVec 6) ++ p.count ++ p.sd ++ p.sa ++ p.sb ++ p.sc ++ (0 : BitVec 42)

/-- The REP prefix of a word. -/
def repOf (w : DWord) : RepPrefix :=
  { count := w.extractLsb' 50 8, sd := w.extractLsb' 48 2, sa := w.extractLsb' 46 2, sb := w.extractLsb' 44 2
    sc := w.extractLsb' 42 2 }

/-- The word of an IMMX prefix (R48). -/
def packImmx (e : BitVec 46) : DWord := (0x39 : BitVec 6) ++ (0 : BitVec 12) ++ e

/-- Whether a REP stride may stand on a field: a field of its word's layout that holds a window or uniform register (R49). -/
def strideOk (stride : BitVec 2) (isOperand : Bool) (code : BitVec 7) : Bool :=
  stride == 0 || (isOperand && code.toNat < 0x40)

/-- Whether a word may stand after a REP with a nonzero count: an F-form word of a pipe but a control-flow word (R49, R131),
legal itself, with each stride on a field that holds a register (R53). -/
def repBodyOk (p : RepPrefix) (body : DWord) : Bool :=
  let r := rawOf body
  let l := layoutOf r.op.toNat r.sub.toNat
  !body.getLsbD 63 && r.op.toNat / 16 != 7 && (decodeF false none body).isSome &&
  strideOk p.sd (l != .store) r.d && strideOk p.sa true r.a && strideOk p.sb (l != .imm) r.b &&
  strideOk p.sc (l == .reg || l == .store) r.c

/-! ### Instructions -/

/-- The instruction at a word, the word after it, and the bytes that it occupies (R25, R26, R48). In a matrix stream only
F-form words are legal (R51, R53). -/
def decodeWords (stream : Bool) (w next : DWord) : Option (Instr × Nat) :=
  match (w.extractLsb' 61 3).toNat with
  | 4 => if stream then none else (decodeP w).map (·, 8)
  | 5 => if stream then none else (decodeP w).map (·, 8)
  | 6 => if stream then none else (decodeH w).map (·, 8)
  | 7 =>
    if stream then none
    else if w.extractLsb' 58 6 = 0x38 ∧ w.extractLsb' 0 42 = 0 then
      if w.extractLsb' 50 8 = 0 ∨ repBodyOk (repOf w) next then some (.rep (repOf w) next, 16) else none
    else if w.extractLsb' 58 6 = 0x39 ∧ w.extractLsb' 46 12 = 0 then
      if next.getLsbD 63 then none else (decodeF false (some (w.extractLsb' 0 46)) next).map (·, 16)
    else none
  | _ => (decodeF stream none w).map (·, 8)

/-- The 64-bit word of eight bytes, lowest first (R25). -/
def wordOf (bs : List Byte) : DWord := BitVec.ofNat 64 (leNat (bs.take 8))

/-- Whether a word is a prefix, so that the instruction goes on in the next word. -/
def isPrefix (w : DWord) : Bool := w.extractLsb' 61 3 == 7

/-- DECODE: the instruction at the head of some bytes, and the bytes after it; `none` where they hold none. -/
def decode (stream : Bool) (bs : List Byte) : Option (Instr × List Byte) :=
  let w := wordOf bs
  if bs.length < 8 ∨ (isPrefix w ∧ bs.length < 16) then none
  else (decodeWords stream w (wordOf (bs.drop 8))).map (fun r => (r.1, bs.drop r.2))

/-! ### The encoder -/

/-- The word of a register form (R27). -/
def packF (op : BitVec 8) (f : FWord) : DWord := packRaw (rawFWord op f)

/-- The words of an immediate form: an IMMX prefix where it has an extension (R28, R51). -/
def packI (op : BitVec 8) (f : IWord) : List DWord :=
  match f.ext with
  | none => [packRaw (rawIWord op f)]
  | some e => [packImmx e, packRaw (rawIWord op f)]

/-- The word of an offset form (R131). -/
def packO (op : BitVec 8) (f : OffWord) : DWord := packRaw (rawOWord op f)

/-- The word of a load or another memory form with its displacement in c (R205). -/
def packL (op : BitVec 8) (f : MWord) : DWord := packRaw (rawMWord false op f)

/-- The word of a store (R205). -/
def packS (op : BitVec 8) (f : MWord) : DWord := packRaw (rawMWord true op f)

/-- The word of a permutation form, in a pipe's program or in a stream (R153, R264). -/
def packPerm (op : BitVec 8) (w : PermWord) : DWord :=
  match w with
  | .pipe f => packF op f
  | .stream z => packZ op z

/-- ENCODE: the words of an instruction; an event has none. -/
def encode : Instr → List DWord
  | .iadd f => [packF 0x00 f]
  | .iaddi f => packI 0x01 f
  | .isub f => [packF 0x02 f]
  | .irsbi f => packI 0x03 f
  | .imul f => [packF 0x04 f]
  | .imuli f => packI 0x05 f
  | .imulhi f => [packF 0x06 f]
  | .imad f => [packF 0x07 f]
  | .imadw f => [packF 0x08 f]
  | .imin f => [packF 0x09 f]
  | .imax f => [packF 0x0A f]
  | .iabs f => [packF 0x0B f]
  | .iadds f => [packF 0x0C f]
  | .isubs f => [packF 0x0D f]
  | .lea f => [packF 0x0E f]
  | .leai f => packI 0x0F f
  | .and f => [packF 0x10 f]
  | .andi f => packI 0x11 f
  | .or f => [packF 0x12 f]
  | .ori f => packI 0x13 f
  | .xor f => [packF 0x14 f]
  | .xori f => packI 0x15 f
  | .not f => [packF 0x16 f]
  | .shl f => [packF 0x17 f]
  | .shli f => packI 0x18 f
  | .shr f => [packF 0x19 f]
  | .shri f => packI 0x1A f
  | .dsh f => [packF 0x1B f]
  | .bfe f => [packF 0x1C f]
  | .bfi f => [packF 0x1D f]
  | .popc f => [packF 0x1E f]
  | .clz f => [packF 0x1F f]
  | .icmp f => [packF 0x20 f]
  | .icmpi f => packI 0x21 f
  | .fcmp f => [packF 0x22 f]
  | .plog f => [packF 0x23 f]
  | .sel f => [packF 0x24 f]
  | .seli f => packI 0x25 f
  | .mov f => [packF 0x26 f]
  | .movi f => packI 0x27 f
  | .movu f => [packF 0x28 f]
  | .vote f => [packF 0x29 f]
  | .ballot f => [packF 0x2A f]
  | .matchT f => [packF 0x2B f]
  | .prmt f => [packF 0x2C f]
  | .brev f => [packF 0x2D f]
  | .fadd f => [packF 0x30 f]
  | .fsub f => [packF 0x31 f]
  | .fmul f => [packF 0x32 f]
  | .ffma f => [packF 0x33 f]
  | .fmin f => [packF 0x34 f]
  | .fmax f => [packF 0x35 f]
  | .fclamp f => [packF 0x36 f]
  | .frcp f => [packF 0x37 f]
  | .frsq f => [packF 0x38 f]
  | .fex2 f => [packF 0x39 f]
  | .flg2 f => [packF 0x3A f]
  | .fsin f => [packF 0x3B f]
  | .fcos f => [packF 0x3C f]
  | .fround f => [packF 0x3D f]
  | .fabs f => [packF 0x3E f]
  | .fneg f => [packF 0x3F f]
  | .hadd f => [packF 0x40 f]
  | .hsub f => [packF 0x41 f]
  | .hmul f => [packF 0x42 f]
  | .hfma f => [packF 0x43 f]
  | .hmin f => [packF 0x44 f]
  | .hmax f => [packF 0x45 f]
  | .habs f => [packF 0x46 f]
  | .hneg f => [packF 0x47 f]
  | .hdot2 f => [packF 0x48 f]
  | .lmul f => [packF 0x49 f]
  | .ladd f => [packF 0x4A f]
  | .cvt f => [packF 0x50 f]
  | .cvtl f => [packF 0x51 f]
  | .cvtn f => [packF 0x52 f]
  | .cvtw f => [packF 0x53 f]
  | .deq f => [packF 0x54 f]
  | .bdotDb4 f => [packF 0x55 f]
  | .bdotMxfp4 f => [packF 0x55 f]
  | .bdotTsc f => [packF 0x55 f]
  | .qblk f => [packF 0x56 f]
  | .shfl f => [packF 0x60 f]
  | .shflx f => [packF 0x61 f]
  | .xbar f => [packF 0x62 f]
  | .scan f => [packF 0x63 f]
  | .scanseg f => [packF 0x64 f]
  | .reduce f => [packF 0x65 f]
  | .reduceu f => [packF 0x66 f]
  | .xpipe f => [packF 0x67 f]
  | .bcast f => [packF 0x68 f]
  | .bra f => [packO 0x70 f]
  | .braU f => [packO 0x71 f]
  | .brx f => [packF 0x72 f]
  | .brxU f => [packF 0x73 f]
  | .call f => [packO 0x74 f]
  | .callx f => [packF 0x75 f]
  | .ret f => [packF 0x76 f]
  | .exit f => [packF 0x77 f]
  | .backoff f => [packF 0x78 f]
  | .yield f => [packF 0x79 f]
  | .syncg f => [packF 0x7A f]
  | .trap f => [packO 0x7B f]
  | .bkpt f => [packF 0x7C f]
  | .nop f => [packF 0x7D f]
  | .ldg f => [packL 0x80 f]
  | .ldl f => [packL 0x81 f]
  | .ldx f => [packL 0x82 f]
  | .ldu f => [packL 0x83 f]
  | .ldv f => [packL 0x84 f]
  | .ldvq f => [packL 0x85 f]
  | .prefg f => [packL 0x86 f]
  | .stg f => [packS 0x90 f]
  | .stl f => [packS 0x91 f]
  | .stx f => [packS 0x92 f]
  | .stv f => [packS 0x93 f]
  | .atomg f => [packF 0xA0 f]
  | .atoml f => [packF 0xA1 f]
  | .atomx f => [packF 0xA2 f]
  | .redg f => [packF 0xA3 f]
  | .redx f => [packF 0xA4 f]
  | .casg f => [packF 0xA5 f]
  | .casl f => [packF 0xA6 f]
  | .casx f => [packF 0xA7 f]
  | .fenceFull f => [packF 0xA8 f]
  | .fenceAcq f => [packF 0xA8 f]
  | .fenceRel f => [packF 0xA8 f]
  | .cinvL1 f => [packF 0xA9 f]
  | .cinvLine f => [packL 0xA9 f]
  | .cinvCode f => [packF 0xA9 f]
  | .monarm f => [packL 0xAA f]
  | .monwait f => [packF 0xAB f]
  | .tiledef f => [packF 0xB0 f]
  | .tilefree f => [packF 0xB1 f]
  | .tilest f => [packF 0xB2 f]
  | .tilesetFill f => [packF 0xB3 f]
  | .tilesetReady f => [packF 0xB3 f]
  | .tilesetDrain f => [packF 0xB3 f]
  | .tilesetEmpty f => [packF 0xB3 f]
  | .tilesetRearm f => [packF 0xB3 f]
  | .permb w => [packPerm 0xB4 w]
  | .permld w => [packPerm 0xB5 w]
  | .permst w => [packPerm 0xB6 w]
  | .patld f => [packF 0xB7 f]
  | .patrd f => [packF 0xB8 f]
  | .cbld f => [packF 0xB9 f]
  | .lscfg f => [packF 0xBA f]
  | .lsst f => [packF 0xBB f]
  | .mlda z => [packZ 0xC0 z]
  | .mma z => [packZ 0xC1 z]
  | .mmaConv z => [packZ 0xC2 z]
  | .mmas z => [packZ 0xC3 z]
  | .mzflush z => [packZ 0xC4 z]
  | .mzclr z => [packZ 0xC5 z]
  | .mcvt z => [packZ 0xC6 z]
  | .mstore z => [packZ 0xC7 z]
  | .mzero z => [packZ 0xC8 z]
  | .mbarArr z => [packZ 0xC9 z]
  | .mbarWait z => [packZ 0xCA z]
  | .mwaitt z => [packZ 0xCB z]
  | .mfence z => [packZ 0xCC z]
  | .mend z => [packZ 0xCD z]
  | .cpyq f => [packF 0xD0 f]
  | .qstat f => [packF 0xD1 f]
  | .pushq f => [packF 0xD2 f]
  | .popq f => [packF 0xD3 f]
  | .qcloseOut f => [packF 0xD4 f]
  | .qcloseLaunch f => [packF 0xD4 f]
  | .launch f => [packF 0xD5 f]
  | .launchU f => [packF 0xD6 f]
  | .svcS f => [packF 0xD7 f]
  | .svcP f => [packF 0xD8 f]
  | .barinit f => [packF 0xE0 f]
  | .bararrArr f => [packF 0xE1 f]
  | .bararrTx f => [packF 0xE1 f]
  | .bararrCpl f => [packF 0xE1 f]
  | .barwait f => [packF 0xE2 f]
  | .bartestPh f => [packF 0xE3 f]
  | .bartestSt f => [packF 0xE3 f]
  | .cbarinit f => [packF 0xE4 f]
  | .cbararr f => [packF 0xE5 f]
  | .cbarwait f => [packF 0xE6 f]
  | .waitc f => [packF 0xE7 f]
  | .rdcnt f => [packF 0xE8 f]
  | .clrcnt f => [packF 0xE9 f]
  | .tlbw f => [packF 0xF0 f]
  | .tlbinv f => [packF 0xF1 f]
  | .walkrd f => [packF 0xF2 f]
  | .tretRetry f => [packF 0xF3 f]
  | .tretExit f => [packF 0xF3 f]
  | .fpop f => [packF 0xF4 f]
  | .fpush f => [packF 0xF5 f]
  | .ownhalt f => [packF 0xF6 f]
  | .sealOut f => [packF 0xF7 f]
  | .sealIn f => [packF 0xF7 f]
  | .sealSize f => [packF 0xF7 f]
  | .clause h => [packH h]
  | .rep p body => [packRep p, body]
  | .repRepetition _ _ => []
  | .pair h1 h0 => [packPair h1 h0]
  | .longLatencyComplete _ => []
  | .quantumEnd _ => []
  | .backoffExpire _ => []
  | .groupRetire _ => []
  | .completionNotify _ => []
  | .handlerStart _ _ _ => []
  | .walkWindowEnd _ => []
  | .swapOut _ _ => []
  | .defReplenish _ => []
  | .teamPlace _ _ _ => []
  | .teamReenter _ _ => []
  | .stageComplete _ _ => []
  | .stallEnlarge _ => []
  | .commandStart _ => []
  | .packetCopy _ => []
  | .packetGather _ => []
  | .packetQuantise _ => []
  | .packetReduceAdd _ => []
  | .packetScrub _ => []
  | .packetMigrate _ => []
  | .packetDecode _ => []
  | .copyIteration _ => []
  | .commandComplete _ => []
  | .reduceAddDelivery _ => []
  | .qcbResume _ => []
  | .qcbAbandon _ => []
  | .engineReset _ => []
  | .engineResetEnd _ => []
  | .parkedWake _ => []
  | .cometForm _ _ => []
  | .cometReenter _ _ => []
  | .monitorWake _ => []
  | .monwaitTimeout _ => []
  | .monitorLost _ => []
  | .debugHit _ => []
  | .operationAbandon _ _ => []
  | .sealContext _ => []
  | .restore _ _ => []
  | .preempt _ _ => []
  | .sealEvictRequest _ => []
  | .sealBringinRequest _ _ => []
  | .ownerHalt _ => []
  | .driverHalt _ => []
  | .ownerResume _ => []
  | .ownerCreate _ _ _ => []
  | .ownerDestroy _ => []
  | .erasureEnd _ => []
  | .worldChange _ _ => []
  | .allotMapWrite _ _ _ => []
  | .qbindWrite _ _ => []
  | .sringWrite _ _ => []
  | .umaskWrite _ _ _ => []
  | .fwinWrite _ _ _ => []
  | .claimWrite _ _ => []
  | .dbgWrite _ _ _ => []
  | .ownerParamWrite _ _ _ => []
  | .deviceCounterClear _ => []
  | .attestReport _ _ => []
  | .scEventComplete _ => []
  | .scEventForward _ => []
  | .claimTimerExpire _ => []
  | .hostEventAck _ => []
  | .hostWindowWrite _ _ => []
  | .hostLaunchRecord _ => []
  | .hostItemsRecord _ => []
  | .hostCloseRecord _ => []
  | .hostMemRead _ => []
  | .hostMemWrite _ _ => []
  | .backInvalidateComplete _ => []
  | .peerAccess _ _ => []
  | .switchReleaseAck _ _ => []
  | .linkReplay _ _ => []
  | .linkRetrain _ => []
  | .linkDown _ => []
  | .expanderDown _ => []
  | .hostLinkRetrain => []
  | .hbmRateSwitch _ _ => []
  | .rowHammerLimit _ _ => []
  | .rowRefresh _ => []
  | .hbmChannelReset _ => []
  | .serviceCoreReset _ => []
  | .coreWatchdog _ => []
  | .tc0ShareWindow => []
  | .thermalStepDown _ _ => []
  | .thermalStepUp _ _ => []
  | .thermalTrip _ _ => []
  | .powerGood => []
  | .powerLoss => []
  | .matrixWordComplete _ => []
  | .storePerformed _ => []
  | .serviceCoreAccess _ _ => []
  | .linkRetrained _ => []
  | .recoveryWindowWrite _ => []

/-- The bytes of words in memory (R25). -/
def wordBytes (ws : List DWord) : List Byte := ws.flatMap (fun w => leBytes 8 w.toNat)

/-- Whether an instruction stands in a matrix stream. -/
def inStream : Instr → Bool
  | .permb (.stream _) => true
  | .permld (.stream _) => true
  | .permst (.stream _) => true
  | i => match encode i with
    | [w] => w.extractLsb' 59 5 == 0x0C
    | _ => false

/-- The instruction that the decoder reads from a word of the opcode table: the opcodes 0xC0..0xCF stand in a matrix stream,
every other word in a pipe's program; the bits above the table's are 0. -/
def decodeTableWord (nbits w : Nat) : Option Instr :=
  let bytes := leBytes 16 (w % 2 ^ nbits)
  let first := wordOf bytes
  (decode (first.extractLsb' 59 5 == 0x0C) bytes).map (·.1)

end Sys2Proof
end

