-- ==== Sys2Proof/Machine/Flags.lean ====
section
/-! DEFINITION. Truth values: comparisons, predicate logic and votes (R100, R102). The machine has no condition codes and no
floating-point flags (R60, R97); a truth value goes to a predicate or to a register as 1 or 0. -/

namespace Sys2Proof.Machine

/-- The combinations .and, .or and .xor by code (R100). -/
def combine (op : Nat) (x y : Bool) : Bool :=
  match op with
  | 0 => x && y
  | 1 => x || y
  | _ => x != y

/-- Compare on integers: 0 .eq, 1 .ne, 2 .lt, 3 .le, 4 .gt, 5 .ge (R100). -/
def cmpInt (cmp : Nat) (x y : Int) : Bool :=
  match cmp with
  | 0 => x == y
  | 1 => x != y
  | 2 => x < y
  | 3 => x ≤ y
  | 4 => y < x
  | _ => y ≤ x

/-- Compare on decoded values, with 6 .num and 7 .nan (R100). -/
def cmpVal (cmp : Nat) (x y : Val) : Bool :=
  let n := x.isNan || y.isNan
  match cmp with
  | 0 => x.numEq y
  | 1 => n || !x.numEq y
  | 2 => x.lt y
  | 3 => x.lt y || x.numEq y
  | 4 => y.lt x
  | 5 => y.lt x || x.numEq y
  | 6 => !n
  | _ => n

/-- The result of ICMP: the comparison by the signedness of the type, combined with c (R100). -/
def icmpVal (t : Ty) (cmp : Nat) (mod : BitVec 4) (a b : BitVec 64) (c : Bool) : Bool :=
  let w := tyBits t
  let r := cmpInt cmp (asInt (tySigned t) w a.toNat) (asInt (tySigned t) w b.toNat)
  combine (mod.toNat % 4) r (c != mod.getLsbD 2)

/-- The result of FCMP (R100). -/
def fcmpVal (cmp : Nat) (mod : BitVec 4) (a b : BitVec 64) (c : Bool) : Bool :=
  combine (mod.toNat % 4) (cmpVal cmp (Fmt.fp32.decode a.toNat) (Fmt.fp32.decode b.toNat)) (c != mod.getLsbD 2)

/-- The result of PLOG (R100). -/
def plogVal (sub : BitVec 5) (mod : BitVec 4) (a b c : Bool) : Bool :=
  combine (sub.toNat / 4 % 4) (combine (sub.toNat % 4) (a != mod.getLsbD 0) (b != mod.getLsbD 1)) (c != mod.getLsbD 2)

/-- The result of VOTE: 0 .all, 1 .any, 2 .uni (R102). -/
def voteVal (mode : Nat) (vs : List Bool) : Bool :=
  match mode with
  | 0 => vs.all id
  | 1 => vs.any id
  | _ => vs.all id || vs.all not

/-- A truth value as data (R94). -/
def boolVal (b : Bool) : BitVec 64 := if b then 1 else 0

end Sys2Proof.Machine
end

