-- ==== Sys2Proof/Machine/State.lean ====
section
/-! DEFINITION. The state of the device as plain data: everything the manual gives it, in flat tables keyed by number.
Threads have the key (core × 512 + group slot) × 32 + lane, groups core × 512 + group slot, teams core × 32 + team slot. -/

namespace Sys2Proof.Machine

/-- Why a step stops. Only the host or a service core can bring it about: safe. -/
inductive Fault
  /-- An access by the host or a service core to a DPA that R190 reserves: HOST_MEM_READ, HOST_MEM_WRITE and
  SERVICE_CORE_ACCESS raise it. Safe: the manual gives such an address no storage. -/
  | reservedAddress (dpa : Nat)
deriving DecidableEq, Repr

/-- Why an instruction has no meaning. -/
inductive Refusal
  /-- An arm of `exec` without a meaning: safe, since nothing can be proved of its effect. -/
  | notModelled (mnemonic : String)
deriving DecidableEq, Repr

/-- Fault classes (R355), in the order of their codes. -/
inductive Cls
  | none | illop | illopd | bounds | xmiss | prot | allot | depth
  | spill | debug | svc | pool | watchdog | seal | runaway | recurse
deriving DecidableEq, Repr, Inhabited

/-- The access kinds of FREC and miss records, in the order of their codes (R171, R356). -/
inductive Acc
  | read | write | execute | atomic
deriving DecidableEq, Repr, Inhabited

/-- The fault record of a thread (R356). -/
structure FRec where
  cls : Cls := .none
  acc : Acc := .read
  v : Bool := false
  pbk : Bool := false
  rid : Nat := 0
  hd : Nat := 0
  cause2 : Cls := .none
  repix : Nat := 0
  aux : Word := 0
  addr : Nat := 0
deriving DecidableEq, Repr, Inhabited

/-- The state of a thread with its reason: the fields st and wr of R122. -/
inductive TState
  | ready | waitFlags | waitHandler | waitOp | atBarrier | atCluster | atSync | backoff | parked | lapped | exited
deriving DecidableEq, Repr, Inhabited

/-- A thread's place in a clause (R42, R47): words left, the flags its header assigned, and which are consumed. -/
structure ClausePos where
  left : Nat
  seta : FlagSet
  setb : FlagSet
  usedA : Bool := false
  usedB : Bool := false
  /-- The window rows that long-latency words of this clause have as destinations: first row and number (R90). -/
  dests : List (Nat × Nat) := []
deriving DecidableEq, Repr, Inhabited

/-- A thread's armed monitor: a 128-byte line, and whether it has been written since (R223). -/
structure Monitor where
  line : Nat
  hit : Bool := false
deriving DecidableEq, Repr, Inhabited

/-- What a thread that waits at a word waits for (R125): room in a stage's input queue, a copy counter or slot, room in a
service ring, a tile's hold, or an outstanding count. -/
inductive WaitFor
  | stage (launch stage : Nat) | slot (q : Nat) | copyCount | ring (owner : Nat) | tile (core index : Nat)
  | count (cls threshold : Nat)
deriving DecidableEq, Repr, Inhabited

/-- The spaces an access can act on (R185): `l` names a team's scratch by the team's uid. -/
inductive Space
  | g | l (uid : Nat)
deriving DecidableEq, Repr, Inhabited

/-- What a release left at a location while stores that happen before it are still to be performed, or their back-invalidates to be
completed (R230, R231, R242): the bytes that it wrote, its own number, its scope, its group, team and core, and the numbers of those stores. -/
structure View where
  space : Space
  addr : Nat
  n : Nat
  scope : Nat
  uid : Nat
  team : Option Nat
  core : Nat
  by_ : Nat
  ids : List Nat
deriving DecidableEq, Repr, Inhabited

/-- A back-invalidate on its way to the host that a write has caused: its number, the thread that wrote (uid 0 is another agent) or the queue
whose engine did, the bytes that it wrote and the lines that the host still has to give up (R242). One that a release of another kind than a
thread's own store or barrier arrival has carried is `known`: whoever acquires from such a release takes it over (log 31, DEDUCED). -/
structure Snoop where
  id : Nat := 0
  uid : Nat := 0
  lane : Nat := 0
  addr : Nat := 0
  n : Nat := 0
  lines : List Nat := []
  pc : DWord := 0
  /-- The place in its clause, and the repetition, at which the thread issued the write (R42, R50). -/
  clause : Option ClausePos := none
  repix : BitVec 8 := 0
  issuedAt : Nat := 0
  queue : Option Nat := none
  known : Bool := false
deriving DecidableEq, Repr, Inhabited

/-- The state of one thread (R84, R94, R122, R223, R334). `regs` holds the resident rows by absolute index; an unlisted row
reads zero (R89). -/
structure Thread where
  st : TState := .ready
  boexp : Nat := 0
  bodly : Nat := 0
  depth : BitVec 8 := 0
  pc : DWord := 0
  repix : BitVec 8 := 0
  frec : FRec := {}
  spillbase : DWord := 0
  spilltop : DWord := 0
  winbase : Nat := 0
  rlo : Nat := 0
  clause : Option ClausePos := none
  regs : Tab Word := []
  preds : BitVec 7 := 0
  flags : BitVec 12 := 0
  /-- The clause header at which the thread waits on flags (R42). -/
  header : Option HWord := none
  /-- What the word at the thread's PC waits for, in state waitOp (R125). -/
  waitFor : Option WaitFor := none
  monitor : Option Monitor := none
  /-- The barrier that the thread waits on in states atBarrier and atCluster. -/
  waitBar : Nat := 0
  /-- The DPA of the reply stamp that a parked thread watches (R320). -/
  watch : Option Nat := none
  /-- Marks left by FENCE.rel and FENCE.full: stores and atomics issued later wait for the operations below the number, at
  the scope (R221). -/
  rels : List (Nat × Nat) := []
  /-- Marks left by FENCE.full: loads issued later wait in the same way (R221). -/
  fulls : List (Nat × Nat) := []
  /-- Accesses issued later wait for this thread's loads and atomics below this number (R221). -/
  acqMark : Nat := 0
  /-- The first load from each of these numbers on invalidates the owner's L1 lines (R219, R221). -/
  invMarks : List Nat := []
  /-- Observations: a load of the thread, and a store of another thread whose bytes it read from the core (R219, R231). -/
  obs : List (Nat × Nat) := []
  /-- What releases left at the locations that its loads read, by load: an acquiring fence after the load acquires it (R230). -/
  seen : List (Nat × View) := []
  /-- The acquiring fences of the thread, with their scopes (R230). -/
  acqFences : List (Nat × Nat) := []
  /-- The lines that the host may have held when the thread acquired at system scope, and has not given up since: the thread's later reads of
  them obtain the host's copy (R242). -/
  sysLines : List Nat := []
  /-- The window rows that the operations of a flag write, until the flag clears: flag, first row and number (R90). -/
  flagDests : List (Nat × Nat × Nat) := []
deriving DecidableEq, Repr, Inhabited

/-- A group's lap and quantum state (R123). -/
structure Orbit where
  lhv : Bool := false
  laphi : BitVec 69 := 0
  lapcnt : Nat := 0
  qcnt : Nat := 0
  qact : Bool := false
deriving DecidableEq, Repr, Inhabited

/-- An outstanding entry of a group (R336): class 0..3, the queue and slot, and whether it is complete. A listed packet's
entry names its place in the list until its claim (R313). -/
structure OpcEntry where
  cls : Nat
  q : Nat
  w : Nat
  listed : Bool := false
  done : Bool := false
deriving DecidableEq, Repr, Inhabited

/-- A REP sequence in progress (R49): the lanes of its run that are still in it, the prefix and its word. -/
structure RepCtx where
  lanes : List Nat
  prefixed : RepPrefix
  body : DWord
  /-- The key at which the sequence was issued (R128). -/
  key : Nat := 0
deriving DecidableEq, Repr, Inhabited

/-- The state of one group: uniform registers (R91), ORBIT (R123) and counters (R334). `uid` names the group across seals
and comets; it is the model's own. -/
structure Group where
  uid : Nat := 0
  owner : Nat := 0
  /-- The key of its team; a handler group forms a team of its own (R228) and has none. -/
  team : Option Nat := none
  gidx : Nat := 0
  /-- Handler depth 0, 1 or 2 (R175). -/
  hdepth : Nat := 0
  /-- The fault class that a handler group serves (R172). -/
  hcls : Cls := .none
  /-- The register allotment A (R85). -/
  allot : Nat := 16
  uni : Tab Word := []
  orbit : Orbit := {}
  /-- LAPQ and QUANT as they stood at the group's last issue (R129, R142). -/
  lapq : Nat := 64
  quant : Nat := 16
  uviol : Word := 0
  skipblk : Word := 0
  satcnt : Word := 0
  convtail : Word := 0
  opc : List OpcEntry := []
  rep : Option RepCtx := none
  /-- The grants lost in a row to the other group of the pipe (R95). -/
  lost : Nat := 0
  /-- The key of the group's head instruction and the ac in which it became eligible (R95). -/
  eligible : Option (Nat × Nat) := none
deriving DecidableEq, Repr, Inhabited

/-- A hardware barrier entry (R339). -/
structure Bar where
  ph : Bool := false
  exp : Nat := 0
  pend : Nat := 0
  txc : Int := 0
  ovf : Bool := false
  sqd : Bool := false
  sa : Bool := false
  su : Bool := false
  /-- The pending stores that happen before the arrivals at the present phase, and before those at completed ones (R231, R233). -/
  view : List Nat := []
  carried : List Nat := []
deriving DecidableEq, Repr, Inhabited

/-- A cluster barrier entry (R344). -/
structure CBar where
  ph : Bool := false
  ovf : Bool := false
  exp : Nat := 0
  pend : Nat := 0
deriving DecidableEq, Repr, Inhabited

/-- Tile states (R146), in the order of their codes. -/
inductive TileSt
  | empty | filling | ready | draining
deriving DecidableEq, Repr, Inhabited

/-- A tile descriptor (R146). -/
structure Tile where
  st : TileSt := .empty
  v : Bool := false
  team : Nat := 0
  fmt : Nat := 0
  rows : Nat := 0
  rowb : Nat := 0
  pitch : Nat := 0
  base : Nat := 0
  extent : Nat := 0
  sve : Bool := false
  svp : Nat := 0
  ftag : Byte := 0
  dtag : Byte := 0
  hold : Nat := 0
  /-- The pending stores that happen before its last TILESET (R149, R231). -/
  view : List Nat := []
  /-- The number at which its state or its fields last changed: what the sequencer read before that is no read of the tile as it now
  stands (R149, R252, R265). -/
  gen : Nat := 0
deriving DecidableEq, Repr, Inhabited

/-- An 8-byte word of scratch that the sequencer has read for a later word of its stream before that word's other reads (R265): the
later word's index, the number at which it was read, its bytes and its poison. -/
structure Early where
  widx : Nat
  word : Nat
  at_ : Nat
  bytes : List Byte
  bad : Bool
deriving DecidableEq, Repr, Inhabited

/-- What a matrix word that has issued still does when it completes (R148, R249, R335). -/
structure MatOp where
  /-- The units that it occupies: 0 load path, 1 array, 2 scan unit, 3 drain path (R249). -/
  units : List Nat := []
  holds : List Nat := []
  skipblk : Nat := 0
  satcnt : Nat := 0
  convtail : Nat := 0
  /-- The tile that MSTORE or MCVT drains into, and whether it becomes ready. -/
  drain : Option (Nat × Bool) := none
  /-- Its scratch writes that are still to be performed, each within one 8-byte location (R265). -/
  writes : List (Nat × List Byte) := []
deriving DecidableEq, Repr, Inhabited

/-- MSTAT.st (R244), in the order of its codes. -/
inductive MStat
  | running | waiting | ended | faulted
deriving DecidableEq, Repr, Inhabited

/-- The matrix state of the team that holds a core's sequencer (R243). Unlisted elements are 0. -/
structure Matrix where
  acc : Tab Word := []
  mreg : Tab Byte := []
  mtag : Tab Nat := []
  msc : Tab Byte := []
  z : Tab (BitVec 48) := []
  zst : Tab Bool := []
  zew : Tab Byte := []
  zea : Tab Byte := []
  psrc : Tab Nat := []
  st : MStat := .running
  cls : Cls := .none
  widx : Nat := 0
  mpc : DWord := 0
  first : DWord := 0
  latch : Option Nat := none
  flight : List MatOp := []
  /-- The sequencer waits on a miss record for its next word (R245). -/
  missing : Bool := false
  /-- The hardware barrier whose next completion ends the sequencer's wait (R262, R341). -/
  barWait : Option Nat := none
  /-- The pending stores that the sequencer has acquired (R231, R233). -/
  view : List Nat := []
  early : List Early := []
  /-- The number of words up to the last MFENCE (R263). -/
  fence : Nat := 0
  /-- Words still to issue that have performed a scratch write: the index of each, and its other writes (R265). -/
  ahead : List (Nat × List (Nat × List Byte)) := []
deriving DecidableEq, Repr, Inhabited

/-- A team on a core (R15, R186, R279, R301, R339, R344). -/
structure Team where
  uid : Nat := 0
  owner : Nat := 0
  launch : Nat := 0
  stage : Nat := 0
  team : Nat := 0
  cluster : Nat := 0
  pos : Nat := 0
  /-- The keys of the cluster's teams by position (R187). -/
  members : List Nat := []
  inst : Nat := 0
  tid : Nat := 0
  asp : Byte := 0
  grp : Nat := 1
  scratchSize : Nat := 0
  scratch : Memory := []
  scratchPoison : Tab Bool := []
  nbars : Nat := 0
  bars : Tab Bar := []
  cbars : Tab CBar := []
  /-- The cluster has ended but this team keeps its allocation until every team of it has (R187). -/
  ended : Bool := false
  matrix : Option Matrix := none
  /-- The ac of the last issue of any group of the team, and the ac since which a thread of it has waited with wr 1 without a break
  (R183). -/
  lastIssue : Nat := 0
  waitSince : Option Nat := none
deriving DecidableEq, Repr, Inhabited

/-- A table as it stood before a word that is still rewriting it: until the writer's next word another reader finds each entry
before or after the write, and once after it never again before it (R118, R145). `uid` names the writer's group, or the writing team of a
stream's word; `id` numbers the write, and `start` is its ac. -/
structure Before (α : Type) where
  uid : Nat
  was : α
  id : Nat := 0
  start : Nat := 0
deriving DecidableEq, Repr, Inhabited

/-- A crossbar pattern table (R154): the owner that last loaded it and its entries. -/
structure Pat where
  tag : Option Nat := none
  entries : Tab Word := []
  /-- The tag and entries before a PATLD that is rewriting the table (R118). -/
  before : Option (Before (Option Nat × Tab Word)) := none
deriving DecidableEq, Repr, Inhabited

/-- A codebook (R156). -/
structure Codebook where
  tag : Option Nat := none
  bytes : Tab Byte := []
  /-- The tag and bytes before a CBLD that is rewriting it (R145, R156). -/
  before : Option (Before (Option Nat × Tab Byte)) := none
deriving DecidableEq, Repr, Inhabited

/-- Local-store bank modes (R157), in the order of their codes. -/
inductive BankMode
  | cache | scratch | fifo
deriving DecidableEq, Repr, Inhabited

/-- A thread that waits on a record: the uid of its group, and its lane. -/
structure Waiter where
  uid : Nat
  lane : Nat
deriving DecidableEq, Repr, Inhabited

/-- What keeps an entry from being dropped (R164): the handler thread that installed it, and the threads that its later TRETs
released and that have not yet retried; `none` before its first TRET. -/
structure TlbHold where
  installer : Waiter
  released : Option (List Waiter) := none
deriving DecidableEq, Repr, Inhabited

/-- A translation-buffer entry (R163, R164): its owner, its 128 bits, and its hold. Entries stand in the order of their
installation. -/
structure TlbEntry where
  owner : Nat
  bits : BitVec 128
  hold : Option TlbHold := none
deriving DecidableEq, Repr, Inhabited

/-- A record of the miss table (R170, R171). `order` tells its age; `seqTeams` are the teams whose sequencers wait (R245), by uid;
`device` marks a SEAL record (R364). -/
structure MissRec where
  cls : Cls := .none
  acc : Acc := .read
  nest : Bool := false
  owner : Nat := 0
  depth : Nat := 0
  waiters : List Waiter := []
  nwait : Nat := 0
  gslot : Nat := 0
  lane : Nat := 0
  cause2 : Cls := .none
  aux : Word := 0
  ova : Nat := 0
  claimed : Option Nat := none
  /-- The number by which the claiming group knows it, which a restore onto another core may change (R184). -/
  name : Nat := 0
  order : Nat := 0
  seqTeams : List Nat := []
  device : Bool := false
deriving DecidableEq, Repr, Inhabited

/-- A thread that waits for a record to free (R170), with the fault it then records; `seq` marks a team's sequencer, by the team's uid
(R245). -/
structure RecWait where
  waiter : Waiter
  record : MissRec
  seq : Bool := false
deriving DecidableEq, Repr, Inhabited

/-- An L1 line (R188): owner slot's owner, DPA / 128, valid bytes by sector, and its bytes. -/
structure L1Line where
  owner : Nat
  line : Nat
  /-- The cache bank, which is the way, that holds it (R188). -/
  bank : Nat := 0
  valid : BitVec 4
  bytes : Tab Byte
  /-- Poisoned 8-byte words (R203). -/
  poison : BitVec 16 := 0
deriving DecidableEq, Repr, Inhabited

/-- A fetched instruction word that the core may still hold (R54). -/
structure CodeWord where
  owner : Nat
  dpa : Nat
  word : DWord
deriving DecidableEq, Repr, Inhabited

/-- An owner slot of a core (R21) with its deficit (R304) and PERF (R349). -/
structure OwnerSlot where
  owner : Nat
  deficit : Int := 0
  perf : Tab (BitVec 48) := []
deriving DecidableEq, Repr, Inhabited

/-- An owner's handler issues on a core in the present window, and its exhausted windows in a row (R174). -/
structure Walk where
  used : Nat := 0
  exhausted : Nat := 0
deriving DecidableEq, Repr, Inhabited

/-- The modes of the 24 banks at reset (R19). -/
def resetBanks : List BankMode := List.replicate 10 .scratch ++ List.replicate 14 .cache

/-- The state of one core. -/
structure Core where
  world : Nat := 0
  /-- The world of a change that waits for the last team to leave: no team is placed meanwhile (R369). -/
  worldNext : Option Nat := none
  slots : Tab OwnerSlot := []
  tiles : Tab Tile := []
  perm : Tab (BitVec 256) := []
  /-- Permutation table memory before a word that is rewriting it (R145, R151). -/
  permBefore : Option (Before (Tab (BitVec 256))) := none
  pats : Tab Pat := []
  cbs : Tab Codebook := []
  banks : List BankMode := resetBanks
  /-- The bank modes before an LSCFG whose changes are in progress, one bank after another (R157, R158). -/
  banksBefore : Option (Before (List BankMode)) := none
  tlb : List TlbEntry := []
  recs : Tab MissRec := []
  recWaits : List RecWait := []
  l1 : List L1Line := []
  code : List CodeWord := []
  /-- The window of 120 000 ac last closed on this core, and each owner's handler issues there, whether or not it is resident (R174). -/
  window : Nat := 0
  walks : Tab Walk := []
  /-- The ac since which some entry of the core has been ready without an issue of the core, as time that passes observes it (R372). -/
  readySince : Option Nat := none
  /-- The first ac that has not yet been considered for replenishment (R304). -/
  nextReplenish : Nat := 0
deriving DecidableEq, Repr, Inhabited

/-- OSTAT.st (R366), in the order of its codes. -/
inductive OState
  | absent | running | halting | halted
deriving DecidableEq, Repr, Inhabited

/-- Halt causes (R366). -/
inductive Cause
  | none | self | driver | runaway | recurse
deriving DecidableEq, Repr, Inhabited

/-- OSTAT (R366). -/
structure OStat where
  st : OState := .absent
  cause : Cause := .none
  hd : Nat := 0
  core : Nat := 0
  gslot : Nat := 0
  lane : Nat := 0
  code : Word := 0
  cls : Cls := .none
  addr : Nat := 0
deriving DecidableEq, Repr, Inhabited

/-- One owner: its world (R24), allotment (R166), parameters, counters (R334), ring (R315) and status (R366). -/
structure Owner where
  world : Nat := 0
  allot : Tab (BitVec 128) := []
  lapq : Nat := 64
  quant : Nat := 16
  walkbudget : Nat := 24000
  parkth : Nat := 200
  wt : Nat := 16
  poolmax : Nat := 16384
  otc : Nat := 1
  shq : Nat := 64 * 2 ^ 20
  poison : BitVec 64 := 0
  corr : BitVec 64 := 0
  linkretry : BitVec 64 := 0
  walkissue : BitVec 64 := 0
  walkbytes : BitVec 64 := 0
  poolused : BitVec 64 := 0
  sring : BitVec 128 := 0
  ostat : OStat := {}
  dbg : Tab Comparator := []
  /-- The ac at which OSTAT.st became halting (R367). -/
  haltAt : Nat := 0
  /-- The ac since which the owner has been stalled without a break (R311). -/
  stalled : Option Nat := none
  /-- The next slot and sequence number of the owner's command window (R326). -/
  winSlot : Nat := 0
  winSeq : BitVec 32 := 0
  /-- Items of the record being served that have been pushed (R327). -/
  winPushed : Nat := 0
  /-- The range of the allotment that the driver names for the pool of enlargements: its first AA and its length in KiB (R312). -/
  poolbase : Nat := 0
  poollen : Nat := 0
  /-- The records of the owner's command window that have been accepted and not yet served, by slot, as they stood when their headers
  were written (R326). -/
  winAccepted : Tab (List Byte) := []
  /-- SHA-512 of the reserve's contents at creation (R403). -/
  reserveDigest : BitVec 512 := 0
deriving DecidableEq, Repr, Inhabited

/-- A stage of a launch (R297). -/
structure Stage where
  pc : DWord := 0
  regs : Nat := 16
  grp : Nat := 1
  scr : Nat := 0
  bars : Nat := 0
  w : Nat := 1
  h : Nat := 1
  resident : Bool := false
  stream : Bool := false
  isz : Nat := 16
  cap : Nat := 1
  hm : Nat := 1
  maxt : Nat := 1
  mpc : DWord := 0
  spill : DWord := 0
  back : DWord := 0
deriving DecidableEq, Repr, Inhabited

/-- A stage's input queue (R299): items with their indices, oldest first. -/
structure StageQueue where
  items : List (Nat × List Byte) := []
  next : Nat := 0
  cap : Nat := 0
  closed : Bool := false
  /-- The items 0..N − 1 of a counted stage 0 that have been taken (R299). -/
  counted : Option Nat := none
  taken : Nat := 0
  enlarged : Nat := 0
  /-- Poisoned 8-byte words of items, by item index and word (R202, R373). -/
  bad : List (Nat × Nat) := []
deriving DecidableEq, Repr, Inhabited

/-- A live launch (R296, R299, R300). -/
structure Launch where
  owner : Nat := 0
  handle : Nat := 0
  isOpen : Bool := false
  asp : Byte := 0
  pre : List Word := []
  stamp : DWord := 0
  sval : DWord := 0
  tc : Nat := 1
  stages : List Stage := []
  queues : Tab StageQueue := []
  /-- Teams created so far by stage. -/
  created : Tab Nat := []
  /-- The stages that have completed (R300). -/
  completed : Tab Bool := []
  /-- The launch has completed and its handle is free, while earlier stages still have teams (R300). -/
  ended : Bool := false
deriving DecidableEq, Repr, Inhabited

/-- Engine states of a queue (R277). -/
inductive QState
  | idle | running | stopped | paused | halted
deriving DecidableEq, Repr, Inhabited

/-- A listed packet (R313): its bytes and the group that submitted it. -/
structure Listed where
  bytes : List Byte
  uid : Nat
  place : Nat
deriving DecidableEq, Repr, Inhabited

/-- Where an engine accesses: device memory in the form of a world, a team's scratch by its uid, a peer's memory, or the host's (R279). -/
inductive EngLoc
  | g (dpa world : Nat)
  | l (uid off : Nat)
  | peer (dev aa : Nat)
  | host (ha : Nat)
deriving DecidableEq, Repr, Inhabited

/-- A payload write of an iteration that is still to be performed, within one 8-byte location (R238). -/
structure EngWrite where
  place : EngLoc
  data : List Byte
deriving DecidableEq, Repr, Inhabited

/-- An 8-byte location that a command has read before the iteration that uses it (R238): a world's form of device memory, or the scratch
of a team. -/
structure EngRead where
  space : Space
  world : Nat := 0
  word : Nat
  bytes : List Byte
  bad : Bool
deriving DecidableEq, Repr, Inhabited

/-- The engine's state for one copy queue (R277, R280, R313). -/
structure Queue where
  st : QState := .idle
  slot : List Byte := []
  iv : List Nat := [0, 0, 0, 0, 0]
  done : Bool := false
  /-- The kind's count so far (R281). -/
  count : Nat := 0
  decodeWord : Option Word := none
  /-- The ac at which the head command last ran (R277's order of service). -/
  served : Nat := 0
  list : List Listed := []
  listCap : Nat := 0
  nextPlace : Nat := 0
  /-- The bitmap bits of a scrub whose byte is not yet complete, lowest first (R286). -/
  bits : List Bool := []
  /-- The tags that each home slice has last applied of the queue's reduce-add deliveries: sequence and iteration number (R285). -/
  lastTags : Tab (Nat × Nat) := []
  /-- Payload writes still to be performed, and locations read ahead (R238). -/
  pend : List EngWrite := []
  early : List EngRead := []
  /-- The vector, count and held bits before the last iteration (R238). -/
  before : Option (List Nat × Nat × List Bool) := none
  /-- The iterations made before others that come before them, each with the count that it has added (R238). -/
  ahead : List (List Nat × Nat) := []
deriving DecidableEq, Repr, Inhabited

/-- A reduce-add delivery on its way to the home slice (R285). -/
structure Delivery where
  q : Nat
  seq : Nat
  iter : Nat
  dpa : Nat
  world : Nat
  bf16 : Bool
  data : List Byte
  /-- Where an extent ends within its last element: the bytes before the end, and the DPA and world at which the others go on (R190, R285). -/
  cut : Option (Nat × Nat × Nat) := none
  /-- The elements already added (R238). -/
  added : List Nat := []
deriving DecidableEq, Repr, Inhabited

/-- A completion notification on its way to the origin core (R281). -/
structure Note where
  core : Nat
  gslot : Nat
  cls : Nat
  q : Nat
  w : Nat
  owner : Nat
deriving DecidableEq, Repr, Inhabited

/-- A write of a queue's engine that has left the device: to a peer's allotment address, or to a host address where `dev` is `none`
(R279). A reduce-add carries its format and tag (R285). `acked` says that its destination has acknowledged it (R239). -/
structure Sent where
  q : Nat
  dev : Option Nat
  addr : Nat
  data : List Byte
  tag : Option (Bool × Nat × Nat) := none
  acked : Bool := false
deriving DecidableEq, Repr, Inhabited

/-- The agents outside the cores that access device memory (R240, R241, R316). -/
inductive Agent
  | host | peer (n : Nat) | sc (n : Nat)
deriving DecidableEq, Repr, Inhabited

/-- The bytes that an access of an agent outside the cores returned. -/
structure Reply where
  agent : Agent
  dpa : Nat
  data : List Byte
deriving DecidableEq, Repr, Inhabited

/-- Where a raised event stands (R160). -/
inductive EvPlace
  | withHost | withSc (sc : Nat)
  /-- Done, but its service core has not yet acted on it: it will learn that it has lost the event. -/
  | done
deriving DecidableEq, Repr, Inhabited

/-- A raised event (R160): its source, the claim entry as read when it was raised, its place and its timer. -/
structure Event where
  source : Nat
  h : Bool
  vec : Nat
  place : EvPlace
  raisedAt : Nat
  late : Bool := false
  /-- The service core that has been told of it, and whether it has yet to act on it. -/
  sc : Nat := 0
  owed : Bool := false
deriving DecidableEq, Repr, Inhabited

/-- What the host has been told of events (R160). -/
inductive HostNote
  | interrupt (vec source : Nat)
  | handled (source : Nat)
  | logged (source : Nat)
  | late (source : Nat)
deriving DecidableEq, Repr, Inhabited

/-- Cache operations (R205). -/
inductive CacheOp
  | near | far | once
deriving DecidableEq, Repr, Inhabited

/-- Where a long-latency result goes: window rows by absolute index, or uniform registers (R44). -/
inductive Dest
  | none | win (abs : Nat) | uni (s : Nat) | pred (q : Nat)
deriving DecidableEq, Repr, Inhabited

/-- The operations of atomics (R216), and compare-and-swap. -/
inductive AtomOp
  | add | min | max | and | or | xor | exch | inc | cas
deriving DecidableEq, Repr, Inhabited

/-- What a pending operation does when it is performed. -/
inductive OpKind
  /-- A value already known: special functions, or an operation abandoned to zero. -/
  | value (v : BitVec 64) (n : Nat)
  /-- A load: size in bytes, the sign extension of .s8 and .s16, the cache operation, and the block that the coalescer
  requests (R194). -/
  | load (size : Nat) (signed : Bool) (cache : CacheOp) (grain : Nat × Nat)
  /-- A VQ load: codebook, byte offset in the entry and size (R212). -/
  | vq (k off size : Nat) (cache : CacheOp)
  /-- A posted store. -/
  | store (data : List Byte) (once : Bool)
  /-- An atomic or a posted reduction. -/
  | atomic (op : AtomOp) (ty : Ty) (b c : BitVec 64) (posted : Bool)
  /-- XPIPE (R120). -/
  | xpipe (gidx lane reg n : Nat)
  /-- MONWAIT with the ac at which its limit passes (R223). -/
  | monwait (deadline : Option Nat)
  /-- QSTAT: a read of a queue control block (R294). -/
  | qstat (off size : Nat)
  /-- POPQ's item bytes and status (R307). -/
  | popq (off : Nat) (item : List Byte) (status : Word)
deriving DecidableEq, Repr, Inhabited

/-- An operation of a thread that has issued and is not yet performed (R44, R214, R218). -/
structure Op where
  id : Nat
  /-- The issue of a run that it belongs to (R8, R214, R216). -/
  batch : Nat := 0
  uid : Nat
  lane : Nat
  core : Nat
  owner : Nat
  space : Space := .g
  addr : Nat := 0
  world : Nat := 0
  kind : OpKind
  dest : Dest := .none
  flag : Option Nat := none
  /-- The lanes whose flags or waits a uniform load ends (R210). -/
  lanes : List Nat := []
  /-- The flags of a uniform operation's lanes other than the first, each at its own clause position (R44). -/
  laneFlags : List (Nat × Option Nat) := []
  scope : Nat := 0
  acq : Bool := false
  /-- Performed only after every operation of the thread below the number, at the scope (R219, R221). -/
  waits : List (Nat × Nat) := []
  /-- Performed only after every load and atomic of the thread below this number (R221). -/
  waitLoads : Nat := 0
  /-- A load performed only after the thread's own stores below the number, at the scope (R221). -/
  fullWaits : List (Nat × Nat) := []
  /-- Single operations that must be performed first, at the scope: what the fences of the other threads of a uniform load name
  (R210, R221). -/
  after : List (Nat × Nat) := []
  /-- What it leaves as a release, fixed when its group became a comet (R230, R320). -/
  left : List View := []
  /-- No other access of its issue has sent the request for its line (R194), or looked its line's sectors up in L1 (R349). -/
  lineHead : Bool := true
  looks : Bool := true
  /-- The block that the coalescer requests for its line, where its issue names more of the line than it does (R194). -/
  grain : Nat × Nat := (0, 0)
  /-- A spill, which nothing orders for any other agent (R88). -/
  spill : Bool := false
  /-- Its result is written row by row after it is performed (R45). -/
  split : Bool := false
  /-- The retries of its access to the far tier have failed (R199). -/
  failed : Bool := false
  /-- The write part of an atomic, which follows in coherence order what its read part met (R229, R230). -/
  rmw : Bool := false
  /-- The places in their clauses at which its lanes issued it (R42, R43). -/
  clauses : List (Nat × Option ClausePos) := []
  /-- The repetition of a REP at which it was issued; 0 outside one (R50). -/
  repix : BitVec 8 := 0
  /-- The order in which a posted store reached the core's store queue and L1, where it has (R189, R227). -/
  reach : Option Nat := none
  ova : Nat := 0
  /-- The translation entry that its address was found through (R178). -/
  entry : Option (BitVec 128) := none
  pc : DWord := 0
  issuedAt : Nat := 0
  /-- A handler thread's access, charged to WALKBYTES (R173). -/
  charged : Bool := false
  inRep : Bool := false
  /-- The access is compared with the owner's debug comparators (R359). -/
  dbg : Bool := false
deriving DecidableEq, Repr, Inhabited

/-- A fault of an access that has been performed or abandoned, not yet raised: DEBUG (R359) or WATCHDOG (R360). It is
raised before the thread's next word is examined (R358). -/
structure Hit where
  uid : Nat
  lane : Nat
  pc : DWord
  cls : Cls := .debug
  addr : Nat
  aux : Word := 0
  /-- The place in its clause at which the thread issued the word: the retry stands there again (R42, R43). -/
  clause : Option ClausePos := none
  /-- The repetition at which it issued the word: the retry resumes from it (R50). -/
  repix : BitVec 8 := 0
deriving DecidableEq, Repr, Inhabited

/-- A group saved with its threads, by lane. -/
structure SavedGroup where
  group : Group
  threads : Tab Thread
  depthSlot : Nat := 0
deriving DecidableEq, Repr, Inhabited

/-- A team saved with its groups, tile descriptors by index, and permutation table memory (R362). -/
structure SavedTeam where
  team : Team
  groups : List SavedGroup
  tiles : Tab Tile := []
  perm : Tab (BitVec 256) := []
  /-- A record on which its sequencer waited was released with TRET.exit: its stream ends when it is restored (R245). -/
  streamEnds : Bool := false
deriving DecidableEq, Repr, Inhabited

/-- A sealed context (R362, R364): the teams of one partition that are restored together. -/
structure Ctx where
  owner : Nat
  die : Nat
  teams : List SavedTeam
  /-- The handler groups and records of each core that the context left, by the position of that core's team, with the records' numbers
  (R184). -/
  handlers : List (Nat × SavedGroup) := []
  recs : List (Nat × Nat × MissRec) := []
  /-- The waits for a record of its threads and sequencers, in fault order, each with the position of its core (R170, R184, R358). -/
  recWaits : List (Nat × RecWait) := []
  evicted : Bool := false
  evictions : Nat := 0
  /-- A swap-out that still waits for TRET (R183). -/
  swapped : Bool := false
  /-- Sealed at the driver's request, and not by the distributor (R310). -/
  byDriver : Bool := false
  /-- When it became ready to re-enter (R303). -/
  readyAt : Nat := 0
  /-- The bytes that it takes in the shadow store (R364). -/
  room : Nat := 0
deriving DecidableEq, Repr, Inhabited

/-- A comet in its park frame (R320). -/
structure Comet where
  owner : Nat
  teamUid : Nat
  saved : SavedGroup
  frame : Nat
  frameDpa : Nat
  frameWorld : Nat
  /-- The draw that filled its frame: other bytes there mean that an agent has written it. -/
  drawn : Nat
deriving DecidableEq, Repr, Inhabited

/-- Link states (R404). -/
inductive LinkSt
  | up | retraining | down
deriving DecidableEq, Repr, Inhabited

/-- A Crady link (R404). -/
structure Link where
  st : LinkSt := .up
  replays : Nat := 0
  /-- The ac of its last replays since it trained, 63 at most, and whether it has seen 64 within 1 ms. -/
  recent : List Nat := []
  due : Bool := false
  since : Nat := 0
deriving DecidableEq, Repr, Inhabited

/-- Whether the device has power and how far it has come up: `training` begins with the host link, where the host sees configuration space
without its ready bit, and ends with step 6 (R398, R400). -/
inductive Power
  | off | recovery | training | ready
deriving DecidableEq, Repr, Inhabited

/-- An attestation report (R403): its signed bytes and the signature. -/
structure Report where
  body : List Byte
  sig : BitVec 512
deriving DecidableEq, Repr, Inhabited

/-- The run that issues: a core, a group slot, its lanes in ascending order and the bytes of its word. -/
structure Run where
  core : Nat := 0
  gslot : Nat := 0
  lanes : List Nat := []
  len : Nat := 8
  inRep : Bool := false
  /-- The lap count before the issue, which RDCNT reads: ORBIT is updated after each issue (R128). -/
  lap : Option Nat := none
deriving DecidableEq, Repr, Inhabited

/-- A line of an L2 slice (R191): its way, whether it is held in plaintext, the valid 16-byte halves, and whether it is the first
of its set to be replaced (R209, R214). Its bytes stand in device memory, which keeps the stored form of R192. -/
structure L2Line where
  line : Nat
  way : Nat
  world : Nat := 0
  plain : Bool := true
  halves : BitVec 8 := 0
  once : Bool := false
deriving DecidableEq, Repr, Inhabited

/-- The state of the device. -/
structure State where
  power : Power := .ready
  clock : BitVec 64 := 0
  /-- The choices still to be made, in order (log 2, DESIGN CHOICE). -/
  tape : List Choice := []
  /-- The number of free values drawn (log 2, DESIGN CHOICE). -/
  draws : Nat := 0
  cur : Run := {}
  mem : Memory := []
  poison : Tab Bool := []
  cores : Tab Core := []
  teams : Tab Team := []
  groups : Tab Group := []
  threads : Tab Thread := []
  ops : List Op := []
  /-- What releases have left at the locations they wrote (R231). -/
  views : List View := []
  /-- The back-invalidates on their way that writes have caused (R242). -/
  snoops : List Snoop := []
  l2 : List L2Line := []
  nextId : Nat := 0
  nextUid : Nat := 1
  hits : List Hit := []
  owners : Tab Owner := []
  claims : Tab (BitVec 32) := []
  events : List Event := []
  hostNotes : List HostNote := []
  /-- The "lost" statuses that service cores have received: service core and source (R160). -/
  lost : List (Nat × Nat) := []
  noclaim : BitVec 64 := 0
  nowin : BitVec 64 := 0
  dcorr : BitVec 64 := 0
  dpoison : BitVec 64 := 0
  umask : Tab (BitVec 16) := []
  fwin : Tab (BitVec 256) := []
  moved : Tab Nat := []
  rates : Tab DataRate := []
  wantRates : Tab DataRate := []
  /-- The activations of each HBM4E row since it was refreshed, by owner; the owners and rows that are limited, and the ac of the last
  activation of each of these (R201). -/
  rows : Tab (List (Nat × Nat)) := []
  limits : List (Nat × Nat) := []
  lastActs : List (Nat × Nat × Nat) := []
  qbind : Tab (BitVec 128) := []
  /-- Entries of QBIND that take effect once their queue is idle (R274). -/
  qbindNew : Tab (BitVec 128) := []
  queues : Tab Queue := []
  engineReset : Tab Bool := []
  deliveries : List Delivery := []
  /-- The tags last applied of the deliveries of peers' queues, by peer × 1024 + queue (R285). -/
  peerTags : Tab (Nat × Nat) := []
  notes : List Note := []
  launches : Tab Launch := []
  nextLaunch : Nat := 0
  ctxs : Tab Ctx := []
  nextCtx : Nat := 0
  comets : List Comet := []
  window : Tab Byte := []
  /-- The device lines that the host may hold, and whether a back-invalidate of the line is on its way (R242). -/
  hostLines : Tab Bool := []
  /-- What has left the device for the host's memory or a peer's, oldest first (R240, R279). -/
  sent : List Sent := []
  /-- What reads and compare-and-swaps from outside the cores have returned, oldest first (R240, R241, R316). -/
  replies : List Reply := []
  links : Tab Link := []
  portsDown : Tab Bool := []
  /-- A port every retry of whose accesses fails in the present step (R199). -/
  portFails : Option Nat := none
  fabid : Nat := 0
  wdlim : Nat := 2400000
  ercap : Nat := 4
  hrt : Nat := 512
  worldKey : Tab Nat := []
  nextKey : Nat := 1
  imageKey : Nat := 0
  sweeps : Tab (List (Nat × Nat)) := []
  scDown : Tab Bool := []
  dieHot : Tab Nat := []
  coolSince : Tab Nat := []
  tc0Window : Nat := 0
  flash : Firmware := { version := 0, signer := 0, limpor := [], sc := [], signature := 0 }
  rollback : Nat := 0
  reports : List Report := []
deriving DecidableEq, Repr, Inhabited

/-- The device right after reset: every table empty, memory all zeros (R400 step 3), every field at its reset value
(log 1, DEDUCED) (log 3, DESIGN CHOICE). -/
def State.reset : State := {}

end Sys2Proof.Machine
end

