-- ==== Sys2Proof/Machine/Ops.lean ====
section
/-! DEFINITION. The named operations over the state: accessors, registers, the stored form of memory, events, halts, and
TAKING A FAULT (R357, R170, R175), which every instruction shares. -/

namespace Sys2Proof.Machine

/-! ### Keys and accessors -/

/-- The key of a group slot. -/
def gkey (core gslot : Nat) : Nat := core * 512 + gslot

/-- The key of a thread. -/
def tkey (g lane : Nat) : Nat := g * 32 + lane

/-- The die of a core (R12, R14). -/
def dieOf (core : Nat) : Nat := core / 24

/-- A service core in reset takes no action (R401). -/
def State.scRuns (s : State) (sc : Nat) : Bool := !Tab.getD s.scDown false sc

/-- Whether some service core can serve a request of the driver (R22, R401). -/
def State.served (s : State) : Bool := s.power == .ready && (List.range 8).any s.scRuns

/-- The key of a team slot. -/
def teamKey (core tslot : Nat) : Nat := core * 32 + tslot

/-- A core; one that nothing has changed stands at its reset values. -/
def State.core (s : State) (c : Nat) : Core := Tab.getD s.cores {} c

/-- A core written. -/
def State.setCore (s : State) (c : Nat) (x : Core) : State := { s with cores := Tab.put s.cores c x }

/-- The group in a slot. -/
def State.group? (s : State) (g : Nat) : Option Group := Tab.find s.groups g

/-- The group in a slot, or an empty one. -/
def State.group (s : State) (g : Nat) : Group := Tab.getD s.groups {} g

/-- A group written. -/
def State.setGroup (s : State) (g : Nat) (x : Group) : State := { s with groups := Tab.put s.groups g x }

/-- A thread. -/
def State.thread (s : State) (k : Nat) : Thread := Tab.getD s.threads {} k

/-- A thread written. -/
def State.setThread (s : State) (k : Nat) (t : Thread) : State := { s with threads := Tab.put s.threads k t }

/-- A thread changed by a function. -/
def State.updThread (s : State) (k : Nat) (f : Thread → Thread) : State := s.setThread k (f (s.thread k))

/-- A group changed by a function. -/
def State.updGroup (s : State) (g : Nat) (f : Group → Group) : State := s.setGroup g (f (s.group g))

/-- A core changed by a function. -/
def State.updCore (s : State) (c : Nat) (f : Core → Core) : State := s.setCore c (f (s.core c))

/-- The team in a slot. -/
def State.team? (s : State) (k : Nat) : Option Team := Tab.find s.teams k

/-- The team in a slot, or an empty one. -/
def State.team (s : State) (k : Nat) : Team := Tab.getD s.teams {} k

/-- A team written. -/
def State.setTeam (s : State) (k : Nat) (x : Team) : State := { s with teams := Tab.put s.teams k x }

/-- A team changed by a function, where the slot holds one. -/
def State.updTeam (s : State) (k : Nat) (f : Team → Team) : State := { s with teams := Tab.upd s.teams k f }

/-- An owner, or the record of one that does not exist (OSTAT absent). -/
def State.owner (s : State) (o : Nat) : Owner := Tab.getD s.owners {} o

/-- An owner written. -/
def State.setOwner (s : State) (o : Nat) (x : Owner) : State := { s with owners := Tab.put s.owners o x }

/-- An owner changed by a function, where it exists. -/
def State.updOwner (s : State) (o : Nat) (f : Owner → Owner) : State := { s with owners := Tab.upd s.owners o f }

/-- $clock as a number. -/
def State.now (s : State) : Nat := s.clock.toNat

/-- The group key of the issuing run. -/
def State.curG (s : State) : Nat := gkey s.cur.core s.cur.gslot

/-- The keys of the issuing run's threads. -/
def State.curKeys (s : State) : List Nat := s.cur.lanes.map (tkey s.curG)

/-- A saturating 64-bit count (R334). -/
def satInc64 (x : BitVec 64) (n : Nat) : BitVec 64 := BitVec.ofNat 64 (min (x.toNat + n) (2 ^ 64 - 1))

/-- A saturating 32-bit count (R334). -/
def satInc32 (x : Word) (n : Nat) : Word := BitVec.ofNat 32 (min (x.toNat + n) (2 ^ 32 - 1))

/-- POISON of an owner counted (R203). -/
def State.countPoison (s : State) (o n : Nat) : State := s.updOwner o (fun x => { x with poison := satInc64 x.poison n })

/-- The group slot key that holds the group of a uid. -/
def State.findGroup (s : State) (uid : Nat) : Option Nat := (s.groups.find? (fun e => e.2.uid == uid)).map (·.1)

/-- The team slot key that holds the team of a uid. -/
def State.findTeam (s : State) (uid : Nat) : Option Nat := (s.teams.find? (fun e => e.2.uid == uid)).map (·.1)

/-- The owner slot that an owner holds on a core (R21). -/
def Core.slotOf (c : Core) (o : Nat) : Option Nat := (c.slots.find? (fun e => e.2.owner == o)).map (·.1)

/-- An owner slot's record changed. -/
def Core.updSlot (c : Core) (o : Nat) (f : OwnerSlot → OwnerSlot) : Core :=
  match c.slotOf o with
  | some k => { c with slots := Tab.upd c.slots k f }
  | none => c

/-- A performance counter raised (R349). -/
def State.countPerf (s : State) (c o i n : Nat) : State :=
  s.updCore c (fun x => x.updSlot o (fun sl =>
    { sl with perf := Tab.put sl.perf i (Tab.getD sl.perf 0 i + BitVec.ofNat 48 n) }))

/-! ### Codes -/

/-- The code of a fault class (R355). -/
def Cls.code : Cls → Nat
  | .none => 0 | .illop => 1 | .illopd => 2 | .bounds => 3 | .xmiss => 4 | .prot => 5 | .allot => 6 | .depth => 7
  | .spill => 8 | .debug => 9 | .svc => 10 | .pool => 11 | .watchdog => 12 | .seal => 13 | .runaway => 14 | .recurse => 15

/-- The code of an access kind (R171). -/
def Acc.code : Acc → Nat
  | .read => 0 | .write => 1 | .execute => 2 | .atomic => 3

/-- FREC as its 128 bits (R356). -/
def FRec.bits (f : FRec) : BitVec 128 :=
  BitVec.ofNat 128 (f.cls.code * 2 ^ 124 + f.acc.code * 2 ^ 122 + (if f.v then 2 ^ 121 else 0) +
    (if f.pbk then 2 ^ 120 else 0) + f.rid % 64 * 2 ^ 114 + f.hd % 4 * 2 ^ 112 + f.cause2.code * 2 ^ 108 +
    f.repix % 256 * 2 ^ 100 + f.aux.toNat * 2 ^ 64 + f.addr % 2 ^ 48)

/-! ### Registers -/

/-- A window row by absolute index; a row that is freed or never written reads zero (R89). -/
def Thread.reg (t : Thread) (abs : Nat) : Word := Tab.getD t.regs 0 abs

/-- A window row written by absolute index. -/
def Thread.setReg (t : Thread) (abs : Nat) (v : Word) : Thread := { t with regs := Tab.setD t.regs 0 abs v }

/-- A row freed: it reads zero until written (R89, R90). -/
def Thread.freeReg (t : Thread) (abs : Nat) : Thread := { t with regs := Tab.del t.regs abs }

/-- A 64-bit pair read, low half in the even register (R32). -/
def Thread.pair (t : Thread) (abs : Nat) : BitVec 64 := (t.reg (abs + 1) ++ t.reg abs : BitVec 64)

/-- A 64-bit pair written. -/
def Thread.setPair (t : Thread) (abs : Nat) (v : BitVec 64) : Thread :=
  (t.setReg abs (v.setWidth 32)).setReg (abs + 1) ((v >>> 32).setWidth 32)

/-- A predicate; q7 reads 1 (R94). -/
def Thread.pred (t : Thread) (q : Nat) : Bool := q == 7 || t.preds.getLsbD q

/-- A predicate written; a write to q7 is discarded (R30). -/
def Thread.setPred (t : Thread) (q : Nat) (b : Bool) : Thread :=
  if 7 ≤ q then t else
    { t with preds := if b then t.preds ||| ((1 : BitVec 7) <<< q) else t.preds &&& ~~~((1 : BitVec 7) <<< q) }

/-- A completion flag set or cleared (R44). -/
def Thread.setFlag (t : Thread) (f : Nat) (b : Bool) : Thread :=
  { t with flags := if b then t.flags ||| ((1 : BitVec 12) <<< f) else t.flags &&& ~~~((1 : BitVec 12) <<< f) }

/-- A completion flag clears: its operations have written their last destinations (R44, R90). -/
def Thread.clearFlag (t : Thread) (f : Nat) : Thread :=
  { t.setFlag f false with flagDests := t.flagDests.filter (fun e => e.1 != f) }

/-- A uniform register (R91). -/
def Group.reg (g : Group) (i : Nat) : Word := Tab.getD g.uni 0 i

/-- A uniform register written. -/
def Group.setReg (g : Group) (i : Nat) (v : Word) : Group := { g with uni := Tab.setD g.uni 0 i v }

/-- A uniform pair read (R32). -/
def Group.pair (g : Group) (i : Nat) : BitVec 64 := (g.reg (i + 1) ++ g.reg i : BitVec 64)

/-- A uniform pair written. -/
def Group.setPair (g : Group) (i : Nat) (v : BitVec 64) : Group :=
  (g.setReg i (v.setWidth 32)).setReg (i + 1) ((v >>> 32).setWidth 32)

/-! ### The stored form of device memory (R192, R193) -/

/-- The key generation of a world (R192). -/
def State.keyOf (s : State) (world : Nat) : Nat := Tab.getD s.worldKey 0 world

/-- One byte of device memory as an agent of a world sees it: the stored byte in world 0, decrypted otherwise. -/
def State.plainByte (s : State) (world dpa : Nat) : Byte :=
  if world = 0 then Memory.read s.mem dpa
  else
    let b := dpa / 16 * 16
    let stored : BitVec 128 := BitVec.ofNat 128 (leNat (Memory.readN s.mem b 16))
    let plain := (Config.xts (s.keyOf world) (dpa / 128) (dpa / 16 % 8)).symm stored
    BitVec.ofNat 8 (plain.toNat / 2 ^ (8 * (dpa % 16)))

/-- n bytes of device memory as an agent of a world sees them. -/
def State.plainBytes (s : State) (world dpa n : Nat) : List Byte := (List.range n).map (fun i => s.plainByte world (dpa + i))

/-- One byte written by an agent of a world: sealed with its block unless the world is 0. -/
def State.storeByte (s : State) (world dpa : Nat) (v : Byte) : State :=
  if world = 0 then { s with mem := Memory.write s.mem dpa v }
  else
    let b := dpa / 16 * 16
    let old := s.plainBytes world b 16
    let plain : BitVec 128 := BitVec.ofNat 128 (leNat (old.set (dpa % 16) v))
    let stored := (Config.xts (s.keyOf world) (dpa / 128) (dpa / 16 % 8)) plain
    { s with mem := Memory.writeN s.mem b (leBytes 16 stored.toNat) }

/-- Bytes written by an agent of a world, in ascending address order. -/
def State.storeBytes (s : State) (world dpa : Nat) : List Byte → State
  | [] => s
  | b :: bs => (s.storeByte world dpa b).storeBytes world (dpa + 1) bs

/-! ### The allotment (R162, R166) -/

/-- Fields of an allotment extent (R166). -/
def extV (x : BitVec 128) : Bool := x.getLsbD 127
/-- The extent is the pinned reserve. -/
def extRsv (x : BitVec 128) : Bool := x.getLsbD 126
/-- The extent's tier. -/
def extTier (x : BitVec 128) : Nat := (x.extractLsb' 124 2).toNat
/-- The extent's world. -/
def extWorld (x : BitVec 128) : Nat := (x.extractLsb' 120 4).toNat
/-- The first DPA of the extent. -/
def extDpa (x : BitVec 128) : Nat := (x.extractLsb' 88 30).toNat * 2 ^ 16
/-- The first AA of the extent. -/
def extAab (x : BitVec 128) : Nat := (x.extractLsb' 60 28).toNat * 2 ^ 16
/-- The length of the extent in bytes. -/
def extLen (x : BitVec 128) : Nat := (x.extractLsb' 32 28).toNat * 2 ^ 16

/-- The bits of an allotment entry that are not reserved (R5, R166). -/
def extMask (x : BitVec 128) : BitVec 128 :=
  x &&& ~~~((3 : BitVec 128) <<< 118) &&& ~~~(0xFFFFFFFF : BitVec 128)

/-- The owner's valid extents. -/
def Owner.extents (o : Owner) : List (BitVec 128) := (o.allot.map (·.2)).filter extV

/-- The owner's pinned reserve extent (R23). -/
def Owner.reserve (o : Owner) : Option (BitVec 128) := o.extents.find? extRsv

/-- The length of the owner's reserve in bytes. -/
def Owner.reserveLen (o : Owner) : Nat := (o.reserve.map extLen).getD 0

/-- Where the reserve window starts (R162). -/
def reserveBase : Nat := 0xFFF000000000

/-- The extent of ordinary storage that holds [aa, aa + n) (R162). -/
def Owner.extentOf (o : Owner) (aa n : Nat) : Option (BitVec 128) :=
  o.extents.find? (fun x => !extRsv x && extAab x ≤ aa && aa + n ≤ extAab x + extLen x)

/-- A checked location: its DPA, the world whose form it is stored in, and the translation entry that it was found through (R178). -/
structure Loc where
  dpa : Nat
  world : Nat
  tier : Nat := 0
  entry : Option (BitVec 128) := none
deriving DecidableEq, Repr, Inhabited

/-- The allotment-map step of R162: the location of [aa, aa + n) for an access made under a world, if it may be made. -/
def Owner.mapAA (o : Owner) (world aa n : Nat) : Option Loc :=
  match o.extents.find? (fun x => extAab x ≤ aa && aa + n ≤ extAab x + extLen x && !extRsv x) with
  | none => none
  | some x =>
    if extWorld x = 0 ∨ extWorld x = world then some { dpa := extDpa x + (aa - extAab x), world := extWorld x, tier := extTier x } else none

/-- A location in the owner's reserve (R162). -/
def Owner.mapReserve (o : Owner) (off n : Nat) : Option Loc :=
  match o.reserve with
  | none => none
  | some x => if off + n ≤ extLen x then some { dpa := extDpa x + off, world := extWorld x, tier := extTier x } else none

/-- n bytes of an owner's reserve: zeros beyond its end, and for a poisoned word (R203). -/
def State.reserveBytes (s : State) (o off n : Nat) : List Byte :=
  match (s.owner o).mapReserve off n with
  | some l => (List.range n).map (fun i => if Tab.getD s.poison false ((l.dpa + i) / 8) then 0 else s.plainByte l.world (l.dpa + i))
  | none => List.replicate n 0

/-! ### Events and halts (R160, R366) -/

/-- A claim entry (R159). -/
def State.claim (s : State) (source : Nat) : BitVec 32 := Tab.getD s.claims 0 source

/-- An event raised and delivered as its claim entry says (R160). -/
def State.raiseEvent (s : State) (source : Nat) : State :=
  let c := s.claim source
  let h := c.getLsbD 31
  let vec := c.toNat % 2 ^ 16
  if c.getLsbD 30 then
    { s with events := s.events ++ [{ source, h, vec, place := .withSc (c.toNat / 2 ^ 27 % 8), raisedAt := s.now
                                      sc := c.toNat / 2 ^ 27 % 8, owed := true }] }
  else if h then
    { s with
      events := s.events ++ [{ source, h, vec, place := .withHost, raisedAt := s.now }]
      hostNotes := s.hostNotes ++ [.interrupt vec source] }
  else { s with noclaim := satInc64 s.noclaim 1, hostNotes := s.hostNotes ++ [.logged source] }

/-- Whether a halt report comes before the one that OSTAT holds: both are of cores, in one ac, and its core number is the lower (R366). -/
def OStat.ahead (r x : OStat) : Bool := x.st == .halting && x.cause != .driver && r.cause != .driver && r.core < x.core

/-- A halt report (R366): the first one that reaches OSTAT decides, in one ac that of the lowest core; the others are dropped. -/
def State.reportHalt (s : State) (o : Nat) (r : OStat) : State :=
  s.updOwner o (fun x =>
    if x.ostat.st = .running then { x with ostat := { r with st := .halting }, haltAt := s.now }
    else if x.haltAt = s.now ∧ r.ahead x.ostat then { x with ostat := { r with st := .halting } } else x)

/-- Whether an owner is halting or halted. -/
def State.isHalting (s : State) (o : Nat) : Bool :=
  let st := (s.owner o).ostat.st
  st == .halting || st == .halted

/-! ### Handler entries and miss records (R168, R170) -/

/-- The entry PC of a class at a handler depth, where it is valid (R168). -/
def State.handlerEntry (s : State) (o : Nat) (cls : Cls) (depth : Nat) : Option Nat :=
  let v := leNat (s.reserveBytes o ((if depth = 2 then 0x80 else 0) + 8 * cls.code) 8)
  if v ≠ 0 ∧ v % 8 = 0 ∧ reserveBase ≤ v ∧ v < reserveBase + (s.owner o).reserveLen then some v else none

/-- A free record of the kind a fault needs: 0..55 for depth-0 threads, the owner's reserved one for depth 1 (R170). -/
def Core.freeRec (c : Core) (o hdepth : Nat) : Option Nat :=
  if hdepth = 0 then (List.range 56).find? (fun i => (Tab.find c.recs i).isNone)
  else
    match c.slotOf o with
    | some k => if (Tab.find c.recs (56 + k)).isNone then some (56 + k) else none
    | none => none

/-- The unclaimed record that a miss joins (R170): its class, owner, page, depth and nest all match. -/
def Core.joinRec (c : Core) (r : MissRec) : Option Nat :=
  (c.recs.find? (fun e => e.2.cls == .xmiss && r.cls == .xmiss && e.2.owner == r.owner && e.2.claimed.isNone &&
    e.2.ova / 2 ^ 16 == r.ova / 2 ^ 16 && e.2.depth == r.depth && e.2.nest == r.nest && !e.2.device)).map (·.1)

/-- A record taken or joined for one waiter; `none` where no record of its kind is free. -/
def Core.takeRec (c : Core) (r : MissRec) (w : Waiter) : Option (Core × Nat) :=
  match c.joinRec r with
  | some i =>
    some ({ c with recs := Tab.upd c.recs i (fun x => { x with waiters := x.waiters ++ [w], nwait := min (x.nwait + 1) 16383 }) }, i)
  | none =>
    match c.freeRec r.owner r.depth with
    | some i => some ({ c with recs := Tab.put c.recs i { r with waiters := [w], nwait := 1 } }, i)
    | none => none

/-- A record taken or joined for the sequencer of a team (R245). -/
def Core.takeSeqRec (c : Core) (r : MissRec) (uid : Nat) : Option Core :=
  match c.joinRec r with
  | some i =>
    some { c with recs := Tab.upd c.recs i (fun x => { x with seqTeams := x.seqTeams ++ [uid], nwait := min (x.nwait + 1) 16383 }) }
  | none => (c.freeRec r.owner 0).map (fun i => { c with recs := Tab.put c.recs i { r with seqTeams := [uid], nwait := 1 } })

/-- What a fault says of itself (R356). -/
structure FaultInfo where
  cls : Cls
  acc : Acc := .read
  addr : Nat := 0
  aux : Word := 0
  cause2 : Cls := .none
deriving DecidableEq, Repr, Inhabited

/-- The record and nest bit that R175 gives a fault of a thread at handler depth h, or `none` where the owner halts with
cause RECURSE. -/
def State.recordFor (s : State) (o hd : Nat) (cls : Cls) : Option Bool :=
  match hd with
  | 0 =>
    if (s.handlerEntry o cls 1).isSome then some false
    else if (s.handlerEntry o cls 2).isSome then some true else none
  | 1 => if (s.handlerEntry o cls 2).isSome then some true else none
  | _ => none

/-- The aux field of a miss record, by its class (R171, R314). -/
def recordAux (cls : Cls) (aux : Word) : Word :=
  match cls with
  | .svc | .allot | .pool | .seal => aux
  | _ => 0

/-- The aux field of FREC: that of a record, and for WATCHDOG the ac waited (R356). -/
def frecAux (cls : Cls) (aux : Word) : Word := if cls = .watchdog then aux else recordAux cls aux

/-- TAKING A FAULT (R357): FREC is written with v = 1, the thread waits with wr 1 with its PC at the word, and then a
record is taken or joined under R170, or the owner halts with cause RECURSE under R175. A thread whose owner is halting
receives its FREC and no record. -/
def State.raise (s : State) (k : Nat) (f : FaultInfo) : State :=
  let g := s.group (k / 32)
  let t := s.thread k
  let core := k / 32 / 512
  let gslot := k / 32 % 512
  let frec : FRec := { cls := f.cls, acc := f.acc, v := true, pbk := t.frec.pbk, hd := g.hdepth, cause2 := f.cause2,
                       repix := t.repix.toNat, aux := frecAux f.cls f.aux, addr := f.addr }
  let s1 := s.setThread k { t with frec := frec, st := .waitHandler }
  if s.isHalting g.owner then s1
  else
    match s.recordFor g.owner g.hdepth f.cls with
    | none =>
      s1.reportHalt g.owner { cause := .recurse, hd := g.hdepth, core, gslot, lane := k % 32, code := recordAux f.cls f.aux,
                              cls := f.cls, addr := f.addr }
    | some nest =>
      let w : Waiter := { uid := g.uid, lane := k % 32 }
      let r : MissRec := { cls := f.cls, acc := f.acc, nest, owner := g.owner, depth := g.hdepth, gslot, lane := k % 32,
                           cause2 := f.cause2, aux := recordAux f.cls f.aux, ova := f.addr, order := s.nextId }
      match (s.core core).takeRec r w with
      | some (c, i) =>
        ({ s1 with nextId := s.nextId + 1 }.setCore core c).setThread k { t with frec := { frec with rid := i }, st := .waitHandler }
      | none => s1.updCore core (fun c => { c with recWaits := c.recWaits ++ [{ waiter := w, record := r }] })

/-- The same fault raised for several threads, in ascending order (R358). -/
def State.raiseAll (s : State) (ks : List Nat) (f : FaultInfo) : State := ks.foldl (fun acc k => acc.raise k f) s

/-- A fault whose address is each thread's own PC (R356). -/
def State.raisePc (s : State) (k : Nat) (cls : Cls) (aux : Word := 0) : State :=
  s.raise k { cls, addr := (s.thread k).pc.toNat, aux }

/-- A waiting thread or sequencer takes a record of its kind, where one is free (R170, R245). -/
def State.serveRecWait (s : State) (core : Nat) (rw : RecWait) : State :=
  let r := { rw.record with order := s.nextId }
  let served (c : Core) : State := { s with nextId := s.nextId + 1 }.setCore core { c with recWaits := c.recWaits.erase rw }
  if rw.seq then ((s.core core).takeSeqRec r rw.waiter.uid).elim s served
  else
    match (s.core core).takeRec r rw.waiter with
    | none => s
    | some (c, i) =>
      match s.findGroup rw.waiter.uid with
      | some g => (served c).updThread (tkey g rw.waiter.lane) (fun t => { t with frec := { t.frec with rid := i } })
      | none => served c

/-- The threads and sequencers that wait for a record take one, in fault order, while records of their kind are free (R170)
(log 46, DEDUCED). -/
def State.serveRecWaits (s : State) (core : Nat) : State :=
  (s.core core).recWaits.foldl (fun acc rw => acc.serveRecWait core rw) s

/-! ### Groups and exits (R136) -/

/-- The keys of a group's threads. -/
def groupKeys (g : Nat) : List Nat := (List.range 32).map (tkey g)

/-- The thread whose exit a group has seen: its rows are freed, and PC and DEPTH keep their values (R136). -/
def Thread.gone (t : Thread) : Thread :=
  { t with st := .exited, regs := [], clause := none, watch := none, monitor := none }

/-! ### Tables that are being rewritten (R118, R145) -/

/-- Whether a reader finds entry n of a table as it was before a write that is still rewriting it: the writer itself never does, and
another reader does until the entry's turn has come (R118, R145) (log 52, DESIGN CHOICE). -/
def oldEntry {α : Type} (b : Option (Before α)) (now reader n : Nat) : Option α :=
  (b.filter (fun x => x.uid != reader && now < x.start + Config.entryDelay x.id n)).map (·.was)

/-- A table's contents as they stand before a write of a group or a team, kept for its readers while the write goes on (R118, R145). -/
def State.beforeWrite {α : Type} (s : State) (uid : Nat) (was : α) : Before α := { uid, was, id := s.draws, start := s.now }

/-! ### A free value -/

/-- The machine draws a free value: the counter that `Config` is applied to advances. -/
def State.draw (s : State) : State := { s with draws := s.draws + 1 }

end Sys2Proof.Machine
end

