-- ==== Sys2Proof/Machine/Operands.lean ====
section
/-! DEFINITION. Operands (R30..R32, R85, R92), the placement of a word in a clause (R42..R46), and what every word shares:
which threads of the run are active, which of them fault at steps 5 and 6 of R53, and how the rest move on. -/

namespace Sys2Proof.Machine

/-! ### Reading and writing operands -/

/-- The special registers (R31), for one thread. -/
def State.special (s : State) (k : Nat) (r : SReg) : BitVec 64 :=
  let g := s.group (k / 32)
  let t := s.thread k
  let tm : Team := (g.team.bind s.team?).getD {}
  match r with
  | .lane => BitVec.ofNat 64 (k % 32)
  | .group => BitVec.ofNat 64 g.gidx
  | .team => BitVec.ofNat 64 tm.team
  | .tpos => BitVec.ofNat 64 (g.gidx * 32 + k % 32)
  | .cluster => BitVec.ofNat 64 tm.cluster
  | .core => BitVec.ofNat 64 (k / 32 / 512)
  | .owner => BitVec.ofNat 64 g.owner
  | .depth => t.depth.setWidth 64
  | .pc => t.pc
  | .repix => t.repix.setWidth 64
  | .frec => t.frec.bits.setWidth 64
  | .spillbase => t.spillbase
  | .spilltop => t.spilltop
  | .world => BitVec.ofNat 64 (s.core (k / 32 / 512)).world
  | .stage => BitVec.ofNat 64 tm.stage
  | .clock => s.clock

/-- The value of a source operand for one thread, in a 32- or 64-bit position (R30..R32). -/
def State.rd (s : State) (k : Nat) (o : Opd) (wide : Bool) : BitVec 64 :=
  let v : BitVec 64 := match o with
    | .w i => let t := s.thread k
              if wide then t.pair (t.winbase + i) else (t.reg (t.winbase + i)).setWidth 64
    | .s i => let g := s.group (k / 32)
              if wide then g.pair i else (g.reg i).setWidth 64
    | .q i => boolVal ((s.thread k).pred i)
    | .sr r => s.special k r
    | .m _ => 0
    | .zero => 0
  if wide then v else v &&& 0xFFFFFFFF

/-- The truth value of a predicate operand for one thread. -/
def State.rdPred (s : State) (k : Nat) (o : Opd) : Bool := (s.rd k o false).getLsbD 0

/-- The 32-bit number of a source operand for one thread. -/
def State.rdNat (s : State) (k : Nat) (o : Opd) : Nat := (s.rd k o false).toNat

/-- A result written to a destination operand for one thread (R29..R32). -/
def State.wr (s : State) (k : Nat) (o : Opd) (wide : Bool) (v : BitVec 64) : State :=
  match o with
  | .w i => s.updThread k (fun t =>
      if wide then t.setPair (t.winbase + i) v else t.setReg (t.winbase + i) (v.setWidth 32))
  | .s i => s.updGroup (k / 32) (fun g => if wide then g.setPair i v else g.setReg i (v.setWidth 32))
  | .q i => s.updThread k (fun t => t.setPred i (v.getLsbD 0))
  | .sr _ => s
  | .m _ => s
  | .zero => s

/-! ### Use of operands: step 6 of R53 -/

/-- How a word uses one operand: the number of 32-bit registers it covers, and whether it is written. -/
structure Use where
  opd : Opd
  n : Nat := 1
  dst : Bool := false
deriving DecidableEq, Repr

/-- Whether a use is allowed by R32 and R85 for a thread whose allotment is A. -/
def Use.ok (u : Use) (winbase A : Nat) : Bool :=
  match u.opd with
  | .w i => i.val % u.n == 0 && winbase + i.val + u.n ≤ A
  | .s i => i.val % u.n == 0
  | .q _ => !(u.dst && 1 < u.n)
  | .sr _ => !u.dst
  | .m _ => false
  | .zero => true

/-! ### Placement: step 5 of R53 -/

/-- What the placement rules ask of a word: whether it is long-latency (R43) or control flow (0x70..0x7F). -/
structure Site where
  long : Bool := false
  ctrl : Bool := false
deriving DecidableEq, Repr

/-- The flag that a long-latency word at a clause position sets, where its set field is valid (R43). -/
def ClausePos.flag (c : ClausePos) : Option (Fin 16) :=
  if !c.usedA then c.seta else if !c.usedB then c.setb else none

/-- Whether a word of so many 64-bit words may stand at a thread's clause position (R43, R46, R51). -/
def placeOk (site : Site) (words : Nat) (pos : Option ClausePos) : Bool :=
  match pos with
  | none => true
  | some c => words ≤ c.left && (!site.long || c.flag.isSome) && (!site.ctrl || c.left == words)

/-- The site of a word for a thread that it is a no-operation for: it ends no clause (R27, R42). -/
def Site.off (site : Site) : Site := { site with ctrl := false }

/-- A thread moved past a word: its clause position advances, whether or not it was active (R42, R43). -/
def Thread.passWords (t : Thread) (site : Site) (words : Nat) : Thread :=
  match t.clause with
  | none => t
  | some c =>
    if site.ctrl || c.left ≤ words then { t with clause := none }
    else
      { t with clause := some { c with left := c.left - words
                                       usedA := c.usedA || site.long
                                       usedB := c.usedB || (site.long && c.usedA) } }

/-- The words that the issuing word occupies. -/
def Run.words (r : Run) : Nat := r.len / 8

/-- A thread moved past a word of so many bytes: PC advances; within a REP REPIX rises instead (R49). -/
def Thread.pass (t : Thread) (site : Site) (inRep : Bool) (len : Nat) : Thread :=
  if inRep then { t with repix := t.repix + 1 } else { t with pc := t.pc + BitVec.ofNat 64 len }.passWords site (len / 8)

/-- Threads moved past the issuing word. -/
def State.advance (s : State) (site : Site) (ks : List Nat) : State :=
  ks.foldl (fun acc k => acc.updThread k (fun t => t.pass site s.cur.inRep s.cur.len)) s

/-- Whether a thread is active under a guard (R27). -/
def State.active (s : State) (g : Guard) (k : Nat) : Bool := (s.thread k).pred g.pq != g.pn

/-- The handler depths at which a word is legal (R173, R176). -/
inductive DepthRule
  | any | handlerOnly | ordinaryOnly
deriving DecidableEq, Repr

/-- Whether a depth rule admits a handler depth. -/
def DepthRule.ok (r : DepthRule) (hd : Nat) : Bool :=
  match r with
  | .any => true
  | .handlerOnly => hd != 0
  | .ordinaryOnly => hd == 0

/-- What every word shares: inactive threads move on; active ones fault at steps 3, 5 and 6 of R53, in that order, and wait
there; the rest are given to the word's own effect, which moves them on. -/
structure Entry where
  state : State
  lanes : List Nat

/-- The entry of a word into its effect, the threads active for it given by a test. The set R of a word that reads its run (R102) is
the threads given to the effect: an active thread that itself faults at step 5 or 6 is not among them (log 55, DESIGN CHOICE). -/
def State.enterIf (s : State) (active : Nat → Bool) (site : Site) (uses : List Use) (dr : DepthRule) : Entry :=
  let act := s.curKeys.filter active
  let off := s.curKeys.filter (fun k => !active k)
  let A := (s.group s.curG).allot
  let illop (k : Nat) : Bool :=
    !dr.ok (s.group s.curG).hdepth || !(s.cur.inRep || placeOk site s.cur.words (s.thread k).clause)
  let illopd (k : Nat) : Bool := !(uses.all (fun u => u.ok (s.thread k).winbase A))
  let bad1 := act.filter illop
  let bad2 := act.filter (fun k => !illop k && illopd k)
  let good := act.filter (fun k => !illop k && !illopd k)
  let s1 := s.advance site.off off
  let s2 := bad1.foldl (fun acc k => acc.raisePc k .illop) s1
  ⟨bad2.foldl (fun acc k => acc.raisePc k .illopd) s2, good⟩

/-- The entry of a word under its guard (R27, R52). -/
def State.enter (s : State) (g : Guard) (site : Site) (uses : List Use) (dr : DepthRule := .any) : Entry :=
  s.enterIf (s.active g) site uses dr

/-! ### Last use (R35, R90) -/

/-- The number of 32-bit registers that an operation's destination covers. -/
def Op.regs (o : Op) : Nat :=
  match o.kind with
  | .value _ n => n
  | .load size _ _ _ => max 1 (size / 4)
  | .vq _ _ size _ => max 1 (size / 4)
  | .store _ _ => 0
  | .atomic _ ty _ _ _ => if tyBits ty = 64 then 2 else 1
  | .xpipe _ _ _ n => n
  | .monwait _ => 1
  | .qstat _ _ => 2
  | .popq _ _ _ => 1

/-- Whether a row lies in a range of rows. -/
def inRows (abs first n : Nat) : Bool := first ≤ abs && abs < first + n

/-- Whether an operation still to complete writes a row of a thread (R45). -/
def State.opWrites (s : State) (k abs : Nat) : Bool :=
  s.ops.any (fun o => o.uid == (s.group (k / 32)).uid && o.lanes.contains (k % 32) &&
    (match o.dest with
     | .win a => inRows abs a o.regs
     | .uni _ => false | .pred _ => false | .none => false))

/-- Whether a row is the destination of a long-latency operation of the thread that is pending, whose flag has not cleared, or which
the thread's present clause has issued: its last use is ignored (R90, log 54, DEDUCED). -/
def State.pendingDest (s : State) (k abs : Nat) : Bool :=
  let t := s.thread k
  t.flagDests.any (fun e => inRows abs e.2.1 e.2.2) ||
  t.clause.any (fun c => c.dests.any (fun e => inRows abs e.1 e.2)) || s.opWrites k abs

/-- The rows of one source freed for one thread where its last-use bit is set. -/
def State.freeOpd (s : State) (k : Nat) (o : Opd) (n : Nat) (lu : Bool) : State :=
  match lu, o with
  | true, .w i =>
    let wb := (s.thread k).winbase
    (List.range n).foldl (fun acc j =>
      if s.pendingDest k (wb + i + j) then acc else acc.updThread k (fun t => t.freeReg (wb + i + j))) s
  | _, _ => s

/-- The rows of the three sources of a register word freed for one thread. -/
def State.freeLu (s : State) (k : Nat) (f : FWord) (na nb nc : Nat) : State :=
  ((s.freeOpd k f.a na f.lu.a).freeOpd k f.b nb f.lu.b).freeOpd k f.c nc f.lu.c

/-! ### The shape of a register word -/

/-- Registers covered by an operand in a 32- or 64-bit position. -/
def regs (wide : Bool) : Nat := if wide then 2 else 1

/-- The uses of a register word's four operands, by their widths. -/
def fUses (f : FWord) (dw aw bw cw : Bool) : List Use :=
  [⟨f.d, regs dw, true⟩, ⟨f.a, regs aw, false⟩, ⟨f.b, regs bw, false⟩, ⟨f.c, regs cw, false⟩]

/-- Results written to a word's destination: once for a uniform one, from the lowest-numbered active thread (R7, R92). -/
def State.writeAll (s : State) (d : Opd) (dw : Bool) (ks : List Nat) (val : Nat → BitVec 64) : State :=
  if isUni d then
    match ks with
    | [] => s
    | k :: _ => s.wr k d dw (val k)
  else ks.foldl (fun acc k => acc.wr k d dw (val k)) s

/-- A word that reads sources of the whole run and gives each active thread a value: `val` sees the state before the word,
the active threads and the thread that receives it (R7, R102, R116). -/
def State.computeRun (s : State) (f : FWord) (dw aw bw cw : Bool) (val : State → List Nat → Nat → BitVec 64) : State :=
  let e := s.enter f.guard {} (fUses f dw aw bw cw)
  let freed := e.lanes.foldl (fun acc k => acc.freeLu k f (regs aw) (regs bw) (regs cw)) e.state
  (freed.writeAll f.d dw e.lanes (val e.state e.lanes)).advance {} e.lanes

/-- A word that gives each active thread a value of its own sources (R7, R29, R92). -/
def State.compute (s : State) (f : FWord) (dw aw bw cw : Bool) (val : State → Nat → BitVec 64) : State :=
  s.computeRun f dw aw bw cw (fun s0 _ k => val s0 k)

/-- Whether a type's operands are 64 bits wide. -/
def wide (t : Ty) : Bool := tyBits t == 64

/-- A word of one source, all its operands of the type's width. -/
def State.compute1 (s : State) (f : FWord) (g : BitVec 64 → BitVec 64) : State :=
  let w := wide f.ty
  s.compute f w w false false (fun s k => g (s.rd k f.a w))

/-- A word of two sources, all its operands of the type's width. -/
def State.compute2 (s : State) (f : FWord) (g : BitVec 64 → BitVec 64 → BitVec 64) : State :=
  let w := wide f.ty
  s.compute f w w w false (fun s k => g (s.rd k f.a w) (s.rd k f.b w))

/-- A word of three sources, all its operands of the type's width. -/
def State.compute3 (s : State) (f : FWord) (g : BitVec 64 → BitVec 64 → BitVec 64 → BitVec 64) : State :=
  let w := wide f.ty
  s.compute f w w w w (fun s k => g (s.rd k f.a w) (s.rd k f.b w) (s.rd k f.c w))

/-- A word's immediate form computed like a register form without b and c. -/
def State.computeImm (s : State) (f : IWord) (dw aw : Bool) (val : State → Nat → BitVec 64) : State :=
  s.compute { guard := f.guard, d := f.d, a := f.a, b := .zero, c := .zero, lu := ⟨f.lua, false, false⟩, ty := f.ty,
              sc := 0, sub := f.sub, mod := 0 } dw aw false false val

/-- An immediate word of one source, all its operands of the type's width. -/
def State.compute1I (s : State) (f : IWord) (g : BitVec 64 → BitVec 64 → BitVec 64) : State :=
  let w := wide f.ty
  s.computeImm f w w (fun s k => g (s.rd k f.a w) (immValue f))

end Sys2Proof.Machine
end

