-- ==== Sys2Proof/Machine/Long.lean ====
section
/-! DEFINITION. Issuing long-latency words (R43, R44): flags, waits and pending operations. -/

namespace Sys2Proof.Machine

/-- The answer of a step. -/
abbrev Answer := Host.Outcome State Fault Refusal

/-- Whether an operation is that of a long-latency word: it sets a flag or holds its thread (R43, R44). -/
def Op.isLong (o : Op) : Bool :=
  match o.kind with
  | .store _ _ => false
  | .atomic _ _ _ _ posted => !posted
  | .value _ _ => true | .load _ _ _ _ => true | .vq _ _ _ _ => true | .xpipe _ _ _ _ => true | .monwait _ => true
  | .qstat _ _ => true | .popq _ _ _ => true

/-- Whether an operation belongs to a thread. -/
def Op.ofThread (o : Op) (uid lane : Nat) : Bool := o.uid == uid && o.lanes.contains lane

/-- The flag that an operation holds for a lane. -/
def Op.flagFor (o : Op) (lane : Nat) : Option Nat :=
  if lane = o.lane then o.flag else ((o.laneFlags.find? (fun e => e.1 == lane)).bind (·.2))

/-- The pending operations of a thread. -/
def State.threadOps (s : State) (k : Nat) : List Op :=
  s.ops.filter (fun o => o.ofThread (s.group (k / 32)).uid (k % 32))

/-- The flag that a long-latency word sets for a thread at its present clause position. -/
def Thread.nextFlag (t : Thread) : Option Nat := (t.clause.bind ClausePos.flag).map (·.val)

/-- Whether a thread must wait for its word's flag to clear first (R44). -/
def Thread.flagBusy (t : Thread) : Bool :=
  match t.nextFlag with
  | some f => t.flags.getLsbD f
  | none => false

/-- The entry of a long-latency word: threads whose flag is still set wait and are not given to the word. -/
def State.enterLong (s : State) (g : Guard) (uses : List Use) (dr : DepthRule := .any) : Entry :=
  let e := s.enter g { long := true } uses dr
  if s.cur.inRep then e else ⟨e.state, e.lanes.filter (fun k => !(s.thread k).flagBusy)⟩

/-- Where an operand's result goes (R44): rows by absolute index. -/
def State.destOf (s : State) (k : Nat) (o : Opd) : Dest :=
  match o with
  | .w i => .win ((s.thread k).winbase + i)
  | .s i => .uni i
  | .q i => .pred i
  | .sr _ => .none
  | .m _ => .none
  | .zero => .none

/-- The flags and waits that an issued long-latency operation sets for one thread: the clause's flag, or outside a clause
the wait of its next word. In a REP the sequence's end sets the wait. -/
def State.holdThread (s : State) (k : Nat) : State :=
  s.updThread k (fun t =>
    match t.nextFlag with
    | some f => t.setFlag f true
    | none => if s.cur.inRep then t else { t with st := .waitOp })

/-- The rows that an issued operation of a flag will write are remembered: their last uses are ignored (R90). -/
def Thread.noteDest (t : Thread) (o : Op) : Thread :=
  match o.flag, o.dest with
  | some f, .win a =>
    { t with flagDests := t.flagDests ++ [(f, a, o.regs)], clause := t.clause.map (fun c => { c with dests := c.dests ++ [(a, o.regs)] }) }
  | _, _ => t

/-- The place in its clause at which a thread stands, without the rows that the clause's operations write (R42, R43). -/
def Thread.place (t : Thread) : Option ClausePos := t.clause.map (fun c => { c with dests := [] })

/-- An operation issued for the threads `ks` of the run, the first of which it acts for. -/
def State.startOp (s : State) (k : Nat) (ks : List Nat) (dest : Dest) (kind : OpKind) (f : Op → Op) : State :=
  let g := s.group (k / 32)
  let o : Op := { id := s.nextId, uid := g.uid, lane := k % 32, core := k / 32 / 512, owner := g.owner, kind, dest,
                  flag := (s.thread k).nextFlag, lanes := ks.map (· % 32)
                  laneFlags := (ks.filter (· != k)).map (fun j => (j % 32, (s.thread j).nextFlag))
                  clauses := ks.map (fun j => (j % 32, (s.thread j).place)), repix := (s.thread k).repix, pc := (s.thread k).pc, issuedAt := s.now,
                  charged := g.hdepth != 0, inRep := s.cur.inRep }
  let o := f o
  let s1 := { s with ops := s.ops ++ [o], nextId := s.nextId + 1 }
  let s2 := ks.foldl (fun acc k => acc.updThread k (fun t => t.noteDest o)) s1
  if o.isLong then ks.foldl State.holdThread s2 else s2

/-- The place in its clause at which a lane of an operation issued it (R42, R43). -/
def Op.clauseOf (o : Op) (lane : Nat) : Option ClausePos := (o.clauses.find? (fun e => e.1 == lane)).bind (·.2)

/-- A long-latency word that computes a value of its own sources for each active thread (R106). -/
def State.computeLong (s : State) (f : FWord) (g : BitVec 64 → BitVec 64) : State :=
  let e := s.enterLong f.guard (fUses f false false false false)
  let vals := e.lanes.map (fun k => (k, g (e.state.rd k f.a false)))
  let issued := vals.foldl (fun acc v => acc.startOp v.1 [v.1] (acc.destOf v.1 f.d) (.value v.2 1) id) e.state
  (e.lanes.foldl (fun acc k => acc.freeLu k f 1 1 1) issued).advance { long := true } e.lanes

end Sys2Proof.Machine
end

