-- ==== Sys2Proof/Machine/Float.lean ====
section
/-! DEFINITION. Floating point: FP32, the special functions, packed 16-bit, and LN6 (R104..R108). -/

namespace Sys2Proof.Machine

/-- The rounding mode in a word's sc field; the decoder admits codes 0..4 only (R34, R104). -/
def rmOf (f : FWord) : Rm := (Rm.ofCode f.sc.toNat).getD .rn

/-- FADD (R105). -/
def execFadd (f : FWord) (s : State) : Answer :=
  .next (s.compute2 f (fpAdd f.ty (rmOf f)))

/-- FSUB (R105). -/
def execFsub (f : FWord) (s : State) : Answer :=
  .next (s.compute2 f (fpSub f.ty (rmOf f)))

/-- FMUL (R105). -/
def execFmul (f : FWord) (s : State) : Answer :=
  .next (s.compute2 f (fpMul f.ty (rmOf f)))

/-- FFMA (R105): one rounding. -/
def execFfma (f : FWord) (s : State) : Answer :=
  .next (s.compute3 f (fpFma f.ty (rmOf f)))

/-- FMIN (R105). -/
def execFmin (f : FWord) (s : State) : Answer :=
  .next (s.compute2 f (fpMin f.ty))

/-- FMAX (R105). -/
def execFmax (f : FWord) (s : State) : Answer :=
  .next (s.compute2 f (fpMax f.ty))

/-- FCLAMP (R105): FMIN(FMAX(a, b), c). -/
def execFclamp (f : FWord) (s : State) : Answer :=
  .next (s.compute3 f (fun a b c => fpMin f.ty (fpMax f.ty a b) c))

/-- FABS (R105). -/
def execFabs (f : FWord) (s : State) : Answer :=
  .next (s.compute1 f (fpAbs f.ty))

/-- FNEG (R105). -/
def execFneg (f : FWord) (s : State) : Answer :=
  .next (s.compute1 f (fpNeg f.ty))

/-- HADD (R107). -/
def execHadd (f : FWord) (s : State) : Answer :=
  .next (s.compute2 f (fpAdd f.ty (rmOf f)))

/-- HSUB (R107). -/
def execHsub (f : FWord) (s : State) : Answer :=
  .next (s.compute2 f (fpSub f.ty (rmOf f)))

/-- HMUL (R107). -/
def execHmul (f : FWord) (s : State) : Answer :=
  .next (s.compute2 f (fpMul f.ty (rmOf f)))

/-- HFMA (R107): one rounding. -/
def execHfma (f : FWord) (s : State) : Answer :=
  .next (s.compute3 f (fpFma f.ty (rmOf f)))

/-- HMIN (R107). -/
def execHmin (f : FWord) (s : State) : Answer :=
  .next (s.compute2 f (fpMin f.ty))

/-- HMAX (R107). -/
def execHmax (f : FWord) (s : State) : Answer :=
  .next (s.compute2 f (fpMax f.ty))

/-- HABS (R107). -/
def execHabs (f : FWord) (s : State) : Answer :=
  .next (s.compute1 f (fpAbs f.ty))

/-- HNEG (R107). -/
def execHneg (f : FWord) (s : State) : Answer :=
  .next (s.compute1 f (fpNeg f.ty))

/-- FROUND (R105). -/
def execFround (f : FWord) (s : State) : Answer :=
  .next (s.compute1 f (fpRoundInt (rmOf f)))

/-- FRCP (R106): a long-latency word. -/
def execFrcp (f : FWord) (s : State) : Answer :=
  .next (s.computeLong f (fun a => BitVec.ofNat 64 (frcp (Fmt.fp32.decode a.toNat))))

/-- FRSQ (R106): a long-latency word. -/
def execFrsq (f : FWord) (s : State) : Answer :=
  .next (s.computeLong f (fun a => BitVec.ofNat 64 (frsq (Fmt.fp32.decode a.toNat))))

/-- FEX2 (R106): a long-latency word. -/
def execFex2 (f : FWord) (s : State) : Answer :=
  .next (s.computeLong f (fun a => BitVec.ofNat 64 (fex2 (Fmt.fp32.decode a.toNat))))

/-- FLG2 (R106): a long-latency word. -/
def execFlg2 (f : FWord) (s : State) : Answer :=
  .next (s.computeLong f (fun a => BitVec.ofNat 64 (flg2 (Fmt.fp32.decode a.toNat))))

/-- FSIN (R106): a long-latency word. -/
def execFsin (f : FWord) (s : State) : Answer :=
  .next (s.computeLong f (fun a => BitVec.ofNat 64 (fsin (Fmt.fp32.decode a.toNat))))

/-- FCOS (R106): a long-latency word. -/
def execFcos (f : FWord) (s : State) : Answer :=
  .next (s.computeLong f (fun a => BitVec.ofNat 64 (fcos (Fmt.fp32.decode a.toNat))))

/-- HDOT2 (R107): one rounding of the exact sum. -/
def execHdot2 (f : FWord) (s : State) : Answer :=
  .next (s.compute f false false false false (fun s k =>
    fpDot2 f.ty (rmOf f) (s.rd k f.a false) (s.rd k f.b false) (s.rd k f.c false)))

/-- LMUL (R108). -/
def execLmul (f : FWord) (s : State) : Answer :=
  .next (s.compute2 f aluLmul)

/-- LADD (R108). -/
def execLadd (f : FWord) (s : State) : Answer :=
  .next (s.compute2 f aluLadd)

end Sys2Proof.Machine
end

