-- ==== Sys2Proof/Machine/Convert.lean ====
section
/-! DEFINITION. Conversions between integers, floating point and the narrow formats (R109..R114). -/

namespace Sys2Proof.Machine

/-- The binary floating-point format of a format code of R65, where it names one. -/
def fmtOfCode (c : Nat) : Option Fmt :=
  match c with
  | 0 => some .bf16 | 1 => some .fp16 | 2 => some .e4m3 | 3 => some .e5m2 | 4 => some .e3m2 | 5 => some .e2m3
  | 6 => some .e2m1
  | _ => none

/-- The bits of one field of a format code in a register (R111). -/
def fieldBits (c : Nat) : Nat :=
  match c with
  | 0 => 16 | 1 => 16 | 4 => 6 | 5 => 6 | 6 => 4 | 8 => 4
  | _ => 8

/-- The value of an element code of a direct format (R57, R65, R70, R112). -/
def elementVal (c code : Nat) : Val :=
  match fmtOfCode c with
  | some f => f.decode code
  | none => if c = 7 then .ofInt (asInt true 8 code) else if c = 8 then .ofInt (asInt true 4 code) else linLN6 code

/-- A value rounded into a direct format (R111). -/
def elementCode (c : Nat) (sat : Bool) (rm : Rm) (x : Val) : Nat :=
  match fmtOfCode c with
  | some f => if sat then satRound x f rm else round x f rm
  | none =>
    if c = 7 then (toInt x 8 true rm % 2 ^ 8).toNat
    else if c = 8 then (toInt x 4 true rm % 2 ^ 4).toNat
    else roundLN6 x

/-- A number with a field replaced. -/
def putField (x bits k v : Nat) : Nat :=
  let lo := 2 ^ (bits * k)
  x % lo + v % 2 ^ bits * lo + x / (lo * 2 ^ bits) * (lo * 2 ^ bits)

/-- CVT between scalar types (R109). -/
def cvtVal (dt st : Ty) (sat : Bool) (rm : Rm) (a : BitVec 64) : BitVec 64 :=
  let n := tyBits dt
  let v := asInt (tySigned st) (tyBits st) a.toNat
  if dt = .f32 then BitVec.ofNat 64 (round (.ofInt v) .fp32 rm)
  else if st = .f32 then packLanes n 1 (fun _ => toInt (Fmt.fp32.decode a.toNat) n (tySigned dt) rm)
  else packLanes n 1 (fun _ => if sat then (if tySigned dt then satS n v else satN n v) else v)

/-- One lane of CVTL (R110). -/
def cvtlLane (dt st : Ty) (rm : Rm) (x : Nat) : Int :=
  let isF (t : Ty) : Bool := t == .h2 || t == .bh2
  let v : Val := if isF st then (laneFmt st).decode x else .ofInt (asInt (tySigned st) 16 x)
  if isF dt then round v (laneFmt dt) rm else toInt v 16 (tySigned dt) rm

/-- CVT (R109): the destination type in ty, the source type in mod. -/
def execCvt (f : FWord) (s : State) : Answer :=
  let st := (tyOfCode f.mod.toNat).getD .s32
  .next (s.compute f (wide f.ty) (wide st) false false (fun s k =>
    cvtVal f.ty st (f.sub.getLsbD 0) (rmOf f) (s.rd k f.a (wide st))))

/-- CVTL (R110). -/
def execCvtl (f : FWord) (s : State) : Answer :=
  let st := (tyOfCode f.mod.toNat).getD .s16x2
  .next (s.compute f false false false false (fun s k =>
    let a := s.rd k f.a false
    packLanes 16 2 (fun i => cvtlLane f.ty st (rmOf f) (laneOf 16 a i))))

/-- CVTN (R111): field k of c is replaced by the rounded value of a. -/
def execCvtn (f : FWord) (s : State) : Answer :=
  .next (s.compute f false false false false (fun s k =>
    let code := elementCode f.mod.toNat (f.sub.getLsbD 4) (rmOf f) (Fmt.fp32.decode (s.rd k f.a false).toNat)
    BitVec.ofNat 64 (putField (s.rd k f.c false).toNat (fieldBits f.mod.toNat) (f.sub.toNat % 8) code)))

/-- Field k of a register in a format (R111). -/
def getField (c k x : Nat) : Nat := x / 2 ^ (fieldBits c * k) % 2 ^ fieldBits c

/-- CVTW (R112): exact, a NaN code giving the canonical NaN. -/
def execCvtw (f : FWord) (s : State) : Answer :=
  .next (s.compute f false false false false (fun s k =>
    let c := f.mod.toNat
    BitVec.ofNat 64 (round (elementVal c (getField c (f.sub.toNat % 8) (s.rd k f.a false).toNat)) .fp32 .rn)))

/-- The scale of DEQ by its kind (R113). -/
def scaleVal (kind x : Nat) : Val :=
  match kind with
  | 0 => decodeE8M0 x
  | 1 => Fmt.e5m2.decode (x % 2 ^ 8)
  | 2 => Fmt.bf16.decode (x % 2 ^ 16)
  | _ => Fmt.fp32.decode x

/-- DEQ (R113): one element times a scale, rounded once; an MXINT8 element carries the factor 2^−6. -/
def execDeq (f : FWord) (s : State) : Answer :=
  .next (s.compute f false false false false (fun s k =>
    let c := deqElement f.mod.toNat
    let v := elementVal c (getField c (f.sub.toNat % 8) (s.rd k f.a false).toNat)
    let v := if f.mod = 0xC then v.scale (-6) else v
    BitVec.ofNat 64 (round (mulVal v (scaleVal (f.sub.toNat / 8) (s.rdNat k f.b))) .fp32 (rmOf f))))

/-- emax of QBLK's block formats (R114). -/
def qblkEmax (c : Nat) : Int :=
  match c with
  | 9 => 8 | 0xA => 2 | 0xB => 2
  | _ => 0

/-- QBLK's scale code for the largest magnitude x (R114). -/
def qblkVal (e5m2 : Bool) (c : Nat) (x : Val) : Nat :=
  match e5m2, x with
  | false, .fin m e =>
    (max 0 (min (floorLog2Ratio m.natAbs 1 + e - qblkEmax c + 127) 254)).toNat
  | false, .zero _ => 0
  | false, .exact0 => 0
  | false, _ => 0xFF
  | true, .nan => 0x7E
  | true, .inf _ => 0x7C
  | true, .zero _ => 0
  | true, .exact0 => 0
  | true, .fin m e =>
    let mag := roundMag false m.natAbs 6 e .e5m2 .ru
    min mag Fmt.e5m2.maxCode

/-- QBLK (R114). -/
def execQblk (f : FWord) (s : State) : Answer :=
  .next (s.compute f false false false false (fun s k =>
    BitVec.ofNat 64 (qblkVal (f.sub == 1) f.mod.toNat (Fmt.fp32.decode ((s.rd k f.a false).toNat % 2 ^ 31)))))

end Sys2Proof.Machine
end

