-- ==== Sys2Proof/Machine/Translate.lean ====
section
/-! DEFINITION. Owner translation (R162..R165) and the checks that every access makes before it touches a space (R186,
R187, R206..R208). -/

namespace Sys2Proof.Machine

/-! ### Translation-buffer entries (R163) -/

/-- The address-space tag of an entry. -/
def tlbAsp (e : BitVec 128) : Nat := e.toNat / 2 ^ 120
/-- The entry is valid. -/
def tlbV (e : BitVec 128) : Bool := e.getLsbD 115
/-- The entry is global within its owner. -/
def tlbG (e : BitVec 128) : Bool := e.getLsbD 114
/-- Execute permitted. -/
def tlbX (e : BitVec 128) : Bool := e.getLsbD 113
/-- Write permitted. -/
def tlbW (e : BitVec 128) : Bool := e.getLsbD 112
/-- Read permitted. -/
def tlbR (e : BitVec 128) : Bool := e.getLsbD 111
/-- The page is 2 MiB. -/
def tlbSz (e : BitVec 128) : Bool := e.getLsbD 110
/-- AA[43:16] of the page. -/
def tlbFrame (e : BitVec 128) : Nat := (e.extractLsb' 64 28).toNat
/-- OVA[47:16] of the page. -/
def tlbPage (e : BitVec 128) : Nat := (e.extractLsb' 16 32).toNat
/-- The page size in bytes. -/
def tlbBytes (e : BitVec 128) : Nat := if tlbSz e then 2 ^ 21 else 2 ^ 16

/-- Whether an entry's page range holds an address. -/
def tlbHolds (e : BitVec 128) (ova : Nat) : Bool := ova / tlbBytes e * tlbBytes e == tlbPage e * 2 ^ 16

/-- Whether an entry matches an access of an address space; `none` is a handler group, which matches global entries only. -/
def tlbMatches (e : BitVec 128) (asp : Option Nat) (ova : Nat) : Bool :=
  tlbV e && tlbHolds e ova && (tlbG e || asp == some (tlbAsp e))

/-- Whether two entries of one owner overlap in page range and address space (R164, R177). -/
def tlbOverlap (e f : BitVec 128) : Bool :=
  let a := tlbPage e * 2 ^ 16
  let b := tlbPage f * 2 ^ 16
  a < b + tlbBytes f && b < a + tlbBytes e && (tlbG e || tlbG f || tlbAsp e == tlbAsp f)

/-- Whether an entry's permissions admit an access. -/
def tlbAdmits (e : BitVec 128) : Acc → Bool
  | .read => tlbR e
  | .write => tlbW e
  | .execute => tlbX e
  | .atomic => tlbR e && tlbW e

/-- The address space of a group: its team's tag, or none for a handler group (R164). -/
def State.aspOf (s : State) (g : Group) : Option Nat := g.team.bind (fun k => (s.team? k).map (·.asp.toNat))

/-- Translation of [addr, addr + n) on a core for an owner (R162). -/
def State.translate (s : State) (core owner : Nat) (asp : Option Nat) (acc : Acc) (addr n : Nat) : Except FaultInfo Loc :=
  let o := s.owner owner
  if 2 ^ 48 ≤ addr then .error { cls := .prot, acc, addr := addr % 2 ^ 48 }
  else if reserveBase ≤ addr then
    match o.mapReserve (addr - reserveBase) n with
    | some l => .ok l
    | none => .error { cls := .allot, acc, addr }
  else
    match (s.core core).tlb.find? (fun e => e.owner == owner && tlbMatches e.bits asp addr) with
    | none => .error { cls := .xmiss, acc, addr }
    | some e =>
      if !tlbAdmits e.bits acc then .error { cls := .prot, acc, addr }
      else
        let aa := tlbFrame e.bits * 2 ^ 16 + addr % tlbBytes e.bits
        match o.mapAA (s.core core).world aa n with
        | some l => .ok { l with entry := some e.bits }
        | none => .error { cls := .allot, acc, addr, aux := BitVec.ofNat 32 (aa / 2 ^ 16) }

/-- Translation for a thread. -/
def State.translateFor (s : State) (k : Nat) (acc : Acc) (addr n : Nat) : Except FaultInfo Loc :=
  let g := s.group (k / 32)
  s.translate (k / 32 / 512) g.owner (s.aspOf g) acc addr n

/-! ### Scratch and cluster scratch (R186, R187) -/

/-- A checked place: of global memory, or an offset in the scratch of a team named by its uid. -/
inductive Place
  | g (l : Loc)
  | l (uid off : Nat)
deriving DecidableEq, Repr

/-- A fault of a non-address class: its address is the PC of the word (R356). -/
def State.pcFault (s : State) (k : Nat) (cls : Cls) : FaultInfo := { cls, addr := (s.thread k).pc.toNat }

/-- The scratch check of R186 for the thread's own team. -/
def State.scratchFor (s : State) (k off n : Nat) : Except FaultInfo Place :=
  match (s.group (k / 32)).team.bind s.team? with
  | none => .error (s.pcFault k .bounds)
  | some t => if off + n ≤ t.scratchSize then .ok (.l t.uid off) else .error (s.pcFault k .bounds)

/-- The cluster-scratch check of R187: a position and an offset in that team's allocation. -/
def State.clusterFor (s : State) (k v n : Nat) : Except FaultInfo Place :=
  if v / 2 ^ 24 ≠ 0 then .error (s.pcFault k .illopd)
  else
    match (s.group (k / 32)).team.bind s.team? with
    | none => .error (s.pcFault k .bounds)
    | some t =>
      match (t.members[v / 2 ^ 20]?).bind s.team? with
      | none => .error (s.pcFault k .bounds)
      | some u =>
        if v % 2 ^ 20 + n ≤ u.scratchSize then .ok (.l u.uid (v % 2 ^ 20)) else .error (s.pcFault k .bounds)

/-- The spaces that an access can name. -/
inductive SpaceCode
  | g | l | x
deriving DecidableEq, Repr

/-- The checks of R208 after the encoding checks: alignment, then the space's own check of the exact address v (R206). -/
def State.checkAccess (s : State) (k : Nat) (sp : SpaceCode) (acc : Acc) (v : Int) (n align : Nat) : Except FaultInfo Place :=
  match sp with
  | .g =>
    let a := (v % 2 ^ 64).toNat
    if a % align ≠ 0 then .error (s.pcFault k .illopd)
    else (s.translateFor k acc a n).map Place.g
  | _ =>
    if v % align ≠ 0 then .error (s.pcFault k .illopd)
    else if v < 0 ∨ 2 ^ 32 ≤ v then .error (s.pcFault k .bounds)
    else if sp = .l then s.scratchFor k v.toNat n else s.clusterFor k v.toNat n

end Sys2Proof.Machine
end

