-- ==== Sys2Proof/Machine/Memory.lean ====
section
/-! DEFINITION. The memories: the home slice with format windows, poison, migration and monitors (R190..R203), L1 and the
store queue (R188, R189, R227..R229), scratch (R186, R220), and when an operation may be performed (R218..R221). -/

namespace Sys2Proof.Machine

/-! ### Bytes with poison -/

/-- Bytes read together with the numbers of the poisoned 8-byte words among them (R203). -/
structure Got where
  bytes : List Byte
  poison : List Nat := []
deriving DecidableEq, Repr

/-- The bytes as a reader receives them: a poisoned word reads zero. -/
def Got.clean (g : Got) (base : Nat) : List Byte :=
  g.bytes.mapIdx (fun i b => if g.poison.contains ((base + i) / 8) then 0 else b)

/-- The numbers of the 8-byte words that [a, a + n) touches. -/
def wordsOf (a n : Nat) : List Nat := (List.range ((a + n + 7) / 8 - a / 8)).map (fun i => a / 8 + i)

/-- Whether a write of [a, a + n) covers a whole 8-byte word. -/
def covers (a n w : Nat) : Bool := a ≤ 8 * w && 8 * w + 8 ≤ a + n

/-- Bytes at `base` overlaid by a write of `data` at `a`; a fully written word loses its poison. -/
def Got.overlay (g : Got) (base a : Nat) (data : List Byte) : Got :=
  { bytes := g.bytes.mapIdx (fun i b => if a ≤ base + i ∧ base + i < a + data.length then data.getD (base + i - a) 0 else b)
    poison := g.poison.filter (fun w => !covers a data.length w) }

/-- Whether [a, a + n) and [b, b + m) share a byte. -/
def rangesMeet (a n b m : Nat) : Bool := a < b + m && b < a + n

/-! ### The home slice -/

/-- Where a unit of 4 KiB lies while its extent migrates: a moved unit has gone to its new DPA (R199). -/
def State.place (s : State) (dpa : Nat) : Nat :=
  match Tab.find s.moved (dpa / 4096) with
  | some u => u * 4096 + dpa % 4096
  | none => dpa

/-- The first DPA of the alias ranges (R190). -/
def aliasBase : Nat := 0x080000000000

/-- Whether a DPA lies in an alias range. -/
def isAlias (dpa : Nat) : Bool := aliasBase ≤ dpa && dpa < 0x100000000000

/-- Whether a DPA lies in the far tier, and on which port (R190). -/
def farPort (dpa : Nat) : Option Nat :=
  if 0x100000000000 ≤ dpa ∧ dpa < 0x180000000000 then some 0
  else if 0x200000000000 ≤ dpa ∧ dpa < 0x280000000000 then some 1
  else none

/-- The slice that is home to a DPA (R190). -/
def homeSlice (dpa : Nat) : Nat :=
  if isAlias dpa then dpa / 2 ^ 40 % 8
  else match farPort dpa with
    | some 0 => if dpa / 2 ^ 12 % 2 = 0 then 2 else 3
    | some _ => if dpa / 2 ^ 12 % 2 = 0 then 4 else 5
    | none => Nat.xor (dpa / 2 ^ 12 % 8) (dpa / 2 ^ 20 % 8)

/-- Whether a DPA is reserved: it names no storage (R190). -/
def isReserved (dpa : Nat) : Bool := !(dpa < 2 ^ 39 || isAlias dpa || (farPort dpa).isSome)

/-- The bytes of far memory behind a port: at most 2 TiB on the two together (R199, log 24, DESIGN CHOICE). -/
def farBytes (p : Nat) : Nat :=
  if p = 0 then min (Config.farInstalled 0) (2 ^ 41) else min (Config.farInstalled p) (2 ^ 41 - min (Config.farInstalled 0) (2 ^ 41))

/-- Whether an extent lies wholly in populated memory of the tier that it names, or in an alias range (R190, log 24, DESIGN CHOICE). -/
def extPopulated (x : BitVec 128) : Bool :=
  let a := extDpa x
  let e := a + extLen x
  let far (p : Nat) (base : Nat) : Bool := base ≤ a && e ≤ base + farBytes p
  0 < extLen x && ((aliasBase ≤ a && e ≤ 0x100000000000) ||
    (match extTier x with
     | 0 => e ≤ 2 ^ 39
     | 1 => far 0 0x100000000000
     | 2 => far 1 0x200000000000
     | _ => false))

/-- Whether the expander behind the place of a DPA gives nothing: its port is down, or every retry of the present step's accesses to it
fails (R199, R371). -/
def State.farDown (s : State) (dpa : Nat) : Bool :=
  match farPort (s.place dpa) with
  | some p => Tab.getD s.portsDown false p || s.portFails == some p
  | none => false

/-- Plain bytes of storage other than alias ranges, with poison. -/
def State.rawRead (s : State) (world dpa n : Nat) : Got :=
  { bytes := (List.range n).map (fun i => s.plainByte world (s.place (dpa + i)))
    poison := (wordsOf dpa n).filter (fun w => Tab.getD s.poison false (s.place (8 * w) / 8)) }

/-- A thread whose armed monitor has seen a write to a line (R223). -/
def Thread.seeWrite (t : Thread) (line : Nat) : Thread :=
  match t.monitor with
  | some m => if m.line = line then { t with monitor := some { m with hit := true } } else t
  | none => t

/-- The monitors armed on a line have seen a write, those of comets among them (R223). -/
def State.hitMonitors (s : State) (line : Nat) : State :=
  { s with threads := s.threads.map (fun e => (e.1, e.2.seeWrite line))
           comets := s.comets.map (fun c => { c with saved := { c.saved with threads := c.saved.threads.map (fun e => (e.1, e.2.seeWrite line)) } }) }

/-- A back-invalidate is sent for a line that the host may hold (R242). -/
def State.snoop (s : State) (line : Nat) : State :=
  if (Tab.find s.hostLines line).isSome then { s with hostLines := Tab.put s.hostLines line true } else s

/-- A back-invalidate of a line that a write of [dpa, dpa + n) causes; releases at system scope that come after the write wait for it (R242). -/
def State.snoopWrite (s : State) (line dpa n : Nat) : State :=
  if (Tab.find s.hostLines line).isSome then
    { s with hostLines := Tab.put s.hostLines line true, nextId := s.nextId + 1
             snoops := s.snoops ++ [{ id := s.nextId, addr := dpa, n, lines := [line] }] }
  else s

/-- The back-invalidates that are in the list from a place on are those of the writes of a queue's engine (R237, R242). -/
def State.queueSnoops (s : State) (q from_ : Nat) : State :=
  if s.snoops.length ≤ from_ then s else { s with snoops := s.snoops.mapIdx (fun i x => if from_ ≤ i then { x with queue := some q } else x) }

/-- The back-invalidates that are in the list from a place on are known to whoever acquires from what wrote (R237, R242). -/
def State.knownSnoops (s : State) (from_ : Nat) : State :=
  if s.snoops.length ≤ from_ then s else { s with snoops := s.snoops.mapIdx (fun i x => if from_ ≤ i then { x with known := true } else x) }

/-- The back-invalidates that a write of a thread's operation has caused, those from the given place of the list on, are its own (R242,
R360). -/
def State.ownSnoops (s : State) (o : Op) (from_ : Nat) : State :=
  if s.snoops.length ≤ from_ then s
  else
    { s with snoops := s.snoops.mapIdx (fun i x =>
        if from_ ≤ i then
          { x with id := o.id, uid := o.uid, lane := o.lane, pc := o.pc, clause := o.clauseOf o.lane, repix := o.repix
                   issuedAt := o.issuedAt }
        else x) }

/-! ### Format windows (R196..R198) -/

/-- The window is valid. -/
def fwV (x : BitVec 256) : Bool := x.getLsbD 255
/-- The element and scale format of a window. -/
def fwFmt (x : BitVec 256) : Nat := (x.extractLsb' 251 4).toNat
/-- The world of the tensor. -/
def fwWorld (x : BitVec 256) : Nat := (x.extractLsb' 247 4).toNat
/-- DPA of element byte 0. -/
def fwEbase (x : BitVec 256) : Nat := (x.extractLsb' 184 40).toNat * 64
/-- DPA of scale byte 0. -/
def fwSbase (x : BitVec 256) : Nat := (x.extractLsb' 138 46).toNat
/-- The first alias line. -/
def fwAbase (x : BitVec 256) : Nat := (x.extractLsb' 105 33).toNat
/-- The number of alias lines. -/
def fwLines (x : BitVec 256) : Nat := (x.extractLsb' 73 32).toNat + 1
/-- The tensor scale of DB4. -/
def fwTscale (x : BitVec 256) : Val := Fmt.bf16.decode (x.extractLsb' 57 16).toNat

/-- The bits of an element of a window. -/
def fwElemBits (x : BitVec 256) : Nat := fieldBits (deqElement (fwFmt x))
/-- The elements that share a scale. -/
def fwBlock (x : BitVec 256) : Nat := if fwFmt x = 0xD then 8 else 32

/-- The window that covers an alias DPA, with its key (R197). -/
def State.windowOf (s : State) (dpa : Nat) : Option (Nat × BitVec 256) :=
  let slice := (dpa - aliasBase) / 2 ^ 40
  let line := (dpa - aliasBase) % 2 ^ 40 / 128
  s.fwin.find? (fun e => e.1 / 16 == slice && fwV e.2 && fwAbase e.2 ≤ line && line < fwAbase e.2 + fwLines e.2)

/-- The element that an alias DPA names. -/
def fwElement (x : BitVec 256) (dpa : Nat) : Nat :=
  64 * ((dpa - aliasBase) % 2 ^ 40 / 128 - fwAbase x) + dpa % 128 / 2

/-- The numbers of the 128-byte lines that [dpa, dpa + n) touches. -/
def linesOf (dpa n : Nat) : List Nat := (List.range ((dpa + n + 127) / 128 - dpa / 128)).map (fun i => dpa / 128 + i)

/-- The lines of [dpa, dpa + n) that the host may hold. -/
def State.hostLinesIn (s : State) (dpa n : Nat) : List Nat := (linesOf dpa n).filter (fun l => (Tab.find s.hostLines l).isSome)

/-- The alias lines that elements first .. last of a window lie in (R197). -/
def fwLinesOf (key : Nat) (x : BitVec 256) (first last : Nat) : List Nat :=
  let base := (aliasBase + key / 16 * 2 ^ 40) / 128 + fwAbase x
  ((List.range (last / 64 + 1 - first / 64)).map (fun i => first / 64 + i)).filterMap (fun i => if i < fwLines x then some (base + i) else none)

/-- The alias lines that the element and scale bytes among [dpa, dpa + n) cover, over the valid windows (R198). -/
def State.aliasLines (s : State) (dpa n : Nat) : List Nat :=
  if n = 0 then [] else
  (s.fwin.filter (fun e => fwV e.2)).flatMap (fun e =>
    let x := e.2
    let elems := 64 * fwLines x
    let eb := fwElemBits x
    let lo (base : Nat) : Nat := dpa - base
    let hi (base : Nat) : Nat := dpa + n - 1 - base
    (if rangesMeet dpa n (fwEbase x) (elems * eb / 8) then
      fwLinesOf e.1 x (lo (fwEbase x) * 8 / eb) ((hi (fwEbase x) * 8 + 7) / eb) else []) ++
    (if rangesMeet dpa n (fwSbase x) (elems / fwBlock x) then
      fwLinesOf e.1 x (lo (fwSbase x) * fwBlock x) (hi (fwSbase x) * fwBlock x + fwBlock x - 1) else []))

/-- An alias line invalidated because its source bytes are written: in L2, and in the host's caches (R198, R242). -/
def State.dropAlias (s : State) (line dpa n : Nat) : State :=
  ({ s with l2 := s.l2.filter (fun l => l.line != line) } : State).snoopWrite line dpa n

/-- A write to storage other than alias ranges: poison, monitors, host copies and the alias lines of the bytes
follow (R198, R203, R223, R242). -/
def State.rawWrite (s : State) (world dpa : Nat) (data : List Byte) : State :=
  let n := data.length
  let s1 := (List.range n).foldl (fun acc i => acc.storeByte world (acc.place (dpa + i)) (data.getD i 0)) s
  let s2 := { s1 with poison := (wordsOf dpa n).foldl (fun p w =>
    if covers dpa n w then Tab.del p (s.place (8 * w) / 8) else p) s1.poison }
  (s.aliasLines dpa n).foldl (fun acc line => acc.dropAlias line dpa n)
    ((linesOf dpa n).foldl (fun acc line => (acc.hitMonitors line).snoopWrite line dpa n) s2)

/-- The combined scale of an element: that of R197, as a value. A poisoned scale byte counts as 0, for a store through the window too
(R203, log 11, DEDUCED). -/
def State.fwScale (s : State) (x : BitVec 256) (k : Nat) : Val :=
  let c := leNat ((s.rawRead (fwWorld x) (fwSbase x + k / fwBlock x) 1).clean (fwSbase x + k / fwBlock x))
  if fwFmt x = 0xD then mulVal (Fmt.e5m2.decode c) (fwTscale x) else decodeE8M0 c

/-- The code of element k. -/
def State.fwCode (s : State) (x : BitVec 256) (k : Nat) : Nat :=
  let eb := fwElemBits x
  let a := fwEbase x + k * eb / 8
  leNat ((s.rawRead (fwWorld x) a 2).clean a) / 2 ^ (k * eb % 8) % 2 ^ eb

/-- The BF16 word that an alias read gives for element k (R197). -/
def State.fwRead (s : State) (x : BitVec 256) (k : Nat) : Nat :=
  let v := elementVal (deqElement (fwFmt x)) (s.fwCode x k)
  let v := if fwFmt x = 0xC then v.scale (-6) else v
  round (mulVal v (s.fwScale x k)) .bf16 .rn

/-- Whether an element byte or the scale byte of element k is poisoned (R203). -/
def State.fwPoisoned (s : State) (x : BitVec 256) (k : Nat) : Bool :=
  let eb := fwElemBits x
  !(s.rawRead (fwWorld x) (fwEbase x + k * eb / 8) (if k * eb % 8 + eb ≤ 8 then 1 else 2)).poison.isEmpty ||
  !(s.rawRead (fwWorld x) (fwSbase x + k / fwBlock x) 1).poison.isEmpty

/-- The ratio of two nonzero finite values, as sign, numerator, denominator and exponent. -/
def ratio (m1 e1 m2 e2 : Int) : Bool × Nat × Nat × Int := ((m1 < 0) != (m2 < 0), m1.natAbs, m2.natAbs, e1 - e2)

/-- Whether n/d × 2^e exceeds the largest finite magnitude of a format. -/
def exceeds (n d : Nat) (e : Int) (f : Fmt) : Bool :=
  match f.decode f.maxCode with
  | .fin m me =>
    let k := e - me
    if 0 ≤ k then m.natAbs * d < n * 2 ^ k.toNat else m.natAbs * d * 2 ^ (-k).toNat < n
  | _ => false

/-- The element code that a BF16 store writes, and whether wsat counts it; `none` leaves the element (R197). -/
def fwQuantise (fmt : Nat) (x g : Val) : Option Nat × Bool :=
  match g with
  | .fin gm ge =>
    match fmtOfCode (deqElement fmt), x with
    | some fm, .nan => (some fm.nanCode, true)
    | some f, .inf neg => (some (f.pack (neg != (gm < 0)) f.maxCode), true)
    | some f, .zero neg => (some (f.pack (neg != (gm < 0)) 0), false)
    | some _, .exact0 => (some 0, false)
    | some f, .fin m e =>
      let r := ratio m e gm ge
      if exceeds r.2.1 r.2.2.1 r.2.2.2 f then (some (f.pack r.1 f.maxCode), true)
      else (some (min (f.pack r.1 f.maxCode) (roundRat r.1 r.2.1 r.2.2.1 r.2.2.2 f .rn)), false)
    | none, .nan => (some 0, true)
    | none, .inf neg => (some (if neg != (gm < 0) then 0x80 else 0x7F), true)
    | none, .zero _ => (some 0, false)
    | none, .exact0 => (some 0, false)
    | none, .fin m e =>
      let r := ratio m e gm ge
      let k := r.2.2.2 + 6
      let q := if 0 ≤ k then roundRatio r.1 (r.2.1 * 2 ^ k.toNat) r.2.2.1 .rn else roundRatio r.1 r.2.1 (r.2.2.1 * 2 ^ (-k).toNat) .rn
      let v : Int := if r.1 then -(q : Int) else q
      (some (satS 8 v % 256).toNat, satS 8 v != v)
  | _ => (none, true)

/-- One BF16 word stored through a window (R197). -/
def State.fwWrite (s : State) (key : Nat) (x : BitVec 256) (k word : Nat) : State :=
  let r := fwQuantise (fwFmt x) (Fmt.bf16.decode word) (s.fwScale x k)
  let s1 := if r.2 then { s with fwin := Tab.upd s.fwin key (fun w =>
    (w >>> 32 <<< 32) ||| BitVec.ofNat 256 (min (w.toNat % 2 ^ 32 + 1) (2 ^ 32 - 1))) } else s
  match r.1 with
  | none => s1
  | some code =>
    let eb := fwElemBits x
    let a := fwEbase x + k * eb / 8
    let n := if k * eb % 8 + eb ≤ 8 then 1 else 2
    let old := leNat (s1.rawRead (fwWorld x) a n).bytes
    let lo := 2 ^ (k * eb % 8)
    let new := old % lo + code * lo + old / (lo * 2 ^ eb) * (lo * 2 ^ eb)
    s1.rawWrite (fwWorld x) a (leBytes n new)

/-! ### Reading and writing at the home slice -/

/-- The element word that an alias read gives at a DPA, and whether a byte it comes from is poisoned; 0 where no window covers it. -/
def State.aliasWord (s : State) (dpa : Nat) : Nat × Bool :=
  match s.windowOf dpa with
  | none => (0, false)
  | some (_, x) => (s.fwRead x (fwElement x dpa), s.fwPoisoned x (fwElement x dpa))

/-- The world of the tensor that an alias DPA's window holds; 0 elsewhere (R192, R196). -/
def State.aliasWorld (s : State) (dpa : Nat) : Nat :=
  if isAlias dpa then ((s.windowOf dpa).map (fun w => fwWorld w.2)).getD 0 else 0

/-- A block of 16 bytes of a protected world's alias line, sealed as every line that leaves the umbra ways is (R192). -/
def State.sealBlock (s : State) (world dpa : Nat) (bs : List Byte) : List Byte :=
  leBytes 16 ((Config.xts (s.keyOf world) (dpa / 128) (dpa / 16 % 8)) (BitVec.ofNat 128 (leNat bs))).toNat

/-- The same block opened. -/
def State.openBlock (s : State) (world dpa : Nat) (bs : List Byte) : List Byte :=
  leBytes 16 ((Config.xts (s.keyOf world) (dpa / 128) (dpa / 16 % 8)).symm (BitVec.ofNat 128 (leNat bs))).toNat

/-- A byte of an alias line in plaintext (R197). -/
def State.aliasByte (s : State) (dpa : Nat) : Byte := BitVec.ofNat 8 ((s.aliasWord dpa).1 / 2 ^ (8 * (dpa % 2)))

/-- Whether an agent of a world reaches an alias DPA only in sealed form: its tensor belongs to another, protected world (R24, R192)
(log 12, DEDUCED). -/
def State.aliasSealed (s : State) (world dpa : Nat) : Bool := s.aliasWorld dpa != 0 && s.aliasWorld dpa != world

/-- A byte of an alias line as an agent of a world finds it (R24, R192, R197). -/
def State.aliasByteFor (s : State) (world dpa : Nat) : Byte :=
  if s.aliasSealed world dpa then
    let b := dpa / 16 * 16
    (s.sealBlock (s.aliasWorld dpa) b ((List.range 16).map (fun i => s.aliasByte (b + i)))).getD (dpa % 16) 0
  else s.aliasByte dpa

/-- The bytes that a read of [dpa, dpa + n) at the home slice gives. An 8-byte word of an alias line is poisoned where a source byte
of one of its elements is (R203, log 11, DEDUCED). -/
def State.homeRead (s : State) (world dpa n : Nat) : Got :=
  if isAlias dpa then
    { bytes := (List.range n).map (fun i => s.aliasByteFor world (dpa + i))
      poison := (wordsOf dpa n).filter (fun w => (List.range 4).any (fun i => (s.aliasWord (8 * w + 2 * i)).2)) }
  else s.rawRead world dpa n

/-- NOWIN counts an access to alias DPAs that no valid window covers (R198). -/
def State.touchAlias (s : State) (dpa : Nat) (n : Nat := 1) : State :=
  if isAlias dpa && (linesOf dpa n).any (fun line => (s.windowOf (128 * line)).isNone) then { s with nowin := satInc64 s.nowin 1 } else s

/-- Plaintext bytes written through alias lines; outside every window an alias DPA takes none (R197, R198, log 11, DEDUCED). -/
def State.aliasWrite (s : State) (dpa : Nat) (data : List Byte) : State :=
  let first := dpa / 2
  let last := (dpa + data.length + 1) / 2
  let s1 := (List.range (last - first)).foldl (fun acc j =>
    let a := 2 * (first + j)
    match acc.windowOf a with
    | none => acc
    | some (key, x) =>
      let old : Got := { bytes := leBytes 2 (acc.fwRead x (fwElement x a)) }
      acc.fwWrite key x (fwElement x a) (leNat (old.overlay a dpa data).bytes)) s
  (linesOf dpa data.length).foldl (fun acc line =>
    if (acc.windowOf (128 * line)).isSome then (acc.hitMonitors line).snoopWrite line dpa data.length else acc) s1

/-- Bytes written through an alias line by an agent that finds it sealed: the blocks that they lie in are opened with them (R192, R193)
(log 12, DEDUCED). -/
def State.aliasWriteSealed (s : State) (world dpa : Nat) (data : List Byte) : State :=
  let lo := dpa / 16 * 16
  let n := (dpa + data.length + 15) / 16 - dpa / 16
  let old : Got := { bytes := (List.range (16 * n)).map (fun i => s.aliasByteFor world (lo + i)) }
  let new := (old.overlay lo dpa data).bytes
  s.aliasWrite lo ((List.range n).flatMap (fun i => s.openBlock (s.aliasWorld dpa) (lo + 16 * i) ((new.drop (16 * i)).take 16)))

/-- A write of bytes performed at the home slice, an alias line in the form that the writer's world finds it in (R24, R192). -/
def State.homeWrite (s : State) (world dpa : Nat) (data : List Byte) : State :=
  if isAlias dpa then
    (if s.aliasSealed world dpa then s.aliasWriteSealed world dpa data else s.aliasWrite dpa data)
  else s.rawWrite world dpa data

/-! ### L2 (R191, R192) -/

/-- The umbra ways of a world in a slice (R191). -/
def State.umbraWays (s : State) (slice world : Nat) : BitVec 16 := if world = 0 then 0 else Tab.getD s.umask 0 (slice * 16 + world)

/-- The ways of a slice that are in no mask (R191). -/
def State.penumbraWays (s : State) (slice : Nat) : BitVec 16 :=
  ~~~((List.range 16).foldl (fun m w => m ||| s.umbraWays slice w) 0)

/-- The ways in which a slice holds lines of a world: its umbra ways, where it has some; else the penumbra ways (R192). -/
def State.waysFor (s : State) (slice world : Nat) : List Nat :=
  let u := s.umbraWays slice world
  (List.range 16).filter (fun w => (if u = 0 then s.penumbraWays slice else u).getLsbD w)

/-- The 16-byte halves of a line that [dpa, dpa + n) touches. -/
def halvesOf (dpa n : Nat) : BitVec 8 :=
  (List.range 8).foldl (fun m i => if rangesMeet (dpa % 128) n (16 * i) 16 then m ||| ((1 : BitVec 8) <<< i) else m) 0

/-- The set of its slice that a line belongs to, of 24 576 (R191) (log 53, DESIGN CHOICE). -/
def l2SetOf (line : Nat) : Nat := Config.l2Set line % 24576

/-- Whether an L2 line stands in a set of a slice. -/
def L2Line.inSet (l : L2Line) (slice set : Nat) : Bool := homeSlice (128 * l.line) == slice && l2SetOf l.line == set

/-- A line put into one of the given ways of its set: a free one, or that of the line marked first to be replaced, or that of another
(R191) (log 53, DESIGN CHOICE). -/
def State.l2Place (s : State) (ways : List Nat) (new : L2Line) : State :=
  let slice := homeSlice (128 * new.line)
  let set := l2SetOf new.line
  let others := s.l2.filter (fun l => l.line != new.line)
  let peers := others.filter (fun l => l.inSet slice set && ways.contains l.way)
  let free := ways.filter (fun w => !peers.any (fun l => l.way == w))
  let victim := ((peers.find? (·.once)).map (·.way)).getD (ways.getD (Config.l2Way s.draws % ways.length) 0)
  let way := if free.isEmpty then victim else free.getD (Config.l2Way s.draws % free.length) 0
  { s with l2 := others.filter (fun l => !(l.inSet slice set && l.way == way)) ++ [{ new with way }], draws := s.draws + 1 }

/-- An access fills the halves it touches into L2: a line that is held gains them, and a line sealed in a penumbra way moves to the
world's umbra ways where there are some (R191, R192). -/
def State.l2Touch (s : State) (world dpa n : Nat) (once : Bool := false) : State :=
  let line := dpa / 128
  let slice := homeSlice dpa
  let ways := s.waysFor slice world
  let sealed := world != 0 && s.umbraWays slice world == 0
  let mine := s.l2.find? (fun l => l.line == line)
  let others := s.l2.filter (fun l => l.line != line)
  let placed := s.l2Place ways { line, way := 0, world, plain := !sealed, once, halves := halvesOf dpa n ||| (mine.map (·.halves)).getD 0 }
  let (l2, draws) := match mine.filter (fun l => ways.contains l.way) with
    | some l => (others ++ [{ l with world, plain := !sealed, halves := l.halves ||| halvesOf dpa n, once := l.once || once }], s.draws)
    | none => (placed.l2, placed.draws)
  { s with l2, draws }

/-- The world whose lines a DPA's extents hold, or its alias window's (R166, R192). -/
def State.dpaWorld (s : State) (dpa : Nat) : Nat :=
  if isAlias dpa then s.aliasWorld dpa
  else ((s.owners.flatMap (fun e => e.2.extents)).find? (fun x => extDpa x ≤ dpa && dpa < extDpa x + extLen x && extWorld x != 0)).elim 0 extWorld

/-- An access of the host or a service core: a line that L2 holds stays as and where it is, and another is filled, sealed where it is a
protected world's, into the penumbra ways (R191, R192). -/
def State.l2TouchOut (s : State) (dpa n : Nat) : State :=
  let line := dpa / 128
  if s.l2.any (fun l => l.line == line) then
    { s with l2 := s.l2.map (fun l => if l.line = line then { l with halves := l.halves ||| halvesOf dpa n } else l) }
  else s.l2Place (s.waysFor (homeSlice dpa) 0) { line, way := 0, world := s.dpaWorld dpa, plain := s.dpaWorld dpa == 0, halves := halvesOf dpa n }

/-- An access of an agent outside L1 to a location of device memory: NOWIN and L2 follow (R191, R198), L2 at the place where a migration has
put the location (R199). -/
def State.touch (s : State) (world dpa n : Nat) (once : Bool := false) : State :=
  (s.touchAlias dpa n).l2Touch world (s.place dpa) n once

/-- The same for an agent that is of no world: the host, or a service core (R192). -/
def State.touchOut (s : State) (dpa n : Nat) : State := (s.touchAlias dpa n).l2TouchOut (s.place dpa) n

/-! ### Scratch (R186, R220) -/

/-- Bytes of a team's scratch, with poison. -/
def Team.scratchRead (t : Team) (off n : Nat) : Got :=
  { bytes := Memory.readN t.scratch off n
    poison := (wordsOf off n).filter (fun w => Tab.getD t.scratchPoison false w) }

/-- Bytes written to a team's scratch. -/
def Team.scratchWrite (t : Team) (off : Nat) (data : List Byte) : Team :=
  { t with scratch := Memory.writeN t.scratch off data
           scratchPoison :=
             (wordsOf off data.length).foldl (fun p w => if covers off data.length w then Tab.del p w else p) t.scratchPoison }

/-- Bytes of the scratch of the team of a uid. -/
def State.scratchRead (s : State) (uid off n : Nat) : Got :=
  match s.findTeam uid with
  | some k => (s.team k).scratchRead off n
  | none => { bytes := List.replicate n 0 }

/-- Bytes written to the scratch of the team of a uid. -/
def State.scratchWrite (s : State) (uid off : Nat) (data : List Byte) : State :=
  match s.findTeam uid with
  | some k => s.updTeam k (fun t => t.scratchWrite off data)
  | none => s

/-! ### L1 and the store queue -/

/-- The sectors of a line that [dpa, dpa + n) touches, by number. -/
def sectorsOf (dpa n : Nat) : List Nat := (List.range 4).filter (fun i => rangesMeet (dpa % 128) n (32 * i) 32)

/-- Whether a line has every sector of an access valid (R188). -/
def L1Line.hit (l : L1Line) (dpa n : Nat) : Bool := (sectorsOf dpa n).all (fun i => l.valid.getLsbD i)

/-- The L1 line of an owner that holds a DPA's line. -/
def Core.l1Line (c : Core) (owner dpa : Nat) : Option L1Line :=
  c.l1.find? (fun l => l.owner == owner && l.line == dpa / 128)

/-- Whether an L1 lookup hits. -/
def Core.l1Hit (c : Core) (owner dpa n : Nat) : Bool := (c.l1Line owner dpa).any (fun l => l.hit dpa n)

/-- The bytes of an L1 line. -/
def L1Line.got (l : L1Line) (dpa n : Nat) : Got :=
  { bytes := Memory.readN l.bytes (dpa % 128) n
    poison := (wordsOf dpa n).filter (fun w => l.poison.getLsbD (w % 16)) }

/-- An L1 line removed. -/
def Core.l1Drop (c : Core) (p : L1Line → Bool) : Core := { c with l1 := c.l1.filter (fun l => !p l) }

/-- Sectors of an L1 line removed (R209). -/
def Core.l1DropSectors (c : Core) (owner dpa n : Nat) : Core :=
  let m := (sectorsOf dpa n).foldl (fun (v : BitVec 4) i => v &&& ~~~((1 : BitVec 4) <<< i)) (BitVec.allOnes 4)
  let cut := c.l1.map (fun l => if l.owner = owner ∧ l.line = dpa / 128 then { l with valid := l.valid &&& m } else l)
  { c with l1 := cut.filter (fun l => l.valid ≠ 0) }

/-- An L1 line changed by a write that hits it (R189). -/
def L1Line.write (l : L1Line) (dpa : Nat) (data : List Byte) : L1Line :=
  { l with bytes := Memory.writeN l.bytes (dpa % 128) data
           poison := (wordsOf dpa data.length).foldl (fun p w =>
             if covers dpa data.length w then p &&& ~~~((1 : BitVec 16) <<< (w % 16)) else p) l.poison }

/-- A store of the core reaches L1: it updates the bytes of a hit line of its owner and allocates nothing (R189). Its bytes lie in one
sector. -/
def Core.l1Store (c : Core) (owner dpa : Nat) (data : List Byte) : Core :=
  { c with l1 := c.l1.map (fun l => if l.owner = owner ∧ l.line = dpa / 128 ∧ l.hit dpa data.length then l.write dpa data else l) }

/-- The same for 32-byte sectors one after another. -/
def Core.l1Stores (c : Core) (owner dpa : Nat) (data : List Byte) : Core :=
  (List.range ((data.length + 31) / 32)).foldl (fun c i => c.l1Store owner (dpa + 32 * i) ((data.drop (32 * i)).take 32)) c

/-- The banks in cache mode, each of which is one way of L1 (R188). -/
def Core.cacheBanks (c : Core) : List Nat := (List.range 24).filter (fun i => c.banks.getD i .cache == .cache)

/-- The bank that a new line takes, and the lines left beside it: a free way of the line's set, or that of the oldest line (R188)
(log 51, DESIGN CHOICE). -/
def Core.l1Room (c : Core) (line pick : Nat) : Nat × List L1Line :=
  let peers := c.l1.filter (fun l => l.line % 256 == line % 256)
  let free := c.cacheBanks.filter (fun b => !peers.any (fun l => l.bank == b))
  if free.isEmpty then
    let b := (peers.map (·.bank)).headD 0
    (b, c.l1.filter (fun l => !(l.line % 256 == line % 256 && l.bank == b)))
  else (free.getD (pick % free.length) 0, c.l1)

/-- Sectors filled into L1; a line that L1 does not yet hold takes one of its set's ways (R188). -/
def Core.l1Fill (c : Core) (owner line : Nat) (sectors : List Nat) (g : Got) (pick : Nat) : Core :=
  let held := c.l1.find? (fun l => l.owner == owner && l.line == line)
  let room := if held.isSome then (0, c.l1) else c.l1Room line pick
  let old := held.getD { owner, line, bank := room.1, valid := 0, bytes := [] }
  let new := sectors.foldl (fun (l : L1Line) i =>
    { l with valid := l.valid ||| ((1 : BitVec 4) <<< i)
             bytes := Memory.writeN l.bytes (32 * i) ((g.bytes.drop (32 * i)).take 32)
             poison := (List.range 4).foldl (fun p j =>
               let bit := (1 : BitVec 16) <<< (4 * i + j)
               if g.poison.contains (16 * line + 4 * i + j) then p ||| bit else p &&& ~~~bit) l.poison }) old
  { c with l1 := room.2.filter (fun l => !(l.owner == owner && l.line == line)) ++ [new] }

/-- The bytes that an operation reads or writes. -/
def Op.size (o : Op) : Nat :=
  match o.kind with
  | .load size _ _ _ => size
  | .vq _ _ _ _ => 1
  | .store data _ => data.length
  | .atomic _ ty _ _ _ => tyBits ty / 8
  | .value _ _ => 0 | .xpipe _ _ _ _ => 0 | .monwait _ => 0
  | .popq _ item _ => item.length
  | .qstat _ size => size

/-- Whether an operation is a posted store of data. -/
def Op.isStore (o : Op) : Bool :=
  match o.kind with
  | .store _ _ => true
  | _ => false

/-- Whether an operation is an atomic. -/
def Op.isAtomic (o : Op) : Bool :=
  match o.kind with
  | .atomic _ _ _ _ _ => true
  | _ => false

/-- Whether an operation only reads memory. -/
def Op.isLoad (o : Op) : Bool :=
  match o.kind with
  | .load _ _ _ _ => true
  | .vq _ _ _ _ => true
  | .qstat _ _ => true
  | _ => false

/-- Whether an operation writes the bytes of an item into scratch (R307). -/
def Op.isPop (o : Op) : Bool :=
  match o.kind with
  | .popq _ item _ => !item.isEmpty
  | _ => false

/-- Whether an operation accesses memory. -/
def Op.isMem (o : Op) : Bool := o.isStore || o.isAtomic || o.isLoad || o.isPop

/-- Whether two operations touch a common byte, or a common element through a format window, which is read and written whole (R8,
R197). -/
def Op.overlaps (o p : Op) : Bool :=
  o.isMem && p.isMem && o.space == p.space &&
    (rangesMeet o.addr o.size p.addr p.size ||
     (o.space == .g && isAlias o.addr && rangesMeet (o.addr / 2) ((o.addr + o.size + 1) / 2 - o.addr / 2)
       (p.addr / 2) ((p.addr + p.size + 1) / 2 - p.addr / 2)))

/-- Whether [a, a + n) and [b, b + m) touch a common location, an aligned 8-byte word (R225). -/
def sameLocation (a n b m : Nat) : Bool := rangesMeet (a / 8) ((a + n + 7) / 8 - a / 8) (b / 8) ((b + m + 7) / 8 - b / 8)

/-- Whether two operations touch a common location (R225, R226). -/
def Op.meets (o p : Op) : Bool := o.isMem && p.isMem && o.space == p.space && sameLocation o.addr o.size p.addr p.size

/-- Whether two operations belong to a common thread. -/
def Op.sameThread (o p : Op) : Bool := o.uid == p.uid && o.lanes.any p.lanes.contains

/-- The bytes of a store. -/
def Op.data (o : Op) : List Byte :=
  match o.kind with
  | .store d _ => d
  | _ => []

/-- The pending stores of a core that have reached its store queue, in the order in which they did. -/
def State.storeQueue (s : State) (core : Nat) : List Op :=
  sortBy (fun p => p.reach.getD 0) (s.ops.filter (fun p => p.isStore && p.core == core && p.space == .g && p.reach.isSome))

/-- Bytes overlaid by stores, in the order given. -/
def Got.overlayAll (g : Got) (base : Nat) (ps : List Op) : Got := ps.foldl (fun acc p => acc.overlay base p.addr p.data) g

/-- Every L1 line of an owner on a core is invalidated (R189, R222). -/
def State.invalidateL1 (s : State) (core owner : Nat) : State := s.updCore core (fun c => c.l1Drop (fun l => l.owner == owner))

/-! ### When an operation may be performed (R218..R221, R229) -/

/-- Whether a posted store has reached the core's store queue. -/
def Op.queued (o : Op) : Bool := o.isStore && o.space == .g && o.reach.isSome

/-- Whether an operation stands for a release or fence at a scope as performed: at group and team scope a store that has reached the
store queue does (R228). -/
def Op.countsAt (p : Op) (scope : Nat) : Bool := scope ≤ 2 && p.queued

/-- Whether an earlier operation holds back `o`: one of the same thread, one of a lower thread of the same issue that writes common
bytes (R8), or one that a fence of another thread of a uniform load names (R210). A uniform load is one access of several threads, so it
waits until a store of one of them to its bytes has reached the queue, where each of them finds it (R210, R226). A spill is ordered with
its own thread's accesses to its bytes only (R88). `toQueue` asks about reaching the store queue only. -/
def Op.heldBy (o p : Op) (toQueue : Bool) : Bool :=
  let clash := o.meets p && !(o.isLoad && p.isStore && o.space == .g) && !(toQueue && p.queued)
  p.id < o.id &&
    ((o.sameThread p && (p.isMem || p.isLong) &&
      (clash || (o.isMem && p.acq && !o.spill) || (o.isMem && (p.isLoad || p.isAtomic) && p.id < o.waitLoads) ||
       o.waits.any (fun w => p.isMem && !p.spill && p.id < w.1 && !p.countsAt w.2) ||
       o.fullWaits.any (fun w => (p.isStore || p.isAtomic) && !p.spill && p.id < w.1 && !p.countsAt w.2))) ||
     (o.isLoad && 1 < o.lanes.length && p.isStore && o.sameThread p && o.overlaps p && !p.queued) ||
     o.after.any (fun w => w.1 == p.id && !p.countsAt w.2) ||
     (o.batch == p.batch && o.overlaps p && !(toQueue && p.queued) && !o.isLoad))

/-- The thread keys of an operation's lanes. -/
def State.opKeys (s : State) (o : Op) : List Nat :=
  match s.findGroup o.uid with
  | some g => o.lanes.map (tkey g)
  | none => []

/-- Whether a thread lies in the instance of a scope of the thread whose release left a view (R228). -/
def State.inInstance (s : State) (v : View) (scope k : Nat) : Bool :=
  let g := s.group (k / 32)
  match scope with
  | 0 => false
  | 1 => v.uid == g.uid
  | 2 => if v.team.isNone then v.uid == g.uid else v.team == g.team
  | 3 => if v.team.isNone then v.uid == g.uid else (g.team.bind s.team?).any (fun t => t.members.any (fun m => v.team == some m))
  | 4 => dieOf v.core == dieOf (k / 32 / 512)
  | _ => true

/-- Whether an acquire of a thread at a scope synchronises with the release that left a view: each lies in the other's instance
(R228, R230). -/
def State.joins (s : State) (v : View) (scope k : Nat) : Bool := s.inInstance v v.scope k && s.inInstance v scope k

/-- Whether a store of a thread is still to be performed, or a back-invalidate that it caused to be completed (R219, R242). -/
def State.live (s : State) (i : Nat) : Bool := s.ops.any (fun p => p.id == i) || s.snoops.any (fun x => x.id == i)

/-- The stores that a thread has observed before the number `below` (R219, R231): those that its loads read from the core, and those
that its acquires and its acquiring fences carry to it. -/
def State.observedIds (s : State) (k below : Nat) : List Nat :=
  let t := s.thread k
  (t.obs.filter (fun e => e.1 < below)).map (·.2) ++
    (t.seen.filter (fun e => t.acqFences.any (fun f => e.1 < f.1 && f.1 ≤ below && s.joins e.2 f.2 k))).flatMap (fun e => e.2.ids)

/-- Whether stores that the thread observed before a release are still to be performed (R219, R231). -/
def State.observedPending (s : State) (o : Op) : Bool :=
  (s.opKeys o).any (fun k =>
    o.waits.any (fun w => 3 ≤ w.2 && (s.observedIds k w.1).any (fun i => s.ops.any (fun p => p.id == i))))

/-- Whether a read at the home slice would go back behind a store that its thread has already read from the core (R226, R229). -/
def State.behindObserved (s : State) (o : Op) : Bool :=
  let home := match o.kind with
    | .load _ _ _ _ => o.acq && 3 ≤ o.scope
    | .atomic _ _ _ _ _ => 3 ≤ o.scope
    | .qstat _ _ => true
    | _ => false
  home && (s.opKeys o).any (fun k => (s.thread k).obs.any (fun e => s.ops.any (fun p => p.id == e.2 && p.meets o)))

/-- Whether a release of a thread at system scope, at the number `below`, waits for a back-invalidate: one that a write has caused which
happens before it, its own or one it has observed or acquired (R231, R242). -/
def State.snoopHeld (s : State) (k below : Nat) : Bool :=
  let uid := (s.group (k / 32)).uid
  let seen := s.observedIds k below
  s.snoops.any (fun x => (x.uid == uid && x.lane == k % 32 && x.id < below) || seen.contains x.id)

/-- Whether a FENCE.full of a thread at system scope before the number `below` still waits for back-invalidates: the thread's later loads
wait with it (R221, R242). -/
def State.fullHeld (s : State) (k below : Nat) : Bool :=
  !s.snoops.isEmpty && (s.thread k).fulls.any (fun w => w.2 == 6 && w.1 ≤ below && s.snoopHeld k w.1)

/-- Whether a system-scope release, or a load after such a fence, still waits for back-invalidates (R221, R242). -/
def State.snoopsPending (s : State) (o : Op) : Bool :=
  !s.snoops.isEmpty &&
    (o.after.any (fun w => w.2 == 6 && s.snoops.any (fun x => x.id == w.1)) ||
     (s.opKeys o).any (fun k => o.waits.any (fun w => w.2 == 6 && s.snoopHeld k w.1) || ((o.isLoad || o.isAtomic) && s.fullHeld k o.id)))

/-- Whether the host may hold a copy that a read must obtain first: an acquire or an atomic at system scope, or a later read of a line that
the host may have held when a thread of it acquired at system scope (R217, R229, R242) (log 31, DEDUCED). -/
def State.hostHolds (s : State) (o : Op) : Bool :=
  o.space == .g && (Tab.find s.hostLines (o.addr / 128)).isSome &&
    ((o.scope == 6 && (o.acq || o.isAtomic)) ||
     ((o.isLoad || o.isAtomic) && (s.opKeys o).any (fun k => (s.thread k).sysLines.contains (o.addr / 128))))

/-- Whether a store of the core that reached the queue earlier must be performed before `o` (R226). -/
def State.queueAhead (s : State) (o : Op) : Bool :=
  o.isStore && o.space == .g && (s.storeQueue o.core).any (fun p => p.id != o.id && p.meets o &&
    (match o.reach with
     | some r => p.reach.getD 0 < r
     | none => true))

/-- The base die of a DPA's home slice. -/
def homeDie (dpa : Nat) : Nat := homeSlice dpa / 2

/-- Whether a store or atomic of a core leaves the core's die, through the switch of the die that it goes to (R239). -/
def Op.crosses (o : Op) : Bool := (o.isStore || o.isAtomic) && o.space == .g && homeDie o.addr != dieOf o.core

/-- Whether the switch of a die holds what a core sends there: 65 535 of the core's stores and atomics that it has forwarded are not yet
acknowledged; of posted stores those before `reach` count (R348). -/
def State.switchFull (s : State) (core die : Nat) (reach : Option Nat) : Bool :=
  65535 ≤ s.ops.length &&
    65535 ≤ s.ops.countP (fun p => p.core == core && p.crosses && homeDie p.addr == die &&
      match p.reach, reach with
      | some a, some b => a < b
      | some _, none => true
      | none, _ => p.isAtomic)

/-- Whether the switch holds a store or an atomic (R348). -/
def State.switchHeld (s : State) (o : Op) : Bool := o.crosses && s.switchFull o.core (homeDie o.addr) o.reach

/-- Whether an operation may be performed now. -/
def State.mayPerform (s : State) (o : Op) : Bool :=
  !(s.ops.any (fun p => o.heldBy p false)) && !s.observedPending o && !s.behindObserved o && !s.snoopsPending o &&
    !s.queueAhead o && !s.hostHolds o && !s.switchHeld o

/-- Whether a posted store may reach the core's store queue and L1 now. -/
def State.mayReach (s : State) (o : Op) : Bool :=
  o.isStore && o.space == .g && !o.spill && o.reach.isNone && !(s.ops.any (fun p => o.heldBy p true)) && !s.observedPending o &&
    !s.snoopsPending o

/-! ### What releases carry (R230, R231, R233) -/

/-- The stores that happen before a release of a thread at the number `below` and are still to be performed, or their back-invalidates to
be completed: its own, and those it has observed. -/
def State.carriedBy (s : State) (k below : Nat) : List Nat :=
  ((s.threadOps k).filter (fun p => p.isStore && p.space == .g && !p.spill && p.id < below)).map Op.id ++
    ((s.snoops.filter (fun x => x.uid == (s.group (k / 32)).uid && x.lane == k % 32 && x.id < below)).map (·.id)).eraseDups ++
    (s.observedIds k below).filter s.live

/-- What happens before a release that the model does not follow further is known to whoever acquires from it (log 31, DEDUCED). -/
def State.expose (s : State) (k : Nat) : State :=
  if s.snoops.isEmpty then s
  else
    let ids := s.carriedBy k s.nextId
    { s with snoops := s.snoops.map (fun x => if ids.contains x.id then { x with known := true } else x) }

/-- Stores carried to a thread by an acquire. -/
def State.acquire (s : State) (k : Nat) (ids : List Nat) : State :=
  if ids.isEmpty then s else s.updThread k (fun t => { t with obs := t.obs ++ ids.map (fun i => (0, i)) })

/-- A thread acquires from a release that the model does not follow (R233, R242) (log 31, DEDUCED). -/
def State.takeKnown (s : State) (k : Nat) : State := s.acquire k ((s.snoops.filter (·.known)).map (·.id))

/-- A thread as it acquires at system scope (R242): its later reads obtain the host's copies of the lines that the host may hold now, and it
takes over what agents outside the device have written. -/
def State.withSystem (s : State) (t : Thread) : Thread :=
  let agents := (s.snoops.filter (fun x => x.uid == 0 && x.queue.isNone)).map (·.id)
  { t with sysLines := t.sysLines ++ (s.hostLines.map (·.1)).filter (fun l => !t.sysLines.contains l), obs := t.obs ++ agents.map (fun i => (0, i)) }

/-- The threads of a read that acquires at system scope, by itself or for an acquiring fence after it (R230, R242). -/
def State.acquireSystem (s : State) (o : Op) : State :=
  if s.hostLines.isEmpty && s.snoops.isEmpty then s
  else (s.opKeys o).foldl (fun acc k =>
    if (o.acq && o.scope == 6) || (s.thread k).acqFences.any (fun f => f.2 == 6 && o.id < f.1) then acc.updThread k s.withSystem else acc) s

/-- A write performed at its point of coherence ends what earlier releases left at its bytes, unless it is an atomic's (R230). -/
def State.overwrite (s : State) (o : Op) : State :=
  if s.views.isEmpty || o.rmw then s
  else { s with views := s.views.filter (fun v =>
    !(v.space == o.space && o.addr ≤ v.addr && v.addr + v.n ≤ o.addr + o.size && v.by_ != o.id && !s.ops.any (fun p => p.id == v.by_))) }

/-- What a release of a thread of a group leaves at the bytes that it writes: the stores that happen before it, for each of its scopes
(R230). -/
def State.viewsOf (s : State) (g : Nat) (o : Op) : List View :=
  (o.waits.filter (fun w => 1 ≤ w.2)).map (fun w =>
    { space := o.space, addr := o.addr, n := o.size, scope := w.2, uid := o.uid, team := (s.group g).team, core := o.core, by_ := o.id
      ids := (s.carriedBy (tkey g o.lane) w.1).filter (· != o.id) })

/-- A write takes its place: a release leaves the stores that happen before it (R230). -/
def State.publish (s : State) (o : Op) : State :=
  let views := match s.findGroup o.uid with
    | none => o.left
    | some g => s.viewsOf g o
  let new := (views.map (fun v => { v with ids := v.ids.filter s.live })).filter (fun v => !v.ids.isEmpty)
  if s.views.isEmpty && new.isEmpty then s else { s with views := s.views.filter (fun v => v.ids.any s.live) ++ new }

/-- The pending releases of a group that leaves its core as a comet: what they wait for and what they leave behind no longer depend on where
its threads are (R230, R231, R320). -/
def State.pinReleases (s : State) (g : Nat) : State :=
  let uid := (s.group g).uid
  let pin (o : Op) : Op :=
    let k := tkey g o.lane
    let own (n : Nat) : List Nat := (s.snoops.filter (fun x => x.uid == uid && x.lane == o.lane && x.id < n)).map (·.id)
    { o with
      left := s.viewsOf g o
      after := o.after ++ (o.waits.filter (fun w => 3 ≤ w.2)).flatMap (fun w =>
        (s.observedIds k w.1 ++ (if w.2 = 6 then own w.1 else [])).map (fun i => (i, w.2))) }
  { s with ops := s.ops.map (fun o => if o.uid = uid && !o.waits.isEmpty then pin o else o) }

/-- Whether a read takes its value from the home slice and not from the core (R229). -/
def Op.atHome (o : Op) : Bool :=
  match o.kind with
  | .load _ _ _ _ => o.acq && 3 ≤ o.scope
  | .atomic _ _ _ _ _ => 3 ≤ o.scope
  | .qstat _ _ => true
  | .vq _ _ _ _ => false | .store _ _ => false | .value _ _ => false | .xpipe _ _ _ _ => false | .monwait _ => false | .popq _ _ _ => false

/-- Whether a read may find the value of the release that left a view, or of an atomic that follows it (R230): a release still in a store
queue is found by reads of its core there, and one behind a later store of the queue is not. -/
def State.finds (s : State) (o : Op) (v : View) : Bool :=
  let release := s.ops.find? (fun p => p.id == v.by_)
  let queue := !o.atHome && o.space == .g
  (release.all (fun r => queue && r.core == o.core)) &&
    !(queue && (s.storeQueue o.core).any (fun p => !p.rmw && p.id != v.by_ && p.addr ≤ v.addr && v.addr + v.n ≤ p.addr + p.size &&
      release.all (fun r => r.reach.getD 0 < p.reach.getD 0)))

/-- A read meets what releases left at its location: an acquire takes it, and another load keeps it for a later acquiring fence
(R230). -/
def State.meetViews (s : State) (o : Op) : State :=
  let met := s.views.filter (fun v => v.space == o.space && rangesMeet v.addr v.n o.addr o.size && s.finds o v)
  if met.isEmpty then s
  else (s.opKeys o).foldl (fun acc k =>
    let now := met.filter (fun v => o.acq && s.joins v o.scope k)
    acc.updThread k (fun t =>
      { t with obs := t.obs ++ (now.flatMap (·.ids)).map (fun i => (o.id, i))
               seen := t.seen ++ (met.filter (fun v => !now.contains v)).map (fun v => (o.id, v)) })) s

/-- A pending operation changed. -/
def State.updOp (s : State) (id : Nat) (f : Op → Op) : State :=
  { s with ops := s.ops.map (fun o => if o.id = id then f o else o) }

/-- A store reaches the store queue: it updates a hit L1 line and other groups of the core may see it (R189, R227). -/
def State.reachStore (s : State) (o : Op) : State :=
  if o.reach.isSome then s
  else
    let s1 := ({ s with nextId := s.nextId + 1 }.updOp o.id (fun p => { p with reach := some s.nextId })).publish o
    s1.updCore o.core (fun c => c.l1Store o.owner o.addr o.data)

/-! ### Completion (R44, R125) -/

/-- A thread that waits on flags enters the clause when every masked flag is clear (R42). -/
def Thread.settleHeader (t : Thread) : Thread :=
  match t.st, t.header with
  | .waitFlags, some h =>
    if t.flags &&& h.wait = 0 then
      { t with st := .ready, header := none, pc := t.pc + 8
               clause := some { left := h.len.toNat, seta := h.seta, setb := h.setb } }
    else t
  | _, _ => t

/-- A thread's flag or wait settled after an operation of it has gone: the flag clears, or the wait ends, when no other
operation holds it. The flag of a REP's own word stays set until the sequence has ended (R44, R49). -/
def State.settle (s : State) (k : Nat) (flag : Option Nat) : State :=
  let g := s.group (k / 32)
  let inRep := (g.rep.map (fun r => r.lanes.contains (k % 32))).getD false
  let others := s.ops.any (fun p => p.isLong && p.ofThread g.uid (k % 32) && p.flagFor (k % 32) == flag)
  if others || (inRep && flag == (s.thread k).nextFlag) then s
  else
    match flag with
    | some f => s.updThread k (fun t => (t.clearFlag f).settleHeader)
    | none => s.updThread k (fun t => if t.st = .waitOp ∧ t.waitFor.isNone then { t with st := .ready } else t)

/-- A REP sequence of a group stopped between repetitions (R47, R50): its threads keep REPIX, and their flags settle. -/
def State.stopRep (s : State) (g : Nat) : State :=
  match (s.group g).rep with
  | none => s
  | some c =>
    c.lanes.foldl (fun acc l => acc.settle (tkey g l) (((acc.thread (tkey g l)).clause.bind ClausePos.flag).map (·.val)))
      (s.updGroup g (fun x => { x with rep := none }))

/-- A result written where a long-latency operation sends it (R44). -/
def State.deliver (s : State) (g lane : Nat) (d : Dest) (n : Nat) (v : Nat) : State :=
  let word (i : Nat) : Word := BitVec.ofNat 32 (v / 2 ^ (32 * i))
  match d with
  | .none => s
  | .win a => s.updThread (tkey g lane) (fun t =>
      if t.st = .exited then t else (List.range n).foldl (fun t i => t.setReg (a + i) (word i)) t)
  | .uni i => s.updGroup g (fun x => (List.range n).foldl (fun x j => x.setReg (i + j) (word j)) x)
  | .pred q => s.updThread (tkey g lane) (fun t => t.setPred q (v % 2 == 1))

/-- An operation ends: it leaves the list, its result is delivered, and its threads' flags and waits settle. One whose rows are
written one by one stays, with its result, until they are (R45). -/
def State.finishOp (s : State) (o : Op) (v : Nat) : State :=
  if o.split then
    { s with
      nextId := s.nextId + 1
      ops := s.ops.map (fun p => if p.id = o.id then
        { p with id := s.nextId, kind := .value (BitVec.ofNat 64 v) o.regs, acq := false, waits := [], waitLoads := 0, fullWaits := [], after := []
                 scope := 0, split := false, dbg := false, charged := false } else p) }
  else
    let s1 := { s with ops := s.ops.filter (fun p => p.id != o.id) }
    match s1.findGroup o.uid with
    | none => s1
    | some g =>
      let s2 := s1.deliver g o.lane o.dest o.regs v
      if o.isLong then o.lanes.foldl (fun acc l => acc.settle (tkey g l) (o.flagFor l)) s2 else s2

/-- A debug comparator of the owner that an access hits (R359). -/
def State.dbgHit (s : State) (o : Op) : Bool :=
  o.dbg && (s.owner o.owner).dbg.any (fun e =>
    let c := e.2
    o.ova / 8 / 2 ^ c.mask == c.addr / 2 ^ c.mask && ((c.reads && !o.isStore) || (c.writes && !o.isLoad)))

/-- The place in a clause of a word whose use of the clause's flags has been counted (R43). -/
def ClausePos.counted (c : ClausePos) (long : Bool) : ClausePos := { c with usedA := c.usedA || long, usedB := c.usedB || (long && c.usedA) }

/-- A hit recorded for its thread; it is raised before the thread's next word is examined (R358, R359). Its retry moves past the word, whose
use of a flag stands (R43, R180). -/
def State.noteHit (s : State) (o : Op) : State :=
  if s.dbgHit o then
    { s with hits := s.hits ++ [{ uid := o.uid, lane := o.lane, pc := o.pc, addr := o.ova
                                  clause := (o.clauseOf o.lane).map (fun c => c.counted o.isLong) }] }
  else s

/-! ### Performing memory operations -/

/-- An atomic's new value (R216). -/
def atomNew (op : AtomOp) (ty : Ty) (m b c : BitVec 64) : BitVec 64 :=
  match op with
  | .add => if ty = .f32 ∨ ty = .h2 ∨ ty = .bh2 then fpAdd ty .rn m b else aluAdd ty m b
  | .min => if ty = .f32 then fpMin ty m b else aluMin ty m b
  | .max => if ty = .f32 then fpMax ty m b else aluMax ty m b
  | .and => m &&& b
  | .or => m ||| b
  | .xor => m ^^^ b
  | .exch => b
  | .inc => if b.toNat ≤ m.toNat then 0 else m + 1
  | .cas => if m = c then b else m

/-- The store queue's bytes for a plain, group- or team-scope read that does not hit L1 (R228). -/
def State.coreRead (s : State) (core world dpa n : Nat) : Got := (s.homeRead world dpa n).overlayAll dpa (s.storeQueue core)

/-- The pending stores of a load's own threads that precede it, as they reach their location: those in the store queue in its order, then the
others in program order (R218). -/
def State.ownStores (s : State) (o : Op) (queuedToo : Bool) : List Op :=
  let mine := s.ops.filter (fun p => p.isStore && p.space == .g && p.id < o.id && o.sameThread p)
  (if queuedToo then sortBy (fun p => p.reach.getD 0) (mine.filter (·.reach.isSome)) else []) ++ sortBy Op.id (mine.filter (·.reach.isNone))

/-- The block that the coalescer requests for a line: the smallest aligned block of 16, 32, 64 or 128 bytes that holds every
byte named in it (R194). -/
def grainOf (ranges : List (Nat × Nat)) (dpa n : Nat) : Nat × Nat :=
  let mine := ranges.filter (fun r => r.1 / 128 == dpa / 128)
  let lo := mine.foldl (fun m r => min m r.1) dpa
  let hi := mine.foldl (fun m r => max m (r.1 + r.2)) (dpa + n)
  if lo / 16 = (hi - 1) / 16 then (lo / 16 * 16, 16)
  else if lo / 32 = (hi - 1) / 32 then (lo / 32 * 32, 32)
  else if lo / 64 = (hi - 1) / 64 then (lo / 64 * 64, 64)
  else (lo / 128 * 128, 128)

/-- The bytes of device memory that an access asks its home slice for: the block that the coalescer requests (R194). -/
def Op.block (o : Op) : Nat × Nat :=
  match o.kind with
  | .load _ _ _ grain => grain
  | .store _ _ => if o.grain.2 = 0 then grainOf [] o.addr o.size else o.grain
  | .vq _ _ _ _ => if o.grain.2 = 0 then grainOf [] o.addr 1 else o.grain
  | .atomic _ _ _ _ _ => if o.grain.2 = 0 then grainOf [] o.addr o.size else o.grain
  | .qstat _ n => grainOf [] o.addr n
  | .value _ _ => (o.addr, 0) | .xpipe _ _ _ _ => (o.addr, 0) | .monwait _ => (o.addr, 0) | .popq _ _ _ => (o.addr, 0)

/-- An activation of an owner's, where there is one, counted for its row: at the threshold each owner with at least half of the row's is
limited, and one more of a limited owner within 1 µs of its last is a limited activation, counted for the core (R201, R349) (log 69, DESIGN
CHOICE). -/
def State.countActivation (s : State) (owner : Nat) (core : Option Nat) (row : Nat) (there : Bool) : State :=
  let limited := s.limits.contains (owner, row)
  let soon := s.lastActs.any (fun e => e.1 == owner && e.2.1 == row && s.now < e.2.2 + 1200)
  let s1 := match core with
    | some c => s.countPerf c owner 6 (if there && limited && soon then 1 else 0)
    | none => s
  let old := Tab.getD s.rows [] row
  let counts := Tab.put old owner (Tab.getD old 0 owner + 1)
  let total := counts.foldl (fun t e => t + e.2) 0
  let hot := if s.hrt ≤ total then ((counts.filter (fun e => total ≤ 2 * e.2)).map (fun e => (e.1, row))).filter (fun e => !s.limits.contains e) else []
  { s1 with
    rows := if there then Tab.put s.rows row counts else s.rows
    limits := s.limits ++ (if there then hot else [])
    lastActs := if there && (limited || !hot.isEmpty) then s.lastActs.filter (fun e => !(e.1 == owner && e.2.1 == row)) ++ [(owner, row, s.now)] else s.lastActs }

/-- A request of an owner reaches the array where L2 does not hold all it asks for, and there may activate its row (R194, R201) (log 69,
DESIGN CHOICE). -/
def State.activate (s : State) (owner : Nat) (core : Option Nat) (dpa n : Nat) : State :=
  let at_ := s.place dpa
  let held := s.l2.any (fun l => l.line == at_ / 128 && halvesOf at_ n &&& ~~~l.halves == 0)
  if held || 2 ^ 39 ≤ at_ then s else s.countActivation owner core (Config.hbmRow at_) (Config.activates s.draws)

/-- The request for an access's line, which its issue sends once (R194, R349): L2 is touched (R191). -/
def State.request (s : State) (o : Op) : State :=
  let s1 := if o.lineHead then
      { (s.countPerf o.core o.owner 5 1).activate o.owner (some o.core) o.block.1 o.block.2 with
        ops := s.ops.map (fun p => if p.batch = o.batch ∧ p.core = o.core ∧ p.addr / 128 = o.addr / 128 then { p with lineHead := false } else p) }
    else s
  s1.touch o.world o.block.1 o.block.2 (match o.kind with | .store _ once => once | .load _ _ c _ => c == .once | _ => false)

/-- Whether an access to the far tier fails: its port is down, or its retries have failed (R199). -/
def State.fails (s : State) (o : Op) : Bool := s.farDown o.addr || (o.failed && (farPort (s.place o.addr)).isSome)

/-- The L1 line that an access hits (R189). -/
def State.l1Held (s : State) (o : Op) (n : Nat) : Option L1Line :=
  ((s.core o.core).l1Line o.owner o.addr).filter (fun l => l.hit o.addr n)

/-- The sectors of a block that an owner's L1 line does not hold (R188, R349). -/
def Core.l1Missing (c : Core) (owner line : Nat) (sectors : List Nat) : Nat :=
  match c.l1.find? (fun l => l.owner == owner && l.line == line) with
  | some l => sectors.countP (fun i => !l.valid.getLsbD i)
  | none => sectors.length

/-- The sectors of a line that an issue's request covers looked up in L1, once for the issue: those present are hits and the others misses
(R194, R349). -/
def State.lookup (s : State) (o : Op) (grain : Nat × Nat) : State :=
  if !o.looks then s
  else
    let sectors := sectorsOf grain.1 grain.2
    let missing := (s.core o.core).l1Missing o.owner (o.addr / 128) sectors
    { (s.countPerf o.core o.owner 3 (sectors.length - missing)).countPerf o.core o.owner 4 missing with
      ops := s.ops.map (fun p => if p.batch = o.batch ∧ p.core = o.core ∧ p.addr / 128 = o.addr / 128 then { p with looks := false } else p) }

/-- A read that misses L1 and fills the sectors that the coalescer requests (R189, R194). -/
def State.missRead (s : State) (o : Op) (grain : Nat × Nat) : Got × State :=
  let line := o.addr / 128
  let got := s.coreRead o.core o.world (128 * line) 128
  (got, ((s.request o).updCore o.core
    (fun c => c.l1Fill o.owner line (sectorsOf grain.1 grain.2) got (Config.l1Way s.draws))).draw)

/-- The zeros that a failed load returns, one word of which counts in POISON (R199). -/
def failedGot (dpa n : Nat) : Got := { bytes := List.replicate n 0, poison := [dpa / 8] }

/-- A read of n bytes cut out of that of their line. -/
def Got.cut (g : Got) (dpa n : Nat) : Got :=
  { bytes := (g.bytes.drop (dpa % 128)).take n, poison := g.poison.filter (fun w => (wordsOf dpa n).contains w) }

/-- Whether a load reads at the home slice: an acquire at cluster scope or wider (R229). -/
def Op.readsHome (o : Op) : Bool := o.acq && 3 ≤ o.scope

/-- Global bytes that the core gives a load under its cache operation and order (R199, R209, R228, R229), without its thread's own stores,
with the state after L1 has changed. A .once load that hits L1 sends no request and so marks no line of L2 (log 82, DESIGN CHOICE). -/
def State.baseRead (s : State) (o : Op) (cache : CacheOp) (grain : Nat × Nat) (n : Nat) : Got × State :=
  if o.readsHome then
    if s.fails o then (failedGot o.addr n, s) else (s.homeRead o.world o.addr n, s.request o)
  else if cache = .far then
    let s1 := s.updCore o.core (fun c => c.l1DropSectors o.owner o.addr n)
    if s.fails o then (failedGot o.addr n, s1) else (s.coreRead o.core o.world o.addr n, s1.request o)
  else
    let s1 := s.lookup o grain
    match s.l1Held o n with
    | some l => (l.got o.addr n, s1)
    | none =>
      if s.fails o then (failedGot o.addr n, s1)
      else
        let r := s1.missRead o grain
        (r.1.cut o.addr n, r.2)

/-- Bytes read by a load with the earlier stores of its own thread in place of what they overwrite (R218). -/
def State.withOwn (s : State) (o : Op) (g : Got) : Got := if s.fails o then g else g.overlayAll o.addr (s.ownStores o o.readsHome)

/-- Global bytes read by a load (R209, R218, R228, R229). -/
def State.globalRead (s : State) (o : Op) (cache : CacheOp) (grain : Nat × Nat) (n : Nat) : Got × State :=
  let r := s.baseRead o cache grain n
  (s.withOwn o r.1, r.2)

/-- The first load from a fence's mark on invalidates the owner's L1 lines (R219, R221). -/
def State.fenceInvalidate (s : State) (o : Op) : State :=
  (s.opKeys o).foldl (fun acc k =>
    if (acc.thread k).invMarks.any (· ≤ o.id) then
      (acc.invalidateL1 o.core o.owner).updThread k (fun t => { t with invMarks := t.invMarks.filter (o.id < ·) })
    else acc) s

/-- The stores of other threads that a load's bytes come from are recorded as observed, for each of its threads: those of the core's queue,
where it reads there, those of its other threads that a uniform load finds beside the home slice's bytes, and those whose
back-invalidates are still to be completed (R210, R231, R242). -/
def State.observe (s : State) (o : Op) (queue : Bool) : State :=
  let stores := if queue then s.storeQueue o.core else if 1 < o.lanes.length then s.ownStores o true else []
  let met := (stores.filter (fun p => p.meets o)).map (fun p => (p.uid, p.lane, p.id)) ++
    (s.snoops.filter (fun x => o.space == .g && sameLocation o.addr o.size x.addr x.n)).map (fun x => (x.uid, x.lane, x.id))
  if met.isEmpty then s
  else (s.opKeys o).foldl (fun acc k =>
    let seen := (met.filter (fun e => !(e.1 == o.uid && e.2.1 == k % 32))).map (fun e => (o.id, e.2.2))
    if seen.isEmpty then acc
    else acc.updThread k (fun t => { t with obs := t.obs.filter (fun e => s.live e.2) ++ seen })) s

/-- WALKBYTES counts the bytes of a handler thread's access (R173). -/
def State.chargeBytes (s : State) (o : Op) (n : Nat) : State :=
  if o.charged then s.updOwner o.owner (fun x => { x with walkbytes := satInc64 x.walkbytes n }) else s

/-- An acquire at cluster scope or wider, in any space, invalidates the owner's L1 lines on the core (R219). -/
def State.acquireL1 (s : State) (o : Op) : State := if o.acq && 3 ≤ o.scope then s.invalidateL1 o.core o.owner else s

/-- What a load reads, and the state after it (R209, R219). -/
def State.gotFor (s : State) (o : Op) (cache : CacheOp) (grain : Nat × Nat) (n : Nat) : Got × State :=
  match o.space with
  | .l uid => (s.scratchRead uid o.addr n, (((s.acquireL1 o).meetViews o).acquireSystem o).chargeBytes o n)
  | .g =>
    let s1 := s.fenceInvalidate o
    let r := s1.globalRead o cache grain n
    (r.1, ((((r.2.observe o (!o.readsHome)).acquireL1 o).meetViews o).acquireSystem o).chargeBytes o n)

/-- The bytes that a load reads, and the state after it: poisoned words count once each, for the thread (R203). -/
def State.readFor (s : State) (o : Op) (cache : CacheOp) (grain : Nat × Nat) (n : Nat) : List Byte × State :=
  let r := s.gotFor o cache grain n
  (r.1.clean o.addr, r.2.countPoison o.owner r.1.poison.length)

/-- A load's value from its bytes (R209). -/
def loadValue (size : Nat) (signed : Bool) (bs : List Byte) : Nat :=
  if signed ∧ size ≤ 2 then (asInt true (8 * size) (leNat bs) % 2 ^ 32).toNat else leNat bs

/-- A load performed (R209..R211). -/
def State.performLoad (s : State) (o : Op) (size : Nat) (signed : Bool) (cache : CacheOp) (grain : Nat × Nat) : State :=
  let r := s.readFor o cache grain size
  (r.2.noteHit o).finishOp o (loadValue size signed r.1)

/-- The VQ loads of one issue that read a common index byte (R195). -/
def State.vqMates (s : State) (o : Op) : List Op :=
  s.ops.filter (fun p => p.batch == o.batch && p.core == o.core && p.addr == o.addr && (match p.kind with | .vq _ _ _ _ => true | _ => false))

/-- What a VQ load delivers for an index byte (R156, R195, R212): zero where the byte is poisoned or another owner loaded the codebook. While
another group's CBLD rewrites the codebook the entry is found before or after it (R145, R156). -/
def State.vqValue (s : State) (o : Op) (index : Got) : Nat :=
  match o.kind with
  | .vq k off size _ =>
    let cb := Tab.getD (s.core o.core).cbs {} k
    let entry := 8 * leNat index.bytes + off
    let found := (oldEntry cb.before s.now o.uid (leNat index.bytes)).getD (cb.tag, cb.bytes)
    if found.1 = some o.owner ∧ index.poison.isEmpty then leNat ((List.range size).map (fun i => Tab.getD found.2 0 (entry + i))) else 0
  | _ => 0

/-- The VQ loads of an issue on one index byte performed: the byte is read once, and each thread finds its own earlier stores in it, observes
what it reads, and is charged for it; a poisoned one counts for each (R195, R212, R218, R219, R374). -/
def State.performVq (s : State) (o : Op) (cache : CacheOp) : State :=
  let mates := s.vqMates o
  let s1 := mates.foldl State.fenceInvalidate s
  let r := s1.baseRead o cache o.block 1
  mates.foldl (fun acc p =>
    let g := s1.withOwn p r.1
    let s2 := ((((acc.observe p true).meetViews p).acquireSystem p).chargeBytes p 1).countPoison p.owner g.poison.length
    s2.finishOp p (s2.vqValue p g)) r.2

/-- What a store does on its way past L1: a posted store reaches the queue and updates a hit line; a spill bypasses L1 and leaves no older
bytes of its own there (R88, R189, R218). -/
def State.passL1 (s : State) (o : Op) : State :=
  if o.spill then s.updCore o.core (fun c => c.l1Drop (fun l => l.owner == o.owner && l.line == o.addr / 128)) else s.reachStore o

/-- A posted store performed (R214). No release waits for what a spill causes (R88). -/
def State.performStore (s : State) (o : Op) (data : List Byte) : State :=
  let s1 := match o.space with
    | .l uid => ((s.scratchWrite uid o.addr data).overwrite o).publish o
    | .g =>
      if s.fails o then s.countPoison o.owner 1
      else
        let s2 := (((s.passL1 o).request o).homeWrite o.world o.addr data).overwrite o
        if o.spill then s2 else s2.ownSnoops o s.snoops.length
  ((s1.chargeBytes o data.length).noteHit o).finishOp o 0

/-- An atomic performed at the point that its space and scope select (R216, R217). At group and team scope in g the write part
stays behind as a store in the core's store queue. -/
def State.performAtomic (s : State) (o : Op) (op : AtomOp) (ty : Ty) (b c : BitVec 64) : State :=
  let n := tyBits ty / 8
  let value (g : Got) : BitVec 64 := BitVec.ofNat 64 (leNat (g.clean o.addr))
  let new (m : BitVec 64) : List Byte := leBytes n (atomNew op ty m b c).toNat
  match o.space with
  | .l uid =>
    let m := value (s.scratchRead uid o.addr n)
    ((((((s.scratchWrite uid o.addr (new m)).acquireL1 o).meetViews o).acquireSystem o).publish o).chargeBytes o n).finishOp o m.toNat
  | .g =>
    let s1 := ((s.updCore o.core (fun x => x.l1Drop (fun l => l.line == o.addr / 128))).chargeBytes o n).noteHit o
    let s1 := s1.acquireL1 o
    if s.fails o then (s1.countPoison o.owner 1).finishOp o 0
    else if isAlias o.addr then { s1 with nowin := satInc64 s1.nowin 1 }.finishOp o 0
    else if 3 ≤ o.scope then
      let m := value (s.homeRead o.world o.addr n)
      (((((((s1.observe o false).meetViews o).acquireSystem o).publish o).request o).homeWrite o.world o.addr (new m)).ownSnoops o s.snoops.length).finishOp
        o m.toNat
    else
      let m := value (s.coreRead o.core o.world o.addr n)
      let post : Op := { o with kind := .store (new m) false, dest := .none, flag := none, acq := false, waits := o.waits.filter (fun w => w.2 ≤ 2)
                                waitLoads := 0, fullWaits := [], after := [], laneFlags := [], split := false, dbg := false
                                charged := false, rmw := true }
      let s2 := (((s1.observe o true).meetViews o).acquireSystem o).finishOp o m.toNat
      let s3 := { s2 with ops := s2.ops ++ [post] }
      s3.reachStore post

end Sys2Proof.Machine
end

