-- ==== Sys2Proof/Machine/Loads.lean ====
section
/-! DEFINITION. The load, store and vector forms at issue (R205..R214): addresses, checks, and the operations they leave. -/

namespace Sys2Proof.Machine

/-! ### Fields (R205) -/

/-- The size in bytes of a size code (R205). -/
def sizeOf (c : Nat) : Nat :=
  match c with
  | 0 => 1 | 1 => 1 | 2 => 2 | 3 => 2 | 4 => 4 | 5 => 8 | 6 => 16
  | _ => 32

/-- The access size of a memory form in bytes. -/
def memSize (f : MWord) : Nat := sizeOf (f.sub.toNat % 8)

/-- The cache operation of a memory form. -/
def memCache (f : MWord) : CacheOp :=
  match f.sub.toNat / 8 with
  | 0 => .near
  | 1 => .far
  | _ => .once

/-- Whether the order field is not plain: .acq on a load, .rel on a store. -/
def memOrdered (f : MWord) : Bool := f.mod.toNat / 4 != 0

/-- The space of LDV and STV (R211). -/
def vecSpace (f : MWord) : SpaceCode :=
  match f.mod.toNat / 4 with
  | 0 => .g
  | 1 => .l
  | _ => .x

/-- Whether a base operand is 64 bits wide. -/
def baseWide (sp : SpaceCode) : Bool := sp == .g

/-- The exact address of a memory operand (R206). -/
def State.memAddr (s : State) (k : Nat) (f : MWord) (sp : SpaceCode) (unit : Nat) : Int :=
  (s.rd k f.base (baseWide sp)).toNat + asInt true 32 (s.rdNat k f.index) * 2 ^ (f.mod.toNat % 4) + f.disp.toInt * unit

/-- The uses of a memory form's operands; `n` is the number of registers that the data operand covers. -/
def memUses (f : MWord) (sp : SpaceCode) (n : Nat) (dst : Bool) : List Use :=
  [⟨f.r, n, dst⟩, ⟨f.base, regs (baseWide sp), false⟩, ⟨f.index, 1, false⟩]

/-- The rows of a memory form's sources freed by its last-use bits. -/
def State.freeMem (s : State) (k : Nat) (f : MWord) (sp : SpaceCode) (n : Nat) : State :=
  ((s.freeOpd k f.base (regs (baseWide sp)) f.lu.a).freeOpd k f.index 1 f.lu.b).freeOpd k f.r n f.lu.c

/-- The registers that a size covers (R209, R211). -/
def sizeRegs (size : Nat) : Nat := max 1 (size / 4)

/-! ### Checked accesses -/

/-- The places of the threads of a word, or the fault of each that fails its check (R208). -/
def State.checkAll (s : State) (ks : List Nat) (sp : SpaceCode) (acc : Acc) (addr : Nat → Int) (n align : Nat) :
    List (Nat × Except FaultInfo Place) := ks.map (fun k => (k, s.checkAccess k sp acc (addr k) n align))

/-- The threads whose check passed, with their places. -/
def passed (cs : List (Nat × Except FaultInfo Place)) : List (Nat × Place) :=
  cs.filterMap (fun c => match c.2 with | .ok p => some (c.1, p) | .error _ => none)

/-- The faults of the others raised in ascending order (R141, R358). -/
def State.raiseFailed (s : State) (cs : List (Nat × Except FaultInfo Place)) : State :=
  cs.foldl (fun acc c => match c.2 with | .ok _ => acc | .error f => acc.raise c.1 f) s

/-- The ranges of device memory among checked places. -/
def gRanges (ps : List (Nat × Place)) (n : Nat) : List (Nat × Nat) :=
  ps.filterMap (fun p => match p.2 with | .g l => some (l.dpa, n) | .l _ _ => none)

/-- The block that the coalescer requests for a place among those of its issue (R194). -/
def placeGrain (ps : List (Nat × Place)) (n : Nat) (p : Place) : Nat × Nat :=
  match p with
  | .g l => grainOf (gRanges ps n) l.dpa n
  | .l _ _ => (0, 0)

/-- An operation at a checked place: its space, address and world. -/
def Op.atPlace (o : Op) (p : Place) : Op :=
  match p with
  | .g l => { o with space := .g, addr := l.dpa, world := l.world, entry := l.entry }
  | .l uid off => { o with space := .l uid, addr := off }

/-- An operation with the waits that its thread's fences left (R221) and its own order: acquire, release, or none. A release at thread
scope adds nothing to program order (R228). -/
def Op.ordered (o : Op) (t : Thread) (reads writes acq rel : Bool) (scope : Nat) : Op :=
  { o with scope := if acq || rel then scope else 0
           acq
           waits := (if writes then t.rels else []) ++ (if rel && scope != 0 then [(o.id, scope)] else [])
           fullWaits := if reads then t.fulls else []
           waitLoads := t.acqMark }

/-- The pending operations that the fences of a thread hold its next load behind, each with its scope (R210, R221). -/
def State.loadHolds (s : State) (k : Nat) : List (Nat × Nat) :=
  let t := s.thread k
  (s.threadOps k).flatMap (fun p =>
    (if (p.isLoad || p.isAtomic) && p.id < t.acqMark then [(p.id, 0)] else []) ++
    ((t.fulls.filter (fun w => (p.isStore || p.isAtomic) && p.id < w.1)).map (fun w => (p.id, w.2))))

/-- The `j`-th aligned 8-byte word of a vector access, which is one access for each (R207, R211). -/
def Place.word (p : Place) (j : Nat) : Place :=
  match p with
  | .g loc => .g { loc with dpa := loc.dpa + 8 * j }
  | .l uid off => .l uid (off + 8 * j)

/-- The rows of the `j`-th word of a vector destination. -/
def Dest.word (d : Dest) (j : Nat) : Dest :=
  match d with
  | .win a => .win (a + 2 * j)
  | .uni i => .uni (i + 2 * j) | .none => .none | .pred q => .pred q

/-- The L1 sectors that a .far load reads go before any later load of its thread is performed (R209). -/
def State.dropFar (s : State) (k : Nat) (p : Place) (cache : CacheOp) (n : Nat) : State :=
  match p, cache with
  | .g l, .far => s.updCore (k / 32 / 512) (fun c => c.l1DropSectors (s.group (k / 32)).owner l.dpa n)
  | _, _ => s

/-- The L1 line of an atomic's word goes before any later load of its thread is performed (R217). -/
def State.dropAtomic (s : State) (k : Nat) (p : Place) : State :=
  match p with
  | .g l => s.updCore (k / 32 / 512) (fun c => c.l1Drop (fun x => x.line == l.dpa / 128))
  | .l _ _ => s

/-! ### Loads -/

/-- A load form (R209, R211): the threads whose checks pass leave a load each, or one for each 8-byte word of a vector; the rest
fault. -/
def State.loadWord (s : State) (f : MWord) (sp : SpaceCode) (dbg : Bool) (vec : Bool) : State :=
  let n := memSize f
  let m := min n 8
  let e := s.enterLong f.guard (memUses f sp (sizeRegs n) true)
  let s0 := e.state
  let cs := s0.checkAll e.lanes sp .read (fun k => s0.memAddr k f sp n) n n
  let ps := passed cs
  let s1 := ps.foldl (fun acc p =>
    let k := p.1
    let kind : OpKind := .load m (f.sub.toNat % 8 = 1 ∨ f.sub.toNat % 8 = 3) (memCache f)
      (placeGrain ps n p.2)
    (List.range (n / m)).foldl (fun acc j =>
      acc.startOp k [k] ((acc.destOf k f.r).word j) kind (fun o =>
        { (o.atPlace (p.2.word j)).ordered (s0.thread k) true false (!vec && memOrdered f) false f.sc.toNat with
          ova := (s0.memAddr k f sp n % 2 ^ 48).toNat, dbg := dbg && !s.cur.inRep, batch := s.nextId }))
      (acc.dropFar k p.2 (memCache f) n)) s0
  let s2 := ps.foldl (fun acc p => acc.freeMem p.1 f sp 0) s1
  (s2.advance { long := true } (ps.map (·.1))).raiseFailed cs

/-- LDG (R209): space g. -/
def execLdg (f : MWord) (s : State) : Answer := .next (s.loadWord f .g true false)

/-- LDL (R209): the team's scratch. -/
def execLdl (f : MWord) (s : State) : Answer := .next (s.loadWord f .l false false)

/-- LDX (R209): cluster scratch. -/
def execLdx (f : MWord) (s : State) : Answer := .next (s.loadWord f .x false false)

/-- LDV (R211): 16 or 32 bytes of the space in mod. -/
def execLdv (f : MWord) (s : State) : Answer := .next (s.loadWord f (vecSpace f) false true)

/-- LDU (R210): one access for the run, into a uniform register; a failed check is raised for every active thread. It is an access of
each of them, and what their fences hold a load behind holds it. -/
def execLdu (f : MWord) (s : State) : Answer :=
  let n := memSize f
  let e := s.enterLong f.guard (memUses f .g (sizeRegs n) true)
  match e.lanes with
  | [] => .next e.state
  | k :: _ =>
    match e.state.checkAccess k .g .read (e.state.memAddr k f .g n) n n with
    | .error fi => .next (e.state.raiseAll e.lanes fi)
    | .ok p =>
      let kind : OpKind := .load n false (memCache f)
        (match p with | .g l => grainOf [] l.dpa n | .l _ _ => (0, 0))
      let s1 := (e.state.dropFar k p (memCache f) n).startOp k e.lanes (e.state.destOf k f.r) kind (fun o =>
        { (o.atPlace p).ordered (e.state.thread k) true false (memOrdered f) false f.sc.toNat with
          ova := (e.state.memAddr k f .g n % 2 ^ 48).toNat, batch := s.nextId
          waitLoads := 0, fullWaits := [], after := e.lanes.flatMap e.state.loadHolds })
      .next (s1.advance { long := true } e.lanes)

/-- LDVQ (R212): the index byte is checked as a 1-byte access; the size is the type's. -/
def execLdvq (f : MWord) (s : State) : Answer :=
  let size := tyBits f.ty / 8
  let e := s.enterLong f.guard (memUses f .g (sizeRegs size) true)
  let s0 := e.state
  let off (k : Nat) : Int := asInt true 32 (s0.rdNat k f.index) * 2 ^ (f.mod.toNat % 4) + f.disp.toInt * size
  let cs := e.lanes.map (fun k =>
    (k, if off k < 0 ∨ off k % size ≠ 0 then .error (s0.pcFault k .illopd)
        else s0.checkAccess k .g .read ((s0.rd k f.base true).toNat + off k / 8) 1 1))
  let ps := passed cs
  let s1 := ps.foldl (fun acc p =>
    let k := p.1
    (acc.dropFar k p.2 (memCache f) 1).startOp k [k] (acc.destOf k f.r) (.vq (f.sub.toNat % 8) (off k % 8).toNat size (memCache f)) (fun o =>
      { (o.atPlace p.2).ordered (s0.thread k) true false false false 0 with
        batch := s.nextId, grain := placeGrain ps 1 p.2, ova := (((s0.rd k f.base true).toNat + off k / 8) % 2 ^ 48).toNat })) s0
  let s2 := ps.foldl (fun acc p => acc.freeMem p.1 f .g 0) s1
  .next ((s2.advance { long := true } (ps.map (·.1))).raiseFailed cs)

/-- PREFG (R213): an address that would fault is dropped; the line comes into L2, and at level .l1 into L1 as a .near load would bring
it, in the issuing step (log 63, DESIGN CHOICE). -/
def execPrefg (f : MWord) (s : State) : Answer :=
  let e := s.enter f.guard {} (memUses f .g 1 false)
  let s0 := e.state
  let s1 := e.lanes.foldl (fun acc k => acc.freeMem k f .g 0) s0
  let s2 := e.lanes.foldl (fun acc k =>
    let a := (s0.memAddr k f .g 128 % 2 ^ 64).toNat / 128 * 128
    match s0.translateFor k .read a 128 with
    | .error _ => acc
    | .ok l =>
      let core := k / 32 / 512
      let owner := (s0.group (k / 32)).owner
      if acc.farDown l.dpa then acc
      else
        let acc1 := ((acc.countPerf core owner 5 1).activate owner (some core) l.dpa 128).touch l.world l.dpa 128
        if f.sub = 0 ∨ (acc.core core).l1Hit owner l.dpa 128 then acc1
        else (acc1.updCore core (fun c =>
          c.l1Fill owner (l.dpa / 128) (upto 4) (acc.coreRead core l.world l.dpa 128) (Config.l1Way acc1.draws))).draw) s1
  .next (s2.advance {} e.lanes)

/-! ### Stores -/

/-- The bytes that a store's data operand gives (R211, R214). -/
def State.storeData (s : State) (k : Nat) (o : Opd) (n : Nat) : List Byte :=
  if n ≤ 8 then leBytes n (s.rd k o (n == 8)).toNat
  else
    match o with
    | .w i => (List.range (n / 4)).flatMap (fun j => leBytes 4 ((s.thread k).reg ((s.thread k).winbase + i + j)).toNat)
    | _ => List.replicate n 0

/-- A store form (R211, R214): data is read at issue and the store posted, one for each 8-byte word of a vector; a release carries its
scope. -/
def State.storeWord (s : State) (f : MWord) (sp : SpaceCode) (dbg : Bool) (vec : Bool) : State :=
  let n := memSize f
  let e := s.enter f.guard {} (memUses f sp (sizeRegs n) false)
  let s0 := e.state
  let cs := s0.checkAll e.lanes sp .write (fun k => s0.memAddr k f sp n) n n
  let ps := passed cs
  let s1 := ps.foldl (fun acc p => acc.freeMem p.1 f sp (sizeRegs n)) s0
  let s2 := ps.foldl (fun acc p =>
    let k := p.1
    let data := s0.storeData k f.r n
    (List.range (n / min n 8)).foldl (fun acc j =>
      acc.startOp k [k] .none (.store ((data.drop (8 * j)).take 8) (memCache f == .once)) (fun o =>
        { (o.atPlace (p.2.word j)).ordered (s0.thread k) false true false (!vec && memOrdered f) f.sc.toNat with
          grain := placeGrain ps n p.2
          ova := (s0.memAddr k f sp n % 2 ^ 48).toNat, dbg := dbg && !s.cur.inRep, batch := s.nextId })) acc) s1
  (s2.advance {} (ps.map (·.1))).raiseFailed cs

/-- STG (R214). -/
def execStg (f : MWord) (s : State) : Answer := .next (s.storeWord f .g true false)

/-- STL (R214). -/
def execStl (f : MWord) (s : State) : Answer := .next (s.storeWord f .l false false)

/-- STX (R214). -/
def execStx (f : MWord) (s : State) : Answer := .next (s.storeWord f .x false false)

/-- STV (R211). -/
def execStv (f : MWord) (s : State) : Answer := .next (s.storeWord f (vecSpace f) false true)

/-! ### Atomics (R215, R216) -/

/-- The operation of an atomic's sub field (R216). -/
def atomOpOf (sub : Nat) : AtomOp :=
  match sub with
  | 0 => .add | 1 => .min | 2 => .max | 3 => .and | 4 => .or | 5 => .xor | 6 => .exch
  | _ => .inc

/-- An atomic form: `posted` for the reductions, `cas` for compare-and-swap. -/
def State.atomWord (s : State) (f : FWord) (sp : SpaceCode) (posted cas dbg : Bool) : State :=
  let w := wide f.ty
  let n := tyBits f.ty / 8
  let uses := fUses f w (baseWide sp) w w
  let e := if posted then s.enter f.guard {} uses else s.enterLong f.guard uses
  let s0 := e.state
  let addr (k : Nat) : Int := (s0.rd k f.a (baseWide sp)).toNat
  let cs := s0.checkAll e.lanes sp .atomic addr n n
  let ps := passed cs
  let s1 := ps.foldl (fun acc p =>
    let k := p.1
    let op := if cas then .cas else atomOpOf f.sub.toNat
    (acc.dropAtomic k p.2).startOp k [k] (acc.destOf k f.d) (.atomic op f.ty (s0.rd k f.b w) (s0.rd k f.c w) posted) (fun o =>
      { (o.atPlace p.2).ordered (s0.thread k) true true (f.mod.getLsbD 0) (f.mod.getLsbD 1) f.sc.toNat with
        scope := f.sc.toNat, grain := placeGrain ps n p.2, ova := (addr k % 2 ^ 48).toNat, dbg := dbg && !s.cur.inRep, batch := s.nextId })) s0
  let s2 := ps.foldl (fun acc p => acc.freeLu p.1 f (regs (baseWide sp)) (regs w) (regs w)) s1
  (s2.advance { long := !posted } (ps.map (·.1))).raiseFailed cs

/-- ATOMG (R216). -/
def execAtomg (f : FWord) (s : State) : Answer := .next (s.atomWord f .g false false true)

/-- ATOML (R216). -/
def execAtoml (f : FWord) (s : State) : Answer := .next (s.atomWord f .l false false false)

/-- ATOMX (R216). -/
def execAtomx (f : FWord) (s : State) : Answer := .next (s.atomWord f .x false false false)

/-- REDG (R216). -/
def execRedg (f : FWord) (s : State) : Answer := .next (s.atomWord f .g true false true)

/-- REDX (R216). -/
def execRedx (f : FWord) (s : State) : Answer := .next (s.atomWord f .x true false false)

/-- CASG (R216): b is the new value, c the compare value. -/
def execCasg (f : FWord) (s : State) : Answer := .next (s.atomWord f .g false true true)

/-- CASL (R216). -/
def execCasl (f : FWord) (s : State) : Answer := .next (s.atomWord f .l false true false)

/-- CASX (R216). -/
def execCasx (f : FWord) (s : State) : Answer := .next (s.atomWord f .x false true false)

/-! ### Fences, cache control and monitors (R221..R223) -/

/-- A fence word: it changes the marks of each active thread; one at thread scope orders nothing more than R218 does (R221). -/
def State.fenceWord (s : State) (f : FWord) (mark : Nat → Thread → Thread) : State :=
  let e := s.enter f.guard {} []
  (if f.sc = 0 then e.state else e.lanes.foldl (fun acc k => acc.updThread k (mark s.nextId)) e.state).advance {} e.lanes

/-- The marks of a FENCE.rel. -/
def Thread.fenceRel (scope id : Nat) (t : Thread) : Thread := { t with rels := t.rels ++ [(id, scope)] }

/-- The marks of a FENCE.acq: at cluster scope and wider L1 is invalidated before any later load (R219, R221), and at system scope it acquires
for the loads before it that are performed (R242). -/
def State.fenceAcq (s : State) (scope id : Nat) (t : Thread) : Thread :=
  let t := if scope = 6 then s.withSystem t else t
  { t with acqMark := id
           acqFences := t.acqFences ++ [(id, scope)]
           invMarks := if 3 ≤ scope then t.invMarks ++ [id] else t.invMarks }

/-- FENCE.full (R221): both, and later loads wait for earlier stores at the scope. -/
def execFenceFull (f : FWord) (s : State) : Answer :=
  .next ({ s with nextId := s.nextId + 1 }.fenceWord f (fun id t =>
    let t := s.fenceAcq f.sc.toNat id (t.fenceRel f.sc.toNat id)
    { t with fulls := t.fulls ++ [(id, f.sc.toNat)] }))

/-- FENCE.acq (R221). -/
def execFenceAcq (f : FWord) (s : State) : Answer :=
  .next ({ s with nextId := s.nextId + 1 }.fenceWord f (s.fenceAcq f.sc.toNat))

/-- FENCE.rel (R221). -/
def execFenceRel (f : FWord) (s : State) : Answer :=
  .next ({ s with nextId := s.nextId + 1 }.fenceWord f (Thread.fenceRel f.sc.toNat))

/-- CINV.l1 (R222). -/
def execCinvL1 (f : FWord) (s : State) : Answer :=
  let e := s.enter f.guard {} []
  let s1 := if e.lanes.isEmpty then e.state else e.state.invalidateL1 s.cur.core (e.state.group s.curG).owner
  .next (s1.advance {} e.lanes)

/-- The L1 line that holds an address: CINV checks no permission, and an address that no entry translates names none. -/
def State.lineAt (s : State) (k : Nat) (addr : Nat) : Option Nat :=
  let g := s.group (k / 32)
  let o := s.owner g.owner
  let at? (l : Option Loc) : Option Nat := l.map (fun l => l.dpa / 128)
  if reserveBase ≤ addr then at? (o.mapReserve (addr - reserveBase) 1)
  else
    match (s.core (k / 32 / 512)).tlb.find? (fun e => e.owner == g.owner && tlbMatches e.bits (s.aspOf g) addr) with
    | none => none
    | some e => at? (o.mapAA (s.core (k / 32 / 512)).world (tlbFrame e.bits * 2 ^ 16 + addr % tlbBytes e.bits) 1)

/-- CINV.line (R222). Where no entry translates the address, every line of the owner goes, the one that holds it among them
(log 56, DESIGN CHOICE). -/
def execCinvLine (f : MWord) (s : State) : Answer :=
  let e := s.enter f.guard {} (memUses f .g 1 false)
  let s0 := e.state
  let owner := (s0.group s.curG).owner
  let s1 := e.lanes.foldl (fun acc k => acc.freeMem k f .g 0) s0
  let s2 := e.lanes.foldl (fun acc k =>
    match s0.lineAt k ((s0.memAddr k f .g 128 % 2 ^ 64).toNat / 128 * 128) with
    | none => acc.invalidateL1 s.cur.core owner
    | some line => acc.updCore s.cur.core (fun c => c.l1Drop (fun x => x.owner == owner && x.line == line))) s1
  .next (s2.advance {} e.lanes)

/-- MONARM (R223): the monitor is armed on the line at its home slice; a new arm replaces the old one. -/
def execMonarm (f : MWord) (s : State) : Answer :=
  let e := s.enter f.guard {} (memUses f .g 1 false)
  let s0 := e.state
  let cs := s0.checkAll e.lanes .g .read (fun k => s0.memAddr k f .g 8) 8 8
  let ps := passed cs
  let s1 := ps.foldl (fun acc p => acc.freeMem p.1 f .g 0) s0
  let s2 := ps.foldl (fun acc p =>
    match p.2 with
    | .g l => acc.updThread p.1 (fun t => { t with monitor := some { line := l.dpa / 128 } })
    | .l _ _ => acc) s1
  .next ((s2.advance {} (ps.map (·.1))).raiseFailed cs)

/-- MONWAIT (R223): a long-latency wait for a write to the armed line, with a time limit in ac where a is not 0. -/
def execMonwait (f : FWord) (s : State) : Answer :=
  let e := s.enterLong f.guard (fUses f false false false false)
  let s0 := e.state
  let s1 := e.lanes.foldl (fun acc k =>
    let a := s0.rdNat k f.a
    acc.startOp k [k] (acc.destOf k f.d) (.monwait (if a = 0 then none else some (s.now + a))) id) s0
  let s2 := e.lanes.foldl (fun acc k => acc.freeLu k f 1 1 1) s1
  -- The thread waits with wr 2 whether or not the word stands in a clause (R125, R223).
  let s3 := e.lanes.foldl (fun acc k => acc.updThread k (fun t => { t with st := .waitOp })) s2
  .next (s3.advance { long := true } e.lanes)

end Sys2Proof.Machine
end

