-- ==== Sys2Proof/Machine/Completion.lean ====
section
/-! DEFINITION. Performing pending operations: the events LONG_LATENCY_COMPLETE and STORE_PERFORMED, abandonment (R360), and
what a release waits for (R219). -/

namespace Sys2Proof.Machine

/-- The register of a thread that XPIPE reads: a row of a live thread of the team, or of the comet that holds it (R120). A handler group
is a team of its own (R228). -/
def State.xpipeRead (s : State) (o : Op) (gidx lane reg n : Nat) : Nat :=
  let value (t : Thread) (A : Nat) : Nat :=
    if t.st = .exited ∨ A < t.winbase + reg + n then 0
    else if n = 2 then (t.pair (t.winbase + reg)).toNat else (t.reg (t.winbase + reg)).toNat
  match s.findGroup o.uid with
  | none => 0
  | some own =>
    match (s.group own).team with
    | none => if gidx = (s.group own).gidx then value (s.thread (tkey own lane)) (s.group own).allot else 0
    | some tk =>
      match s.groups.find? (fun e => e.2.team == some tk && e.2.gidx == gidx) with
      | some (g, x) => value (s.thread (tkey g lane)) x.allot
      | none =>
        match s.comets.find? (fun c => c.teamUid == (s.team tk).uid && c.saved.group.gidx == gidx) with
        | some c => value (Tab.getD c.saved.threads {} lane) c.saved.group.allot
        | none => 0

/-- The status that ends a MONWAIT, which disarms the monitor (R223). -/
def State.performMonwait (s : State) (o : Op) (deadline : Option Nat) : State :=
  match s.findGroup o.uid with
  | none => s.finishOp o 3
  | some g =>
    let k := tkey g o.lane
    let status := match (s.thread k).monitor with
      | none => 3
      | some m =>
        if Config.monitorLost s.draws then 3
        else if m.hit then 1
        else if deadline.any (· ≤ s.now) then 2 else 3
    let s1 := (s.draw.updThread k (fun t => { t with monitor := none })).finishOp o status
    s1.updThread k (fun t => if t.st = .waitOp then { t with st := .ready } else t)

/-- An item that POPQ returns is written to scratch; POPQ acquires at device scope (R233, R307). -/
def State.performPop (s : State) (o : Op) (off : Nat) (item : List Byte) (status : Word) : State :=
  let s1 := match o.space with
    | .l uid =>
      if item.isEmpty then s else (s.opKeys o).foldl State.takeKnown ((s.scratchWrite uid off item).invalidateL1 o.core o.owner)
    | .g => s
  s1.finishOp o status.toNat

/-- One pending operation performed. A poisoned word of a control block reads as zero for QSTAT and counts nothing (R203, log 11,
DEDUCED). -/
def State.performOp (s : State) (o : Op) : State :=
  match o.kind with
  | .value v _ => s.finishOp o v.toNat
  | .load size signed cache grain => s.performLoad o size signed cache grain
  | .vq _ _ _ cache => s.performVq o cache
  | .store data _ => s.performStore o data
  | .atomic op ty b c _ => s.performAtomic o op ty b c
  | .xpipe gidx lane reg n => s.finishOp o (s.xpipeRead o gidx lane reg n)
  | .monwait d => s.performMonwait o d
  | .qstat _ size =>
    let s1 := if o.acq then s.invalidateL1 o.core o.owner else s
    (s1.request o).finishOp o (leNat ((s.homeRead o.world o.addr size).clean o.addr))
  | .popq off item status => s.performPop o off item status

/-- The stores and atomics whose acknowledgements a release of a thread at the number `below` awaits: its own, and those it has observed
(R219, R360). -/
def State.awaitedBy (s : State) (k below : Nat) : List Nat :=
  ((s.threadOps k).filter (fun p => p.isAtomic && p.space == .g && p.id < below)).map Op.id ++ s.carriedBy k below

/-- Whether a release at cluster scope or wider waits for the acknowledgement of a store or atomic of a number: one that is pending, or one
that a fence has announced (R219, R221, R360). -/
def State.releaseAwaits (s : State) (id : Nat) : Bool :=
  s.ops.any (fun p => p.id != id && (p.waits ++ p.fullWaits).any (fun w => id < w.1 && 3 ≤ w.2) &&
    (s.opKeys p).any (fun k => (s.awaitedBy k p.id).contains id)) ||
  s.ops.any (fun p => p.after.any (fun w => w.1 == id && 3 ≤ w.2)) ||
  s.threads.any (fun e => e.2.rels.any (fun w => id < w.1 && 3 ≤ w.2) && (s.awaitedBy e.1 s.nextId).contains id)

/-- Whether an operation waits on an agent outside the device: the host's copy of a line, back-invalidates, or an expander (R360). -/
def State.waitsOutside (s : State) (o : Op) : Bool :=
  s.hostHolds o || (o.isLong && s.snoopsPending o) || (o.space == .g && o.isMem && (farPort (s.place o.addr)).isSome)

/-- Whether an operation has waited on an agent outside the device for WDLIM and is abandoned: that of a long-latency word, or a store or
atomic for which a release waits (R360). -/
def State.abandoned (s : State) (o : Op) (forRelease : Bool := false) : Bool :=
  s.wdlim ≤ s.now - o.issuedAt && s.waitsOutside o && (o.isLong || forRelease || s.releaseAwaits o.id) &&
    (match o.kind with | .monwait _ => false | _ => true)

/-- Abandonment completes the operation with zero, and each of its threads faults with WATCHDOG at the word, once (R360). -/
def State.abandon (s : State) (o : Op) : State :=
  let waited : Word := BitVec.ofNat 32 (min (s.now - o.issuedAt) (2 ^ 32 - 1))
  let s1 := s.finishOp o 0
  let new := o.lanes.filter (fun l => !s1.hits.any (fun h => h.cls == .watchdog && h.uid == o.uid && h.lane == l && h.pc == o.pc))
  { s1 with hits := s1.hits ++ new.map (fun l =>
      { uid := o.uid, lane := l, pc := o.pc, cls := .watchdog, addr := o.pc.toNat, aux := waited, clause := o.clauseOf l, repix := o.repix }) }

/-- The pending operations that are performed together with one: the VQ loads of its index byte (R195). -/
def State.together (s : State) (o : Op) : List Op :=
  match o.kind with
  | .vq _ _ _ _ => s.vqMates o
  | _ => [o]

/-- A pending operation performed if it may be; one that needs the host's copy first sends the snoop (R242). `forRelease` says that a
release waits for it (R360). -/
def State.tryOp (s : State) (o : Op) (forRelease : Bool := false) : State :=
  if s.abandoned o forRelease then s.abandon o
  else if (s.together o).all s.mayPerform then s.performOp o
  else if s.hostHolds o then s.snoop (o.addr / 128)
  else s

/-- The pending operation of a number. -/
def State.op? (s : State) (id : Nat) : Option Op := s.ops.find? (fun o => o.id == id)

/-- LONG_LATENCY_COMPLETE (R44): a long-latency operation is performed and writes its last destination. -/
def execLongLatencyComplete (id : Nat) (s : State) : Answer :=
  .next (match s.op? id with
    | some o => if o.isLong then s.tryOp o else s
    | none => s)

/-- STORE_PERFORMED (R214): a posted store or reduction is performed at its point of coherence. -/
def execStorePerformed (id : Nat) (s : State) : Answer :=
  .next (match s.op? id with
    | some o => if o.isLong then s else s.tryOp o
    | none => s)

/-- Whether an operation writes a register pair of a window: its rows are written independently (R45). -/
def Op.inPair (o : Op) : Bool :=
  match o.dest with
  | .win _ => o.isLong && o.regs == 2
  | .uni _ => false | .pred _ => false | .none => false

/-- A long-latency operation of a pair performed, its rows still to be written (R45). -/
def State.performSplit (s : State) (id : Nat) : State :=
  match s.op? id with
  | some o => if o.inPair then (s.updOp id (fun p => { p with split := true })).tryOp { o with split := true } else s
  | none => s

/-- One row of a performed pair written before the other (R45). -/
def State.landRow (s : State) (id row : Nat) : State :=
  match s.op? id with
  | none => s
  | some o =>
    match o.kind, o.dest, s.findGroup o.uid with
    | .value v 2, .win a, some g =>
      let lo := v.toNat % 2 ^ 32
      let hi := v.toNat / 2 ^ 32
      let now := if row = 0 then (a, lo) else (a + 1, hi)
      let left := if row = 0 then (a + 1, hi) else (a, lo)
      (s.deliver g o.lane (.win now.1) 1 now.2).updOp id (fun p =>
        { p with kind := .value (BitVec.ofNat 64 left.2) 1, dest := .win left.1 })
    | _, _, _ => s

/-- A posted store reaches the store queue, where it may. -/
def State.tryReach (s : State) (id : Nat) : State :=
  match s.op? id with
  | some o => if s.mayReach o then s.reachStore o else s
  | none => s

/-! ### What a release waits for (R219, R233) -/

/-- Whether an operation counts as performed at a scope's point of coherence; that of thread scope is program order (R228). -/
def Op.doneAt (o : Op) (scope : Nat) : Bool := !o.isMem || o.spill || scope == 0 || o.countsAt scope

/-- Whether a release of a thread at a scope may take effect: its earlier accesses, the stores it observed and, at system
scope, the back-invalidates are done (R219, R231, R242). -/
def State.released (s : State) (k scope : Nat) : Bool :=
  (s.threadOps k).all (fun o => o.doneAt scope) &&
  (scope ≤ 2 || (s.observedIds k s.nextId).all (fun i => !s.ops.any (fun p => p.id == i))) &&
  (scope < 6 || !s.snoopHeld k s.nextId)

/-- A pending operation performed as far as a release at a scope asks. -/
def State.push (s : State) (i scope : Nat) : State :=
  match s.op? i with
  | none => s
  | some o =>
    if o.doneAt scope then s
    else if scope ≤ 2 && o.isStore && o.space == .g then s.tryReach i
    else s.tryOp o true

/-- A thread's earlier accesses, and the stores it observed, performed as far as they may be: what makes its release take
effect without a wait (log 17, DEDUCED). -/
def State.drain (s : State) (k scope : Nat) : State :=
  let observed := if scope ≤ 2 then [] else s.observedIds k s.nextId
  let mine := (s.threadOps k).map Op.id
  (sortBy id (observed ++ mine)).foldl (fun acc i => acc.push i scope) s

/-- The threads of a release word that may take effect now, their accesses drained; the others stay at the word. What the release of a
thread carries at cluster scope or wider is known to those who acquire from it (R231, log 31, DEDUCED). -/
def State.drainAll (s : State) (ks : List Nat) (scope : Nat) : State × List Nat :=
  let s1 := ks.foldl (fun acc k => acc.drain k scope) s
  let free := ks.filter (fun k => s1.released k scope)
  (if 3 ≤ scope then free.foldl State.expose s1 else s1, free)

/-- What a thread's FENCE words made its later stores wait for, performed as far as it may be at their scopes (R221). -/
def State.drainFences (s : State) (k : Nat) : State :=
  (s.thread k).rels.foldl (fun acc w =>
    (sortBy id (((s.threadOps k).filter (fun o => o.id < w.1)).map Op.id ++ (if w.2 ≤ 2 then [] else s.observedIds k w.1))).foldl
      (fun acc i => acc.push i w.2) acc) s

/-- Whether everything before a thread's FENCE words is performed at their scopes (R221). -/
def State.fencesDone (s : State) (k : Nat) : Bool :=
  (s.thread k).rels.all (fun w => (s.threadOps k).all (fun o => w.1 ≤ o.id || o.doneAt w.2) &&
    (w.2 ≤ 2 || (s.observedIds k w.1).all (fun i => !s.ops.any (fun p => p.id == i))) &&
    (w.2 < 6 || !s.snoopHeld k w.1))

/-- Whether an operation of a thread must be performed before any later access of it: one with .acq, or a load or atomic before a
FENCE.acq (R219, R221). -/
def Op.leads (o : Op) (t : Thread) : Bool := o.isMem && (o.acq || ((o.isLoad || o.isAtomic) && o.id < t.acqMark))

/-- What must be performed before a later access of a thread, performed as far as it may be. -/
def State.drainOrdered (s : State) (k : Nat) : State :=
  (((s.threadOps k).filter (fun o => o.leads (s.thread k))).foldl (fun acc o => acc.push o.id 7) s).drainFences k

/-- Whether a later access of a thread may take place at once (R219, R221). -/
def State.accessFree (s : State) (k : Nat) : Bool := s.fencesDone k && (s.threadOps k).all (fun o => !o.leads (s.thread k))

/-- CINV.code (R222): later fetches return what a fence before it has made visible, so it waits until that is performed at the fence's
scope (R54). -/
def execCinvCode (f : FWord) (s : State) : Answer :=
  let e := s.enter f.guard {} []
  let s1 := e.lanes.foldl State.drainFences e.state
  let go := e.lanes.filter s1.fencesDone
  let s2 := if go.isEmpty then s1
    else s1.updCore s.cur.core (fun c => { c with code := c.code.filter (fun w => w.owner != (s1.group s.curG).owner) })
  .next (s2.advance {} go)

end Sys2Proof.Machine
end

