-- ==== Sys2Proof/Machine/Control.lean ====
section
/-! DEFINITION. The Orrery and control flow: keys, laps and quanta (R122..R130), branches, calls and returns with spill and
fill (R86..R88, R131..R136), BACKOFF, YIELD, SYNCG, TRAP, BKPT and NOP (R137..R140). -/

namespace Sys2Proof.Machine

/-! ### Keys (R124) -/

/-- The key of a thread (R124). -/
def Thread.key (t : Thread) : Nat := (255 - t.depth.toNat) * 2 ^ 61 + t.pc.toNat / 8

/-! ### SYNCG and exits (R136, R139) -/

/-- The threads of a group that have not exited. -/
def State.liveKeys (s : State) (g : Nat) : List Nat := (groupKeys g).filter (fun k => (s.thread k).st ≠ .exited)

/-- Whether a thread waits at SYNCG.group, whose arrival releases and whose departure acquires (R139, R233). -/
def Thread.syncsGroup (t : Thread) : Bool := t.st == .atSync && t.waitBar == 1

/-- SYNCG completes when every thread that has not exited is at it: each becomes ready at its own PC + 8 (R139), and those of
SYNCG.group acquire what the arrivals of one another carry (R231, R233). -/
def State.syncComplete (s : State) (g : Nat) : State :=
  let live := s.liveKeys g
  if live.all (fun k => (s.thread k).st == .atSync) then
    let carried := (live.filter (fun k => (s.thread k).syncsGroup)).flatMap (fun k => s.carriedBy k s.nextId)
    live.foldl (fun acc k =>
      (if (s.thread k).syncsGroup then acc.acquire k carried else acc).updThread k (fun t => { t with st := .ready, pc := t.pc + 8 })) s
  else s

/-- A thread exits, and may complete a SYNCG (R136, R139). -/
def State.exitThread (s : State) (k : Nat) : State :=
  (s.updThread k Thread.gone).syncComplete (k / 32)

/-! ### Laps and quanta (R128, R129) -/

/-- The threads of a group that are ready. -/
def State.readyKeys (s : State) (g : Nat) : List Nat := (groupKeys g).filter (fun k => (s.thread k).st == .ready)

/-- The first part of R128, made for an issue of a run at key k: a quantum counts the issue; outside one, a key above laphi
resets the laps. -/
def Orbit.begin (b : Orbit) (k : Nat) : Orbit :=
  if b.qact then { b with qcnt := min (b.qcnt + 1) 255 }
  else if b.lhv && b.laphi.toNat < k then { b with lapcnt := 0, lhv := false }
  else b

/-- An issue of a group counted at a key, under its owner's present LAPQ and QUANT: a change of them takes effect at the group's next
issue (R128, R129). -/
def Group.countIssue (o : Owner) (k : Nat) (x : Group) : Group :=
  { x with orbit := x.orbit.begin k, lapq := o.lapq, quant := o.quant }

/-- The laps of R128 taken by threads of a run at key k, under the LAPQ of the group's last issue (R129). -/
def State.takeLaps (s : State) (g k : Nat) (laps : List Nat) : State :=
  if laps.isEmpty then s
  else
    let x := s.group g
    let b := x.orbit
    let lapcnt := min (b.lapcnt + 1) 255
    let b1 := { b with lapcnt, laphi := BitVec.ofNat 69 (if b.lhv then max b.laphi.toNat k else k), lhv := true }
    if x.lapq ≤ lapcnt then
      laps.foldl (fun acc t => acc.updThread t (fun t => { t with st := .lapped }))
        (s.setGroup g { x with orbit := { b1 with qact := true, qcnt := 0 } })
    else s.setGroup g { x with orbit := b1 }

/-- The last test of R128: a quantum ends after QUANT issues or when no entry is ready, and lapped threads become ready. -/
def State.endQuantum (s : State) (g : Nat) : State :=
  let x := s.group g
  if x.orbit.qact && (x.quant ≤ x.orbit.qcnt || (s.readyKeys g).isEmpty) then
    (groupKeys g).foldl (fun acc k => if (acc.thread k).st = .lapped then acc.updThread k (fun t => { t with st := .ready }) else acc)
      (s.setGroup g { x with orbit := { x.orbit with qact := false, qcnt := 0 } })
  else s

/-! ### Branches (R131..R133) -/

/-- The site of a control-flow word. -/
def ctrl : Site := { ctrl := true }

/-- The target of an offset form (R131). -/
def offTarget (f : OffWord) (pc : DWord) : DWord := pc + (f.off.signExtend 64 <<< 3)

/-- A thread that takes a branch: its clause ends, and a target above the word resets its backoff exponent (R42, R137). -/
def Thread.jump (t : Thread) (target : DWord) : Thread :=
  { t with pc := target, clause := none, boexp := if t.pc < target then 0 else t.boexp }

/-- Threads of the issuing run that take a branch, each to its target; the active ones among them lap where the target is
not above the word (R128). -/
def State.jumpAll (s : State) (ks lappers : List Nat) (target : Nat → DWord) : State :=
  match ks with
  | [] => s
  | k0 :: _ =>
    let key := (s.thread k0).key
    let laps := lappers.filter (fun k => target k ≤ (s.thread k).pc)
    let s1 := ks.foldl (fun acc k => acc.updThread k (fun t => t.jump (target k))) s
    s1.takeLaps s.curG key laps

/-- One violation of uniform branching counted (R132). -/
def State.countUviol (s : State) : State := s.updGroup s.curG (fun g => { g with uviol := satInc32 g.uviol 1 })

/-- BRA (R132). -/
def execBra (f : OffWord) (s : State) : Answer :=
  let e := s.enter f.guard ctrl []
  .next (e.state.jumpAll e.lanes e.lanes (fun k => offTarget f (s.thread k).pc))

/-- BRA.U (R132): the predicate of the lowest-numbered thread of the run decides for all of it. A run without an active
thread falls through (R52). -/
def execBraU (f : OffWord) (s : State) : Answer :=
  let act := s.curKeys.filter (s.active f.guard)
  let c := match s.curKeys with
    | [] => false
    | k :: _ => s.active f.guard k
  let e := s.enter f.guard ctrl []
  let off := s.curKeys.filter (fun k => !act.contains k)
  let differ := !act.isEmpty && !off.isEmpty
  let s1 := if differ then e.state.countUviol else e.state
  -- Inactive threads have fallen through; those that the run takes along are put back at the word first.
  let s2 := if c then off.foldl (fun acc k => acc.updThread k (fun t => { t with pc := (s.thread k).pc })) s1 else s1
  .next (if c then s2.jumpAll (s.curKeys.filter (fun k => e.lanes.contains k || off.contains k)) e.lanes
           (fun k => offTarget f (s.thread k).pc)
         else s2.advance ctrl e.lanes)

/-- The target of a branch or call through a register pair: bits 2:0 are ignored (R133). -/
def State.regTarget (s : State) (k : Nat) (f : FWord) : DWord := s.rd k f.a true &&& ~~~(7 : DWord)

/-- BRX (R133). -/
def execBrx (f : FWord) (s : State) : Answer :=
  let e := s.enter f.guard ctrl (fUses f false true false false)
  let s1 := e.lanes.foldl (fun acc k => acc.freeLu k f 2 1 1) e.state
  .next (s1.jumpAll e.lanes e.lanes (fun k => s.regTarget k f))

/-- BRX.U (R133): every active thread takes the lowest-numbered active thread's target. -/
def execBrxU (f : FWord) (s : State) : Answer :=
  let e := s.enter f.guard ctrl (fUses f false true false false)
  match e.lanes with
  | [] => .next e.state
  | k0 :: _ =>
    let v := s.regTarget k0 f
    let s1 := e.lanes.foldl (fun acc k => acc.freeLu k f 2 1 1) e.state
    let s2 := if e.lanes.any (fun k => s.regTarget k f != v) then s1.countUviol else s1
    .next (s2.jumpAll e.lanes e.lanes (fun _ => v))

/-! ### The window engine (R86, R87) -/

/-- A fault of a spill or fill: a translation miss is an ordinary one, any other becomes SPILL with its cause (R87). -/
def spillFault (f : FaultInfo) : FaultInfo := if f.cls = .xmiss then f else { f with cls := .spill, cause2 := f.cls }

/-- The address of the spill slot of an absolute register (R86). -/
def Thread.slot (t : Thread) (v : Nat) : Nat := (t.spillbase + BitVec.ofNat 64 (4 * v)).toNat

/-- WALKBYTES counts the bytes that a handler thread moves (R173). -/
def State.chargeWalk (s : State) (k n : Nat) : State :=
  let g := s.group (k / 32)
  if g.hdepth = 0 then s else s.updOwner g.owner (fun x => { x with walkbytes := satInc64 x.walkbytes n })

/-- The request of a register's spill or fill to L2, counted in PERF[5] (R349). -/
def State.slotRequest (s : State) (k : Nat) (world dpa : Nat) : State :=
  let owner := (s.group (k / 32)).owner
  let core := k / 32 / 512
  (((s.countPerf core owner 5 1).activate owner (some core) dpa 4).touch world dpa 4)

/-- One register spilled: a posted store of the thread that nothing orders for another agent, and that its own later accesses to the slot come
after (R86, R87, R88, R218) (log 39, DEDUCED). -/
def State.spillOne (s : State) (k v : Nat) : Except FaultInfo State :=
  let t := s.thread k
  match s.translateFor k .write (t.slot v) 4 with
  | .error f => .error (spillFault f)
  | .ok l => .ok (s.startOp k [k] .none (.store (leBytes 4 (t.reg v).toNat) false)
      (fun o => { o.atPlace (.g l) with ova := t.slot v, batch := s.nextId, spill := true }))

/-- One register filled (R86, R87). The fill returns what the slot holds at its home slice at that instant: of the two values that R88
allows where another agent has stored there, that agent's (log 57, DESIGN CHOICE); the thread's own stores there that are still to be
performed come after it (R218). A poisoned word, and one that the far tier fails, gives zero and is counted (R199, R203). -/
def State.fillOne (s : State) (k v : Nat) : Except FaultInfo (State × Word) :=
  match s.translateFor k .read ((s.thread k).slot v) 4 with
  | .error f => .error (spillFault f)
  | .ok l =>
    let owner := (s.group (k / 32)).owner
    let s1 := s.chargeWalk k 4
    if s.farDown l.dpa then .ok (s1.countPoison owner 1, 0)
    else
      let mine := sortBy Op.id ((s.threadOps k).filter (fun o => o.isStore && o.space == .g))
      let g := (s.homeRead l.world l.dpa 4).overlayAll l.dpa mine
      .ok ((s1.slotRequest k l.world l.dpa).countPoison owner g.poison.length, BitVec.ofNat 32 (leNat (g.clean l.dpa)))

/-- Registers spilled in ascending order; slots written before a fault stay written (R87). -/
def State.spillAll (s : State) (k : Nat) : List Nat → State × Option FaultInfo
  | [] => (s, none)
  | v :: vs =>
    match s.spillOne k v with
    | .error f => (s, some f)
    | .ok s1 => s1.spillAll k vs

/-- Registers filled in ascending order. -/
def State.fillAll (s : State) (k : Nat) : List Nat → List (Nat × Word) → State × Except FaultInfo (List (Nat × Word))
  | [], acc => (s, .ok acc)
  | v :: vs, acc =>
    match s.fillOne k v with
    | .error f => (s, .error f)
    | .ok (s1, w) => s1.fillAll k vs (acc ++ [(v, w)])

/-- The registers lo .. hi − 1. -/
def regRange (lo hi : Nat) : List Nat := (List.range (hi - lo)).map (lo + ·)

/-- Whether a load or an atomic of the thread on the locations of the slots of registers lo .. hi − 1 is still pending: the thread's fills come
after it (R88, R218). -/
def State.slotsBusy (s : State) (k lo hi : Nat) : Bool :=
  let pending := (s.threadOps k).filter (fun o => o.isMem && !o.isStore && o.space == .g)
  !pending.isEmpty && (regRange lo hi).any (fun v =>
    match s.translateFor k .read ((s.thread k).slot v) 4, s.translateFor k .write ((s.thread k).slot v) 4 with
    | .ok l, _ => pending.any (fun o => sameLocation o.addr o.size l.dpa 4)
    | _, .ok l => pending.any (fun o => sameLocation o.addr o.size l.dpa 4)
    | _, _ => false)

/-- A call of one thread (R134): the link, the window, spills and DEPTH. `free` frees what the word uses for the last time; a call
that faults frees nothing, and keeps only its link and the slots already written (R86, R87). -/
def State.callThread (s : State) (k code : Nat) (target : DWord) (free : State → State := id) : State :=
  let t := s.thread k
  let A := (s.group (k / 32)).allot
  let S := 8 * code
  let wb := t.winbase + S
  if A < wb + 8 then s.raisePc k .illopd
  else if t.depth = 255 then s.raisePc k .depth
  else
    let link : DWord := ((t.pc + 8) &&& ~~~(7 : DWord)) ||| BitVec.ofNat 64 code
    let s1 := (free s).updThread k (fun t => t.setPair (wb - 2) link)
    let top := min (wb + 32) A
    let rlo := if t.rlo + 48 < top then top - 48 else t.rlo
    let (s2, err) := s1.spillAll k (regRange t.rlo rlo)
    match err with
    | some f => (s2.updThread k (fun u => { u with regs := (t.setPair (wb - 2) link).regs })).raise k f
    | none => s2.updThread k (fun t =>
        { t with winbase := wb, rlo, depth := t.depth + 1, pc := target, clause := none, boexp := 0
                 regs := t.regs.filter (fun e => rlo ≤ e.1 && e.1 < t.rlo + 48) })

/-- Whether a long-latency operation still to complete writes a register among lo .. hi − 1 (R45). -/
def State.landsIn (s : State) (k lo hi : Nat) : Bool := (regRange lo hi).any (s.opWrites k)

/-- A call word: threads of which a register to be spilled is the destination of a long-latency operation still pending stay at the word
(R45, R86) (log 72, DESIGN CHOICE). -/
def State.callWord (s : State) (e : Entry) (code : Nat) (target : Nat → DWord) (free : Nat → State → State := fun _ => id) : State :=
  let idle := e.lanes.filter (fun k =>
    let t := s.thread k
    let hi := min (t.winbase + 8 * code + 32) (s.group s.curG).allot - 48
    !s.landsIn k t.rlo hi)
  idle.foldl (fun acc k => acc.callThread k code (target k) (free k)) e.state

/-- CALL (R134). -/
def execCall (f : OffWord) (s : State) : Answer :=
  .next (s.callWord (s.enter f.guard ctrl []) f.sub.toNat (fun k => offTarget f (s.thread k).pc))

/-- CALLX (R134). -/
def execCallx (f : FWord) (s : State) : Answer :=
  .next (s.callWord (s.enter f.guard ctrl (fUses f false true false false)) f.sub.toNat (fun k => s.regTarget k f)
    (fun k acc => acc.freeLu k f 2 1 1))

/-- The link of a thread: its two registers, filled first where they lie below RLO (R135). -/
def State.linkOf (s : State) (k : Nat) : State × Except FaultInfo DWord :=
  let t := s.thread k
  let lo := t.winbase - 2
  let (s1, r) := s.fillAll k (regRange lo (min t.rlo t.winbase)) []
  match r with
  | .error f => (s1, .error f)
  | .ok ws =>
    let word (v : Nat) : Word := Tab.getD ws (t.reg v) v
    (s1, .ok (word (lo + 1) ++ word lo : DWord))

/-- A return of one thread (R135); at DEPTH 0 it exits. -/
def State.retThread (s : State) (k : Nat) : State :=
  let t := s.thread k
  let A := (s.group (k / 32)).allot
  if t.depth = 0 then s.exitThread k
  else
    match s.linkOf k with
    | (s1, .error f) => s1.raise k f
    | (s1, .ok link) =>
      let S := 8 * (link.toNat % 4)
      if S = 0 ∨ t.winbase < S then s1.raisePc k .illopd
      else
        let wb := t.winbase - S
        let (s2, r) := s1.fillAll k (regRange wb t.rlo) []
        match r with
        | .error f => s2.raise k f
        | .ok ws =>
          let s3 := (regRange (wb + 32) A).foldl (fun acc v =>
            if acc.pendingDest k v then acc else acc.updThread k (fun t => t.freeReg v)) s2
          s3.updThread k (fun t => ws.foldl (fun t w => t.setReg w.1 w.2)
            { t with winbase := wb, rlo := min t.rlo wb, depth := t.depth - 1, pc := link &&& ~~~(7 : DWord)
                     clause := none, boexp := 0 })

/-- RET (R135). -/
def execRet (f : FWord) (s : State) : Answer :=
  let e := s.enter f.guard ctrl []
  let idle := e.lanes.filter (fun k => (s.thread k).depth = 0 || !s.slotsBusy k ((s.thread k).winbase - 24) (s.thread k).rlo)
  .next (idle.foldl State.retThread e.state)

/-- EXIT (R136). -/
def execExit (f : FWord) (s : State) : Answer :=
  let e := s.enter f.guard ctrl []
  .next (e.lanes.foldl State.exitThread e.state)

/-- BACKOFF (R137). -/
def execBackoff (f : FWord) (s : State) : Answer :=
  let e := s.enter f.guard ctrl []
  .next (e.lanes.foldl (fun acc k => acc.updThread k (fun t =>
    { t with bodly := 2 ^ t.boexp, boexp := min (t.boexp + 1) 12, st := .backoff })) (e.state.advance ctrl e.lanes))

/-- YIELD (R138): the active threads are lapped and a quantum starts at once. -/
def execYield (f : FWord) (s : State) : Answer :=
  let e := s.enter f.guard ctrl []
  if e.lanes.isEmpty then .next e.state
  else
    let s1 := e.lanes.foldl (fun acc k => acc.updThread k (fun t => { t with st := .lapped, boexp := 0 }))
      (e.state.advance ctrl e.lanes)
    .next (s1.updGroup s.curG (fun g => { g with orbit := { g.orbit with qact := true, qcnt := 0 } }))

/-- SYNCG (R139): with .group each arrival is a release at group scope; the last live thread completes the barrier. -/
def execSyncg (f : FWord) (s : State) : Answer :=
  let e := s.enter f.guard ctrl []
  let d := if f.sc = 1 then e.state.drainAll e.lanes 1 else (e.state, e.lanes)
  let s1 := d.2.foldl (fun acc k => acc.updThread k (fun t =>
    { t with st := .atSync, boexp := 0, clause := none, waitBar := f.sc.toNat })) d.1
  .next (if d.2.isEmpty then s1 else s1.syncComplete s.curG)

/-- TRAP (R140): the fault SVC, with the 18-bit code in aux. -/
def execTrap (f : OffWord) (s : State) : Answer :=
  let e := s.enter f.guard ctrl []
  .next (e.lanes.foldl (fun acc k => acc.raisePc k .svc (f.off.setWidth 32)) e.state)

/-- BKPT (R140): the fault DEBUG. -/
def execBkpt (f : FWord) (s : State) : Answer :=
  let e := s.enter f.guard ctrl []
  .next (e.lanes.foldl (fun acc k => acc.raisePc k .debug) e.state)

/-- NOP (R140): no effect; it ends a clause. -/
def execNop (f : FWord) (s : State) : Answer :=
  let e := s.enter f.guard ctrl []
  .next (e.state.advance ctrl e.lanes)

/-! ### Events of the Orrery -/

/-- QUANTUM_END (R128). -/
def execQuantumEnd (g : Nat) (s : State) : Answer :=
  .next (if (s.group? g).isSome ∧ s.isHalting (s.group g).owner = false then s.endQuantum g else s)

/-- BACKOFF_EXPIRE (R137): a thread whose delay has run out becomes ready; those of a halted owner keep their states (R125). -/
def execBackoffExpire (k : Nat) (s : State) : Answer :=
  .next (if (s.thread k).st = .backoff ∧ (s.thread k).bodly = 0 ∧ s.isHalting (s.group (k / 32)).owner = false then s.updThread k (fun t => { t with st := .ready }) else s)

end Sys2Proof.Machine
end

