-- ==== Sys2Proof/Machine/Clause.lean ====
section
/-! DEFINITION. Clause headers (R41, R42, R46) and P-form words (R36..R40). -/

namespace Sys2Proof.Machine

/-- A thread at a clause header: it enters the clause where its masked flags are clear, and waits otherwise (R42). -/
def Thread.enterClause (h : HWord) (t : Thread) : Thread :=
  if t.flags &&& h.wait = 0 then
    { t with pc := t.pc + 8, clause := some { left := h.len.toNat, seta := h.seta, setb := h.setb } }
  else { t with st := .waitFlags, header := some h }

/-- CLAUSE (R42, R46, R52): a header is active for every thread of the run; inside a clause body it is illegal. -/
def execClause (h : HWord) (s : State) : Answer :=
  let bad (k : Nat) : Bool := badHeader h || (s.thread k).clause.isSome
  let s1 := (s.curKeys.filter bad).foldl (fun acc k => acc.raisePc k .illop) s
  .next ((s.curKeys.filter (fun k => !bad k)).foldl (fun acc k => acc.updThread k (Thread.enterClause h)) s1)

/-! ### Pairs -/

/-- The guard of a half: a predicate, not negated (R36). -/
def halfGuard (h : Half) : Guard := { pn := false, pq := h.pq }

/-- The third source of a half's F-form: the uniform register of FFMA and HFMA (R38). -/
def halfThird (h : Half) : Opd :=
  match halfKind h.op with
  | .fused => .s (Fin.ofNat 32 h.m6.toNat)
  | .none => .zero | .reg => .zero | .imm => .zero | .shift => .zero | .select => .zero

/-- The value of a half: the F-form effect of the same name on D, A, its third source and m6 (R38); `q` is SEL's predicate. -/
def halfVal (h : Half) (d a u : BitVec 64) (q : Bool) : BitVec 64 :=
  let t := h.pty
  let i := immLanes t (h.m6.signExtend 64)
  let n := h.m6.toNat
  match h.op with
  | .nop => 0
  | .iadd => aluAdd t d a
  | .isub => aluSub t d a
  | .irsb => aluSub t a d
  | .iaddi => aluAdd t d i
  | .imin => aluMin t d a
  | .imax => aluMax t d a
  | .iabs => aluAbs t a
  | .and => d &&& a
  | .andi => d &&& i
  | .or => d ||| a
  | .ori => d ||| i
  | .xor => d ^^^ a
  | .xori => d ^^^ i
  | .not => aluNot t a
  | .brev => aluBrev t a
  | .shl => aluShl t d a.toNat
  | .shli => aluShl t d n
  | .shr => aluShr t d a.toNat
  | .shri => aluShr t d n
  | .popc => aluPopc t a
  | .clz => aluClz t a
  | .imul => aluMul t d a
  | .mov => a
  | .movi => i
  | .sel => if q then a else d
  | .imuli => aluMul t d i
  | .iadds => aluAddS t d a
  | .isubs => aluSubS t d a
  | .irsbi => aluSub t i d
  | .movu => a
  | .fadd => fpAdd t .rn d a
  | .fsub => fpSub t .rn d a
  | .fmul => fpMul t .rn d a
  | .ffma => fpFma t .rn a u d
  | .fmin => fpMin t d a
  | .fmax => fpMax t d a
  | .fabs => fpAbs t a
  | .fneg => fpNeg t a
  | .hadd => fpAdd t .rn d a
  | .hsub => fpSub t .rn d a
  | .hmul => fpMul t .rn d a
  | .hfma => fpFma t .rn a u d
  | .hmin => fpMin t d a
  | .hmax => fpMax t d a
  | .habs => fpAbs t a
  | .hneg => fpNeg t a

/-- The value of a half for one thread. -/
def State.halfResult (s : State) (h : Half) (k : Nat) : BitVec 64 :=
  halfVal h (s.rd k (halfOpd h.d) false) (s.rd k (halfOpd h.a) false) (s.rd k (halfThird h) false)
    ((s.thread k).pred (h.m6.toNat % 8))

/-- The uses of a half's D and A. -/
def halfUses (h : Half) : List Use :=
  match h.op with
  | .nop => []
  | _ => { opd := halfOpd h.d, dst := true } :: (if usesA h then [{ opd := halfOpd h.a }] else [])

/-- The last use of a half's A, for the threads active in it. -/
def State.freeHalf (s : State) (h : Half) (ks : List Nat) : State :=
  ks.foldl (fun acc k => acc.freeOpd k (halfOpd h.a) 1 h.lu) s

/-- A half's result written for the threads active in it. -/
def State.writeHalf (s : State) (h : Half) (ks : List Nat) (val : Nat → BitVec 64) : State :=
  match h.op with
  | .nop => s
  | _ => s.writeAll (halfOpd h.d) false ks val

/-- PAIR (R40, R52): both halves read before either writes, each under its own predicate. -/
def execPair (h1 h0 : Half) (s : State) : Answer :=
  let e := s.enterIf (fun k => s.active (halfGuard h1) k || s.active (halfGuard h0) k) {} (halfUses h1 ++ halfUses h0) .any
  let k1 := e.lanes.filter (s.active (halfGuard h1))
  let k0 := e.lanes.filter (s.active (halfGuard h0))
  let s1 := (e.state.freeHalf h1 k1).freeHalf h0 k0
  .next (((s1.writeHalf h1 k1 (e.state.halfResult h1)).writeHalf h0 k0 (e.state.halfResult h0)).advance {} e.lanes)

end Sys2Proof.Machine
end

