-- ==== Sys2Proof/Machine/Dot.lean ====
section
/-! DEFINITION. The block-dot instructions (R115). -/

namespace Sys2Proof.Machine

/-- The values of n FP4 elements packed under R64, from element `first` on. -/
def fp4Elements (x : BitVec 64) (first n : Nat) : List Val :=
  (List.range n).map (fun i => Fmt.e2m1.decode (laneOf 4 x (first + i)))

/-- One DB4 block of BDOT sub 0: the accumulator and the count of omitted blocks (R115). -/
def db4Block (skip : Bool) (a b : BitVec 64) (sa sb first : Nat) (acc : Val × Nat) : Val × Nat :=
  let x := Fmt.e5m2.decode sa
  let y := Fmt.e5m2.decode sb
  if skip && (x.nonFinite || y.nonFinite) then (acc.1, acc.2 + 1)
  else (addChunk acc.1 (products (fp4Elements a first 8) (fp4Elements b first 8)) (mulVal x y), acc.2)

/-- BDOT sub 0: the result code and the blocks omitted. -/
def bdotDb4Val (skip : Bool) (a b c : BitVec 64) : Nat × Nat :=
  let byte (k : Nat) : Nat := laneOf 8 c (4 + k)
  let r := db4Block skip a b (byte 2) (byte 3) 8
    (db4Block skip a b (byte 0) (byte 1) 0 (Fmt.fp32.decode (laneOf 32 c 0), 0))
  (fp32Code r.1, r.2)

/-- BDOT sub 1: the result code and the blocks omitted, a second chunk marked `hi` counting none. -/
def bdotMxVal (skip hi : Bool) (a b c : BitVec 64) : Nat × Nat :=
  let ea := laneOf 8 c 4
  let eb := laneOf 8 c 5
  if skip && (ea == 0xFF || eb == 0xFF) then (laneOf 32 c 0, if hi then 0 else 1)
  else
    (fp32Code (addChunk (Fmt.fp32.decode (laneOf 32 c 0)) (products (fp4Elements a 0 16) (fp4Elements b 0 16))
      (mulVal (decodeE8M0 ea) (decodeE8M0 eb))), 0)

/-- BDOT sub 2: two BF16 tensor scales applied with one rounding. -/
def bdotTscVal (a b : BitVec 64) : Nat :=
  round (mulVal (Fmt.fp32.decode (laneOf 32 a 0)) (mulVal (Fmt.bf16.decode (laneOf 16 b 0)) (Fmt.bf16.decode (laneOf 16 b 1))))
    .fp32 .rn

/-- A BDOT word whose value comes with a count that is added to SKIPBLK for each active thread (R115, R121, R334). -/
def State.computeDot (s : State) (f : FWord) (val : BitVec 64 → BitVec 64 → BitVec 64 → Nat × Nat) : State :=
  let v (st : State) (k : Nat) : Nat × Nat := val (st.rd k f.a true) (st.rd k f.b true) (st.rd k f.c true)
  let e := s.enter f.guard {} (fUses f false true true true)
  let skipped := e.lanes.foldl (fun acc k => acc + (v e.state k).2) 0
  let out := s.compute f false true true true (fun st k => BitVec.ofNat 64 (v st k).1)
  out.updGroup s.curG (fun g => { g with skipblk := satInc32 g.skipblk skipped })

/-- BDOT.db4 (R115). -/
def execBdotDb4 (f : FWord) (s : State) : Answer := .next (s.computeDot f (bdotDb4Val (f.mod.getLsbD 0)))

/-- BDOT.mxfp4 (R115). -/
def execBdotMxfp4 (f : FWord) (s : State) : Answer :=
  .next (s.computeDot f (bdotMxVal (f.mod.getLsbD 0) (f.mod.getLsbD 1)))

/-- BDOT.tsc (R115). -/
def execBdotTsc (f : FWord) (s : State) : Answer :=
  .next (s.compute f false false false false (fun s k =>
    BitVec.ofNat 64 (bdotTscVal (s.rd k f.a false) (s.rd k f.b false))))

end Sys2Proof.Machine
end

