-- ==== Sys2Proof/Machine/Exchange.lean ====
section
/-! DEFINITION. Exchange between the threads of a run, and XPIPE (R116..R121). -/

namespace Sys2Proof.Machine

/-- The source thread of a shuffle for reader t (R117): mode 0 idx, 1 up, 2 down, 3 bfly within segments of W. -/
def shuffleSource (mode W t n : Nat) : Option Nat :=
  let base := t - t % W
  match mode with
  | 0 => if n < W then some (base + n) else none
  | 1 => if n ≤ t ∧ base ≤ t - n then some (t - n) else none
  | 2 => if t + n < base + W then some (t + n) else none
  | _ => if n < W then some (t ^^^ n) else none

/-- A shuffle within segments of W threads (R117). -/
def State.shuffle (s : State) (f : FWord) (W : Nat) : State :=
  let w := wide f.ty
  s.computeRun f w w false w (fun s ks k =>
    match shuffleSource (f.sub.toNat % 4) W (k % 32) (s.rdNat k f.b) with
    | some u => if ks.contains (tkey (k / 32) u) then s.rd (tkey (k / 32) u) f.a w else s.rd k f.c w
    | none => s.rd k f.c w)

/-- SHFL (R117): a shuffle with W = 32. -/
def execShfl (f : FWord) (s : State) : Answer := .next (s.shuffle f 32)

/-- SHFLX (R117): a shuffle with W in mod. -/
def execShflx (f : FWord) (s : State) : Answer := .next (s.shuffle f (2 ^ f.mod.toNat))

/-- BCAST (R117): every thread takes a of thread b[4:0]. -/
def execBcast (f : FWord) (s : State) : Answer :=
  let w := wide f.ty
  .next (s.computeRun f w w false w (fun s ks k =>
    let u := tkey (k / 32) (s.rdNat k f.b % 32)
    if ks.contains u then s.rd u f.a w else s.rd k f.c w))

/-- The fields of a pattern entry (R154): valid, source thread and four byte selectors. -/
def patValid (e : Word) : Bool := e.getLsbD 31
/-- The source thread of a pattern entry. -/
def patSource (e : Word) : Nat := (e.extractLsb' 16 5).toNat
/-- The byte selectors of a pattern entry. -/
def patSels (e : Word) : Nat := e.toNat % 2 ^ 16

/-- The tag and the entries of a pattern table as a group finds entry n: while another group's PATLD rewrites the table, each entry is
found before or after it (R118) (log 52, DESIGN CHOICE). -/
def State.patFor (s : State) (g p n : Nat) : Option Nat × Tab Word :=
  let pat := Tab.getD (s.core (g / 512)).pats {} p
  (oldEntry pat.before s.now (s.group g).uid n).getD (pat.tag, pat.entries)

/-- XBAR (R118). -/
def execXbar (f : FWord) (s : State) : Answer :=
  .next (s.computeRun f false false false false (fun s ks k =>
    let pat := s.patFor (k / 32) (f.sub.toNat % 16) (k % 32)
    let e := if pat.1 = some (s.group (k / 32)).owner then Tab.getD pat.2 0 (k % 32) else 0
    let u := tkey (k / 32) (patSource e)
    if patValid e && ks.contains u then
      BitVec.ofNat 64 (permBytes (s.rd u f.a false).toNat (s.rd u f.b false).toNat (patSels e))
    else s.rd k f.c false))

/-- The operation of a scan or reduction step (R119): 0 add, 1 min, 2 max, 3 and, 4 or, 5 xor. -/
def scanOp (op : Nat) (t : Ty) (rm : Rm) (x y : BitVec 64) : BitVec 64 :=
  match op with
  | 0 => if t = .f32 then fpAdd t rm x y else aluAdd t x y
  | 1 => if t = .f32 then fpMin t x y else aluMin t x y
  | 2 => if t = .f32 then fpMax t x y else aluMax t x y
  | 3 => x &&& y
  | 4 => x ||| y
  | _ => x ^^^ y

/-- The identity of an exclusive scan (R119). -/
def scanId (op : Nat) (t : Ty) : BitVec 64 :=
  match op, t with
  | 0, _ => 0
  | 1, .f32 => 0x7F800000
  | 1, .s32 => 0x7FFFFFFF
  | 1, _ => 0xFFFFFFFF
  | 2, .f32 => 0xFF800000
  | 2, .s32 => 0x80000000
  | 2, _ => 0
  | 3, _ => 0xFFFFFFFF
  | _, _ => 0

/-- The results of a scan over the run in ascending thread index (R119): for each thread its key and result. -/
def scanFrom (op : Nat) (t : Ty) (rm : Rm) (excl : Bool) (val : Nat → BitVec 64) (head : Nat → Bool) :
    Option (BitVec 64) → List Nat → List (Nat × BitVec 64)
  | _, [] => []
  | acc, k :: ks =>
    let acc := if head k then none else acc
    let next := match acc with
      | none => val k
      | some x => scanOp op t rm x (val k)
    (k, if excl then acc.getD (scanId op t) else next) :: scanFrom op t rm excl val head (some next) ks

/-- A scan, segmented where `seg` holds (R119). -/
def State.scan (s : State) (f : FWord) (seg : Bool) : State :=
  s.computeRun f false false false false (fun s ks k =>
    let r := scanFrom f.sub.toNat f.ty (rmOf f) (f.mod.getLsbD 0) (fun j => s.rd j f.a false)
      (fun j => seg && s.rdPred j f.c) none ks
    ((r.find? (fun e => e.1 == k)).map (·.2)).getD 0)

/-- SCAN (R119). -/
def execScan (f : FWord) (s : State) : Answer := .next (s.scan f false)

/-- SCANSEG (R119): c marks the head of a segment. -/
def execScanseg (f : FWord) (s : State) : Answer := .next (s.scan f true)

/-- The reduction of a run's values in ascending thread index (R119). -/
def State.reduceAll (s : State) (f : FWord) : State :=
  s.computeRun f false false false false (fun s ks _ =>
    ((scanFrom f.sub.toNat f.ty (rmOf f) false (fun j => s.rd j f.a false) (fun _ => false) none ks).getLast?.map (·.2)).getD 0)

/-- REDUCE (R119): every thread of the run receives the result. -/
def execReduce (f : FWord) (s : State) : Answer := .next (s.reduceAll f)

/-- REDUCEU (R119): a uniform register receives it, written once. -/
def execReduceu (f : FWord) (s : State) : Answer := .next (s.reduceAll f)

/-- XPIPE (R120): a long-latency read of a register that a names in the window of a thread of the same team. A last-use bit on a frees
the row of that number in the reader's own window, never one of another thread (log 60, DESIGN CHOICE). -/
def execXpipe (f : FWord) (s : State) : Answer :=
  let w := wide f.ty
  let e := s.enterLong f.guard (fUses f w w false false)
  let reg := match f.a with | .w i => i.val | _ => 0
  let issue (acc : State) (k : Nat) : State :=
    let b := e.state.rdNat k f.b
    let own := b / 32 % 32 = (e.state.group (k / 32)).gidx ∧ b % 32 = k % 32 ∧ b / 1024 = 0
    let kind : OpKind :=
      if b / 1024 ≠ 0 then .value 0 (regs w)
      else if own then .value (e.state.rd k f.a w) (regs w)
      else .xpipe (b / 32 % 32) (b % 32) reg (regs w)
    acc.startOp k [k] (acc.destOf k f.d) kind id
  let issued := e.lanes.foldl issue e.state
  .next ((e.lanes.foldl (fun acc k => acc.freeLu k f (regs w) 1 1) issued).advance { long := true } e.lanes)

end Sys2Proof.Machine
end

