-- ==== Sys2Proof/Machine/Integer.lean ====
section
/-! DEFINITION. The integer and address instructions (R97, R98). -/

namespace Sys2Proof.Machine

/-- IADD (R98): a + b. -/
def execIadd (f : FWord) (s : State) : Answer :=
  .next (s.compute2 f (aluAdd f.ty))

/-- IADDI (R98): a + imm. -/
def execIaddi (f : IWord) (s : State) : Answer :=
  .next (s.compute1I f (fun a i => aluAdd f.ty a (immLanes f.ty i)))

/-- ISUB (R98): a − b. -/
def execIsub (f : FWord) (s : State) : Answer :=
  .next (s.compute2 f (aluSub f.ty))

/-- IRSBI (R98): imm − a. -/
def execIrsbi (f : IWord) (s : State) : Answer :=
  .next (s.compute1I f (fun a i => aluSub f.ty (immLanes f.ty i) a))

/-- IMUL (R98): a × b. -/
def execImul (f : FWord) (s : State) : Answer :=
  .next (s.compute2 f (aluMul f.ty))

/-- IMULI (R98): a × imm. -/
def execImuli (f : IWord) (s : State) : Answer :=
  .next (s.compute1I f (fun a i => aluMul f.ty a (immLanes f.ty i)))

/-- IMULHI (R98): ⌊a × b / 2^w⌋. -/
def execImulhi (f : FWord) (s : State) : Answer :=
  .next (s.compute2 f (aluMulHi f.ty))

/-- IMAD (R98): a × b + c. -/
def execImad (f : FWord) (s : State) : Answer :=
  .next (s.compute3 f (aluMad f.ty))

/-- IMADW (R98): d and c are 64-bit, a and b 32-bit, extended by type. -/
def execImadw (f : FWord) (s : State) : Answer :=
  .next (s.compute f true false false true (fun s k =>
    aluMadW f.ty (s.rd k f.a false) (s.rd k f.b false) (s.rd k f.c true)))

/-- IMIN (R98). -/
def execImin (f : FWord) (s : State) : Answer :=
  .next (s.compute2 f (aluMin f.ty))

/-- IMAX (R98). -/
def execImax (f : FWord) (s : State) : Answer :=
  .next (s.compute2 f (aluMax f.ty))

/-- IABS (R98). -/
def execIabs (f : FWord) (s : State) : Answer :=
  .next (s.compute1 f (aluAbs f.ty))

/-- IADDS (R98): the saturated sum. -/
def execIadds (f : FWord) (s : State) : Answer :=
  .next (s.compute2 f (aluAddS f.ty))

/-- ISUBS (R98): the saturated difference. -/
def execIsubs (f : FWord) (s : State) : Answer :=
  .next (s.compute2 f (aluSubS f.ty))

/-- LEA (R98): d and a are 64-bit, b 32-bit, the shift in mod. -/
def execLea (f : FWord) (s : State) : Answer :=
  .next (s.compute f true true false false (fun s k =>
    aluLea f.ty (s.rd k f.a true) (s.rd k f.b false) f.mod.toNat))

/-- LEAI (R98): (a + imm) mod 2^64. -/
def execLeai (f : IWord) (s : State) : Answer :=
  .next (s.compute1I f aluLeaI)

end Sys2Proof.Machine
end

