-- ==== Sys2Proof/Machine/Logic.lean ====
section
/-! DEFINITION. The logic, shift, bit, compare, select and move instructions, and votes over a run (R99..R102). -/

namespace Sys2Proof.Machine

/-- Σ 2^i over the threads of a set that satisfy a test, i being the thread's index in its group (R102). -/
def maskOf (ks : List Nat) (p : Nat → Bool) : BitVec 64 :=
  BitVec.ofNat 64 (ks.foldl (fun acc k => acc + if p k then 2 ^ (k % 32) else 0) 0)

/-- AND (R99): bitwise. -/
def execAnd (f : FWord) (s : State) : Answer :=
  .next (s.compute2 f (fun a b => a &&& b))

/-- ANDI (R99): bitwise with the sign-extended immediate. -/
def execAndi (f : IWord) (s : State) : Answer :=
  .next (s.compute1I f (fun a i => a &&& trunc f.ty i))

/-- OR (R99): bitwise. -/
def execOr (f : FWord) (s : State) : Answer :=
  .next (s.compute2 f (fun a b => a ||| b))

/-- ORI (R99): bitwise with the sign-extended immediate. -/
def execOri (f : IWord) (s : State) : Answer :=
  .next (s.compute1I f (fun a i => a ||| trunc f.ty i))

/-- XOR (R99): bitwise. -/
def execXor (f : FWord) (s : State) : Answer :=
  .next (s.compute2 f (fun a b => a ^^^ b))

/-- XORI (R99): bitwise with the sign-extended immediate. -/
def execXori (f : IWord) (s : State) : Answer :=
  .next (s.compute1I f (fun a i => a ^^^ trunc f.ty i))

/-- NOT (R99). -/
def execNot (f : FWord) (s : State) : Answer :=
  .next (s.compute1 f (aluNot f.ty))

/-- SHL (R99): b is 32-bit. -/
def execShl (f : FWord) (s : State) : Answer :=
  .next (s.compute f (wide f.ty) (wide f.ty) false false (fun s k =>
    aluShl f.ty (s.rd k f.a (wide f.ty)) (s.rdNat k f.b)))

/-- SHLI (R99); the decoder admits amounts below the width only. -/
def execShli (f : IWord) (s : State) : Answer :=
  .next (s.compute1I f (fun a i => aluShl f.ty a (trunc f.ty i).toNat))

/-- SHR (R99): arithmetic for signed types. -/
def execShr (f : FWord) (s : State) : Answer :=
  .next (s.compute f (wide f.ty) (wide f.ty) false false (fun s k =>
    aluShr f.ty (s.rd k f.a (wide f.ty)) (s.rdNat k f.b)))

/-- SHRI (R99). -/
def execShri (f : IWord) (s : State) : Answer :=
  .next (s.compute1I f (fun a i => aluShr f.ty a (trunc f.ty i).toNat))

/-- DSH (R99): sub 0 towards bit 0, 1 towards bit 63. -/
def execDsh (f : FWord) (s : State) : Answer :=
  .next (s.compute3 f (aluDsh (f.sub == 1)))

/-- BFE (R99): b is 32-bit. -/
def execBfe (f : FWord) (s : State) : Answer :=
  .next (s.compute f (wide f.ty) (wide f.ty) false false (fun s k =>
    aluBfe f.ty (s.rd k f.a (wide f.ty)) (s.rd k f.b false)))

/-- BFI (R99): b is 32-bit. -/
def execBfi (f : FWord) (s : State) : Answer :=
  .next (s.compute f (wide f.ty) (wide f.ty) false (wide f.ty) (fun s k =>
    aluBfi f.ty (s.rd k f.a (wide f.ty)) (s.rd k f.b false) (s.rd k f.c (wide f.ty))))

/-- POPC (R99): d is 32-bit. -/
def execPopc (f : FWord) (s : State) : Answer :=
  .next (s.compute f false (wide f.ty) false false (fun s k => aluPopc f.ty (s.rd k f.a (wide f.ty))))

/-- CLZ (R99): d is 32-bit. -/
def execClz (f : FWord) (s : State) : Answer :=
  .next (s.compute f false (wide f.ty) false false (fun s k => aluClz f.ty (s.rd k f.a (wide f.ty))))

/-- PRMT (R99). -/
def execPrmt (f : FWord) (s : State) : Answer :=
  .next (s.compute3 f aluPrmt)

/-- BREV (R99). -/
def execBrev (f : FWord) (s : State) : Answer :=
  .next (s.compute1 f (aluBrev f.ty))

/-- ICMP (R100): a truth value, 1 or 0 in a register. -/
def execIcmp (f : FWord) (s : State) : Answer :=
  .next (s.compute f false (wide f.ty) (wide f.ty) false (fun s k => boolVal
    (icmpVal f.ty f.sub.toNat f.mod (s.rd k f.a (wide f.ty)) (s.rd k f.b (wide f.ty)) (s.rdPred k f.c))))

/-- ICMPI (R100). -/
def execIcmpi (f : IWord) (s : State) : Answer :=
  .next (s.computeImm f false (wide f.ty) (fun s k => boolVal
    (cmpInt f.sub.toNat (asInt (tySigned f.ty) (tyBits f.ty) (s.rd k f.a (wide f.ty)).toNat)
      (asInt (tySigned f.ty) (tyBits f.ty) (immValue f).toNat))))

/-- FCMP (R100). -/
def execFcmp (f : FWord) (s : State) : Answer :=
  .next (s.compute f false false false false (fun s k => boolVal
    (fcmpVal f.sub.toNat f.mod (s.rd k f.a false) (s.rd k f.b false) (s.rdPred k f.c))))

/-- PLOG (R100). -/
def execPlog (f : FWord) (s : State) : Answer :=
  .next (s.compute f false false false false (fun s k => boolVal
    (plogVal f.sub f.mod (s.rdPred k f.a) (s.rdPred k f.b) (s.rdPred k f.c))))

/-- SEL (R101): c is a predicate. -/
def execSel (f : FWord) (s : State) : Answer :=
  .next (s.compute f (wide f.ty) (wide f.ty) (wide f.ty) false (fun s k =>
    if s.rdPred k f.c then s.rd k f.a (wide f.ty) else s.rd k f.b (wide f.ty)))

/-- SELI (R101): sub names the predicate and its negation. -/
def execSeli (f : IWord) (s : State) : Answer :=
  .next (s.computeImm f (wide f.ty) (wide f.ty) (fun s k =>
    if (s.thread k).pred (f.sub.toNat % 8) != f.sub.getLsbD 3 then s.rd k f.a (wide f.ty)
    else trunc f.ty (immValue f)))

/-- MOV (R101). -/
def execMov (f : FWord) (s : State) : Answer :=
  .next (s.compute1 f id)

/-- MOVI (R101). -/
def execMovi (f : IWord) (s : State) : Answer :=
  .next (s.computeImm f (wide f.ty) false (fun _ _ => trunc f.ty (immValue f)))

/-- MOVU (R101): a uniform destination takes the value of the lowest-numbered active thread (R92). -/
def execMovu (f : FWord) (s : State) : Answer :=
  .next (s.compute1 f id)

/-- VOTE (R102). -/
def execVote (f : FWord) (s : State) : Answer :=
  .next (s.computeRun f false false false false (fun s ks _ => boolVal (voteVal f.sub.toNat (ks.map (fun k => s.rdPred k f.a)))))

/-- BALLOT (R102). -/
def execBallot (f : FWord) (s : State) : Answer :=
  .next (s.computeRun f false false false false (fun s ks _ => maskOf ks (fun k => s.rdPred k f.a)))

/-- MATCH (R102): sub 0 any, 1 all. -/
def execMatchT (f : FWord) (s : State) : Answer :=
  .next (s.computeRun f false (wide f.ty) false false (fun s ks k =>
    let v := fun j => s.rd j f.a (wide f.ty)
    if f.sub = 0 then maskOf ks (fun j => v j == v k)
    else if ks.all (fun j => v j == v k) then maskOf ks (fun _ => true) else 0))

end Sys2Proof.Machine
end

