-- ==== Sys2Proof/Machine/TableOps.lean ====
section
/-! DEFINITION. The table instructions (R144..R158): tiles, permutation table memory, patterns, codebooks, bank modes. -/

namespace Sys2Proof.Machine

/-! ### Words that act once for a run (R92, R144) -/

/-- A run's accesses that come before a table access of it performed as far as they may be: those that its acquires and fences order
first, and its own accesses to scratch, which the word sees (R145). -/
def State.drainScratch (s : State) (ks : List Nat) : State :=
  ks.foldl (fun acc k =>
    ((acc.threadOps k).filter (fun o => o.isMem && o.space != .g)).foldl (fun a o => a.push o.id 7) (acc.drainOrdered k)) s

/-- Whether a run's table access may take place at once, none of its scratch accesses being pending. -/
def State.scratchQuiet (s : State) (ks : List Nat) : Bool :=
  ks.all (fun k => s.accessFree k && (s.threadOps k).all (fun o => !o.isMem || o.space == .g))

/-- What must be done before a word acts: nothing, what orders a table access (R145), the run's scratch accesses too, or a release at
a scope. -/
inductive Prior
  | nothing | table | scratch | release (scope : Nat)
deriving DecidableEq, Repr

/-- What must be done before a word of a run acts, done as far as it may be. -/
def State.prepare (s : State) (ks : List Nat) (b : Prior) : State :=
  match b with
  | .nothing => s
  | .table => ks.foldl State.drainOrdered s
  | .scratch => s.drainScratch ks
  | .release scope => (s.drainAll ks scope).1

/-- Whether a word of a run may act. -/
def State.prepared (s : State) (ks : List Nat) (b : Prior) : Bool :=
  match b with
  | .nothing => true
  | .table => ks.all s.accessFree
  | .scratch => s.scratchQuiet ks
  | .release scope => ks.all (fun k => s.released k scope)

/-- A word that acts once for the issuing run, from its lowest-numbered active thread: a fault is raised for every active
thread, and the one result goes to d. Where the run's earlier accesses are not done, the run stays at the word. -/
def State.onceWord (s : State) (f : FWord) (uses : List Use) (dr : DepthRule) (b : Prior) (dw : Bool)
    (act : State → Nat → Except FaultInfo (State × BitVec 64)) : State :=
  let e := s.enter f.guard {} uses dr
  match e.lanes with
  | [] => e.state
  | k :: _ =>
    let s1 := e.state.prepare e.lanes b
    if !s1.prepared e.lanes b then s1
    else
      match act s1 k with
      | .error fi => s1.raiseAll e.lanes fi
      | .ok r => (r.1.writeAll f.d dw e.lanes (fun _ => r.2)).advance {} e.lanes

/-- A table word that reads a value for each active thread, or once for a uniform d (R144): it is an access of the run, and waits for
what its acquires and fences order first (R145). -/
def State.readTable (s : State) (f : FWord) (dw : Bool) (val : State → Nat → BitVec 64) : State :=
  let e := s.enter f.guard {} (fUses f dw false false false)
  let s1 := e.state.prepare e.lanes .table
  if !s1.prepared e.lanes .table then s1
  else
    let freed := e.lanes.foldl (fun acc k => acc.freeLu k f 1 1 1) s1
    (freed.writeAll f.d dw e.lanes (val s1)).advance {} e.lanes

/-- Threads made ready because what their words waited for may have become free (R125); those of a halted owner keep their states. -/
def State.wake (s : State) (p : WaitFor → Bool) : State :=
  { s with threads := s.threads.map (fun e =>
      match e.2.waitFor with
      | some w => if e.2.st = .waitOp && p w && !s.isHalting (s.group (e.1 / 32)).owner then (e.1, { e.2 with st := .ready, waitFor := none }) else e
      | none => e) }

/-- Threads that wait at the word, which has had no effect for them (R125). -/
def State.waitAt (s : State) (ks : List Nat) (w : WaitFor) : State :=
  ks.foldl (fun acc k => acc.updThread k (fun t => { t with st := .waitOp, waitFor := some w })) s

/-- The team of a group, with its key. -/
def State.teamOf (s : State) (g : Nat) : Option (Nat × Team) := (s.group g).team.bind (fun k => (s.team? k).map (fun t => (k, t)))

/-- A checked read of a team's scratch, poison counted once for each word (R144, R203). -/
def State.scratchBytes (s : State) (k off n : Nat) : Except FaultInfo (State × List Byte) :=
  match s.teamOf (k / 32) with
  | none => .error (s.pcFault k .bounds)
  | some (_, t) =>
    if t.scratchSize < off + n then .error (s.pcFault k .bounds)
    else
      let g := t.scratchRead off n
      .ok (s.countPoison t.owner g.poison.length, g.clean off)

/-! ### Tiles (R146..R150) -/

/-- Rows of a scale block by format (R146). -/
def scaleBlock (fmt : Nat) : Nat := if fmt = 0xD then 8 else if fmt = 7 then 128 else 32

/-- The number of columns of scales for a tile's rows. -/
def scaleBytes (fmt rows : Nat) : Nat := 64 * ((rows + scaleBlock fmt - 1) / scaleBlock fmt)

/-- The code of a tile state (R146). -/
def TileSt.code : TileSt → Nat
  | .empty => 0 | .filling => 1 | .ready => 2 | .draining => 3

/-- The team slot that a descriptor's team field names. -/
def teamSlot (key : Nat) : Nat := key % 32

/-- The descriptor of an index that belongs to a team (R144). -/
def State.tileOf (s : State) (key idx : Nat) : Option Tile :=
  match Tab.find (s.core (key / 32)).tiles idx with
  | some t => if idx < 256 && t.v && t.team == teamSlot key then some t else none
  | none => none

/-- A descriptor written. -/
def State.setTile (s : State) (core idx : Nat) (t : Tile) : State :=
  s.updCore core (fun c => { c with tiles := Tab.put c.tiles idx t })

/-- A descriptor written in a new state or with new fields: what the sequencer has read before counts no longer for it (R149, R252). -/
def State.turnTile (s : State) (core idx : Nat) (t : Tile) : State :=
  { s with nextId := s.nextId + 1 }.setTile core idx { t with gen := s.nextId }

/-- A descriptor cleared to its reset value. -/
def State.clearTile (s : State) (core idx : Nat) : State := s.updCore core (fun c => { c with tiles := Tab.del c.tiles idx })

/-- The threads that wait on a tile wake when its hold is 0 (R148). -/
def State.wakeTile (s : State) (core idx : Nat) : State :=
  if (Tab.getD (s.core core).tiles {} idx).hold = 0 then s.wake (fun w => w == .tile core idx) else s

/-- The geometry and scale word of TILEDEF as a descriptor of a team (R147). -/
def tileOfWords (team : Nat) (b : DWord) (c : Word) : Tile :=
  { v := true, team, fmt := (b.extractLsb' 50 4).toNat, rows := (b.extractLsb' 42 8).toNat
    rowb := (b.extractLsb' 36 6).toNat, pitch := (b.extractLsb' 28 8).toNat, base := (b.extractLsb' 14 14).toNat
    extent := (b.extractLsb' 0 14).toNat, sve := c.getLsbD 16, svp := (c.extractLsb' 0 16).toNat }

/-- The checks of R147 that raise ILLOPD. -/
def tileShapeOk (b : DWord) (c : Word) (t : Tile) : Bool :=
  let need := (9 ≤ t.fmt && t.fmt ≤ 0xD) || (t.fmt == 7 && t.sve)
  b >>> 54 == 0 && c >>> 17 == 0 && t.pitch != 0 && t.extent != 0 && t.rowb + 1 ≤ 16 * t.pitch &&
    (t.rows + 1) * 16 * t.pitch ≤ 64 * t.extent && t.sve == need

/-- The checks of R147 that raise BOUNDS. -/
def tileInside (size : Nat) (t : Tile) : Bool :=
  64 * (t.base + t.extent) ≤ size && (!t.sve || 16 * t.svp + scaleBytes t.fmt (t.rows + 1) ≤ size)

/-- TILEDEF (R147). -/
def execTiledef (f : FWord) (s : State) : Answer :=
  .next (s.onceWord f (fUses f false false true false) .any .table false (fun st k =>
    let b := st.rd k f.b true
    let c : Word := (st.rd k f.c false).setWidth 32
    let key := ((st.teamOf (k / 32)).map (·.1)).getD 0
    let size := ((st.teamOf (k / 32)).map (·.2.scratchSize)).getD 0
    let t := tileOfWords (teamSlot key) b c
    if !tileShapeOk b c t then .error (st.pcFault k .illopd)
    else if !tileInside size t then .error (st.pcFault k .bounds)
    else
      let core := k / 32 / 512
      match (List.range 256).find? (fun i => !(Tab.getD (st.core core).tiles {} i).v) with
      | none => .ok (st, 0xFFFFFFFF)
      | some i => .ok (st.turnTile core i t, BitVec.ofNat 64 i)))

/-- TILEFREE (R150). -/
def execTilefree (f : FWord) (s : State) : Answer :=
  .next (s.onceWord f (fUses f false false false false) .any .table false (fun st k =>
    let i := st.rdNat k f.a
    match (st.teamOf (k / 32)).bind (fun t => (st.tileOf t.1 i).map (fun x => (t.1, x))) with
    | none => .error (st.pcFault k .illopd)
    | some (key, t) =>
      if (t.st = .empty ∨ t.st = .ready) ∧ t.hold = 0 then .ok (st.clearTile (key / 32) i, 1) else .ok (st, 0)))

/-- The word that TILEST gives for a descriptor (R150). -/
def tileWord (t : Tile) : Nat := t.dtag.toNat * 2 ^ 11 + t.ftag.toNat * 2 ^ 3 + 4 + t.st.code

/-- TILEST (R150): a window d acts for each active thread, a uniform d once. -/
def execTilest (f : FWord) (s : State) : Answer :=
  .next (s.readTable f false (fun st k =>
    match (st.teamOf (k / 32)).bind (fun t => st.tileOf t.1 (st.rdNat k f.a)) with
    | some t => BitVec.ofNat 64 (tileWord t)
    | none => 0))

/-- The transitions of TILESET (R148): the states it starts from and the state it ends in. -/
inductive TileMove
  | fill | ready | drain | empty | rearm
deriving DecidableEq, Repr

/-- The descriptor after a move, where its state matches (R148). -/
def Tile.move (t : Tile) (m : TileMove) (tag : Byte) : Option Tile :=
  match m, t.st with
  | .fill, .empty => some { t with st := .filling, ftag := tag }
  | .ready, .filling => some { t with st := .ready }
  | .drain, .ready => some { t with st := .draining, dtag := tag }
  | .empty, .ready => some { t with st := .empty }
  | .empty, .draining => some { t with st := .empty }
  | .rearm, .draining => some { t with st := .ready }
  | _, _ => none

/-- A TILESET word (R148, R149): a release at team scope that acts once for the run; a move of a held ready tile waits. -/
def State.tileset (s : State) (f : FWord) (m : TileMove) : State :=
  let e := s.enter f.guard {} (fUses f false false false false)
  match e.lanes with
  | [] => e.state
  | k :: _ =>
    let idx := e.state.rdNat k f.a
    match (e.state.teamOf (k / 32)).bind (fun t => (e.state.tileOf t.1 idx).map (fun x => (t.1, x))) with
    | none => e.state.raiseAll e.lanes (e.state.pcFault k .illopd)
    | some (key, _) =>
      let s1 := (e.state.prepare e.lanes .table).prepare e.lanes (.release 2)
      if !(s1.prepared e.lanes .table && s1.prepared e.lanes (.release 2)) then s1
      else
        let t := (s1.tileOf key idx).getD {}
        let moved := t.move m (BitVec.ofNat 8 (s1.rdNat k f.b))
        if moved.isSome && t.st == .ready && t.hold != 0 then s1.waitAt e.lanes (.tile (key / 32) idx)
        else
          let s2 := match moved with
            | some t' => s1.turnTile (key / 32) idx { t' with view := e.lanes.flatMap (fun k => s1.carriedBy k s1.nextId) }
            | none => s1
          (s2.writeAll f.d false e.lanes (fun _ => boolVal moved.isSome)).advance {} e.lanes

/-- TILESET.fill (R148). -/
def execTilesetFill (f : FWord) (s : State) : Answer := .next (s.tileset f .fill)

/-- TILESET.ready (R148). -/
def execTilesetReady (f : FWord) (s : State) : Answer := .next (s.tileset f .ready)

/-- TILESET.drain (R148). -/
def execTilesetDrain (f : FWord) (s : State) : Answer := .next (s.tileset f .drain)

/-- TILESET.empty (R148). -/
def execTilesetEmpty (f : FWord) (s : State) : Answer := .next (s.tileset f .empty)

/-- TILESET.rearm (R148). -/
def execTilesetRearm (f : FWord) (s : State) : Answer := .next (s.tileset f .rearm)

/-! ### Permutation table memory (R151..R153) -/

/-- The permutation table entry of 32 codes (R151, R152). -/
def permEntry (codes : List Nat) : BitVec 256 :=
  let order := sortBy (fun p => codes.getD p 0) (List.range 32)
  let perm := (List.range 32).foldl (fun acc i => acc + order.getD i 0 * 2 ^ (5 * i)) 0
  let off := (List.range 16).foldl (fun acc j => acc + codes.countP (· ≤ j) * 2 ^ (160 + 6 * j)) 0
  BitVec.ofNat 256 (perm + off)

/-- The 4-bit codes of bytes, low half first (R64). -/
def nibbles (bs : List Byte) : List Nat := bs.flatMap (fun b => [b.toNat % 16, b.toNat / 16])

/-- Entries built from one row of 128 codes: codes 32g .. 32g + 31 of row n go to entry 512 × bank + 4n + g (R152). -/
def permRow (perm : Tab (BitVec 256)) (bank n : Nat) (codes : List Nat) : Tab (BitVec 256) :=
  (List.range 4).foldl (fun p g => Tab.put p (512 * bank + 4 * n + g) (permEntry ((codes.drop (32 * g)).take 32))) perm

/-- Permutation table memory written by a word of a group, or by a stream's word of the team (`uid`): until the writer's next word, other
readers find each entry before or after the write (R145). -/
def State.rewritePerm (s : State) (core uid : Nat) (p : Tab (BitVec 256)) : State :=
  (s.updCore core (fun c => { c with perm := p, permBefore := some (s.beforeWrite uid c.perm) })).draw

/-- Permutation table memory as a reader finds it: the group `uid`, or the sequencer of the team `uid` (R145) (log 52, DESIGN CHOICE). -/
def State.readPerm (s : State) (core uid : Nat) : Tab (BitVec 256) :=
  let c := s.core core
  if c.permBefore.isNone then c.perm
  else (List.range 2048).filterMap (fun i =>
    (Tab.find ((oldEntry c.permBefore s.now uid i).getD c.perm) i).map (fun x => (i, x)))

/-- A core's rewrites of a group or of a team's stream are over (R145, R158). -/
def Core.endRewrites (c : Core) (uid : Nat) : Core :=
  { c with pats := c.pats.map (fun e => (e.1, { e.2 with before := e.2.before.filter (fun b => b.uid != uid) }))
           cbs := c.cbs.map (fun e => (e.1, { e.2 with before := e.2.before.filter (fun b => b.uid != uid) }))
           permBefore := c.permBefore.filter (fun b => b.uid != uid)
           banksBefore := c.banksBefore.filter (fun b => b.uid != uid) }

/-- What a group or a team's stream was rewriting is rewritten: its next word issues, or it leaves the core (R145, R158). -/
def State.endRewrites (s : State) (core uid : Nat) : State := s.updCore core (fun c => c.endRewrites uid)

/-- PSRC of a bank records where its entries came from; 16 is a source other than a tile register (R243, R264). -/
def State.setPsrc (s : State) (key bank src : Nat) : State :=
  s.updTeam key (fun t => { t with matrix := t.matrix.map (fun m => { m with psrc := Tab.put m.psrc bank src }) })

/-- The team of a thread where it holds the core's matrix sequencer (R151). -/
def State.seqTeamOf (s : State) (k : Nat) : Option (Nat × Team) :=
  match s.teamOf (k / 32) with
  | some (key, t) => if t.matrix.isSome then some (key, t) else none
  | none => none

/-- PERMB in a pipe (R152): 4 × rows entries from a tile of SL4 codes. -/
def State.permbPipe (s : State) (f : FWord) : State :=
  s.onceWord f (fUses f false false false false) .any .scratch false (fun st k =>
    match st.seqTeamOf k with
    | none => .error (st.pcFault k .illopd)
    | some (key, t) =>
      match st.tileOf key (st.rdNat k f.a) with
      | none => .error (st.pcFault k .illopd)
      | some x =>
        if x.fmt ≠ 0xF ∨ x.rowb ≠ 63 ∨ 128 ≤ x.rows then .error (st.pcFault k .illopd)
        else
          let bank := f.mod.toNat % 4
          let row (n : Nat) : Got := t.scratchRead (64 * x.base + 16 * x.pitch * n) 64
          let perm := (List.range (x.rows + 1)).foldl (fun p n =>
            permRow p bank n (nibbles ((row n).clean (64 * x.base + 16 * x.pitch * n)))) (st.core (key / 32)).perm
          let bad := (List.range (x.rows + 1)).foldl (fun acc n => acc + (row n).poison.length) 0
          .ok (((st.countPoison t.owner bad).rewritePerm (key / 32) (st.group (k / 32)).uid perm).setPsrc key bank 16, 0))

/-- The range word of PERMLD and PERMST: first entry and count, where it is well formed (R153). -/
def permRange (a b : Nat) : Option (Nat × Nat) :=
  let first := b % 2 ^ 11
  let count := b / 2 ^ 12 % 2 ^ 11 + 1
  if a % 32 = 0 ∧ b / 2 ^ 11 % 2 = 0 ∧ b / 2 ^ 23 = 0 ∧ first + count ≤ 2048 then some (first, count) else none

/-- Entries from scratch bytes (R153). -/
def permFromBytes (perm : Tab (BitVec 256)) (first count : Nat) (bs : List Byte) : Tab (BitVec 256) :=
  (List.range count).foldl (fun p i => Tab.put p (first + i) (BitVec.ofNat 256 (leNat ((bs.drop (32 * i)).take 32)))) perm

/-- Scratch bytes from entries (R153). -/
def permToBytes (perm : Tab (BitVec 256)) (first count : Nat) : List Byte :=
  (List.range count).flatMap (fun i => leBytes 32 (Tab.getD perm 0 (first + i)).toNat)

/-- The banks that entries first .. first + count − 1 touch. -/
def permBanks (first count : Nat) : List Nat :=
  (List.range 4).filter (fun b => rangesMeet first count (512 * b) 512)

/-- PERMLD in a pipe (R153). -/
def State.permldPipe (s : State) (f : FWord) : State :=
  s.onceWord f (fUses f false false false false) .any .scratch false (fun st k =>
    match st.seqTeamOf k with
    | none => .error (st.pcFault k .illopd)
    | some (key, _) =>
      let a := st.rdNat k f.a
      match permRange a (st.rdNat k f.b) with
      | none => .error (st.pcFault k .illopd)
      | some (first, count) =>
        match st.scratchBytes k a (32 * count) with
        | .error fi => .error fi
        | .ok (s1, bs) =>
          let s2 := s1.rewritePerm (key / 32) (s1.group (k / 32)).uid (permFromBytes (s1.core (key / 32)).perm first count bs)
          .ok ((permBanks first count).foldl (fun acc b => acc.setPsrc key b 16) s2, 0))

/-- PERMST in a pipe (R153). -/
def State.permstPipe (s : State) (f : FWord) : State :=
  s.onceWord f (fUses f false false false false) .any .scratch false (fun st k =>
    match st.seqTeamOf k with
    | none => .error (st.pcFault k .illopd)
    | some (key, t) =>
      let a := st.rdNat k f.a
      match permRange a (st.rdNat k f.b) with
      | none => .error (st.pcFault k .illopd)
      | some (first, count) =>
        if t.scratchSize < a + 32 * count then .error (st.pcFault k .bounds)
        else .ok ((st.updTeam key (fun t =>
          t.scratchWrite a (permToBytes (st.readPerm (key / 32) (st.group (k / 32)).uid) first count))).draw, 0))

/-! ### Patterns and codebooks (R154..R156) -/

/-- PATLD (R155): bits 30:21 are stored as 0, and the table is tagged with the issuing owner. -/
def execPatld (f : FWord) (s : State) : Answer :=
  .next (s.onceWord f (fUses f false false false false) .any .scratch false (fun st k =>
    let a := st.rdNat k f.a
    if a % 4 ≠ 0 then .error (st.pcFault k .illopd)
    else
      match st.scratchBytes k a 128 with
      | .error fi => .error fi
      | .ok (s1, bs) =>
        let entry (i : Nat) : Word := BitVec.ofNat 32 (leNat ((bs.drop (4 * i)).take 4)) &&& 0x801FFFFF
        let old := Tab.getD (s1.core (k / 32 / 512)).pats {} (f.sub.toNat % 16)
        let pat : Pat := { tag := some (s1.group (k / 32)).owner, entries := (List.range 32).map (fun i => (i, entry i))
                           before := some (s1.beforeWrite (s1.group (k / 32)).uid (old.tag, old.entries)) }
        .ok ((s1.updCore (k / 32 / 512) (fun c => { c with pats := Tab.put c.pats (f.sub.toNat % 16) pat })).draw, 0)))

/-- PATRD (R155): a table of another owner reads 0. -/
def execPatrd (f : FWord) (s : State) : Answer :=
  .next (s.readTable f false (fun st k =>
    let n := st.rdNat k f.a % 32
    let pat := st.patFor (k / 32) (f.sub.toNat % 16) n
    if pat.1 = some (st.group (k / 32)).owner then (Tab.getD pat.2 0 n).setWidth 64 else 0))

/-- CBLD (R156): 2 KiB of scratch into codebook k, tagged with the issuing owner; LDVQs of other groups find each entry before or after the
write until the group's next word (R145). An offset that is not 8-byte aligned raises ILLOPD, as
it does in PATLD and PERMLD (log 58, DESIGN CHOICE). -/
def execCbld (f : FWord) (s : State) : Answer :=
  .next (s.onceWord f (fUses f false false false false) .any .scratch false (fun st k =>
    let a := st.rdNat k f.a
    if a % 8 ≠ 0 then .error (st.pcFault k .illopd)
    else
      match st.scratchBytes k a 2048 with
      | .error fi => .error fi
      | .ok (s1, bs) =>
        let old := Tab.getD (s1.core (k / 32 / 512)).cbs {} (f.sub.toNat % 8)
        let cb : Codebook := { tag := some (s1.group (k / 32)).owner, bytes := bs.mapIdx (fun i b => (i, b))
                               before := some (s1.beforeWrite (s1.group (k / 32)).uid (old.tag, old.bytes)) }
        .ok ((s1.updCore (k / 32 / 512) (fun c => { c with cbs := Tab.put c.cbs (f.sub.toNat % 8) cb })).draw, 0)))

/-! ### Bank configuration (R157, R158) -/

/-- The code of a bank mode. -/
def BankMode.code : BankMode → Nat
  | .cache => 0 | .scratch => 1 | .fifo => 2

/-- A bank mode by its code. -/
def bankModeOf (c : Nat) : BankMode :=
  match c with
  | 0 => .cache
  | 1 => .scratch
  | _ => .fifo

/-- The scratch that the teams of a core hold, in 4 KiB pieces (R186). -/
def State.scratchPieces (s : State) (core : Nat) : Nat :=
  (s.teams.filter (fun e => e.1 / 32 == core)).foldl (fun acc e => acc + (e.2.scratchSize + 4095) / 4096) 0

/-- Pieces of 4 KiB in one bank (R19). -/
def bankPieces : Nat := 8

/-- Whether a stage queue that a team of the core takes part in holds an item, which may then lie in a FIFO bank of the core (R299). -/
def State.fifoInUse (s : State) (core : Nat) : Bool :=
  s.teams.any (fun e => e.1 / 32 == core && ((Tab.find s.launches e.2.launch).map (fun l =>
    l.queues.any (fun q => !q.2.items.isEmpty))).getD false)

/-- Whether the backing region of a stage's input queue is an allotment address of the owner, as R162 checks one (R299). -/
def Owner.backs (o : Owner) (x : Stage) : Bool := (o.mapAA o.world x.back.toNat (x.cap * x.isz)).isSome

/-- Whether items lie in FIFO banks of a core: those of a queue whose backing region fails its check, where no other core that runs teams of
the launch has a FIFO bank (R162, R299) (log 64, DEDUCED). -/
def State.fifoOnly (s : State) (core : Nat) : Bool :=
  s.teams.any (fun e => e.1 / 32 == core && ((Tab.find s.launches e.2.launch).map (fun l =>
    l.queues.any (fun q => !q.2.items.isEmpty && !(s.owner l.owner).backs (l.stages.getD q.1 {}))
      && !s.teams.any (fun t => t.2.launch == e.2.launch && t.1 / 32 != core && (s.core (t.1 / 32)).banks.contains .fifo))).getD false)

/-- Whether bank k may change to a mode (R157). Which bank holds a team's pieces is not visible: pieces fill the scratch banks
in ascending order (log 18, DEDUCED); which FIFO banks hold items is a free value, where there are any (log 59, DESIGN CHOICE), but the
last one that items must lie in is not empty. -/
def State.bankMayChange (s : State) (core : Nat) (modes : List BankMode) (k : Nat) (m : BankMode) : Bool :=
  let used := modes.countP (· != .cache)
  let below := ((modes.take k).countP (· == .scratch)) * bankPieces
  (s.core core).slots.length ≤ 1 &&
    (match modes.getD k .cache, m with
     | .cache, _ => used + 1 ≤ 20
     | .scratch, _ => s.scratchPieces core ≤ below
     | .fifo, _ => used ≤ 20 && !(s.fifoInUse core && (Config.fifoHolds s.draws k || (modes.count .fifo ≤ 1 && s.fifoOnly core))))

/-- The banks changed one at a time, in ascending number (R157). -/
def State.changeBanks (s : State) (core : Nat) (mask : Nat) (m : BankMode) : List BankMode :=
  (List.range 24).foldl (fun modes k =>
    if mask / 2 ^ k % 2 = 1 ∧ modes.getD k .cache ≠ m ∧ s.bankMayChange core modes k m then modes.set k m else modes)
    (s.core core).banks

/-- The modes of a core's banks written by a group's LSCFG: the lines of a bank that leaves cache mode are dropped (R157, R189), and
until the group's next word another reader may find the changes in progress (R158). -/
def Core.setBanks (c : Core) (b : Before (List BankMode)) (modes : List BankMode) : Core :=
  { (c.l1Drop (fun l => modes.getD l.bank .cache != .cache)) with banks := modes, banksBefore := some b }

/-- LSCFG (R157): d receives the mask of the banks that are in the requested mode (log 19, DEDUCED). -/
def execLscfg (f : FWord) (s : State) : Answer :=
  .next (s.onceWord f (fUses f false false false false) .any .table false (fun st k =>
    let a := st.rdNat k f.a
    if a / 2 ^ 24 ≠ 0 then .error (st.pcFault k .illopd)
    else
      let core := k / 32 / 512
      let m := bankModeOf f.sub.toNat
      let modes := st.changeBanks core a m
      .ok ((st.updCore core (fun c => c.setBanks (st.beforeWrite (st.group (k / 32)).uid c.banks) modes)).draw,
           BitVec.ofNat 64 ((List.range 24).foldl (fun acc i => acc + if modes.getD i .cache = m then 2 ^ i else 0) 0))))

/-- The ac at which the change of bank i begins within an LSCFG: the changed banks below it come first, each in its own time (R157). -/
def Before.bankTurn (b : Before (List BankMode)) (new : List BankMode) (i : Nat) : Nat :=
  (List.range i).foldl (fun t j => if b.was.getD j .cache = new.getD j .cache then t else t + Config.bankDelay b.id j) b.start

/-- The code that LSST gives for a bank: while another group's LSCFG is in progress, a bank whose turn has not come has its old mode, and
the one that is changing gives 3 (R158) (log 52, DESIGN CHOICE). -/
def State.bankCode (s : State) (core uid i : Nat) : Nat :=
  let c := s.core core
  let new := (c.banks.getD i .cache).code
  match c.banksBefore with
  | none => new
  | some b =>
    let old := (b.was.getD i .cache).code
    let turn := b.bankTurn c.banks i
    if uid = b.uid ∨ old = new ∨ turn + Config.bankDelay b.id i ≤ s.now then new else if turn ≤ s.now then 3 else old

/-- LSST (R158). -/
def execLsst (f : FWord) (s : State) : Answer :=
  .next (s.readTable f true (fun st k =>
    let uid := (st.group (k / 32)).uid
    BitVec.ofNat 64 (((List.range 24).map (fun i => st.bankCode (k / 32 / 512) uid i * 2 ^ (2 * i))).foldl (· + ·) 0)))

end Sys2Proof.Machine
end

