-- ==== Sys2Proof/Machine/Barriers.lean ====
section
/-! DEFINITION. Hardware barriers (R339..R343) and cluster barriers (R344, R345). -/

namespace Sys2Proof.Machine

/-! ### Entries and their events (R341) -/

/-- The test "complete" (R341). -/
def Bar.test (b : Bar) : Bar × Bool :=
  if b.pend = 0 ∧ b.txc = 0 then
    ({ b with ph := !b.ph, sa := false, pend := b.exp - (if b.sqd then 1 else 0) }, true)
  else (b, false)

/-- An arrival with its bytes; `seq` is the sequencer's (R341). -/
def Bar.arrive (b : Bar) (bytes : Int) (seq : Bool) : Bar :=
  if b.pend = 0 then { b with ovf := true }
  else { b with pend := b.pend - 1, txc := b.txc + bytes, sa := b.sa || seq, su := b.su || seq }

/-- A credit of bytes (R341). -/
def Bar.credit (b : Bar) (bytes : Int) : Bar := { b with txc := b.txc - bytes }

/-- BARINIT with a count (R341). -/
def Bar.setCount (b : Bar) (c : Nat) : Bar :=
  { b with exp := c, pend := c - (if b.sqd then 1 else 0), txc := 0, ovf := false, sa := false }

/-- The end of the stream at a barrier where the sequencer has arrived since its stream began (R251, R341). -/
def Bar.endStream (b : Bar) : Bar :=
  { b with sqd := true, pend := if !b.sa && 0 < b.pend then b.pend - 1 else b.pend }

/-- The test of a cluster barrier: R341 with txc fixed at 0 (R344). -/
def CBar.test (b : CBar) : CBar × Bool :=
  if b.pend = 0 then ({ b with ph := !b.ph, pend := b.exp }, true) else (b, false)

/-- An arrival at a cluster barrier. -/
def CBar.arrive (b : CBar) : CBar := if b.pend = 0 then { b with ovf := true } else { b with pend := b.pend - 1 }

/-- CBARINIT with a count. -/
def CBar.setCount (b : CBar) (c : Nat) : CBar := { b with exp := c, pend := c, ovf := false }

/-! ### Waiters -/

/-- The group keys of a team. -/
def State.groupsOf (s : State) (key : Nat) : List Nat := (s.groups.filter (fun e => e.2.team == some key)).map (·.1)

/-- A thread released from a barrier resumes at PC + 8 (R341), or within a REP at its next repetition, where REPIX already
stands (R50). -/
def Thread.release (t : Thread) : Thread :=
  if t.repix = 0 then { t with st := .ready, pc := t.pc + 8 }.passWords {} 1 else { t with st := .ready }

/-- A thread that waits at a barrier's word; within a REP the word counts as done. -/
def State.waitBarrier (s : State) (k : Nat) (st : TState) (b : Nat) : State :=
  (if s.cur.inRep then s.advance {} [k] else s).updThread k (fun t => { t with st, waitBar := b })

/-- The sequencer moved past its word (R244). -/
def Matrix.pass (m : Matrix) : Matrix :=
  { m with st := .running, mpc := m.mpc + 8, widx := min (m.widx + 1) 0xFFFFFF, barWait := none
           early := m.early.filter (fun e => m.widx < e.widx), ahead := m.ahead.filter (fun e => m.widx < e.1) }

/-- Every thread that waits on hardware barrier b of a team is released, and acquires what the arrivals carried; so does the
sequencer (R231, R233). -/
def State.releaseBar (s : State) (key b : Nat) : State :=
  let carried := (Tab.getD (s.team key).bars {} b).carried
  let s := s.updTeam key (fun t => { t with matrix := t.matrix.map (fun m =>
    if m.barWait = some b then { m.pass with view := m.view ++ carried, early := [] } else m) })
  ((s.groupsOf key).flatMap groupKeys).foldl (fun acc k =>
    let t := acc.thread k
    if t.st = .atBarrier ∧ t.waitBar = b then (acc.setThread k t.release).acquire k carried else acc) s

/-- A completed phase's arrivals have carried their stores (R233). -/
def Bar.carry (b : Bar) (complete : Bool) : Bar :=
  if complete then { b with carried := b.carried ++ b.view, view := [] } else b

/-- An event at hardware barrier b of a team, with its test (R341); `ids` are the pending stores that an arrival carries, as a release
at team scope (R233). -/
def State.barEvent (s : State) (key b : Nat) (f : Bar → Bar) (ids : List Nat := []) : State :=
  let pending (l : List Nat) : List Nat := l.filter s.live
  let old := Tab.getD (s.team key).bars {} b
  let r := (f { old with view := pending old.view ++ ids, carried := pending old.carried }).test
  let s1 := s.updTeam key (fun t => { t with bars := Tab.put t.bars b (r.1.carry r.2) })
  if r.2 then s1.releaseBar key b else s1

/-- Every thread that waits on cluster barrier b is released, and acquires at cluster scope (R344). -/
def State.releaseCBar (s : State) (members : List Nat) (b : Nat) : State :=
  ((members.flatMap s.groupsOf).flatMap groupKeys).foldl (fun acc k =>
    let t := acc.thread k
    if t.st = .atCluster ∧ t.waitBar = b then
      ((acc.setThread k t.release).invalidateL1 (k / 32 / 512) (acc.group (k / 32)).owner).takeKnown k
    else acc) s

/-- An event at cluster barrier b, held by the cluster's team of position 0 (R344). -/
def State.cbarEvent (s : State) (members : List Nat) (b : Nat) (f : CBar → CBar) : State :=
  let home := members.headD 0
  let r := (f (Tab.getD (s.team home).cbars {} b)).test
  let s1 := s.updTeam home (fun t => { t with cbars := Tab.put t.cbars b r.1 })
  if r.2 then s1.releaseCBar members b else s1

/-! ### Checked barrier numbers -/

/-- The hardware barrier that an index operand names for a thread, with its team's key (R340, R342). -/
def State.barOf (s : State) (k : Nat) (f : FWord) : Option (Nat × Nat) :=
  match s.teamOf (k / 32) with
  | some (key, t) => let i := s.rdNat k f.a; if i < 64 ∧ i < t.nbars then some (key, i) else none
  | none => none

/-- The cluster barrier that an index operand names for a thread, with its cluster's teams (R345). A handler group has none. -/
def State.cbarOf (s : State) (k : Nat) (f : FWord) : Option (List Nat × Nat) :=
  match s.teamOf (k / 32) with
  | some (_, t) => let i := s.rdNat k f.a; if i < 8 then some (t.members, i) else none
  | none => none

/-- BARINIT (R342). -/
def execBarinit (f : FWord) (s : State) : Answer :=
  .next (s.onceWord f (fUses f false false false false) .any .nothing false (fun st k =>
    match st.barOf k f with
    | none => .error (st.pcFault k .illopd)
    | some (key, i) =>
      let c := st.rdNat k f.b
      if c = 0 ∨ 2047 < c then .error (st.pcFault k .illopd)
      else .ok (st.barEvent key i (fun b => b.setCount c), 0)))

/-! ### Arrivals (R342) -/

/-- The kinds of BARARR. -/
inductive ArrKind
  | arr | tx | cpl
deriving DecidableEq, Repr

/-- The pending stores that the arrivals at a thread's barrier have carried (R233). -/
def State.carriedFor (s : State) (k : Nat) (f : FWord) : List Nat :=
  match s.barOf k f with
  | some (key, i) => (Tab.getD (s.team key).bars {} i).carried
  | none => []

/-- One arrival or credit for a thread: the phase before it, or ILLOPD. -/
def State.arriveFor (s : State) (k : Nat) (f : FWord) (kind : ArrKind) (ids : List Nat) : Except FaultInfo (State × BitVec 64) :=
  match s.barOf k f with
  | none => .error (s.pcFault k .illopd)
  | some (key, i) =>
    let b := Tab.getD (s.team key).bars {} i
    let n := if kind = .arr then 0 else s.rdNat k f.b
    let after : Int := if kind = .cpl then b.txc - n else b.txc + n
    if 2 ^ 24 ≤ n ∨ after < -(2 ^ 24) ∨ 2 ^ 24 ≤ after then .error (s.pcFault k .illopd)
    else .ok (s.barEvent key i (fun b => if kind = .cpl then b.credit n else b.arrive n false) ids, boolVal b.ph)

/-- The lanes of a run that come before its first one still held: arrivals are made in ascending idx (R342). -/
def inTurn (lanes free : List Nat) : List Nat := lanes.takeWhile free.contains

/-- A BARARR word: a release at team scope; a uniform d makes one arrival for the run, another one for each thread. -/
def State.bararr (s : State) (f : FWord) (kind : ArrKind) : State :=
  if isUni f.d then
    let ids := (s.curKeys.filter (s.active f.guard)).flatMap (fun k => s.carriedBy k s.nextId)
    s.onceWord f (fUses f false false false false) .any (.release 2) false (fun st k => st.arriveFor k f kind ids)
  else
    let e := s.enter f.guard {} (fUses f false false false false)
    let d := e.state.drainAll e.lanes 2
    (inTurn e.lanes d.2).foldl (fun acc k =>
      match acc.arriveFor k f kind (acc.carriedBy k acc.nextId) with
      | .error fi => acc.raise k fi
      | .ok r => ((r.1.freeLu k f 1 1 1).wr k f.d false r.2).advance {} [k]) d.1

/-- BARARR.arr (R342). -/
def execBararrArr (f : FWord) (s : State) : Answer := .next (s.bararr f .arr)

/-- BARARR.tx (R342). -/
def execBararrTx (f : FWord) (s : State) : Answer := .next (s.bararr f .tx)

/-- BARARR.cpl (R342). -/
def execBararrCpl (f : FWord) (s : State) : Answer := .next (s.bararr f .cpl)

/-! ### Waits and tests -/

/-- BARWAIT (R342). -/
def execBarwait (f : FWord) (s : State) : Answer :=
  let e := s.enter f.guard {} (fUses f false false false false)
  .next (e.lanes.foldl (fun acc k =>
    match acc.barOf k f with
    | none => acc.raisePc k .illopd
    | some (key, i) =>
      let parity := acc.rdPred k f.b
      let acc1 := acc.freeLu k f 1 1 1
      let b := Tab.getD (acc.team key).bars {} i
      if b.ph ≠ parity then (acc1.acquire k b.carried).advance {} [k]
      else acc1.waitBarrier k .atBarrier i) e.state)

/-- BARTEST.ph (R342): a result of 1 acquires at team scope. -/
def execBartestPh (f : FWord) (s : State) : Answer :=
  let e := s.enter f.guard {} (fUses f false false false false)
  let bad := e.lanes.filter (fun k => (s.barOf k f).isNone)
  let good := e.lanes.filter (fun k => (s.barOf k f).isSome)
  let val (k : Nat) : Bool :=
    match s.barOf k f with
    | some (key, i) => (Tab.getD (s.team key).bars {} i).ph != s.rdPred k f.b
    | none => false
  let s1 := good.foldl (fun acc k => acc.freeLu k f 1 1 1) e.state
  let s2 := s1.writeAll f.d false good (fun k => boolVal (val k))
  let s3 := (good.filter val).foldl (fun acc k => acc.acquire k (s.carriedFor k f)) s2
  .next (bad.foldl (fun acc k => acc.raisePc k .illopd) (s3.advance {} good))

/-- The state bits that BARTEST.st reads (R342). -/
def barBits (b : Bar) : Nat :=
  (if b.ovf then 2 ^ 14 else 0) + (if b.sqd then 2 ^ 13 else 0) + (if b.sa then 2 ^ 12 else 0) +
    (if b.ph then 2 ^ 11 else 0) + b.pend % 2 ^ 11

/-- BARTEST.st (R342). -/
def execBartestSt (f : FWord) (s : State) : Answer :=
  let e := s.enter f.guard {} (fUses f false false false false)
  let bad := e.lanes.filter (fun k => (s.barOf k f).isNone)
  let good := e.lanes.filter (fun k => (s.barOf k f).isSome)
  let s1 := good.foldl (fun acc k => acc.freeLu k f 1 1 1) e.state
  let s2 := s1.writeAll f.d false good (fun k =>
    match s.barOf k f with
    | some (key, i) => BitVec.ofNat 64 (barBits (Tab.getD (s.team key).bars {} i))
    | none => 0)
  .next (bad.foldl (fun acc k => acc.raisePc k .illopd) (s2.advance {} good))

/-! ### Cluster barriers (R345) -/

/-- CBARINIT (R345). -/
def execCbarinit (f : FWord) (s : State) : Answer :=
  .next (s.onceWord f (fUses f false false false false) .any .nothing false (fun st k =>
    match st.cbarOf k f with
    | none => .error (st.pcFault k .illopd)
    | some (members, i) =>
      let c := st.rdNat k f.b
      if c = 0 ∨ 12288 < c then .error (st.pcFault k .illopd)
      else .ok (st.cbarEvent members i (fun b => b.setCount c), 0)))

/-- One arrival at a cluster barrier: the phase before it. -/
def State.carriveFor (s : State) (k : Nat) (f : FWord) : Except FaultInfo (State × BitVec 64) :=
  match s.cbarOf k f with
  | none => .error (s.pcFault k .illopd)
  | some (members, i) =>
    let b := Tab.getD (s.team (members.headD 0)).cbars {} i
    .ok (s.cbarEvent members i CBar.arrive, boolVal b.ph)

/-- CBARARR (R345): a release at cluster scope. -/
def execCbararr (f : FWord) (s : State) : Answer :=
  .next (if isUni f.d then
      s.onceWord f (fUses f false false false false) .any (.release 3) false (fun st k => st.carriveFor k f)
    else
      let e := s.enter f.guard {} (fUses f false false false false)
      let d := e.state.drainAll e.lanes 3
      (inTurn e.lanes d.2).foldl (fun acc k =>
        match acc.carriveFor k f with
        | .error fi => acc.raise k fi
        | .ok r => ((r.1.freeLu k f 1 1 1).wr k f.d false r.2).advance {} [k]) d.1)

/-- CBARWAIT (R345). -/
def execCbarwait (f : FWord) (s : State) : Answer :=
  let e := s.enter f.guard {} (fUses f false false false false)
  .next (e.lanes.foldl (fun acc k =>
    match acc.cbarOf k f with
    | none => acc.raisePc k .illopd
    | some (members, i) =>
      let parity := acc.rdPred k f.b
      let acc1 := acc.freeLu k f 1 1 1
      if (Tab.getD (acc.team (members.headD 0)).cbars {} i).ph ≠ parity then
        ((acc1.invalidateL1 (k / 32 / 512) (acc1.group (k / 32)).owner).takeKnown k).advance {} [k]
      else acc1.waitBarrier k .atCluster i) e.state)

end Sys2Proof.Machine
end

