-- ==== Sys2Proof/Machine/Counters.lean ====
section
/-! DEFINITION. Outstanding-operation counters (R336..R338), reading and clearing counters (R346, R347), and the event that
marks an entry complete (R281). -/

namespace Sys2Proof.Machine

/-- The number of outstanding entries of a class (R336). -/
def Group.opcCount (g : Group) (c : Nat) : Nat := g.opc.countP (fun e => e.cls == c)

/-- The complete entries at the head of a class's queue leave it (R336). -/
def dropHeads (c : Nat) : List OpcEntry → List OpcEntry
  | [] => []
  | e :: t => if e.cls ≠ c then e :: dropHeads c t else if e.done then dropHeads c t else e :: t

/-- Entries retired from the heads of all four queues, and the group's threads that waited for it made ready (R125, R338). -/
def State.retireOpc (s : State) (g : Nat) : State :=
  let x := s.group g
  let x' := { x with opc := [0, 1, 2, 3].foldl (fun q c => dropHeads c q) x.opc }
  (groupKeys g).foldl (fun acc k =>
    let t := acc.thread k
    let woken := match t.waitFor with
      | some (.count c n) => x'.opcCount c ≤ n
      | some .copyCount => true
      | some (.stage _ _) => false | some (.slot _) => false | some (.ring _) => false | some (.tile _ _) => false
      | none => false
    if t.st = .waitOp && woken && !s.isHalting x.owner then acc.setThread k { t with st := .ready, waitFor := none } else acc) (s.setGroup g x')

/-- The first outstanding entry of a pair marked complete. -/
def markDone (c q w : Nat) : List OpcEntry → List OpcEntry
  | [] => []
  | e :: t =>
    if e.cls = c ∧ e.q = q ∧ e.w = w ∧ !e.listed ∧ !e.done then { e with done := true } :: t else e :: markDone c q w t

/-- Whether a group holds the outstanding entry that a notification completes (R336). -/
def Group.awaits (x : Group) (n : Note) : Bool :=
  x.opc.any (fun e => e.cls == n.cls && e.q == n.q && e.w == n.w && !e.listed && !e.done)

/-- The group that a notification finds (R281, R336): the one at the place it was issued from, or, where that team has since been sealed and
restored elsewhere, the owner's group that holds the entry (R353). -/
def State.noteGroup (s : State) (n : Note) : Option Nat :=
  if (s.group? (gkey n.core n.gslot)).any (·.awaits n) then some (gkey n.core n.gslot)
  else (s.groups.find? (fun e => e.2.owner == n.owner && e.2.awaits n)).map (·.1)

/-- COMPLETION_NOTIFY (R281, R336): a notification without a matching entry is ignored. -/
def execCompletionNotify (i : Nat) (s : State) : Answer :=
  .next (match s.notes[i]? with
    | none => s
    | some n =>
      let s1 := { s with notes := s.notes.eraseIdx i }
      match s.noteGroup n with
      | none => s1
      | some g => (s1.updGroup g (fun x => { x with opc := markDone n.cls n.q n.w x.opc })).retireOpc g)

/-- WAITC (R338): the threads whose count is low enough acquire at device scope and go on. -/
def execWaitc (f : FWord) (s : State) : Answer :=
  let e := s.enter f.guard {} (fUses f false false false false)
  .next (e.lanes.foldl (fun acc k =>
    let n := acc.rdNat k f.a
    let c := f.sub.toNat % 4
    if 64 ≤ n then acc.raisePc k .illopd
    else if (acc.group (k / 32)).opcCount c ≤ n then
      ((acc.invalidateL1 (k / 32 / 512) (acc.group (k / 32)).owner).takeKnown k).advance {} [k]
    else acc.waitAt [k] (.count c n)) e.state)

/-- MSTAT (R244); without a stream st is 2. -/
def mstatWord (m : Option Matrix) : Nat :=
  match m with
  | none => 2 ^ 31
  | some m =>
    (match m.st with | .running => 0 | .waiting => 1 | .ended => 2 | .faulted => 3) * 2 ^ 30 + m.cls.code * 2 ^ 26 + m.widx % 2 ^ 24

/-- The value of an RDCNT selector for a thread (R346) (log 32, DEDUCED). -/
def State.counter (s : State) (k sel index : Nat) : BitVec 64 :=
  let g := s.group (k / 32)
  let o := s.owner g.owner
  let team := (s.teamOf (k / 32)).map (·.2)
  let core := s.core (k / 32 / 512)
  let slot : OwnerSlot := ((core.slotOf g.owner).bind (Tab.find core.slots)).getD { owner := g.owner }
  match sel with
  | 0 => (s.thread k).flags.setWidth 64
  | 1 => BitVec.ofNat 64 (g.opcCount 0 + g.opcCount 1 * 2 ^ 8 + g.opcCount 2 * 2 ^ 16 + g.opcCount 3 * 2 ^ 24)
  | 2 => g.uviol.setWidth 64
  | 3 => g.skipblk.setWidth 64
  | 4 => g.satcnt.setWidth 64
  | 5 => g.convtail.setWidth 64
  | 6 => BitVec.ofNat 64 (s.cur.lap.getD g.orbit.lapcnt)
  | 7 => BitVec.ofNat 64 (mstatWord (team.bind Team.matrix))
  | 8 => BitVec.ofInt 64 slot.deficit
  | 9 => o.poison
  | 10 => o.corr
  | 11 => o.linkretry
  | 12 => o.walkissue
  | 13 => o.walkbytes
  | 14 => o.poolused
  | 15 => (Tab.getD slot.perf 0 index).setWidth 64
  | _ => BitVec.ofNat 64 ((team.map Team.tid).getD 0)

/-- RDCNT (R346): .perf checks its index. -/
def execRdcnt (f : FWord) (s : State) : Answer :=
  let w := wide f.ty
  let e := s.enter f.guard {} (fUses f w false false false)
  let bad := e.lanes.filter (fun k => f.sub.toNat == 15 && 8 ≤ s.rdNat k f.a)
  let good := e.lanes.filter (fun k => !(f.sub.toNat == 15 && 8 ≤ s.rdNat k f.a))
  let s1 := e.state.writeAll f.d w good (fun k => s.counter k f.sub.toNat (s.rdNat k f.a))
  .next (bad.foldl (fun acc k => acc.raisePc k .illopd) (s1.advance {} good))

/-- The group's counter of a CLRCNT selector set to zero. -/
def Group.clearCounter (g : Group) (sel : Nat) : Group :=
  match sel with
  | 2 => { g with uviol := 0 }
  | 3 => { g with skipblk := 0 }
  | 4 => { g with satcnt := 0 }
  | _ => { g with convtail := 0 }

/-- CLRCNT (R347): once for the run. -/
def execClrcnt (f : FWord) (s : State) : Answer :=
  let w := wide f.ty
  .next (s.onceWord f (fUses f w false false false) .any .nothing w (fun st k =>
    .ok (st.updGroup (k / 32) (fun g => g.clearCounter f.sub.toNat), st.counter k f.sub.toNat 0)))

end Sys2Proof.Machine
end

