-- ==== Sys2Proof/Machine/Matrix.lean ====
section
/-! DEFINITION. The matrix engine (R243..R267): the stream of the team that holds the core's sequencer, and the permutation
forms, which stand in a pipe's program or in a stream. -/

namespace Sys2Proof.Machine

/-! ### The state of the engine (R243) -/

/-- The values of n consecutive keys replaced. -/
def Tab.putRange {α : Type} (t : Tab α) (base : Nat) (vs : List α) : Tab α :=
  t.filter (fun e => e.1 < base) ++ vs.mapIdx (fun i v => (base + i, v)) ++ t.filter (fun e => base + vs.length ≤ e.1)

/-- Elements of an accumulator tile, of a tile register and of a running-sum register: rows × columns. -/
def tileElems : Nat := 128 * 64

/-- Element (n, c) of accumulator tile i. -/
def Matrix.accAt (m : Matrix) (i n c : Nat) : Word := Tab.getD m.acc 0 (i * tileElems + n * 64 + c)

/-- An accumulator tile written, its element (n, c) by a function. -/
def Matrix.setAcc (m : Matrix) (i : Nat) (f : Nat → Nat → Word) : Matrix :=
  { m with acc := Tab.putRange m.acc (i * tileElems) ((List.range tileElems).map (fun j => f (j / 64) (j % 64))) }

/-- Row n of tile register k, as a little-endian number. -/
def Matrix.rowNum (m : Matrix) (k n : Nat) : Nat :=
  leNat ((List.range 64).map (fun b => Tab.getD m.mreg 0 (k * tileElems + n * 64 + b)))

/-- A scale byte of tile register k. -/
def Matrix.scaleAt (m : Matrix) (k n j : Nat) : Nat := (Tab.getD m.msc 0 (k * 2048 + n * 16 + j)).toNat

/-- The format tag of a tile register (R243). -/
def Matrix.tagOf (m : Matrix) (k : Nat) : Nat := Tab.getD m.mtag 0x10 k

/-- Element (n, c) of running-sum register i. -/
def Matrix.zAt (m : Matrix) (i n c : Nat) : Int := (Tab.getD m.z 0 (i * tileElems + n * 64 + c)).toInt

/-- The team that holds a core's sequencer, with its key and matrix state. -/
def State.sequencer (s : State) (core : Nat) : Option (Nat × Team × Matrix) :=
  (s.teams.find? (fun e => e.1 / 32 == core && e.2.matrix.isSome)).bind (fun e => e.2.matrix.map (fun m => (e.1, e.2, m)))

/-- The matrix state of a team changed. -/
def State.updMatrix (s : State) (key : Nat) (f : Matrix → Matrix) : State :=
  s.updTeam key (fun t => { t with matrix := t.matrix.map f })

/-- Group 0 of a team. -/
def State.group0 (s : State) (key : Nat) : Option Nat :=
  (s.groups.find? (fun e => e.2.team == some key && e.2.gidx == 0)).map (·.1)

/-- A uniform register of group 0 of a team (R249). -/
def State.uniOf (s : State) (key k : Nat) : Word := ((s.group0 key).map (fun g => (s.group g).reg k)).getD 0

/-! ### Completion and the end of the stream (R249, R251) -/

/-- Whether a drain still leaves its tile, and in which state it leaves it (R148, R260). -/
def Tile.drained (t : Tile) (ready : Bool) : Tile :=
  if t.st = .draining then { t with st := if ready then .ready else .empty } else t

/-- Scratch writes of a matrix word performed. -/
def State.landWrites (s : State) (key : Nat) (ws : List (Nat × List Byte)) : State :=
  if ws.isEmpty then s else s.updTeam key (fun t => ws.foldl (fun t w => t.scratchWrite w.1 w.2) t)

/-- The matrix words in flight of a team. -/
def State.flight (s : State) (key : Nat) : List MatOp := ((s.team key).matrix.map Matrix.flight).getD []

/-- Matrix word i of those in flight completes: its last scratch writes are performed before its tile moves on (R260). -/
def State.completeMat (s : State) (key i : Nat) : State :=
  match (s.flight key)[i]? with
  | none => s
  | some o =>
    let core := key / 32
    let s1 := (s.landWrites key o.writes).updMatrix key (fun m => { m with flight := m.flight.eraseIdx i })
    let s2 := o.holds.foldl (fun acc i =>
      match acc.tileOf key i with
      | some t => (acc.setTile core i { t with hold := t.hold - 1 }).wakeTile core i
      | none => acc) s1
    let s3 := match o.drain with
      | some (i, ready) =>
        match s2.tileOf key i with
        | some t => (s2.turnTile core i (t.drained ready)).wakeTile core i
        | none => s2
      | none => s2
    match s3.group0 key with
    | some g => s3.updGroup g (fun x =>
        { x with skipblk := satInc32 x.skipblk o.skipblk, satcnt := satInc32 x.satcnt o.satcnt
                 convtail := satInc32 x.convtail o.convtail })
    | none => s3

/-- The matrix words in flight that a test picks complete, in stream order. -/
def State.completeMats (s : State) (key : Nat) (pick : MatOp → Bool) : State :=
  (s.flight key).foldl (fun acc o =>
    if pick o then acc.completeMat key (((acc.flight key).findIdx? pick).getD 0) else acc) s

/-- Every matrix word in flight completes. -/
def State.completeAll (s : State) (key : Nat) : State := s.completeMats key (fun _ => true)

/-- Whether a word in flight occupies a unit that another word needs (R249). -/
def MatOp.meets (o : MatOp) (units : List Nat) : Bool := o.units.any units.contains

/-- The end of the stream, at MEND or at a fault (R250, R251). -/
def State.endStream (s : State) (key : Nat) (cls : Option Cls) : State :=
  let s1 := s.completeAll key
  let s2 := s1.updMatrix key (fun m =>
    { m with st := if cls.isSome then .faulted else .ended, cls := cls.getD .none, latch := none, missing := false, barWait := none, early := [], ahead := [] })
  let s3 := match s2.group0 key with
    | some g =>
      (s2.updGroup g (fun x => { x with opc := x.opc.map (fun (e : OpcEntry) => if e.cls = 3 then { e with done := true } else e) })).retireOpc g
    | none => s2
  ((s3.team key).bars.filter (fun e => e.2.su)).foldl (fun acc e => acc.barEvent key e.1 Bar.endStream) s3

/-- A scratch write of a word in flight performed before the word completes (R265). -/
def State.landMat (s : State) (core i j : Nat) : State :=
  match s.sequencer core with
  | none => s
  | some (key, _, m) =>
    let ws := (m.flight[i]?.map (·.writes)).getD []
    match ws[j]? with
    | none => s
    | some w => (s.landWrites key [w]).updMatrix key (fun m =>
        { m with flight := m.flight.modify i (fun o => { o with writes := o.writes.eraseIdx j }) })

/-- A scratch location read for a word of the stream that comes `ahead` words after the next one, before that word's other reads (R265). -/
def State.readEarly (s : State) (core ahead w : Nat) : State :=
  match s.sequencer core with
  | none => s
  | some (key, t, _) =>
    let g := t.scratchRead (8 * w) 8
    ({ s with nextId := s.nextId + 1 } : State).updMatrix key (fun m =>
      { m with early := m.early ++ [{ widx := m.widx + ahead, word := w, at_ := s.nextId, bytes := g.bytes, bad := !g.poison.isEmpty }] })

/-- A team as the sequencer's present word reads its scratch (R265): what it has read for this word stands, but for a tile's bytes only
what it has read since the tile's state last changed, since the ready state acquires (R149, R252). -/
def Team.withEarly (t : Team) (m : Matrix) (gen : Nat) : Team :=
  (m.early.filter (fun e => e.widx == m.widx && gen ≤ e.at_)).foldl (fun t e =>
    { t with scratch := Memory.writeN t.scratch (8 * e.word) e.bytes
             scratchPoison := if e.bad then Tab.put t.scratchPoison e.word true else Tab.del t.scratchPoison e.word }) t

/-- MATRIX_WORD_COMPLETE (R249): the oldest matrix word in flight on a core completes. -/
def execMatrixWordComplete (core : Nat) (s : State) : Answer :=
  .next (match s.sequencer core with
    | some (key, _, _) => s.completeMat key 0
    | none => s)

/-- A matrix word in flight completes before older ones on other units (R249). -/
def State.landWord (s : State) (core i : Nat) : State :=
  match s.sequencer core with
  | some (key, _, _) => s.completeMat key i
  | none => s

/-! ### Issuing a matrix word -/

/-- What a matrix word does when the sequencer examines it. -/
inductive MatOut
  | wait (bar : Option Nat)
  | fault (cls : Cls)
  | done (s : State) (op : Option MatOp)

/-- The scratch writes of the sequencer's present word, but for those that it has performed before its issue (R265). -/
def Matrix.writesLeft (m : Matrix) (o : MatOp) : List (Nat × List Byte) := ((m.ahead.find? (fun e => e.1 == m.widx)).map (·.2)).getD o.writes

/-- A matrix word of the sequencer of the issuing core: it waits, ends the stream with a fault, or issues (R249..R252), which ends what
the stream's last word was rewriting (R145). Of the words in flight only those on its units must complete first. -/
def State.matWord (s : State) (units : List Nat) (act : State → Nat → Team → Matrix → MatOut) : State :=
  match s.sequencer s.cur.core with
  | none => s
  | some (key, _, m0) =>
    if m0.st = .ended ∨ m0.st = .faulted then s
    else
      let s0 := s.completeMats key (fun o => o.meets units)
      let t := s0.team key
      let s1 := s0.endRewrites (key / 32) t.uid
      match act s1 key t (t.matrix.getD {}) with
      | .wait b => s0.updMatrix key (fun m => { m with st := .waiting, barWait := b })
      | .fault c => s1.endStream key (some c)
      | .done s2 op => s2.updMatrix key (fun m => { m.pass with flight := m.flight ++ (op.map (fun o => { o with units, writes := m.writesLeft o })).toList })

/-- The tile that a uniform register of group 0 names (R250). -/
def State.matTile (s : State) (key : Nat) (u : Fin 32) : Option (Nat × Tile) :=
  let i := (s.uniOf key u).toNat
  (s.tileOf key i).map (fun t => (i, t))

/-- A tile that a word names for reading: ILLOPD where it does not exist, a wait until it is ready (R250, R252). The further checks of
the word's form are made once it is ready (log 73, DESIGN CHOICE). The word sees the team as its reads find the scratch (R265). -/
def State.withReady (s : State) (key : Nat) (u : Fin 32) (t : Team) (m : Matrix) (act : Nat → Tile → Team → MatOut) : MatOut :=
  match s.matTile key u with
  | none => .fault .illopd
  | some (i, x) => if x.st = .ready then act i x (t.withEarly m x.gen) else .wait none

/-- A tile's hold raised at issue (R148, R252): the sequencer acquires what the TILESET that made the tile ready carried (R149). -/
def State.holdTile (s : State) (key i : Nat) : State :=
  match s.tileOf key i with
  | some t => (s.setTile (key / 32) i { t with hold := t.hold + 1 }).updMatrix key (fun m => { m with view := m.view ++ t.view })
  | none => s

/-- The elements of so many bits among n bytes at an offset of scratch that have a poisoned byte (R203, R254); a row has 64 elements of 6 bits
at most (R64). -/
def Team.badElems (t : Team) (off n bits : Nat) : List Nat :=
  if t.scratchPoison.isEmpty then []
  else (List.range (if bits = 6 then min 64 (8 * n / bits) else 8 * n / bits)).filter (fun e =>
    (wordsOf (off + e * bits / 8) ((e * bits + bits + 7) / 8 - e * bits / 8)).any (fun w => Tab.getD t.scratchPoison false w))

/-- A little-endian number with one element of so many bits cleared. -/
def clearElem (bits v e : Nat) : Nat := v - v / 2 ^ (bits * e) % 2 ^ bits * 2 ^ (bits * e)

/-- n scratch bytes of a team as elements of so many bits, and the number of poisoned ones: the bytes of a poisoned word read as zero, and an
element of 6 bits that straddles one reads as zero whole (R203). -/
def Team.matRead (t : Team) (off n : Nat) (bits : Nat := 8) : List Byte × Nat :=
  let bs := (t.scratchRead off n).clean off
  let bad := t.badElems off n bits
  (if bits = 6 ∧ bad ≠ [] then leBytes n (bad.foldl (clearElem bits) (leNat bs)) else bs, bad.length)

/-- The first n bytes of row r of a tile, and the poisoned elements among them. -/
def Team.tileRow (t : Team) (x : Tile) (r n : Nat) (bits : Nat := 8) : List Byte × Nat :=
  t.matRead (64 * x.base + 16 * x.pitch * r) n bits

/-- The number of an operand, where it names an accumulator tile, a running-sum register or a tile register. -/
def opdNum (o : MOpd) : Nat :=
  match o with
  | .acc i => i
  | .z i => i
  | .m i => i
  | .none => 0

/-! ### Loading tile registers (R254) -/

/-- The bits of an element as the matrix engine packs it (R64, R255). -/
def matBits (F : Nat) : Nat := if F = 0xE then 6 else if F = 0xF then 4 else fieldBits (deqElement F)

/-- Scale bytes of one row of a tile register, by format (R254). -/
def rowScales (fmt : Nat) : Nat :=
  if fmt = 0x9 ∨ fmt = 0xA ∨ fmt = 0xC then 2 else if fmt = 0xB then 4 else if fmt = 0xD then 16 else 0

/-- PSRC marks stale every bank built from a tile register that is loaded (R254). -/
def Matrix.staleBanks (m : Matrix) (k : Nat) : Matrix :=
  { m with psrc := (List.range 4).foldl (fun p b => if Tab.getD p 16 b = k then Tab.put p b 17 else p) m.psrc }

/-- MLDA (R254). -/
def execMlda (z : ZWord) (s : State) : Answer :=
  .next (s.matWord [0] (fun st key t m =>
    st.withReady key z.u1 t m (fun i x t =>
      let k := opdNum z.d
      let row0 := if z.mod.getLsbD 0 then 128 else 0
      let J := rowScales x.fmt
      let present := min 128 (x.rows + 1 - row0)
      if J ≠ 0 ∧ present ≠ 0 ∧ t.scratchSize < 16 * x.svp + (row0 + present) * J then .fault .bounds
      else
        let rows := (List.range 128).map (fun n => if n < present then t.tileRow x (row0 + n) (x.rowb + 1) (matBits x.fmt) else ([], 0))
        let scales := (List.range 128).map (fun n =>
          if n < present ∧ J ≠ 0 then t.matRead (16 * x.svp + (row0 + n) * J) J
          else (List.replicate J (if x.fmt = 0xD then (0x3C : Byte) else 127), 0))
        let bad := (rows ++ scales).foldl (fun acc r => acc + r.2) 0
        let bytes := rows.flatMap (fun r => r.1 ++ List.replicate (64 - r.1.length) 0)
        let load (m : Matrix) : Matrix :=
          { m with
            mreg := Tab.putRange m.mreg (k * tileElems) bytes
            mtag := Tab.put m.mtag k x.fmt
            msc := (scales.mapIdx (fun n r => (n, r.1))).foldl (fun p e => Tab.putRange p (k * 2048 + e.1 * 16) e.2) m.msc
            latch := if m.latch = some k then none else m.latch }
        .done (((st.countPoison t.owner bad).holdTile key i).updMatrix key (fun m => (load m).staleBanks k))
          (some { holds := [i] }))))

/-! ### Dense products (R255, R256) -/

/-- The number of K, the rows of T and the bytes of a row of T that a format needs (R255). -/
def mmaShape (F : Nat) : Nat × Nat × Nat :=
  if F ≤ 1 then (32, 64, 64)
  else if F = 4 ∨ F = 5 ∨ F = 0xA ∨ F = 0xE then (64, 64, 48)
  else if F = 6 ∨ F = 8 ∨ F = 0xB ∨ F = 0xD then (128, 128, 32)
  else (64, 64, 64)

/-- The value of an element of a format, without its block scale (R67). -/
def matVal (F code : Nat) : Val :=
  let v := elementVal (deqElement F) code
  if F = 0xC then v.scale (-6) else v

/-- The chunk length of a format (R81). -/
def chunkLen (F : Nat) : Nat := if F ≤ 1 ∨ F = 0xD then 8 else 16

/-- Whether a format has block scales. -/
def hasScales (F : Nat) : Bool := 0x9 ≤ F && F ≤ 0xD

/-- The value of a block scale code. -/
def blockScale (F code : Nat) : Val := if F = 0xD then Fmt.e5m2.decode code else decodeE8M0 code

/-- The product of two element codes (R71, R79). -/
def matProd (F a b : Nat) : Val := if F = 0xE then ln6Mul a b else mulVal (matVal F a) (matVal F b)

/-- The index of the block scale that chunk i uses (R255). -/
def scaleIndex (F i : Nat) : Nat := if F = 0xD then i else 16 * i / 32

/-- One element of a dense product (R81, R255): the FP32 code, and the blocks omitted. `a` and `b` give the codes of K
element k, `ga` and `gb` the scale codes of block j. -/
def mmaElem (F : Nat) (skip : Bool) (K : Nat) (a b ga gb : Nat → Nat) (acc : Nat) : Nat × Nat :=
  let C := chunkLen F
  let r := (List.range (K / C)).foldl (fun (st : Val × Nat) i =>
    let j := scaleIndex F i
    let x := blockScale F (ga j)
    let y := blockScale F (gb j)
    if skip && (x.nonFinite || y.nonFinite) then (st.1, if F = 0xD ∨ i % 2 = 0 then st.2 + 1 else st.2)
    else
      let g := if hasScales F then mulVal x y else .fin 1 0
      (addChunk st.1 ((List.range C).map (fun e => matProd F (a (i * C + e)) (b (i * C + e)))) g, st.2))
    (Fmt.fp32.decode acc, 0)
  (fp32Code r.1, r.2)

/-- The reuse latch after an MMA (R253). -/
def latchAfter (z : ZWord) : Option Nat := if z.rf then some (opdNum z.a) else none

/-- MMA (R255) (log 38, DEDUCED). A poisoned element, and a poisoned scale byte, of the B tile counts once in POISON (log 74, DESIGN
CHOICE). -/
def execMma (z : ZWord) (s : State) : Answer :=
  .next (s.matWord [1] (fun st key t m =>
    let F := m.tagOf (opdNum z.a)
    let skip := z.mod.getLsbD 0
    if skip ∧ F ≤ 0xF ∧ !hasScales F then .fault .illop
    else st.withReady key z.u1 t m (fun i x t =>
      let (K, needRows, needBytes) := mmaShape F
      if 0xE < F ∨ F ≠ x.fmt ∨ x.rows + 1 < needRows ∨ x.rowb + 1 < needBytes then .fault .illopd
      else
        let bits := matBits F
        let rowsB := (List.range needRows).map (fun r => t.tileRow x r needBytes (matBits F))
        let numB := rowsB.map (fun r => leNat r.1)
        let codeB (k c : Nat) : Nat :=
          if F ≤ 1 then numB.getD (2 * k + c / 32) 0 / 2 ^ (16 * (c % 32)) % 2 ^ 16 else numB.getD k 0 / 2 ^ (bits * c) % 2 ^ bits
        let J := if hasScales F then (scaleIndex F (K / chunkLen F - 1)) + 1 else 0
        let scalesB := (List.range J).map (fun j => t.matRead (16 * x.svp + 64 * j) 64)
        let bad := (rowsB ++ scalesB).foldl (fun acc r => acc + r.2) 0
        let out := (List.range tileElems).map (fun e =>
          let n := e / 64
          let c := e % 64
          let row := m.rowNum (opdNum z.a) n
          mmaElem F skip K (fun k => row / 2 ^ (bits * k) % 2 ^ bits) (fun k => codeB k c) (fun j => m.scaleAt (opdNum z.a) n j)
            (fun j => ((scalesB.getD j ([], 0)).1.getD c 0).toNat) (m.accAt (opdNum z.d) n c).toNat)
        let upd (m : Matrix) : Matrix :=
          { m.setAcc (opdNum z.d) (fun n c => BitVec.ofNat 32 (out.getD (n * 64 + c) (0, 0)).1) with latch := latchAfter z }
        .done (((st.countPoison t.owner bad).holdTile key i).updMatrix key upd)
          (some { holds := [i], skipblk := out.foldl (fun acc e => acc + e.2) 0 }))))

/-- The convolution descriptor (R256). -/
structure Conv where
  W : Nat
  H : Nat
  NB : Nat
  C : Nat
  pad : Nat
  dil : Nat
  str : Nat
  FW : Nat
  FH : Nat
  padL : Nat
  padT : Nat
  OW : Nat
  OH : Nat
  p0 : Nat
deriving DecidableEq, Repr

/-- The descriptor in six registers, where its fields are in range (R256). -/
def convOf (w : Nat → Nat) (mx : Bool) : Option Conv :=
  let hi (i : Nat) : Nat := w i / 2 ^ 16 % 2 ^ 16
  let lo (i : Nat) : Nat := w i % 2 ^ 16
  let d : Conv :=
    { W := hi 0, H := lo 0, NB := hi 1, C := lo 1, pad := w 2 / 2 ^ 24 % 256, dil := w 2 / 2 ^ 20 % 16, str := w 2 / 2 ^ 16 % 16
      FW := w 2 / 2 ^ 8 % 256, FH := w 2 % 256, padL := w 3 / 2 ^ 8 % 256, padT := w 3 % 256, OW := hi 4, OH := lo 4, p0 := w 5 }
  if d.W = 0 ∨ d.H = 0 ∨ d.NB = 0 ∨ d.C = 0 ∨ d.dil = 0 ∨ d.str = 0 ∨ d.FW = 0 ∨ d.FH = 0 ∨ d.OW = 0 ∨ d.OH = 0 ∨ hi 3 ≠ 0 ∨
    (mx ∧ d.C % 32 ≠ 0) then none else some d

/-- What column c takes for K row k: nothing beyond the filter, the pad code, or a pixel and channel of the image (R256). -/
inductive ConvSrc
  | zero | pad | at (pixel ci : Nat)
deriving DecidableEq, Repr

/-- Whether a column is masked (R256). -/
def Conv.masked (d : Conv) (c : Nat) : Bool := d.NB ≤ (d.p0 + c) / (d.OH * d.OW)

/-- The source of B[k][c] (R256). -/
def Conv.src (d : Conv) (c k : Nat) : ConvSrc :=
  let p := d.p0 + c
  let q := p % (d.OH * d.OW)
  let tap := k / d.C
  if d.FH * d.FW ≤ tap then .zero
  else
    let y : Int := ((q / d.OW * d.str + tap / d.FW * d.dil : Nat) : Int) - d.padT
    let x : Int := ((p % d.OW * d.str + tap % d.FW * d.dil : Nat) : Int) - d.padL
    if y < 0 ∨ (d.H : Int) ≤ y ∨ x < 0 ∨ (d.W : Int) ≤ x then .pad
    else .at ((p / (d.OH * d.OW) * d.H + y.toNat) * d.W + x.toNat) (k % d.C)

/-- MMA.CONV (R256). A poisoned 8-byte word of the image or of its scales counts once in POISON, however many elements it gives (log 74,
DESIGN CHOICE). -/
def execMmaConv (z : ZWord) (s : State) : Answer :=
  .next (s.matWord [1] (fun st key t m =>
    st.withReady key z.u1 t m (fun i x t =>
      let F := m.tagOf (opdNum z.a)
      if F ≠ x.fmt ∨ (F ≠ 0x7 ∧ F ≠ 0xC) then .fault .illopd
      else
        match convOf (fun j => (((st.group0 key).map (fun g => (st.group g).reg (z.u2 + j))).getD 0).toNat) (F == 0xC) with
        | none => .fault .illopd
        | some d =>
          if 64 * x.extent < d.NB * d.H * d.W * d.C then .fault .illopd
          else
            let k0 := 64 * z.n.toNat
            let cols := (List.range 64).filter (fun c => !d.masked c)
            let srcs := cols.map (fun c => (c, (List.range 64).map (fun k => d.src c (k0 + k))))
            let scaleAddr (p ci : Nat) : Nat := 16 * x.svp + p * d.C / 32 + ci / 32
            let beyond := F == 0xC && srcs.any (fun e => e.2.any (fun r =>
              match r with
              | .at p ci => t.scratchSize ≤ scaleAddr p ci
              | .zero => false | .pad => false))
            if beyond then .fault .bounds
            else
              let pixels := srcs.flatMap (fun e => e.2.filterMap (fun r =>
                match r with
                | .at p ci => some (p * d.C + ci)
                | .zero => none | .pad => none))
              let words := (pixels.map (fun b => (64 * x.base + b) / 8)).eraseDups
              let scaleWords := if F = 0xC then
                  (srcs.flatMap (fun e => e.2.filterMap (fun r =>
                    match r with
                    | .at p ci => some (scaleAddr p ci / 8)
                    | .zero => none | .pad => none))).eraseDups else []
              let bad := (words ++ scaleWords).countP (fun w => Tab.getD t.scratchPoison false w)
              let byteAt (a : Nat) : Nat := leNat (t.matRead a 1).1
              let code (r : ConvSrc) : Nat :=
                match r with
                | .zero => 0
                | .pad => d.pad
                | .at p ci => byteAt (64 * x.base + p * d.C + ci)
              let scale (r : ConvSrc) : Nat :=
                match r with
                | .zero => 127
                | .pad => 127
                | .at p ci => byteAt (scaleAddr p ci)
              let colCodes := srcs.map (fun e => (e.1, e.2.map code, (List.range 2).map (fun j => scale (e.2.getD (32 * j) .zero))))
              let val (n c : Nat) : Word :=
                match colCodes.find? (fun e => e.1 == c) with
                | none => m.accAt (opdNum z.d) n c
                | some (_, codes, scales) =>
                  let row := m.rowNum (opdNum z.a) n
                  BitVec.ofNat 32 (mmaElem F false 64 (fun k => row / 2 ^ (8 * k) % 256) (fun k => codes.getD k 0)
                    (fun j => m.scaleAt (opdNum z.a) n j) (fun j => scales.getD j 127) (m.accAt (opdNum z.d) n c).toNat).1
              .done (((st.countPoison t.owner bad).holdTile key i).updMatrix key
                  (fun m => { m.setAcc (opdNum z.d) val with latch := latchAfter z }))
                (some { holds := [i], convtail := 64 - cols.length }))))

/-! ### Sorted-level products (R257..R259) -/

/-- The sorted-level sum of one element (R257): the level table, the four entries, and the activation of row 32g + i. -/
def mmasSum (table : Nat) (entry : Nat → Nat) (x : Nat → Int) : Int :=
  let base := table % 64
  let d (j : Nat) : Nat := table / 2 ^ (5 * j + 1) % 32
  (List.range 4).foldl (fun Z g =>
    let e := entry g
    let xs := (List.range 32).map (fun i => x (32 * g + e / 2 ^ (5 * i) % 32))
    let off (j : Nat) : Nat := min (e / 2 ^ (160 + 6 * j) % 64) 32
    let tail (from' : Nat) : Int := (xs.drop from').foldl (· + ·) 0
    let first : Int := (if base / 32 = 1 then -1 else 1) * (ln6Mag base : Int) * tail 0
    (List.range 15).foldl (fun acc j => acc + (ln6Mag (d (j + 1)) : Int) * tail (off j)) (Z + first)) 0

/-- MMAS (R257). Of a level table with a poisoned word, that word's bytes read as zero, and the table counts once in POISON (log 74,
DESIGN CHOICE). -/
def execMmas (z : ZWord) (s : State) : Answer :=
  .next (s.matWord [1, 2] (fun st key t m =>
    match st.matTile key z.u1, st.matTile key z.u2 with
    | some (ib, tb), some (il, tl) =>
      let p := z.mod.toNat % 4
      let k := opdNum z.a
      let zi := opdNum z.d
      let src := Tab.getD m.psrc 16 p
      if tb.st ≠ .ready ∨ tl.st ≠ .ready then .wait none
      else if tb.fmt ≠ 7 ∨ !tb.sve ∨ tb.rows < 127 ∨ tb.rowb ≠ 63 ∨ tl.fmt ≠ 0xF ∨ tl.rows < 127 ∨ tl.rowb < 11 ∨ m.tagOf k ≠ 0xF ∨
        src = 17 ∨ (src ≤ 15 ∧ src ≠ k) then .fault .illopd
      else
        let tB := t.withEarly m tb.gen
        let tL := t.withEarly m tl.gen
        let rowsB := (List.range 128).map (fun r => tB.matRead (64 * tb.base + 16 * tb.pitch * r) 64)
        let tables := (List.range 128).map (fun r => tL.matRead (64 * tl.base + 16 * tl.pitch * r) 12 96)
        let eas := tB.matRead (16 * tb.svp) 64
        let bad := (rowsB ++ tables ++ [eas]).foldl (fun acc r => acc + r.2) 0
        let ea (c : Nat) : Nat := (eas.1.getD c 0).toNat
        let table (n : Nat) : Nat := leNat (tables.getD n ([], 0)).1
        let ew (n : Nat) : Nat := table n / 2 ^ 81 % 256
        let held := Tab.getD m.zst false zi
        let clash := held && ((List.range 128).any (fun n => Tab.getD m.zew 0 (zi * 128 + n) != BitVec.ofNat 8 (ew n)) ||
          (List.range 64).any (fun c => Tab.getD m.zea 0 (zi * 64 + c) != BitVec.ofNat 8 (ea c)))
        if clash then .fault .illopd
        else
          let perm := st.readPerm (key / 32) t.uid
          let sums := (List.range tileElems).map (fun e =>
            let n := e / 64
            let c := e % 64
            let Z := mmasSum (table n) (fun g => (Tab.getD perm 0 (512 * p + 4 * n + g)).toNat)
              (fun r => asInt true 8 ((rowsB.getD r ([], 0)).1.getD c 0).toNat)
            if held then Z + m.zAt zi n c else Z)
          let clamped := if held then sums.countP (fun v => satS 48 v != v) else 0
          let upd (m : Matrix) : Matrix :=
            { m with
              z := Tab.putRange m.z (zi * tileElems) (sums.map (fun v => BitVec.ofInt 48 (satS 48 v)))
              zst := Tab.put m.zst zi true
              zew := Tab.putRange m.zew (zi * 128) ((List.range 128).map (fun n => BitVec.ofNat 8 (ew n)))
              zea := Tab.putRange m.zea (zi * 64) ((List.range 64).map (fun c => BitVec.ofNat 8 (ea c))) }
          .done ((((st.countPoison t.owner bad).holdTile key ib).holdTile key il).updMatrix key upd)
            (some { holds := [ib, il], satcnt := clamped })
    | _, _ => .fault .illopd))

/-- A running-sum register cleared (R259). -/
def Matrix.clearZ (m : Matrix) (i : Nat) : Matrix :=
  { m with z := m.z.filter (fun e => e.1 / tileElems != i), zst := Tab.put m.zst i false }

/-- One element of MZFLUSH (R259). -/
def flushElem (acc : Nat) (z : Int) (ew ea : Nat) : Nat :=
  fp32Code (addRNE (Fmt.fp32.decode acc) (mulVal (Val.exact z (-16)) (mulVal (decodeE8M0 ew) (decodeE8M0 ea))))

/-- MZFLUSH (R259). -/
def execMzflush (z : ZWord) (s : State) : Answer :=
  .next (s.matWord [1] (fun st key _ m =>
    let zi := opdNum z.a
    let ai := opdNum z.d
    let folded := if Tab.getD m.zst false zi then
        m.setAcc ai (fun n c => BitVec.ofNat 32 (flushElem (m.accAt ai n c).toNat (m.zAt zi n c)
          (Tab.getD m.zew 0 (zi * 128 + n)).toNat (Tab.getD m.zea 0 (zi * 64 + c)).toNat))
      else m
    .done (st.updMatrix key (fun _ => if z.mod.getLsbD 0 then folded else folded.clearZ zi)) (some {})))

/-- MZCLR (R259). -/
def execMzclr (z : ZWord) (s : State) : Answer :=
  .next (s.matWord [1] (fun st key _ _ => .done (st.updMatrix key (fun m => m.clearZ (opdNum z.d))) (some {})))

/-- MZERO (R259). -/
def execMzero (z : ZWord) (s : State) : Answer :=
  .next (s.matWord [1] (fun st key _ _ =>
    .done (st.updMatrix key (fun m => { m with acc := m.acc.filter (fun e => e.1 / tileElems != opdNum z.d) })) (some {})))

/-! ### Drains (R260, R261) -/

/-- The scratch writes of the rows of a tile, one for each 8-byte location (R207, R265). -/
def drainWrites (x : Tile) (rows : List (Nat × List Byte)) : List (Nat × List Byte) :=
  rows.flatMap (fun r => (List.range 8).map (fun j => (64 * x.base + 16 * x.pitch * r.1 + 8 * j, (r.2.drop (8 * j)).take 8)))

/-- A drain word: it waits until its tile is empty, and then moves it to draining and writes rows of the tile. -/
def State.drainWord (s : State) (z : ZWord)
    (act : State → Nat → Team → Matrix → Tile → Except Cls (List (Nat × List Byte) × Nat × Nat)) : State :=
  s.matWord [3] (fun st key t m =>
    match st.matTile key z.u1 with
    | none => .fault .illopd
    | some (i, x) =>
      if x.st ≠ .empty then .wait none
      else
        match act st key (t.withEarly m x.gen) m x with
        | .error c => .fault c
        | .ok (rows, satcnt, bad) =>
          .done ((st.countPoison t.owner bad).turnTile (key / 32) i { x with st := .draining })
            (some { satcnt, drain := some (i, z.mod.getLsbD 1), writes := drainWrites x rows }))

/-- MSTORE (R260). -/
def execMstore (z : ZWord) (s : State) : Answer :=
  .next (s.drainWord z (fun _ _ _ m x =>
    if x.rows + 1 < 256 ∨ x.rowb + 1 < 64 then .error .illopd
    else
      let h := if z.mod.getLsbD 0 then 64 else 0
      .ok ((List.range 256).map (fun q => (q, (List.range 16).flatMap (fun c =>
        leBytes 4 (m.accAt (opdNum z.a) (h + q / 4) (16 * (q % 4) + c)).toNat))), 0, 0)))

/-- One element that MCVT writes, and whether SATCNT counts it (R261); one that is 0x7F or 0 because its scale is 0xFF counts too (log 75,
DESIGN CHOICE). -/
def mcvtElem (fmt : Nat) (sat : Bool) (rm : Rm) (acc scale e : Nat) : Nat × Bool :=
  let v := mulVal (Fmt.fp32.decode acc) (Fmt.fp32.decode scale)
  match fmt with
  | 0x7 => ((toInt v 8 true rm % 2 ^ 8).toNat, v.nonFinite || satS 8 (roundInt v rm) != roundInt v rm)
  | 0x9 =>
    let w := v.scale (127 - e)
    if v.isNan ∨ e = 0xFF then (0x7F, true) else (satRound w .e4m3 rm, overflows w .e4m3 rm)
  | 0xC =>
    let w := v.scale (133 - e)
    if v.isNan ∨ e = 0xFF then (0, true)
    else
      match w with
      | .inf neg => (if neg then 0x80 else 0x7F, true)
      | w => ((satS 8 (roundInt w rm) % 2 ^ 8).toNat, satS 8 (roundInt w rm) != roundInt w rm)
  | c =>
    match fmtOfCode c with
    | some f => (if sat then satRound v f rm else round v f rm, !v.isNan && overflows v f rm)
    | none => (0, false)

/-- MCVT (R261). A poisoned scale byte reads as zero and counts once in POISON (log 74, DESIGN CHOICE). -/
def execMcvt (z : ZWord) (s : State) : Answer :=
  .next (s.drainWord z (fun st key t m x =>
    let fmt := z.sub.toNat
    let wideFmt := fmt ≤ 1
    if x.fmt ≠ fmt ∨ x.rows + 1 < (if wideFmt then 256 else 128) ∨ x.rowb + 1 < 64 then .error .illopd
    else
      let scale := (st.uniOf key z.u2).toNat
      let mx := fmt = 0x9 ∨ fmt = 0xC
      let scales := (List.range 4).map (fun j => if mx then t.matRead (16 * x.svp + 64 * j) 64 else ([], 0))
      let elem (n c : Nat) : Nat × Bool :=
        mcvtElem fmt (z.mod.getLsbD 0) ((Rm.ofCode z.rm.toNat).getD .rn) (m.accAt (opdNum z.a) n c).toNat scale
          ((scales.getD (n / 32) ([], 0)).1.getD c 0).toNat
      let els := (List.range tileElems).map (fun j => elem (j / 64) (j % 64))
      let at' (n c : Nat) : Nat := (els.getD (n * 64 + c) (0, false)).1
      let rows := if wideFmt then
          (List.range 256).map (fun q => (q, (List.range 32).flatMap (fun c => leBytes 2 (at' (q / 2) (32 * (q % 2) + c)))))
        else (List.range 128).map (fun n => (n, (List.range 64).map (fun c => BitVec.ofNat 8 (at' n c))))
      .ok (rows, els.countP (·.2), scales.foldl (fun acc r => acc + r.2) 0)))

/-! ### Barriers, waits and the end (R262, R263) -/

/-- MBAR.ARR (R262): after every earlier word has completed, one arrival of the sequencer. -/
def execMbarArr (z : ZWord) (s : State) : Answer :=
  .next (s.matWord [] (fun st key t m =>
    if t.nbars ≤ z.n.toNat then .fault .illopd
    else .done ((st.completeAll key).barEvent key z.n.toNat (fun b => b.arrive 0 true) m.view) none))

/-- MBAR.WAIT (R262). -/
def execMbarWait (z : ZWord) (s : State) : Answer :=
  .next (s.matWord [] (fun st key t _ =>
    let b := Tab.getD t.bars {} z.n.toNat
    if t.nbars ≤ z.n.toNat then .fault .illopd
    else if b.ph ≠ z.mod.getLsbD 0 then .done (st.updMatrix key (fun m => { m with view := m.view ++ b.carried, early := [] })) none
    else .wait (some z.n.toNat)))

/-- MWAITT (R263). -/
def execMwaitt (z : ZWord) (s : State) : Answer :=
  .next (s.matWord [] (fun st key _ _ =>
    match st.matTile key z.u1 with
    | none => .fault .illopd
    | some (_, x) => if x.st.code = z.sub.toNat then .done st none else .wait none))

/-- MFENCE (R263): every earlier word has completed, and no later word has read anything (R265). -/
def execMfence (_ : ZWord) (s : State) : Answer :=
  .next (s.matWord [] (fun st key _ _ => .done ((st.completeAll key).updMatrix key (fun m => { m with early := [], fence := m.widx + 1 })) none))

/-- MEND (R263). -/
def execMend (_ : ZWord) (s : State) : Answer :=
  .next (match s.sequencer s.cur.core with
    | some (key, _, m) => if m.st = .ended ∨ m.st = .faulted then s else s.endStream key none
    | none => s)

/-! ### Permutation forms (R152, R153, R264) -/

/-- PERMB in a stream (R264): the 512 entries of a bank from the rows of a tile register. -/
def State.permbStream (s : State) (z : ZWord) : State :=
  s.matWord [2] (fun st key t m =>
    let k := opdNum z.a
    let bank := z.mod.toNat % 4
    if m.tagOf k ≠ 0xF then .fault .illopd
    else
      let perm := (List.range 128).foldl (fun p n =>
        permRow p bank n ((List.range 128).map (fun i => m.rowNum k n / 2 ^ (4 * i) % 16))) (st.core (key / 32)).perm
      .done ((st.rewritePerm (key / 32) t.uid perm).setPsrc key bank k) (some {}))

/-- PERMB (R152, R264). -/
def execPermb (w : PermWord) (s : State) : Answer :=
  .next (match w with
    | .pipe f => s.permbPipe f
    | .stream z => s.permbStream z)

/-- PERMLD in a stream (R264). A poisoned word that it reads counts once in POISON, as in a pipe (log 74, DESIGN CHOICE). -/
def State.permldStream (s : State) (z : ZWord) : State :=
  s.matWord [0] (fun st key t m =>
    let a := (st.uniOf key z.u1).toNat
    match permRange a (st.uniOf key z.u2).toNat with
    | none => .fault .illopd
    | some (first, count) =>
      if t.scratchSize < a + 32 * count then .fault .bounds
      else
        let r := (t.withEarly m 0).matRead a (32 * count) 64
        let s1 := (st.countPoison t.owner r.2).rewritePerm (key / 32) t.uid (permFromBytes (st.core (key / 32)).perm first count r.1)
        .done ((permBanks first count).foldl (fun acc b => acc.setPsrc key b 16) s1) (some {}))

/-- PERMLD (R153, R264). -/
def execPermld (w : PermWord) (s : State) : Answer :=
  .next (match w with
    | .pipe f => s.permldPipe f
    | .stream z => s.permldStream z)

/-- The scratch writes of consecutive bytes, one for each 8-byte location (R207, R265). -/
def permWrites (a : Nat) (bs : List Byte) : List (Nat × List Byte) :=
  (List.range (bs.length / 8)).map (fun j => (a + 8 * j, (bs.drop (8 * j)).take 8))

/-- PERMST in a stream (R264). -/
def State.permstStream (s : State) (z : ZWord) : State :=
  s.matWord [0] (fun st key t _ =>
    let a := (st.uniOf key z.u1).toNat
    match permRange a (st.uniOf key z.u2).toNat with
    | none => .fault .illopd
    | some (first, count) =>
      if t.scratchSize < a + 32 * count then .fault .bounds
      else .done st (some { writes := permWrites a (permToBytes (st.readPerm (key / 32) t.uid) first count) }))

/-- PERMST (R153, R264). -/
def execPermst (w : PermWord) (s : State) : Answer :=
  .next (match w with
    | .pipe f => s.permstPipe f
    | .stream z => s.permstStream z)

end Sys2Proof.Machine
end

