-- ==== Sys2Proof/Machine/Handlers.lean ====
section
/-! DEFINITION. The handler forms (R176..R182) and the handler groups' events (R172, R174). -/

namespace Sys2Proof.Machine

/-! ### Waiters, wherever their team is -/

/-- A thread of a saved group changed. -/
def SavedGroup.updThread (g : SavedGroup) (lane : Nat) (f : Thread → Thread) : SavedGroup :=
  { g with threads := Tab.upd g.threads lane f }

/-- A waiter's thread changed where its group is saved in a sealed context (R183, R363). -/
def Ctx.updWaiter (c : Ctx) (w : Waiter) (f : Thread → Thread) : Ctx :=
  { c with teams := c.teams.map (fun t =>
      { t with groups := t.groups.map (fun g => if g.group.uid = w.uid then g.updThread w.lane f else g) })
           handlers := c.handlers.map (fun e => if e.2.group.uid = w.uid then (e.1, e.2.updThread w.lane f) else e) }

/-- A released waiter becomes ready with FREC.v = 0 (R180, R357); one of class SVC or DEBUG moves past its word. -/
def Thread.retry (t : Thread) (past : Bool) : Thread :=
  let t1 := { t with st := .ready, frec := { t.frec with v := false } }
  if past then { t1 with pc := t1.pc + 8 }.passWords {} 1 else t1

/-- A released waiter's word retried (R180). -/
def State.retryWaiter (s : State) (cls : Cls) (w : Waiter) : State :=
  let past := cls == .svc || cls == .debug
  match s.findGroup w.uid with
  | some g => (s.updThread (tkey g w.lane) (fun t => t.retry past)).takeKnown (tkey g w.lane)
  | none => { s with ctxs := s.ctxs.map (fun e =>
      let c := e.2.updWaiter w (fun t => t.retry past)
      (e.1, if c = e.2 ∨ !c.swapped then c else { c with readyAt := s.now })) }

/-- A SYNCG of a saved group completes when every thread that has not exited is at it (R139). The seal that saved the group has performed
every store that its threads had issued or observed (R233), so the departures have none left to acquire. -/
def SavedGroup.syncComplete (g : SavedGroup) : SavedGroup :=
  let live := g.threads.filter (fun e => e.2.st ≠ .exited)
  if live.all (fun e => e.2.st == .atSync) then
    { g with threads := g.threads.map (fun e => (e.1, if e.2.st = .atSync then { e.2 with st := .ready, pc := e.2.pc + 8 } else e.2)) }
  else g

/-- A waiter of a sealed context exits, and may complete a SYNCG of its group (R136, R139). -/
def Ctx.exitWaiter (c : Ctx) (w : Waiter) (f : Thread → Thread) : Ctx :=
  let sync (g : SavedGroup) : SavedGroup := if g.group.uid = w.uid then g.syncComplete else g
  let c1 := c.updWaiter w (fun t => (f t).gone)
  { c1 with teams := c1.teams.map (fun t => { t with groups := t.groups.map sync }), handlers := c1.handlers.map (fun e => (e.1, sync e.2)) }

/-- A released waiter exits (R180). -/
def State.exitWaiter (s : State) (w : Waiter) : State :=
  let clear (t : Thread) : Thread := { t with frec := { t.frec with v := false } }
  match s.findGroup w.uid with
  | some g => (s.updThread (tkey g w.lane) clear).exitThread (tkey g w.lane)
  | none => { s with ctxs := s.ctxs.map (fun e =>
      let c := e.2.exitWaiter w clear
      (e.1, if c = e.2 ∨ !c.swapped then c else { c with readyAt := s.now })) }

/-! ### TLBW and TLBINV (R177, R178) -/

/-- The encoding rules of an entry that TLBW checks (R163, R177). -/
def tlbFormed (e : BitVec 128) : Bool :=
  tlbV e && e.extractLsb' 116 4 == 0 && e.extractLsb' 92 18 == 0 && e.extractLsb' 48 16 == 0 && e.extractLsb' 0 16 == 0 &&
    (!tlbSz e || (tlbPage e % 32 == 0 && tlbFrame e % 32 == 0)) && tlbPage e * 2 ^ 16 < reserveBase

/-- Whether [frame, frame + n) of AA lies in one valid extent of the owner with rsv = 0. -/
def Owner.holdsAA (o : Owner) (aa n : Nat) : Bool := (o.extentOf aa n).isSome

/-- The fault ALLOT of TLBW and FPUSH: aux holds the frame number (R171, R177). No access has an address here: the address is the word's PC,
and the access code 0 (log 76, DESIGN CHOICE). -/
def State.allotFault (s : State) (k frame : Nat) : FaultInfo :=
  { cls := .allot, addr := (s.thread k).pc.toNat, aux := BitVec.ofNat 32 frame }

/-- The entries of an owner's two partitions on a core (R164) (log 27, DEDUCED). -/
def tlbRoom : Nat := 1056

/-- Whether a group is held off the cores, in a sealed context or as a comet (R183, R320). -/
def State.isAway (s : State) (uid : Nat) : Bool :=
  s.comets.any (fun c => c.saved.group.uid == uid) ||
  s.ctxs.any (fun e => e.2.teams.any (fun t => t.groups.any (fun g => g.group.uid == uid)) || e.2.handlers.any (fun h => h.2.group.uid == uid))

/-- Whether a released waiter has no look-up still to make on a core (R164): it has exited, or its group has ended or is on another core. -/
def State.noLookup (s : State) (core : Nat) (w : Waiter) : Bool :=
  match s.findGroup w.uid with
  | some g => g / 512 != core || (s.thread (tkey g w.lane)).st == .exited
  | none => !s.isAway w.uid

/-- Whether an entry may be dropped (R164): it is not held, its installer's group has retired (a sealed one has not), or a TRET of its installer has released
threads, each has retried or exited, and the installer's group holds no record of its page whose waiters still need it
(log 27, DEDUCED). -/
def State.tlbFree (s : State) (core : Nat) (e : TlbEntry) : Bool :=
  match e.hold with
  | none => true
  | some h => ((s.findGroup h.installer.uid).isNone && !s.isAway h.installer.uid) ||
      (h.released.any (fun ws => ws.all (s.noLookup core)) &&
       (s.core core).recs.all (fun r => r.2.claimed != some h.installer.uid || !tlbHolds e.bits r.2.ova))

/-- Where an owner's partitions are full, a new entry replaces one that may be dropped, or else the held entry that was installed
earliest (R164). -/
def State.tlbRoomFor (s : State) (core o : Nat) (es : List TlbEntry) : List TlbEntry :=
  let mine (e : TlbEntry) : Bool := e.owner == o
  if es.countP mine < tlbRoom then es
  else
    let free := es.findIdx (fun e => mine e && s.tlbFree core e)
    es.eraseIdx (if free < es.length then free else es.findIdx mine)

/-- One TLBW of a thread (R177). -/
def State.tlbwFor (s : State) (k : Nat) (e : BitVec 128) : Except FaultInfo State :=
  let o := (s.group (k / 32)).owner
  let core := k / 32 / 512
  if !tlbFormed e then .error (s.pcFault k .illopd)
  else if !(s.owner o).holdsAA (tlbFrame e * 2 ^ 16) (tlbBytes e) then .error (s.allotFault k (tlbFrame e))
  else .ok (s.updCore core (fun c =>
    { c with tlb := s.tlbRoomFor core o (c.tlb.filter (fun x => !(x.owner == o && tlbOverlap x.bits e))) ++
        [{ owner := o, bits := e, hold := some { installer := { uid := (s.group (k / 32)).uid, lane := k % 32 } } }] }))

/-- TLBW (R177). -/
def execTlbw (f : FWord) (s : State) : Answer :=
  let e := s.enter f.guard {} (fUses f false true true false) .handlerOnly
  .next (e.lanes.foldl (fun acc k =>
    match acc.tlbwFor k (acc.rd k f.b true ++ acc.rd k f.a true) with
    | .error fi => acc.raise k fi
    | .ok s1 => (s1.freeLu k f 2 2 1).advance {} [k]) e.state)

/-- The cores that a TLBINV scope names, of those with entries (R178). -/
def State.invCores (s : State) (core scope : Nat) : List Nat :=
  (s.cores.map (·.1)).filter (fun c => if scope = 2 then c == core else if scope = 4 then dieOf c == dieOf core else true)

/-- Whether an entry is one that TLBINV removes (R178). -/
def invMatches (kind : Nat) (a : DWord) (e : BitVec 128) : Bool :=
  match kind with
  | 0 => tlbHolds e (a.toNat % 2 ^ 48)
  | 1 => !tlbG e && tlbAsp e == a.toNat % 256
  | _ => true

/-- The pending operations on the named cores that were translated through an entry that TLBINV removes, whether or not the entry still
stands: each operation holds the entry that its translation found (R164, R178). -/
def State.throughRemoved (s : State) (owner kind : Nat) (a : DWord) (cores : List Nat) : List Nat :=
  (s.ops.filter (fun o => o.owner == owner && cores.contains o.core && o.entry.any (invMatches kind a))).map Op.id

/-- TLBINV for one thread: the accesses through the removed entries are performed first; where one cannot be, the thread stays
at the word (R178). -/
def State.tlbinvFor (s : State) (k : Nat) (f : FWord) : State :=
  let owner := (s.group (k / 32)).owner
  let kind := f.sub.toNat
  let a := s.rd k f.a true
  let cores := s.invCores (k / 32 / 512) f.sc.toNat
  let ids := s.throughRemoved owner kind a cores
  let s1 := ids.foldl (fun acc i => match acc.op? i with | some o => acc.tryOp o | none => acc) s
  if ids.any (fun i => (s1.op? i).isSome) then s1
  else
    let s2 := cores.foldl (fun acc c => acc.updCore c (fun x =>
      { x with tlb := x.tlb.filter (fun e => !(e.owner == owner && invMatches kind a e.bits)) })) s1
    (s2.freeLu k f 2 1 1).advance {} [k]

/-- TLBINV (R178). -/
def execTlbinv (f : FWord) (s : State) : Answer :=
  let e := s.enter f.guard {} (fUses f false true false false) .handlerOnly
  .next (e.lanes.foldl (fun acc k => acc.tlbinvFor k f) e.state)

/-! ### WALKRD and TRET (R179, R180) -/

/-- A record as the 128 bits that WALKRD gives (R171). -/
def MissRec.bits (r : MissRec) (rid : Nat) : BitVec 128 :=
  BitVec.ofNat 128 (r.cls.code * 2 ^ 124 + r.acc.code * 2 ^ 122 + 2 ^ 121 + (if r.nest then 2 ^ 120 else 0) + rid % 64 * 2 ^ 114 +
    r.nwait % 2 ^ 14 * 2 ^ 100 + r.gslot % 512 * 2 ^ 91 + r.lane % 32 * 2 ^ 86 + r.cause2.code * 2 ^ 82 + r.aux.toNat * 2 ^ 48 +
    r.ova % 2 ^ 48)

/-- Whether a handler group may claim a record (R179). -/
def Group.mayClaim (g : Group) (r : MissRec) : Bool :=
  r.claimed.isNone && r.owner == g.owner && r.cls == g.hcls && r.nest == (g.hdepth == 2)

/-- The oldest record of a core that satisfies a test. -/
def Core.oldest (c : Core) (p : MissRec → Bool) : Option (Nat × MissRec) :=
  (sortBy (fun e => e.2.order) (c.recs.filter (fun e => p e.2))).head?

/-- A 128-bit value written to four window registers. -/
def State.wrQuad (s : State) (k : Nat) (d : Opd) (v : BitVec 128) : State :=
  match d with
  | .w i => s.updThread k (fun t => (List.range 4).foldl (fun t j =>
      t.setReg (t.winbase + i + j) (v.extractLsb' (32 * j) 32)) t)
  | _ => s

/-- WALKRD (R179): records go to the active threads in ascending index, oldest first. -/
def execWalkrd (f : FWord) (s : State) : Answer :=
  let e := s.enter f.guard {} [⟨f.d, 4, true⟩] .handlerOnly
  .next (e.lanes.foldl (fun acc k =>
    let g := acc.group (k / 32)
    let core := k / 32 / 512
    match (acc.core core).oldest g.mayClaim with
    | none => (acc.wrQuad k f.d 0).advance {} [k]
    | some (i, r) =>
      ((acc.updCore core (fun c => { c with recs := Tab.upd c.recs i (fun x => { x with claimed := some g.uid, name := i }) })).wrQuad k f.d
        (r.bits i)).advance {} [k]) e.state)

/-- The streams of teams that are swapped out or sealed end at their restoration, as faults of class XMISS (R183, R245). -/
def State.endSavedStreams (s : State) (uids : List Nat) : State :=
  { s with ctxs := s.ctxs.map (fun e => (e.1, { e.2 with teams := e.2.teams.map (fun t =>
      if uids.contains t.team.uid then { t with streamEnds := true } else t) })) }

/-- The sequencers of teams that are swapped out or sealed fetch again at their restoration (R183, R245). -/
def State.fetchSaved (s : State) (uids : List Nat) : State :=
  { s with ctxs := s.ctxs.map (fun e => (e.1, { e.2 with teams := e.2.teams.map (fun t =>
      if uids.contains t.team.uid then
        { t with team := { t.team with matrix := t.team.matrix.map (fun m => { m with missing := false }) } }
      else t) })) }

/-- The record that a group holds as claimed under a number (R180). -/
def Core.heldRec (c : Core) (uid rid : Nat) : Option Nat :=
  (c.recs.find? (fun e => e.2.claimed == some uid && e.2.name == rid)).map (·.1)

/-- A record released: its waiters retry or exit, a waiting sequencer fetches again or ends its stream, and the record frees
for the threads that wait for one (R170, R180, R245). -/
def State.releaseRecord (s : State) (core rid : Nat) (retry : Bool) : State :=
  match Tab.find (s.core core).recs rid with
  | none => s
  | some r =>
    let s1 := s.updCore core (fun c => { c with recs := Tab.del c.recs rid })
    let s2 := if retry then (r.waiters.foldl (fun acc w => acc.retryWaiter r.cls w) (s1.fetchSaved r.seqTeams)).invalidateL1 core r.owner
      else (r.waiters.foldl State.exitWaiter s1).endSavedStreams r.seqTeams
    let s3 := (r.seqTeams.filterMap s2.findTeam).foldl (fun acc key =>
      if retry then acc.updMatrix key (fun m => { m with missing := false }) else acc.endStream key (some .xmiss)) s2
    s3.serveRecWaits core

/-- The entries that a handler thread installed before a TRET stay until the threads it releases have retried (R164). -/
def State.holdFor (s : State) (k rid : Nat) : State :=
  let me : Waiter := { uid := (s.group (k / 32)).uid, lane := k % 32 }
  s.updCore (k / 32 / 512) (fun c =>
    let ws := ((Tab.find c.recs rid).map MissRec.waiters).getD []
    { c with tlb := c.tlb.map (fun e => match e.hold with
        | some h => if h.installer = me then { e with hold := some { h with released := some (h.released.getD [] ++ ws) } } else e
        | none => e) })

/-- Threads of a group that have issued: they have looked up the entries that were held for them (R164). -/
def State.lookedUp (s : State) (g : Nat) (lanes : List Nat) : State :=
  let uid := (s.group g).uid
  s.updCore (g / 512) (fun c => { c with tlb := c.tlb.map (fun e => match e.hold with
      | some h => { e with hold := some { h with released := h.released.map (fun ws =>
          ws.filter (fun w => !(w.uid == uid && lanes.contains w.lane))) } }
      | none => e) })

/-- A TRET word (R180): a release at device scope; a record that the group does not hold is left unchanged. -/
def State.tret (s : State) (f : FWord) (retry : Bool) : State :=
  let e := s.enter f.guard {} (fUses f false false false false) .handlerOnly
  let bad := e.lanes.filter (fun k => 64 ≤ s.rdNat k f.a)
  let s1 := bad.foldl (fun acc k => acc.raisePc k .illopd) e.state
  let d := s1.drainAll (e.lanes.filter (fun k => s.rdNat k f.a < 64)) 5
  d.2.foldl (fun acc k =>
    let core := k / 32 / 512
    ((match (acc.core core).heldRec (acc.group (k / 32)).uid (acc.rdNat k f.a) with
      | some rid => (acc.holdFor k rid).releaseRecord core rid retry
      | none => acc).freeLu k f 1 1 1).advance {} [k]) d.1

/-- TRET.retry (R180). -/
def execTretRetry (f : FWord) (s : State) : Answer := .next (s.tret f true)

/-- TRET.exit (R180). -/
def execTretExit (f : FWord) (s : State) : Answer := .next (s.tret f false)

/-! ### The pool (R169, R181) -/

/-- Bytes of an owner's reserve as an atomic at device scope reads them. -/
def State.poolRead (s : State) (o off n : Nat) : Nat :=
  match (s.owner o).mapReserve off n with
  | some l => leNat ((s.homeRead l.world l.dpa n).clean l.dpa)
  | none => 0

/-- A pool operation of a core on a word of the owner's reserve: an atomic, which sends its request and removes its word's line from the
core's L1, whatever it then writes (R181, R217, R349). -/
def State.poolAtomic (s : State) (core o off : Nat) : State :=
  match (s.owner o).mapReserve off 4 with
  | some l =>
    (((s.updCore core (fun c => c.l1Drop (fun x => x.line == l.dpa / 128))).countPerf core o 5 1).activate o (some core) l.dpa 4).touch
      l.world l.dpa 4
  | none => s

/-- Bytes of an owner's reserve written by a pool operation (R181). -/
def State.poolWrite (s : State) (core o off v : Nat) : State :=
  match (s.owner o).mapReserve off 4 with
  | some l => (s.poolAtomic core o off).homeWrite l.world l.dpa (leBytes 4 v)
  | none => s

/-- The pool header, where it is well formed (R169): base, cap and top. -/
def State.poolHeader (s : State) (o : Nat) : Option (Nat × Nat × Nat) :=
  let base := s.poolRead o 0x100 4
  let cap := s.poolRead o 0x104 4
  let top := s.poolRead o 0x108 4
  if base % 4 = 0 ∧ 0x110 ≤ base ∧ base + 4 * cap ≤ (s.owner o).reserveLen ∧ top ≤ cap then some (base, cap, top) else none

/-- WALKBYTES raised (R173, R374). -/
def State.countWalk (s : State) (o n : Nat) : State := s.updOwner o (fun x => { x with walkbytes := satInc64 x.walkbytes n })

/-- FPOP's effect: the frame, or all ones; 20 bytes are charged where a frame moves and 12 otherwise (R181, R374). -/
def State.poolPop (s : State) (core o : Nat) : State × Nat :=
  match s.poolHeader o with
  | some (base, _, top + 1) =>
    (((s.poolAtomic core o (base + 4 * top)).poolWrite core o 0x108 top).countWalk o 20, s.poolRead o (base + 4 * top) 4)
  | _ => ((s.poolAtomic core o 0x108).countWalk o 12, 0xFFFFFFFF)

/-- FPUSH's effect after its checks. -/
def State.poolPush (s : State) (core o frame : Nat) : State × Nat :=
  match s.poolHeader o with
  | some (base, cap, top) =>
    if top = cap then ((s.poolAtomic core o 0x108).countWalk o 12, 0)
    else (((s.poolWrite core o (base + 4 * top) frame).poolWrite core o 0x108 (top + 1)).countWalk o 20, 1)
  | none => ((s.poolAtomic core o 0x108).countWalk o 12, 0)

/-- The thread's own pending accesses to its owner's reserve, which come before a pool operation (R218). -/
def State.reserveOps (s : State) (k : Nat) : List Nat :=
  ((s.threadOps k).filter (fun o => o.isMem && o.space == .g && reserveBase ≤ o.ova)).map Op.id

/-- A pool word: once for a uniform d, otherwise for each thread; a thread whose own accesses to the reserve cannot be
performed yet stays at the word. -/
def State.poolWord (s : State) (f : FWord) (act : State → Nat → Except FaultInfo (State × Nat)) : State :=
  let e := s.enter f.guard {} (fUses f false false false false) .handlerOnly
  let s1 := e.lanes.foldl (fun acc k => (acc.reserveOps k).foldl (fun a i =>
    match a.op? i with | some o => a.tryOp o | none => a) acc) e.state
  if e.lanes.any (fun k => !(s1.reserveOps k).isEmpty) then s1
  else if isUni f.d then
    match e.lanes with
    | [] => s1
    | k :: _ =>
      match act s1 k with
      | .error fi => s1.raiseAll e.lanes fi
      | .ok r => (r.1.wr k f.d false (BitVec.ofNat 64 r.2)).advance {} e.lanes
  else
    e.lanes.foldl (fun acc k =>
      match act acc k with
      | .error fi => acc.raise k fi
      | .ok r => ((r.1.freeLu k f 1 1 1).wr k f.d false (BitVec.ofNat 64 r.2)).advance {} [k]) s1

/-- FPOP (R181). -/
def execFpop (f : FWord) (s : State) : Answer :=
  .next (s.poolWord f (fun st k => .ok (st.poolPop (k / 32 / 512) (st.group (k / 32)).owner)))

/-- FPUSH (R181). -/
def execFpush (f : FWord) (s : State) : Answer :=
  .next (s.poolWord f (fun st k =>
    let a := st.rdNat k f.a
    let o := (st.group (k / 32)).owner
    if 2 ^ 28 ≤ a then .error (st.pcFault k .illopd)
    else if !(st.owner o).holdsAA (a * 2 ^ 16) (2 ^ 16) then .error (st.allotFault k a)
    else .ok (st.poolPush (k / 32 / 512) o a)))

/-- OWNHALT (R182): the owner halts with cause SELF; the threads stay ready at the word. -/
def execOwnhalt (f : FWord) (s : State) : Answer :=
  let e := s.enter f.guard {} (fUses f false false false false) .handlerOnly
  .next (e.lanes.foldl (fun acc k =>
    let g := acc.group (k / 32)
    acc.reportHalt g.owner { cause := .self, hd := g.hdepth, core := k / 32 / 512, gslot := k / 32 % 512, lane := k % 32
                             code := BitVec.ofNat 32 (acc.rdNat k f.a) }) e.state)

/-! ### Handler groups (R21, R172, R174) -/

/-- The group slot of an owner slot's handler (R21): 510 − 2k for depth 1 and 511 − 2k for depth 2. -/
def handlerSlot (ownerSlot depth : Nat) : Nat := 509 + depth - 2 * ownerSlot

/-- The unclaimed records that a depth's slot serves (R172). -/
def servesRec (o depth : Nat) (r : MissRec) : Bool := r.claimed.isNone && r.owner == o && r.nest == (depth == 2)

/-- A handler group as it starts (R172). -/
def handlerGroup (uid owner depth : Nat) (cls : Cls) (count : Nat) : Group :=
  { uid, owner, team := none, hdepth := depth, hcls := cls, allot := 48
    uni := [(0, BitVec.ofNat 32 cls.code), (1, BitVec.ofNat 32 count), (3, 0xFFF0)] }

/-- HANDLER_START (R172): an idle slot starts at the entry of the class of the oldest unclaimed record. It stays idle while that entry
of the owner's table is not valid (log 61, DESIGN CHOICE). -/
def State.handlerStart (s : State) (core owner depth : Nat) : State :=
  match (s.core core).slotOf owner with
  | none => s
  | some slot =>
    let key := gkey core (handlerSlot slot depth)
    if (s.group? key).isSome || s.isHalting owner || !(depth == 1 || depth == 2) then s
    else
      match (s.core core).oldest (servesRec owner depth) with
      | none => s
      | some (_, r) =>
        match s.handlerEntry owner r.cls depth with
        | none => s
        | some pc =>
          let count := (s.core core).recs.countP (fun e => servesRec owner depth e.2 && e.2.cls == r.cls)
          let s1 := { s with nextUid := s.nextUid + 1 }.setGroup key (handlerGroup s.nextUid owner depth r.cls count)
          (List.range 32).foldl (fun acc l => acc.setThread (tkey key l) { pc := BitVec.ofNat 64 pc, spilltop := 192 }) s1

/-- HANDLER_START (R172). -/
def execHandlerStart (core owner depth : Nat) (s : State) : Answer := .next (s.handlerStart core owner depth)

/-- The span of a window of R174, in ac. -/
def windowAc : Nat := 120000

/-- An owner's issues at the end of a window: an exhausted window is counted, any other resets the count (R174). -/
def Walk.close (x : Walk) (budget : Nat) : Walk := { used := 0, exhausted := if budget ≤ x.used then x.exhausted + 1 else 0 }

/-- The windows of a core closed up to the present one: the first of them is counted, and an owner with four consecutive exhausted ones
halts; a window after it that has passed without an issue is not exhausted (R174). The two handler groups share the budget: OSTAT names the
depth-1 slot, lane 0 and hd 0 (log 77, DESIGN CHOICE). -/
def State.walkWindowEnd (s : State) (core : Nat) : State :=
  let now := s.now / windowAc
  let c := s.core core
  if now = c.window then s
  else
    let close (e : Nat × Walk) : Walk := e.2.close (s.owner e.1).walkbudget
    let s1 := s.setCore core { c with
      window := now
      walks := c.walks.map (fun e =>
        let x := close e
        (e.1, if now = c.window + 1 ∧ x.exhausted < 4 then x else {})) }
    c.walks.foldl (fun acc e =>
      if 4 ≤ (close e).exhausted then
        acc.reportHalt e.1 { cause := .runaway, core, gslot := handlerSlot ((c.slotOf e.1).getD 0) 1 }
      else acc) s1

/-- WALK_WINDOW_END (R174). -/
def execWalkWindowEnd (core : Nat) (s : State) : Answer := .next (s.walkWindowEnd core)

end Sys2Proof.Machine
end

