-- ==== Sys2Proof/Machine/Queues.lean ====
section
/-! DEFINITION. Copy queues as threads see them (R274..R276, R292..R294, R313): bindings, control blocks, claims, CPYQ and
QSTAT. -/

namespace Sys2Proof.Machine

/-! ### Bindings (R274) -/

/-- The queue exists. -/
def qbV (b : BitVec 128) : Bool := b.getLsbD 127
/-- Packets may name host space. -/
def qbHp (b : BitVec 128) : Bool := b.getLsbD 126
/-- A privileged queue of the service cores. -/
def qbPv (b : BitVec 128) : Bool := b.getLsbD 125
/-- The queue's owner. -/
def qbOwner (b : BitVec 128) : Nat := (b.extractLsb' 119 6).toNat
/-- The number of slots. -/
def qbSlots (b : BitVec 128) : Nat := 2 ^ (b.extractLsb' 114 5).toNat
/-- The DPA of the control block. -/
def qbQcb (b : BitVec 128) : Nat := (b.extractLsb' 70 40).toNat * 64
/-- The DPA of slot 0. -/
def qbRing (b : BitVec 128) : Nat := (b.extractLsb' 30 40).toNat * 64

/-- The binding of a queue. -/
def State.binding (s : State) (q : Nat) : BitVec 128 := Tab.getD s.qbind 0 q

/-- The engine's state for a queue. -/
def State.queue (s : State) (q : Nat) : Queue := Tab.getD s.queues {} q

/-- A queue's state changed. -/
def State.updQueue (s : State) (q : Nat) (f : Queue → Queue) : State := { s with queues := Tab.put s.queues q (f (s.queue q)) }

/-- The world whose form a DPA of an owner's allotment is stored in. -/
def Owner.worldAt (o : Owner) (dpa : Nat) : Nat :=
  ((o.extents.find? (fun x => extDpa x ≤ dpa && dpa < extDpa x + extLen x)).map extWorld).getD 0

/-- The owner of a queue; a privileged queue has none, whatever its owner field holds (R274). -/
def State.queueOwner (s : State) (q : Nat) : Option Nat := if qbPv (s.binding q) then none else some (qbOwner (s.binding q))

/-- Poisoned words, or accesses that an expander fails, counted in the POISON of a queue's owner, where it has one (R199, R203, R274). -/
def State.queuePoison (s : State) (q n : Nat) : State := (s.queueOwner q).elim s (fun o => s.countPoison o n)

/-- The engine that serves a queue (R12, R274). -/
def engineOf (q : Nat) : Nat := q / 16

/-- The world whose form a queue's control block and ring are stored in; a privileged queue has no owner (R274). -/
def State.queueWorld (s : State) (q : Nat) : Nat :=
  let b := s.binding q
  if qbPv b then 0 else (s.owner (qbOwner b)).worldAt (qbQcb b)

/-! ### Control blocks and rings (R275, R276) -/

/-- A field of a queue control block. -/
def State.qcbRead (s : State) (q off n : Nat) : Nat :=
  let a := qbQcb (s.binding q) + off
  leNat ((s.homeRead (s.queueWorld q) a n).clean a)

/-- A field of a queue control block written. -/
def State.qcbWrite (s : State) (q off n v : Nat) : State :=
  s.homeWrite (s.queueWorld q) (qbQcb (s.binding q) + off) (leBytes n v)

/-- The write index. -/
def State.qWr (s : State) (q : Nat) : Nat := s.qcbRead q 0 8
/-- The read index. -/
def State.qRd (s : State) (q : Nat) : Nat := s.qcbRead q 8 8

/-- The DPA of a slot by its index. -/
def State.slotDpa (s : State) (q i : Nat) : Nat := qbRing (s.binding q) + 64 * (i % qbSlots (s.binding q))

/-- The 64 bytes of a slot, with poison. -/
def State.slotRead (s : State) (q i : Nat) : Got := s.homeRead (s.queueWorld q) (s.slotDpa q i) 64

/-- Whether the ring has room for a claim (R276). -/
def State.ringRoom (s : State) (q : Nat) : Bool := s.qWr q - s.qRd q < qbSlots (s.binding q)

/-- A packet written into a claimed slot: bytes 8..63 first, and then the header with v = 1 (R276). -/
def State.writeSlot (s : State) (q i : Nat) (p : List Byte) : State :=
  let w := s.queueWorld q
  let a := s.slotDpa q i
  (s.homeWrite w (a + 8) (p.drop 8)).homeWrite w a (leBytes 8 (leNat (p.take 8) % 2 ^ 63 + 2 ^ 63))

/-! ### Packets at submission (R278, R279, R293) -/

/-- Bytes of a list replaced from a position on. -/
def putBytes (p : List Byte) (i : Nat) (bs : List Byte) : List Byte := p.take i ++ bs ++ p.drop (i + bs.length)

/-- The little-endian number at a position of a packet. -/
def pktNum (p : List Byte) (i n : Nat) : Nat := leNat ((p.drop i).take n)

/-- The counter class of a packet (R278). -/
def pktClass (p : List Byte) : Nat := pktNum p 0 8 / 2 ^ 57 % 4

/-- An address word whose sp is 2 and whose tid is 0xFFFF takes a team's identity (R279, R293). -/
def fillTid (tid : Nat) (w : Nat) : Nat :=
  if w / 2 ^ 62 % 4 = 2 ∧ w / 2 ^ 36 % 2 ^ 16 = 0xFFFF then w - (0xFFFF - tid) * 2 ^ 36 else w

/-- The fields that CPYQ fills but for v and the stamp value (R293): o, core, gslot and team identities. -/
def fillPacket (p : List Byte) (core gslot : Nat) (tid : Option Nat) : List Byte :=
  let h := pktNum p 0 8
  let o := if h / 2 ^ 57 % 4 = 3 then 0 else 2 ^ 31
  let h' := h / 2 ^ 32 % 2 ^ 31 * 2 ^ 32 + o + core % 2 ^ 7 * 2 ^ 24 + gslot % 2 ^ 9 * 2 ^ 15 + h % 2 ^ 15
  let p1 := putBytes p 0 (leBytes 8 h')
  match tid with
  | none => p1
  | some t => [8, 16, 44].foldl (fun acc i => putBytes acc i (leBytes 8 (fillTid t (pktNum acc i 8)))) p1

/-- The stamp value that a claim gives a packet (R293). -/
def stampPacket (p : List Byte) (w : Nat) : List Byte := putBytes p 52 (leBytes 8 (w % 2 ^ 32))

/-- A group's outstanding entries changed, wherever its team is. -/
def State.updOpc (s : State) (uid : Nat) (f : List OpcEntry → List OpcEntry) : State :=
  match s.findGroup uid with
  | some g => s.updGroup g (fun x => { x with opc := f x.opc })
  | none =>
    let upd (g : SavedGroup) : SavedGroup :=
      if g.group.uid = uid then { g with group := { g.group with opc := f g.group.opc } } else g
    { s with ctxs := s.ctxs.map (fun e =>
        (e.1, { e.2 with teams := e.2.teams.map (fun t => { t with groups := t.groups.map upd })
                         handlers := e.2.handlers.map (fun h => (h.1, upd h.2)) })) }

/-- The oldest listed packet claims a slot, where one is free; its counter entry becomes (q, w) (R313). The host's copy of the control
block is first taken back, so that no claim of the host's stands in its caches (R242, R276). -/
def State.claimListed (s : State) (q : Nat) : State :=
  match (s.queue q).list with
  | [] => s
  | l :: rest =>
    let lines := s.hostLinesIn (qbQcb (s.binding q)) 64
    if !s.ringRoom q then s
    else if !lines.isEmpty then lines.foldl State.snoop s
    else
      let w := s.qWr q
      let s1 := (s.qcbWrite q 0 8 (w + 1)).writeSlot q w (stampPacket l.bytes w)
      let s2 := s1.updOpc l.uid (List.map (fun (e : OpcEntry) =>
        if e.listed ∧ e.q = q ∧ e.w = l.place then { e with listed := false, w } else e))
      if rest.isEmpty then
        -- The list's capacity returns to the pool (R313).
        let drawn := (s2.queue q).listCap / 64 * 4096
        (s2.updQueue q (fun x => { x with list := [], listCap := 0 })).updOwner (qbOwner (s2.binding q))
          (fun o => { o with poolused := o.poolused - BitVec.ofNat 64 drawn })
      else s2.updQueue q (fun x => { x with list := rest })

/-- What follows a freed slot: listed packets claim before any CPYQ, and waiting threads issue again (R313). -/
def State.slotFreed (s : State) (q : Nat) : State :=
  let n := (s.queue q).list.length
  ((List.range n).foldl (fun acc _ => acc.claimListed q) s).wake (fun w => w == .slot q)

/-- The QCB code of an engine state; an idle queue reads as running (R275). -/
def QState.code : QState → Nat
  | .idle => 0 | .running => 0 | .stopped => 1 | .paused => 2 | .halted => 3

/-- A queue's state changed, in the engine and in its control block, with the cause and address of a stop; iv is recorded
(R275, R277). -/
def State.setQState (s : State) (q : Nat) (st : QState) (cause addr : Nat) : State :=
  let s1 := s.updQueue q (fun x => { x with st })
  let s2 := s1.qcbWrite q 16 8 (st.code * 2 ^ 62 + cause * 2 ^ 58 + addr % 2 ^ 48)
  s2.homeWrite (s2.queueWorld q) (qbQcb (s2.binding q) + 24) ((s2.queue q).iv.flatMap (leBytes 2))

/-! ### Payload writes and iteration boundaries (R238, R277) -/

/-- A write of a queue's engine that leaves the device. -/
def State.send (s : State) (q : Nat) (dev : Option Nat) (addr : Nat) (data : List Byte) (tag : Option (Bool × Nat × Nat) := none) : State :=
  { s with sent := s.sent ++ [{ q, dev, addr, data, tag }] }

/-- An engine or a delivery accesses device memory for an owner, whose activations of rows count; for none, it is of no world, so a line that L2
holds stays as and where it is (R24, R192, R201, R274) (log 69). -/
def State.ownerTouch (s : State) (owner : Option Nat) (world dpa n : Nat) : State :=
  owner.elim (s.touchOut dpa n) (fun o => (s.activate o none dpa n).touch world dpa n)

/-- The same for a queue's engine. -/
def State.engTouch (s : State) (q world dpa n : Nat) : State := s.ownerTouch (s.queueOwner q) world dpa n

/-- Bytes written where an engine's access goes; a write that the far tier fails is discarded and counted (R199). -/
def State.engStore (s : State) (q : Nat) (place : EngLoc) (data : List Byte) : State :=
  match place with
  | .g dpa world =>
    if s.farDown dpa then s.queuePoison q 1
    else ((s.engTouch q world dpa data.length).homeWrite world dpa data).queueSnoops q s.snoops.length
  | .l uid off => s.scratchWrite uid off data
  | .peer dev a => s.send q (some dev) a data
  | .host a => s.send q none a data

/-- The switch through which a write of an engine goes: that of the base die it goes to, where this is not its own, and its own die's for
another device (R239). -/
def EngLoc.switch (e : Nat) (l : EngLoc) : Option Nat :=
  match l with
  | .g dpa _ => if homeDie dpa = e / 12 then none else some (homeDie dpa)
  | .peer _ _ => some (e / 12)
  | .l _ _ => none
  | .host _ => none

/-- The stores and atomics of an engine that have gone to a switch and are not yet acknowledged (R239). -/
def State.engineCount (s : State) (switch e : Nat) : Nat :=
  s.deliveries.countP (fun d => engineOf d.q == e && homeDie d.dpa == switch && e / 12 != switch) +
  s.sent.countP (fun x => engineOf x.q == e && !x.acked && x.dev.isSome && e / 12 == switch) +
  (s.queues.filter (fun x => engineOf x.1 == e)).foldl (fun n x => n + x.2.pend.countP (fun w => w.place.switch e == some switch)) 0

/-- Whether a switch holds pending write i of a queue's command: 65 535 others of the engine that come before it there are not yet
acknowledged (R348). -/
def State.engHeld (s : State) (q i : Nat) : Bool :=
  let e := engineOf q
  match (s.queue q).pend[i]?.bind (fun w => w.place.switch e) with
  | none => false
  | some d => 65535 ≤ s.engineCount d e - ((s.queue q).pend.drop i).countP (fun w => w.place.switch e == some d)

/-- A pending payload write of a command performed (R238), where its switch does not hold it (R348). -/
def State.landEng (s : State) (q i : Nat) : State :=
  match (s.queue q).pend[i]? with
  | none => s
  | some w => if s.engHeld q i then s else (s.updQueue q (fun x => { x with pend := x.pend.eraseIdx i })).engStore q w.place w.data

/-- Every pending payload write of a command performed. -/
def State.landEngAll (s : State) (q : Nat) : State :=
  (List.range (s.queue q).pend.length).foldl (fun acc _ => acc.landEng q 0) s

/-- What a command leaves as it stops, pauses or halts: its payload writes are performed, and iterations that it has made before others that come
before them are in progress, and will be made again (R238). -/
def State.engRest (s : State) (q : Nat) : State :=
  (s.landEngAll q).updQueue q (fun x =>
    { x with early := [], before := none, ahead := [], count := x.count - x.ahead.foldl (fun n e => n + e.2) 0 })

/-- A command stopped at an iteration boundary (R238, R277): its payload writes are performed, and an iteration that was in progress is
made again. A reduce-add's deliveries are applied once and a moved unit is not moved twice, so nothing repeats those. -/
def State.atBoundary (s : State) (q : Nat) : State :=
  let s1 := s.engRest q
  let kind := pktNum (s.queue q).slot 0 8 / 2 ^ 59 % 16
  match (s.queue q).before with
  | some (iv, count, bits) =>
    if Config.iterationRepeated s.draws && kind != 3 && kind != 5 then
      s1.draw.updQueue q (fun x =>
        { x with iv, count := count - (s.queue q).ahead.foldl (fun n e => n + e.2) 0, bits, done := false })
    else s1.draw
  | none => s1

/-- A change of a queue's binding takes effect once the queue is idle; the packets of its list stay (R274, R313). -/
def State.rebind (s : State) (q : Nat) : State :=
  match Tab.find s.qbindNew q with
  | none => s
  | some e =>
    if (s.queue q).st ≠ .idle then s
    else
      { s with qbind := Tab.put s.qbind q e, qbindNew := Tab.del s.qbindNew q }.updQueue q (fun x =>
        { list := x.list, listCap := x.listCap, nextPlace := x.nextPlace, lastTags := x.lastTags })

/-- The address words of a packet: source, destination and stamp (R279). -/
def pktWords (p : List Byte) : List Nat := [pktNum p 8 8, pktNum p 16 8, pktNum p 44 8]

/-- Whether the head command of a queue names the scratch of a team of an owner (R277). -/
def State.queueNames (s : State) (q o tid : Nat) : Bool :=
  s.queueOwner q == some o &&
    (pktWords (s.queue q).slot).any (fun w => w / 2 ^ 62 % 4 == 2 && w / 2 ^ 36 % 2 ^ 16 == tid)

/-- Whether a thread's owner may use a queue (R293, R294). -/
def State.ownsQueue (s : State) (k q : Nat) : Bool :=
  let b := s.binding q
  q < 768 && qbV b && s.queueOwner q == some (s.group (k / 32)).owner

/-- The packet in s(b) .. s(b + 15). -/
def Group.packet (g : Group) (b : Nat) : List Byte := (List.range 16).flatMap (fun i => leBytes 4 (g.reg (b + i)).toNat)

/-- The first packet register that b names. -/
def packetBase (o : Opd) : Nat :=
  match o with
  | .s i => i
  | _ => 0

/-- CPYQ (R293, R313): the run waits for room in its counter and for a slot or a place in the list; the packet is then a
release at device scope. The claim waits until the host holds no copy of the control block (R242, R276). -/
def execCpyq (f : FWord) (s : State) : Answer :=
  let e := s.enter f.guard {} (fUses f false false false false)
  .next (match e.lanes with
    | [] => e.state
    | k :: _ =>
      let s0 := e.state
      let q := s0.rdNat k f.a
      if !s0.ownsQueue k q then s0.raiseAll e.lanes (s0.pcFault k .illopd)
      else
        let g := s0.group (k / 32)
        let p := g.packet (packetBase f.b)
        let cls := pktClass p
        if cls ≠ 3 ∧ 63 ≤ g.opcCount cls then s0.waitAt e.lanes .copyCount
        else
          let listing := !s0.ringRoom q || !(s0.queue q).list.isEmpty
          if listing ∧ (s0.queue q).listCap ≤ (s0.queue q).list.length then s0.waitAt e.lanes (.slot q)
          else
            let d := s0.drainAll e.lanes 5
            let s1 := d.1
            let lines := s1.hostLinesIn (qbQcb (s1.binding q)) 64
            if d.2.length ≠ e.lanes.length then s1
            else if !lines.isEmpty then lines.foldl State.snoop s1
            else
              let tid := (s1.teamOf (k / 32)).map (·.2.tid)
              let p1 := fillPacket p s.cur.core s.cur.gslot tid
              let entry (listed : Bool) (w : Nat) (st : State) : State :=
                if cls = 3 then st
                else st.updGroup (k / 32) (fun x => { x with opc := x.opc ++ [{ cls, q, w, listed }] })
              if listing then
                let place := (s1.queue q).nextPlace
                let s2 := s1.updQueue q (fun x =>
                  { x with list := x.list ++ [{ bytes := p1, uid := g.uid, place }], nextPlace := place + 1 })
                ((entry true place s2).wr k f.d false 0xFFFFFFFF).advance {} e.lanes
              else
                let w := s1.qWr q
                let s2 := (s1.qcbWrite q 0 8 (w + 1)).writeSlot q w (stampPacket p1 w)
                ((entry false w s2).wr k f.d false (BitVec.ofNat 64 w)).advance {} e.lanes)

/-- Offset and size of the field that QSTAT reads (R294). -/
def qstatField (sub : Nat) : Nat × Nat :=
  match sub with
  | 0 => (8, 8)
  | 1 => (0, 8)
  | 2 => (16, 8)
  | 3 => (24, 8)
  | _ => (32, 2)

/-- One QSTAT issued for threads of the run (R294): .rd is an acquire at device scope. -/
def State.startQstat (s : State) (k : Nat) (ks : List Nat) (f : FWord) (q batch : Nat) : State :=
  let fld := qstatField f.sub.toNat
  let b := s.binding q
  s.startOp k ks (s.destOf k f.d) (.qstat fld.1 fld.2) (fun o =>
    { o.ordered (s.thread k) true false (f.sub == 0) false 5 with
      addr := qbQcb b + fld.1, world := s.queueWorld q, batch })

/-- QSTAT (R294). -/
def execQstat (f : FWord) (s : State) : Answer :=
  let e := s.enterLong f.guard (fUses f true false false false)
  let bad := e.lanes.filter (fun k => !s.ownsQueue k (s.rdNat k f.a))
  let good := e.lanes.filter (fun k => s.ownsQueue k (s.rdNat k f.a))
  let s1 := match good with
    | [] => e.state
    | k :: _ =>
      if isUni f.d then e.state.startQstat k good f (s.rdNat k f.a) s.nextId
      else good.foldl (fun acc k => acc.startQstat k [k] f (s.rdNat k f.a) s.nextId) e.state
  .next (bad.foldl (fun acc k => acc.raisePc k .illopd) (s1.advance { long := true } good))

end Sys2Proof.Machine
end

