-- ==== Sys2Proof/Machine/Stages.lean ====
section
/-! DEFINITION. Launches, stage queues and the making of teams (R296..R303, R305..R314). -/

namespace Sys2Proof.Machine

/-! ### Descriptors (R296..R298) -/

/-- A stage entry of a descriptor (R297); sizes in their own units. A PC holds bits 63:3 of an entry address (R84, R122) (log 64, DEDUCED); of
a stream's first address bits 2:0 are dropped as well, so that an mpc of 1 to 7 counts as 0 (log 83, DESIGN CHOICE). -/
def parseStage (p : List Byte) : Stage :=
  let n := pktNum p
  { pc := BitVec.ofNat 64 (n 0 8 / 8 * 8), regs := 8 * n 8 1, grp := n 9 1, scr := n 10 2, bars := n 12 1
    w := n 13 1 % 8 + 1, h := n 13 1 / 8 % 4 + 1, resident := n 14 1 % 2 = 1, stream := n 14 1 / 2 % 2 = 1
    isz := 16 * (n 15 1 + 1), cap := n 16 4, hm := n 20 4, maxt := n 24 2, mpc := BitVec.ofNat 64 (n 32 8 / 8 * 8)
    spill := BitVec.ofNat 64 (n 40 8), back := BitVec.ofNat 64 (n 48 8) }

/-- Status 1 of a stage entry: its ranges and reserved fields; `plain` is false for stage 0 of a counted launch (R297, R298). -/
def stageFields (p : List Byte) (plain : Bool) : Bool :=
  let n := pktNum p
  let x := parseStage p
  16 ≤ x.regs && x.regs ≤ 192 && 1 ≤ x.grp && x.grp ≤ 32 && x.scr ≤ 160 && x.bars ≤ 64 && n 13 1 / 32 == 0 && n 14 1 / 4 == 0 &&
    1 ≤ x.maxt && n 26 6 == 0 && n 56 8 == 0 && (x.stream || n 32 8 == 0) &&
    (!plain || (n 15 1 ≤ 15 && 1 ≤ x.cap && x.cap ≤ 65536 && 1 ≤ x.hm && x.hm ≤ x.cap && x.back.toNat % 64 == 0))

/-- The offset in the reserve of an OVA of the reserve window with n bytes there. -/
def Owner.reserveOff (o : Owner) (ova n : Nat) : Option Nat :=
  if reserveBase ≤ ova ∧ ova - reserveBase + n ≤ o.reserveLen then some (ova - reserveBase) else none

/-- The status with which a descriptor is refused, or 0 (R298). The check of a backing region (R299, `Owner.backs`) decides where
items may lie, and refuses no launch (log 64, DEDUCED); the field pre of a launch without preload words is not checked (log 83, DESIGN
CHOICE). -/
def State.launchStatus (s : State) (o : Nat) (hdr : List Byte) (entries : List (List Byte)) (inside : Bool) : Nat :=
  let n := pktNum hdr
  let ow := s.owner o
  let isOpen := n 3 1 % 2 = 1
  let N := n 4 4
  let stages := entries.map parseStage
  let first (i : Nat) : Bool := i == 0 && !isOpen
  let size (x : Stage) : Nat := x.w * x.h
  let live := s.launches.any (fun e => e.2.owner == o && e.2.handle == n 8 1 && !e.2.ended)
  let ok1 := inside && n 0 2 == 1 && n 2 1 / 8 == 0 && n 3 1 / 2 == 0 && (if isOpen then N == 0 else 1 ≤ N) && n 10 1 ≤ 32 &&
    n 11 5 == 0 && n 28 4 == 0 && n 40 24 == 0 && n 16 8 % 8 == 0 && (ow.reserveOff (n 16 8) 8).isSome &&
    (n 10 1 == 0 || (n 32 8 % 4 == 0 && (ow.reserveOff (n 32 8) (4 * n 10 1)).isSome)) &&
    (entries.mapIdx (fun i e => stageFields e (!first i))).all id
  let ok2 := stages.all (fun x => x.grp + 2 ≤ 512 && (!x.stream || x.mpc != 0))
  let ok3 := stages.all (fun x => x.w ≤ 6 && x.h ≤ 4 && size x ≤ 12)
  let ok4 := (isOpen || N % size (stages.headD {}) == 0) && (stages.mapIdx (fun i x =>
    if x.resident then x.maxt % size x == 0 else first i || (size x == 1 && x.scr != 0))).all id
  if !ok1 then 1 else if !ok2 then 2 else if !ok3 then 3 else if !ok4 then 4 else if live then 5
  else if 4096 ≤ s.launches.countP (fun e => !e.2.ended) then 6 else 0

/-- A launch's completion stamp written, where it lies in the reserve (R298, R300). -/
def State.writeStamp (s : State) (o ova v : Nat) : State :=
  match (s.owner o).reserveOff ova 8 with
  | some off =>
    match (s.owner o).mapReserve off 8 with
    | some l => s.homeWrite l.world l.dpa (leBytes 8 v)
    | none => s
  | none => s

/-- The input queue of stage i as a launch starts (R299). -/
def stageQueue (i N : Nat) (isOpen : Bool) (x : Stage) : StageQueue :=
  if i = 0 ∧ !isOpen then { cap := N, closed := true, counted := some N } else { cap := x.cap }

/-- The poisoned words among n bytes of an owner's reserve. -/
def State.reservePoison (s : State) (o off n : Nat) : Nat :=
  match (s.owner o).mapReserve off n with
  | some l => (wordsOf l.dpa n).countP (fun w => Tab.getD s.poison false w)
  | none => 0

/-- A launch accepted or refused (R298): the descriptor at a reserve offset is checked as a whole and copied, and its poisoned words and
those of the preload block count for the owner (R203). -/
def State.acceptLaunch (s : State) (o off tc : Nat) : State × Nat :=
  let bytes (i n : Nat) : List Byte := s.reserveBytes o (off + i) n
  let hdr := bytes 0 64
  let n := pktNum hdr
  let nst := n 2 1 % 8 + 1
  let entries := (List.range nst).map (fun i => bytes (64 + 64 * i) 64)
  let inside := off % 64 = 0 ∧ off + 64 + 64 * nst ≤ (s.owner o).reserveLen
  let status := s.launchStatus o hdr entries inside
  let lost := s.reservePoison o off (64 + 64 * nst)
  if status ≠ 0 then ((s.writeStamp o (n 16 8) (status * 2 ^ 32 + n 24 4)).countPoison o lost, status)
  else
    let isOpen := n 3 1 % 2 = 1
    let stages := entries.map parseStage
    let pre := s.reserveBytes o (n 32 8 - reserveBase) (4 * n 10 1)
    let l : Launch :=
      { owner := o, handle := n 8 1, isOpen, asp := BitVec.ofNat 8 (n 9 1)
        pre := (List.range (n 10 1)).map (fun i => BitVec.ofNat 32 (pktNum pre (4 * i) 4))
        stamp := BitVec.ofNat 64 (n 16 8), sval := BitVec.ofNat 64 (n 24 8), tc, stages
        queues := stages.mapIdx (fun i x => (i, stageQueue i (n 4 4) isOpen x)) }
    ({ s with launches := Tab.put s.launches s.nextLaunch l, nextLaunch := s.nextLaunch + 1 }.countPoison o
      (lost + s.reservePoison o (n 32 8 - reserveBase) (4 * n 10 1)), 0)

/-! ### Stage queues (R299, R300) -/

/-- The items that a queue holds. -/
def StageQueue.len (q : StageQueue) : Nat :=
  match q.counted with
  | some N => N - q.taken
  | none => q.items.length

/-- Whether a queue is full. -/
def StageQueue.full (q : StageQueue) : Bool := q.counted.isNone && q.cap ≤ q.items.length

/-- An item appended; its index is the queue's next. -/
def StageQueue.push (q : StageQueue) (item : List Byte) : StageQueue :=
  { q with items := q.items ++ [(q.next, item)], next := q.next + 1 }

/-- The oldest item taken: its index and bytes, poisoned words as zeros (R373). -/
def StageQueue.take (q : StageQueue) : Option (Nat × List Byte × StageQueue) :=
  match q.counted with
  | some N => if q.taken < N then some (q.taken, leBytes 16 q.taken, { q with taken := q.taken + 1 }) else none
  | none =>
    match q.items with
    | [] => none
    | (j, b) :: rest =>
      let clean := b.mapIdx (fun i v => if q.bad.contains (j, i / 8) then 0 else v)
      some (j, clean, { q with items := rest, taken := q.taken + 1, bad := q.bad.filter (fun e => e.1 != j) })

/-- A live launch. -/
def State.launch? (s : State) (l : Nat) : Option Launch := Tab.find s.launches l

/-- The input queue of a stage. -/
def State.stageQ (s : State) (l i : Nat) : StageQueue := Tab.getD ((s.launch? l).getD {}).queues {} i

/-- A stage of a launch. -/
def State.stageOf (s : State) (l i : Nat) : Stage := ((s.launch? l).getD {}).stages.getD i {}

/-- A stage's input queue written; threads that wait for it issue again (R125, R306). -/
def State.setStageQ (s : State) (l i : Nat) (q : StageQueue) : State :=
  let s1 := { s with launches := Tab.upd s.launches l (fun x => { x with queues := Tab.put x.queues i q }) }
  if q.closed || !q.full then s1.wake (fun w => w == .stage l i) else s1

/-- A stage's input queue after its oldest item has been taken: poisoned words of the item count in POISON (R373). -/
def State.afterTake (s : State) (l i : Nat) (q : StageQueue) : State :=
  (s.setStageQ l i q).countPoison ((s.launch? l).getD {}).owner ((s.stageQ l i).bad.length - q.bad.length)

/-- The bytes of an item of a stage's input; a counted stage 0 has 16 (R298). -/
def State.itemSize (s : State) (l i : Nat) : Nat := if (s.stageQ l i).counted.isSome then 16 else (s.stageOf l i).isz

/-- The status word of an item of index j (R306). -/
def itemStatus (j : Nat) : Nat := 2 ^ 30 + j % 2 ^ 30

/-- The status of a closed queue. -/
def closedStatus : Nat := 2 ^ 31

/-- The launch and stage of a thread's team. -/
def State.stageFor (s : State) (k : Nat) : Option (Nat × Nat) := (s.teamOf (k / 32)).map (fun t => (t.2.launch, t.2.stage))

/-- Whether a stage is the last of its launch. -/
def State.lastStage (s : State) (l i : Nat) : Bool := ((s.launch? l).getD {}).stages.length ≤ i + 1

/-- What one thread's push comes to: a fault, a wait on a full queue, a thread that stays at the word until the host's copies are taken
back, or a status. -/
inductive Pushed
  | fault (f : FaultInfo)
  | full (launch stage : Nat)
  | stay (s : State)
  | done (s : State) (status : Nat)

/-- An item pushed at a queue: dropped where it is closed, kept back where it is full (R306). -/
def State.pushItem (s : State) (l i : Nat) (item : List Byte) : Pushed :=
  let q := s.stageQ l i
  if q.closed then .done s closedStatus
  else if q.full then .full l i
  else .done (s.setStageQ l i (q.push item)) (itemStatus q.next)

/-- PUSHQ for one thread (R306). -/
def State.pushFor (s : State) (k : Nat) (f : FWord) : Pushed :=
  match s.stageFor k with
  | none => .fault (s.pcFault k .illopd)
  | some (l, i) =>
    let a := s.rdNat k f.a
    let z := s.itemSize l (i + 1)
    if s.lastStage l i ∨ a % 16 ≠ 0 then .fault (s.pcFault k .illopd)
    else
      match s.scratchBytes k a z with
      | .error fi => .fault fi
      | .ok (s1, item) =>
        -- Poison is counted only where the item is read.
        match s.pushItem l (i + 1) item with
        | .done _ st => if st = closedStatus then .done s st else s1.pushItem l (i + 1) item
        | r => r

/-- Pushes of the threads of an issue, in ascending index: from the first that finds its queue full on, all wait at the word;
where a thread's release cannot take effect yet, it and the later ones stay at the word (R306). -/
def State.pushAll (f : FWord) (free : State → Nat → State) (push : State → Nat → Pushed) : State → List Nat → State
  | s, [] => s
  | s, k :: ks =>
    let r := s.drainAll [k] 5
    let d := r.1
    if r.2.isEmpty then d
    else
      match push d k with
      | .fault fi => State.pushAll f free push (d.raise k fi) ks
      | .full l i => d.waitAt (k :: ks) (.stage l i)
      | .stay s1 => s1
      | .done s1 st => State.pushAll f free push (((free s1 k).wr k f.d false (BitVec.ofNat 64 st)).advance {} [k]) ks

/-- A push made once for the run (R305): its lowest active thread pushes, and the result goes to d; `free` frees what a thread uses for the
last time (R90). -/
def State.pushOnce (s : State) (f : FWord) (ks : List Nat) (free : State → Nat → State) (push : State → Nat → Pushed) : State :=
  match ks with
  | [] => s
  | k :: _ =>
    let d := s.drainAll ks 5
    if d.2.length ≠ ks.length then d.1
    else
      match push d.1 k with
      | .fault fi => d.1.raiseAll ks fi
      | .full l i => d.1.waitAt ks (.stage l i)
      | .stay s1 => s1
      | .done s1 st => ((ks.foldl free s1).writeAll f.d false ks (fun _ => BitVec.ofNat 64 st)).advance {} ks

/-- PUSHQ (R306): a release at device scope. -/
def execPushq (f : FWord) (s : State) : Answer :=
  let e := s.enter f.guard {} (fUses f false false false false) .ordinaryOnly
  .next (if isUni f.d then e.state.pushOnce f e.lanes (fun st _ => st) (fun st k => st.pushFor k f)
    else State.pushAll f (fun st k => st.freeLu k f 1 1 1) (fun st k => st.pushFor k f) e.state e.lanes)

/-! ### POPQ (R307) -/

/-- POPQ for one thread, acting for the threads ks: the item is taken and its bytes are performed as the operation ends, an acquire at
device scope (R233). -/
def State.popFor (s : State) (k : Nat) (ks : List Nat) (f : FWord) (batch : Nat) : Except FaultInfo State :=
  match s.stageFor k with
  | none => .error (s.pcFault k .illopd)
  | some (l, i) =>
    let a := s.rdNat k f.a
    if a % 16 ≠ 0 then .error (s.pcFault k .illopd)
    else
      match s.scratchFor k a (s.itemSize l i) with
      | .error fi => .error fi
      | .ok p =>
        let q := s.stageQ l i
        let dest := s.destOf k f.d
        match q.take with
        | some (j, item, q') =>
          .ok ((s.afterTake l i q').startOp k ks dest (.popq a item (BitVec.ofNat 32 (itemStatus j)))
            (fun o => { o.atPlace p with batch, acq := true, scope := 5 }))
        | none =>
          .ok (s.startOp k ks dest (.popq a [] (BitVec.ofNat 32 (if q.closed then closedStatus else 0)))
            (fun o => { o.atPlace p with batch }))

/-- POPQ (R307). -/
def execPopq (f : FWord) (s : State) : Answer :=
  let e := s.enterLong f.guard (fUses f false false false false) .ordinaryOnly
  .next (if isUni f.d then
      match e.lanes with
      | [] => e.state
      | k :: _ =>
        match e.state.popFor k e.lanes f s.nextId with
        | .error fi => e.state.raiseAll e.lanes fi
        | .ok s1 => s1.advance { long := true } e.lanes
    else e.lanes.foldl (fun acc k =>
      match acc.popFor k [k] f s.nextId with
      | .error fi => acc.raise k fi
      | .ok s1 => (s1.freeLu k f 1 1 1).advance { long := true } [k]) e.state)

/-! ### QCLOSE and LAUNCH (R308, R309) -/

/-- A queue closed: whether this closed it. -/
def State.closeQ (s : State) (l i : Nat) : State × Bool :=
  let q := s.stageQ l i
  if q.closed then (s, false) else (s.setStageQ l i { q with closed := true }, true)

/-- QCLOSE.out (R308). -/
def execQcloseOut (f : FWord) (s : State) : Answer :=
  .next (s.onceWord f (fUses f false false false false) .ordinaryOnly .nothing false (fun st k =>
    match st.stageFor k with
    | none => .error (st.pcFault k .illopd)
    | some (l, i) =>
      if st.lastStage l i then .error (st.pcFault k .illopd)
      else let r := st.closeQ l (i + 1); .ok (r.1, boolVal r.2)))

/-- The live open launch of an owner that a handle names (R308, R309). -/
def State.openLaunch (s : State) (o handle : Nat) : Option Nat :=
  (s.launches.find? (fun e => e.2.owner == o && e.2.handle == handle && e.2.isOpen && !e.2.ended)).map (·.1)

/-- QCLOSE.launch (R308). Where a[31:8] is not zero it names no handle, and raises ILLOPD (log 83, DESIGN CHOICE). -/
def execQcloseLaunch (f : FWord) (s : State) : Answer :=
  .next (s.onceWord f (fUses f false false false false) .ordinaryOnly .nothing false (fun st k =>
    let a := st.rdNat k f.a
    match if 256 ≤ a then none else st.openLaunch (st.group (k / 32)).owner a with
    | none => .error (st.pcFault k .illopd)
    | some l => let r := st.closeQ l 0; .ok (r.1, boolVal r.2)))

/-- The read of a 16-byte piece of a thread's argument block, as an LDG of the thread (R309). -/
def State.pieceOp (s : State) (k : Nat) (l : Loc) : Op :=
  let g := s.group (k / 32)
  { id := s.nextId, batch := s.nextId, uid := g.uid, lane := k % 32, core := k / 32 / 512, owner := g.owner, addr := l.dpa, world := l.world
    kind := .load 16 false .near (grainOf [] l.dpa 16), lanes := [k % 32] }

/-- The lines of n pieces of a thread's argument block whose copy the host must give up first (R242). -/
def State.blockHeld (s : State) (k addr n : Nat) : List Nat :=
  if (s.thread k).sysLines.isEmpty then []
  else (List.range n).flatMap (fun i =>
    match s.translateFor k .read (addr + 16 * i) 16 with
    | .error _ => []
    | .ok l => if s.hostHolds (s.pieceOp k l) then [l.dpa / 128] else [])

/-- A 16-byte piece of a thread's argument block, read as LDG reads it (R309). -/
def State.readPiece (s : State) (k addr : Nat) : Except FaultInfo (State × List Byte) :=
  match s.translateFor k .read addr 16 with
  | .error fi => .error fi
  | .ok l =>
    let o := s.pieceOp k l
    let r := s.gotFor o .near o.block 16
    .ok (r.2.countPoison o.owner (if s.fails o && (s.l1Held o 16).isNone then 2 else r.1.poison.length), r.1.clean l.dpa)

/-- n pieces from an address on. -/
def State.readPieces (s : State) (k addr : Nat) : Nat → Except FaultInfo (State × List Byte)
  | 0 => .ok (s, [])
  | n + 1 =>
    match s.readPieces k addr n with
    | .error fi => .error fi
    | .ok (s1, bs) =>
      match s1.readPiece k (addr + 16 * n) with
      | .error fi => .error fi
      | .ok (s2, more) => .ok (s2, bs ++ more)

/-- LAUNCH for one thread (R309). -/
def State.launchFor (s : State) (k : Nat) (f : FWord) : Pushed :=
  match s.openLaunch (s.group (k / 32)).owner (s.rdNat k f.a % 256) with
  | none => .fault (s.pcFault k .illopd)
  | some l =>
    let b := (s.rd k f.b true).toNat
    let held := s.blockHeld k b (s.itemSize l 0 / 16)
    if b % 16 ≠ 0 then .fault (s.pcFault k .illopd)
    else if !held.isEmpty || s.fullHeld k s.nextId then .stay (held.foldl State.snoop s)
    else
      match s.readPieces k b (s.itemSize l 0 / 16) with
      | .error fi => .fault fi
      | .ok (s1, item) =>
        match s.pushItem l 0 item with
        | .full l i => .full l i
        | _ => s1.pushItem l 0 item

/-- LAUNCH (R309): one child for each active thread. -/
def execLaunch (f : FWord) (s : State) : Answer :=
  let e := s.enter f.guard {} (fUses f false false true false) .ordinaryOnly
  .next (State.pushAll f (fun st k => st.freeLu k f 1 2 1) (fun st k => st.launchFor k f) e.state e.lanes)

/-- LAUNCH.U (R309): one child for the run. -/
def execLaunchU (f : FWord) (s : State) : Answer :=
  let e := s.enter f.guard {} (fUses f false false true false) .ordinaryOnly
  .next (e.state.pushOnce f e.lanes (fun st k => st.freeLu k f 1 2 1) (fun st k => st.launchFor k f))

/-! ### Resources of a core (R17, R20, R21, R186, R302) -/

/-- Whether an owner is resident on a core, or may become so (R20, R21). -/
def State.ownerSlotFor (s : State) (core o : Nat) : Option Nat :=
  match (s.core core).slotOf o with
  | some k => some k
  | none =>
    (List.range 8).find? (fun k => (Tab.find (s.core core).slots k).isNone &&
      (s.group? (gkey core (handlerSlot k 1))).isNone && (s.group? (gkey core (handlerSlot k 2))).isNone)

/-- An owner made resident on a core, with DEF and PERF at zero (R304, R334). -/
def State.makeResident (s : State) (core o : Nat) : State :=
  match (s.core core).slotOf o with
  | some _ => s
  | none =>
    match s.ownerSlotFor core o with
    | some k => s.updCore core (fun c => { c with slots := Tab.put c.slots k { owner := o } })
    | none => s

/-- Whether a group slot is free for an ordinary group of a team of owner o (R21). -/
def State.gslotFree (s : State) (core o g : Nat) : Bool :=
  let reserved := (List.range 8).any (fun k =>
    ((Tab.find (s.core core).slots k).isSome || s.ownerSlotFor core o == some k) && (g == handlerSlot k 1 || g == handlerSlot k 2))
  g < 512 && (s.group? (gkey core g)).isNone && !reserved

/-- The comets that hold a group reservation of a team (R320). -/
def State.cometsOf (s : State) (uid : Nat) : Nat := s.comets.countP (fun c => c.teamUid == uid)

/-- The groups that count against the core's 512, comets' reservations and handler slots included (R17, R21, R320). -/
def State.groupsOn (s : State) (core : Nat) : Nat :=
  s.groups.countP (fun e => e.1 / 512 == core && e.2.team.isSome) + 2 * (s.core core).slots.length +
    s.comets.countP (fun c => (s.findTeam c.teamUid).any (fun t => t / 32 == core))

/-- What a team needs of a core; `comets` are the reservations that it holds for its comets (R320). -/
structure Needs where
  owner : Nat
  groups : Nat
  pieces : Nat
  /-- Hardware barriers, and the eight cluster barriers where it is its cluster's team of position 0 (R344). -/
  bars : Nat
  stream : Bool
  tiles : List Nat := []
  comets : Nat := 0

/-- The cluster barriers of a team of a position (R344). -/
def clusterBars (pos : Nat) : Nat := if pos = 0 then 8 else 0

/-- The barrier entries that the teams of a core hold: a team's until it ends, and a cluster's until its teams give back what they hold
(R340, R344) (log 20, DEDUCED). -/
def State.barsHeld (s : State) (core : Nat) : Nat :=
  (s.teams.filter (fun e => e.1 / 32 == core)).foldl (fun acc e => acc + (if e.2.ended then 0 else e.2.nbars) + clusterBars e.2.pos) 0

/-- Whether a core meets a team's needs (R302): its world, of which no change waits (R369), the owner limit with the two handler slots of
an owner that is not yet resident, team and group slots, the sequencer, scratch, barriers and tiles. -/
def State.coreHolds (s : State) (n : Needs) (core : Nat) : Bool :=
  let here := s.teams.filter (fun e => e.1 / 32 == core)
  let handlers := if ((s.core core).slotOf n.owner).isSome then 0 else 2
  core < 96 && (s.core core).world == (s.owner n.owner).world && (s.core core).worldNext.isNone && (s.ownerSlotFor core n.owner).isSome && here.length < 32 &&
  s.groupsOn core + handlers + n.groups + n.comets ≤ 512 && n.groups ≤ (List.range 512).countP (s.gslotFree core n.owner) &&
  (!n.stream || here.all (fun e => e.2.matrix.isNone)) &&
  s.scratchPieces core + n.pieces ≤ bankPieces * (s.core core).banks.countP (· == .scratch) &&
  s.barsHeld core + n.bars ≤ 64 &&
  n.tiles.all (fun i => !(Tab.getD (s.core core).tiles {} i).v)

/-- Whether ordinary groups may take these group slots of a core: those of a free owner slot's handlers only when no other is free
(R21). -/
def State.gslotsOk (s : State) (core o : Nat) (gs : List Nat) : Bool :=
  gs.Nodup && gs.all (s.gslotFree core o) &&
    (gs.all (· < 496) || (List.range 496).all (fun g => (s.group? (gkey core g)).isSome || gs.contains g))

/-- The needs of a cluster's team at a position (R344). -/
def Needs.at_ (n : Needs) (pos : Nat) : Needs := { n with bars := n.bars + clusterBars pos }

/-- Whether a core can hold a team at a seat (R302). -/
def State.seatOk (s : State) (n : Needs) (seat : Seat) : Bool :=
  s.coreHolds n seat.core && seat.tslot < 32 && (s.team? (teamKey seat.core seat.tslot)).isNone && seat.gslots.length == n.groups &&
    s.gslotsOk seat.core n.owner seat.gslots

/-- Whether seats form a w × h rectangle of one die, in row-major order (R16, R187). -/
def isRectangle (w h : Nat) (seats : List Seat) : Bool :=
  match seats with
  | [] => false
  | s0 :: _ =>
    seats.length == w * h && s0.core % 6 + w ≤ 6 && s0.core % 24 / 6 + h ≤ 4 &&
      (seats.mapIdx (fun p x => x.core == s0.core + p / w * 6 + p % w)).all id

/-! ### Placing teams (R301, R302) -/

/-- The teams of a stage that exist: on cores and in sealed contexts. -/
def State.stageTeams (s : State) (l i : Nat) : List Team :=
  ((s.teams.map (·.2)).filter (fun t => t.launch == l && t.stage == i && !t.ended)) ++
    (s.ctxs.flatMap (fun c => c.2.teams.map SavedTeam.team)).filter (fun t => t.launch == l && t.stage == i && !t.ended)

/-- The identities of an owner's live teams (R279). -/
def State.liveTids (s : State) (o : Nat) : List Nat :=
  ((s.teams.map (·.2)).filter (fun t => t.owner == o && !t.ended)).map Team.tid ++
    ((s.ctxs.flatMap (fun c => c.2.teams.map SavedTeam.team)).filter (fun t => t.owner == o && !t.ended)).map Team.tid

/-- The lowest number that a list does not hold (log 33, DEDUCED). -/
def lowestFree (used : List Nat) : Nat := ((List.range (used.length + 1)).find? (fun i => !used.contains i)).getD used.length

/-- Whether a context is ready to re-enter: one swapped out is, once no thread of it waits on a handler (R183, R303). -/
def Ctx.ready (c : Ctx) : Bool :=
  !c.swapped || c.teams.all (fun t => t.groups.all (fun g => g.threads.all (fun e => e.2.st != .waitHandler)))

/-- Whether a sealed context of an owner is ready to re-enter (R303). -/
def State.readyCtx (s : State) (o : Nat) : Bool := s.ctxs.any (fun c => c.2.owner == o && c.2.ready)

/-- Whether a stage has a team to create and may create it (R302). -/
def State.eligible (s : State) (l i : Nat) : Bool :=
  let x := s.stageOf l i
  let ln := (s.launch? l).getD {}
  let live := (s.stageTeams l i).length
  let created := Tab.getD ln.created 0 i
  let n := x.w * x.h
  (if x.resident then created < x.maxt else n ≤ (s.stageQ l i).len) && live + n ≤ x.maxt &&
    (s.lastStage l i || (s.stageQ l (i + 1)).len < (s.stageOf l (i + 1)).hm)

/-- What a team of a stage needs (R302). -/
def Stage.needs (x : Stage) (owner : Nat) : Needs := { owner, groups := x.grp, pieces := x.scr, bars := x.bars, stream := x.stream }

/-- Whether some rectangle of cores can hold a cluster of a stage (R302). -/
def State.fitsSomewhere (s : State) (x : Stage) (owner : Nat) : Bool :=
  (List.range 96).any (fun c => c % 6 + x.w ≤ 6 && c % 24 / 6 + x.h ≤ 4 &&
    (List.range (x.w * x.h)).all (fun p => s.coreHolds ((x.needs owner).at_ p) (c + p / x.w * 6 + p % x.w)))

/-- The rank of a stage in the order of placement (R302), lower first: class 2 or 3, the higher stage, the earlier launch. The input of a
counted launch has no high mark (R298). -/
def State.placeRank (s : State) (l i : Nat) : Nat :=
  let q := s.stageQ l i
  (if q.counted.isNone && (s.stageOf l i).hm ≤ q.len then 0 else 2 ^ 80) + (7 - i) * 2 ^ 72 + l

/-- Whether another eligible stage of the owner comes before this one and can be placed: one that fits nowhere holds up no other
(R302, log 65, DEDUCED). -/
def State.outranked (s : State) (l i : Nat) : Bool :=
  let owner := ((s.launch? l).getD {}).owner
  s.launches.any (fun e => e.2.owner == owner && (List.range e.2.stages.length).any (fun j =>
    s.placeRank e.1 j < s.placeRank l i && s.eligible e.1 j && s.fitsSomewhere (s.stageOf e.1 j) owner))

/-- The items that a cluster of n teams takes, or none for a resident stage (R301). -/
def State.takeSeeds (s : State) (l i : Nat) : Nat → State × List (Nat × List Byte)
  | 0 => (s, [])
  | n + 1 =>
    let r := s.takeSeeds l i n
    match (r.1.stageQ l i).take with
    | some (j, item, q) => (r.1.afterTake l i q, r.2 ++ [(j, item)])
    | none => r

/-- A group of a new team, with its threads (R301); their first issue acquires (R233), and of the teams that a launch
record itself creates, `host`, at system scope (R242). -/
def State.newGroup (s : State) (key core gslot gidx inst : Nat) (x : Stage) (ln : Launch) (host : Bool) : State :=
  let g := gkey core gslot
  let s1 := { s with nextUid := s.nextUid + 1 }.setGroup g
    { uid := s.nextUid, owner := ln.owner, team := some key, gidx, allot := x.regs
      uni := (ln.pre.mapIdx (fun j w => (j, w))).filter (fun e => e.2 ≠ 0)
      opc := if gidx = 0 ∧ x.stream then [{ cls := 3, q := 0, w := 0 }] else [] }
  let base (lane : Nat) : DWord := x.spill + BitVec.ofNat 64 ((inst * x.grp * 32 + gidx * 32 + lane) * 4 * x.regs)
  (List.range 32).foldl (fun acc lane =>
    let t : Thread := { pc := x.pc, spillbase := base lane, spilltop := base lane + BitVec.ofNat 64 (4 * x.regs) }
    (acc.setThread (tkey g lane) (if host then s.withSystem t else t)).takeKnown (tkey g lane)) s1

/-- A new team at a seat (R301): its scratch holds its item, if any; group 0 of a team with a stream holds the matrix entry. The teams that a
launch record itself creates, those of resident stages and of a counted stage 0, acquire at system scope (R233). -/
def State.newTeam (s : State) (l i : Nat) (members : List Nat) (pos number : Nat) (seat : Seat) (item : List Byte) : State :=
  let ln := (s.launch? l).getD {}
  let x := s.stageOf l i
  let n := x.w * x.h
  let key := teamKey seat.core seat.tslot
  let inst := lowestFree ((s.stageTeams l i).map Team.inst)
  let exp := 32 * x.grp + (if x.stream then 1 else 0)
  let size := 4096 * x.scr
  let team : Team :=
    { uid := s.nextUid, owner := ln.owner, launch := l, stage := i, team := number, cluster := number / n, pos, members, inst
      tid := lowestFree (s.liveTids ln.owner), asp := ln.asp, grp := x.grp, scratchSize := size
      scratch := Memory.writeN [] 0 (if size = 0 then [] else item), nbars := x.bars
      bars := (List.range x.bars).map (fun b => (b, { exp, pend := exp }))
      cbars := (List.range 8).map (fun b => (b, { exp := n * 32 * x.grp, pend := n * 32 * x.grp }))
      matrix := if x.stream then some { mpc := x.mpc, first := x.mpc } else none, lastIssue := s.now }
  let s1 := ({ s with nextUid := s.nextUid + 1 }.makeResident seat.core ln.owner).setTeam key team
  let s2 := if x.stream then s1.updCore seat.core (fun c => { c with perm := [], permBefore := none }) else s1
  ((seat.gslots.mapIdx (fun gi gs => (gi, gs))).foldl (fun acc e => acc.newGroup key seat.core e.2 e.1 inst x ln ((i == 0 && !ln.isOpen) || x.resident)) s2).invalidateL1
    seat.core ln.owner

/-- TEAM_PLACE (R301, R302): a team or cluster of an eligible stage is created at seats that can hold it, in the order of placement and
unless a team of its owner waits to re-enter. -/
def State.teamPlace (s : State) (l i : Nat) (seats : List Seat) : State :=
  match s.launch? l with
  | none => s
  | some ln =>
    let x := s.stageOf l i
    if ln.stages.length ≤ i ∨ !s.eligible l i ∨ s.isHalting ln.owner ∨ s.readyCtx ln.owner ∨ s.outranked l i ∨
      65535 < (s.liveTids ln.owner).length + x.w * x.h ∨ !isRectangle x.w x.h seats ∨ !(seats.mapIdx (fun p e => s.seatOk ((x.needs ln.owner).at_ p) e)).all id then s
    else
      let n := x.w * x.h
      let created := Tab.getD ln.created 0 i
      let r := if x.resident then (s, []) else s.takeSeeds l i n
      let members := seats.map (fun e => teamKey e.core e.tslot)
      let s1 := (seats.mapIdx (fun p e => (p, e))).foldl (fun acc e =>
        let seed := r.2.find? (fun d => d.1 % n == e.1)
        let number := (seed.map (·.1)).getD (created + e.1)
        acc.newTeam l i members e.1 number e.2 ((seed.map (·.2)).getD [])) r.1
      { s1 with launches := Tab.upd s1.launches l (fun y => { y with created := Tab.put y.created i (created + n) }) }

/-- TEAM_PLACE (R302). -/
def execTeamPlace (l i : Nat) (seats : List Seat) (s : State) : Answer := .next (s.teamPlace l i seats)

/-! ### The end of teams, stages and launches (R136, R187, R300) -/

/-- An owner's slot on a core released when nothing of it is left there (R21, R183): not while a handler group of it still runs, or a record
of it stands, though its last team has left (log 78, DESIGN CHOICE). -/
def State.releaseSlot (s : State) (core o : Nat) : State :=
  let used := s.teams.any (fun e => e.1 / 32 == core && e.2.owner == o) || (s.core core).recs.any (fun e => e.2.owner == o) ||
    (s.core core).recWaits.any (fun w => w.record.owner == o) ||
    s.groups.any (fun e => e.1 / 512 == core && e.2.owner == o)
  if used then s
  else s.updCore core (fun c =>
    { c with slots := c.slots.filter (fun e => e.2.owner != o)
             tlb := c.tlb.filter (fun e => e.owner != o)
             l1 := c.l1.filter (fun x => x.owner != o)
             code := c.code.filter (fun w => w.owner != o) })

/-- A team removed from its core with its tiles; the permutation table memory is cleared where it held the sequencer. -/
def State.dropTeam (s : State) (key : Nat) : State :=
  let core := key / 32
  let t := s.team key
  let s1 := { s with teams := Tab.del s.teams key }.updCore core (fun c =>
    { c with tiles := c.tiles.filter (fun e => e.2.team != teamSlot key), perm := if t.matrix.isSome then [] else c.perm
             permBefore := if t.matrix.isSome then none else c.permBefore })
  s1.releaseSlot core t.owner

/-- A team whose last group has retired ends: its tile descriptors are cleared, and its cluster's teams give back their allocations
together (R136, R147, R187). -/
def State.endTeam (s : State) (key : Nat) : State :=
  match s.team? key with
  | none => s
  | some t =>
    let busy := s.groups.any (fun e => e.2.team == some key) || s.comets.any (fun c => c.teamUid == t.uid)
    if busy || t.ended then s
    else
      let s1 := (s.updTeam key (fun x => { x with ended := true })).updCore (key / 32) (fun c =>
        { c with tiles := c.tiles.filter (fun e => e.2.team != teamSlot key) })
      if t.members.all (fun m => (s1.team m).ended) then t.members.foldl State.dropTeam s1 else s1

/-- A launch completes (R300): its handle frees, its enlargements return to the pool and its stamp is written. Teams of earlier stages
may still run, and stages that have not completed go on (R301). -/
def State.endLaunch (s : State) (l : Nat) (ln : Launch) : State :=
  let held := (ln.queues.mapIdx (fun j e => e.2.enlarged * (ln.stages.getD j {}).isz)).foldl (· + ·) 0
  ({ s with launches := Tab.upd s.launches l (fun y => { y with ended := true }) }.updOwner ln.owner (fun o =>
    { o with poolused := o.poolused - BitVec.ofNat 64 held })).writeStamp ln.owner ln.stamp.toNat (ln.sval.toNat % 2 ^ 32)

/-- STAGE_COMPLETE (R300): a stage whose input is closed and empty and that has no team left; it closes the next stage's input, and the
last one completes the launch. A launch of a halted owner waits. Nothing is kept of a launch once all its stages have completed. -/
def State.stageComplete (s : State) (l i : Nat) : State :=
  match s.launch? l with
  | none => s
  | some ln =>
    let x := s.stageOf l i
    let q := s.stageQ l i
    let done := q.closed && q.len == 0 && (s.stageTeams l i).isEmpty &&
      (!x.resident || x.maxt ≤ Tab.getD ln.created 0 i) && i < ln.stages.length && !Tab.getD ln.completed false i
    if !done || s.isHalting ln.owner || s.snoops.any (·.known) then s
    else
      let s1 := { s with launches := Tab.upd s.launches l (fun y => { y with completed := Tab.put y.completed i true }) }
      let s2 := if s.lastStage l i then s1.endLaunch l ln else (s1.closeQ l (i + 1)).1
      if (List.range ln.stages.length).all (fun j => j == i || Tab.getD ln.completed false j) then
        { s2 with launches := Tab.del s2.launches l }
      else s2

/-- STAGE_COMPLETE (R300). -/
def execStageComplete (l i : Nat) (s : State) : Answer := .next (s.stageComplete l i)

/-! ### The deadlock promise (R310..R314) -/

/-- A full queue that a thread of an owner waits on. -/
inductive FullQueue
  | stage (launch stage : Nat) | copy (q : Nat)
deriving DecidableEq, Repr

/-- The full queue that a waiting thread waits on. -/
def Thread.fullQueue (t : Thread) : Option FullQueue :=
  match t.st, t.waitFor with
  | .waitOp, some (.stage l i) => some (.stage l i)
  | .waitOp, some (.slot q) => some (.copy q)
  | _, _ => none

/-- The threads of an owner's ordinary groups that have not exited. -/
def State.ordinaryThreads (s : State) (o : Nat) : List Nat :=
  ((s.groups.filter (fun e => e.2.owner == o && e.2.team.isSome)).flatMap (fun e => groupKeys e.1)).filter
    (fun k => (s.thread k).st != .exited)

/-- Whether an owner is stalled (R310). A handler group or a parked group that a sealed context holds is on no core, and does not count as
existing (log 84, DESIGN CHOICE). -/
def State.stalledNow (s : State) (o : Nat) : Bool :=
  let ks := s.ordinaryThreads o
  ks.all (fun k => match (s.thread k).st with
    | .atBarrier => true | .atCluster => true | .atSync => true
    | .waitOp => (s.thread k).fullQueue.isSome
    | .ready => false | .waitFlags => false | .waitHandler => false | .backoff => false | .parked => false | .lapped => false
    | .exited => true) &&
  ks.any (fun k => (s.thread k).fullQueue.isSome) &&
  !s.groups.any (fun e => e.2.owner == o && e.2.hdepth != 0) && !s.comets.any (fun c => c.owner == o) &&
  !s.queues.any (fun e => e.2.st == .running && s.queueOwner e.1 == some o) &&
  !s.cores.any (fun c => c.2.recs.any (fun r => r.2.owner == o)) &&
  !s.teams.any (fun t => t.2.owner == o && t.2.matrix.any (fun m => m.st == .running || m.missing)) && !s.ops.any (fun p => p.spill && p.owner == o) &&
  !s.ctxs.any (fun c => c.2.owner == o && c.2.byDriver)

/-- The rank of a full queue (R311): its capacity, then stage queues before copy queues, then the lower numbers. -/
def State.fullRank (s : State) (f : FullQueue) : Nat :=
  match f with
  | .stage l i => (s.stageQ l i).cap * 2 ^ 32 + ((s.launch? l).getD {}).handle * 2 ^ 8 + i
  | .copy q => (qbSlots (s.binding q) + (s.queue q).listCap) * 2 ^ 32 + 2 ^ 20 + q

/-- The bytes that an enlargement draws (R312). -/
def State.enlargeCost (s : State) (f : FullQueue) : Nat :=
  match f with
  | .stage l i => 64 * s.itemSize l i
  | .copy _ => 4096

/-- The aux of a POOL fault (R314). -/
def State.poolAux (s : State) (f : FullQueue) : Word :=
  match f with
  | .stage l i => BitVec.ofNat 32 (2 ^ 30 + ((s.launch? l).getD {}).handle * 2 ^ 8 + i)
  | .copy q => BitVec.ofNat 32 (2 ^ 31 + q)

/-- A full queue enlarged by 64 entries (R312, R313). -/
def State.enlarge (s : State) (f : FullQueue) : State :=
  match f with
  | .stage l i =>
    let q := s.stageQ l i
    s.setStageQ l i { q with cap := q.cap + 64, enlarged := q.enlarged + 64 }
  | .copy q => (s.updQueue q (fun x => { x with listCap := x.listCap + 64 })).wake (fun w => w == .slot q)

/-- The ac for which an owner must have been stalled (R311). -/
def stallAc : Nat := 4800

/-- STALL_ENLARGE (R311, R314): the smallest full queue of an owner stalled long enough is enlarged, or the fault POOL is
delivered to the lowest thread that waits on it. -/
def State.stallEnlarge (s : State) (o : Nat) : State :=
  let waiting := (s.ordinaryThreads o).filterMap (fun k => (s.thread k).fullQueue.map (fun f => (k, f)))
  match (s.owner o).stalled, sortBy (fun e => s.fullRank e.2) waiting with
  | some since, (_, f) :: _ =>
    if s.now < since + stallAc ∨ s.isHalting o ∨ !s.stalledNow o then s
    else
      let s1 := s.updOwner o (fun x => { x with stalled := some s.now })
      let cost := s.enlargeCost f
      if (s.owner o).poolmax * 1024 < (s.owner o).poolused.toNat + cost then
        match sortBy (fun e => e.1) (waiting.filter (fun e => e.2 == f)) with
        | [] => s1
        | (k, _) :: _ =>
          (s1.updThread k (fun t => { t with waitFor := none })).raise k
            { cls := .pool, addr := (s.thread k).pc.toNat, aux := s.poolAux f }
      else (s1.updOwner o (fun x => { x with poolused := x.poolused + BitVec.ofNat 64 cost })).enlarge f
  | _, _ => s

/-- STALL_ENLARGE (R311). -/
def execStallEnlarge (o : Nat) (s : State) : Answer := .next (s.stallEnlarge o)

end Sys2Proof.Machine
end

