-- ==== Sys2Proof/Machine/Service.lean ====
section
/-! DEFINITION. Service calls, parking and comets (R315..R323), and the host command window (R324..R327). -/

namespace Sys2Proof.Machine

/-! ### Saving and restoring a group -/

/-- A group taken out of its slot with its threads; what it was rewriting is rewritten (R145). -/
def State.takeGroup (s : State) (g : Nat) : SavedGroup × State :=
  let saved : SavedGroup := { group := s.group g, threads := (List.range 32).map (fun l => (l, s.thread (tkey g l))) }
  (saved, ({ s with groups := Tab.del s.groups g, threads := s.threads.filter (fun e => e.1 / 32 != g) } : State).endRewrites (g / 512) (s.group g).uid)

/-- A saved group put into a slot. -/
def State.putGroup (s : State) (g : Nat) (x : SavedGroup) : State :=
  x.threads.foldl (fun acc e => acc.setThread (tkey g e.1) e.2) (s.setGroup g x.group)

/-! ### The service ring (R315, R316) -/

/-- The owner has a service ring. -/
def srV (b : BitVec 128) : Bool := b.getLsbD 127
/-- The number of slots. -/
def srSlots (b : BitVec 128) : Nat := 2 ^ (b.extractLsb' 123 4).toNat
/-- The reserve offset of the ring control block. -/
def srOff (b : BitVec 128) : Nat := (b.extractLsb' 103 20).toNat * 64
/-- The allotment address of the park area. -/
def srPark (b : BitVec 128) : Nat := (b.extractLsb' 75 28).toNat * 2 ^ 16
/-- The number of park frames. -/
def srFrames (b : BitVec 128) : Nat := (b.extractLsb' 63 12).toNat

/-- A number in an owner's reserve, as it stands at the home slice. -/
def State.resRead (s : State) (o off n : Nat) : Nat :=
  match (s.owner o).mapReserve off n with
  | some l => leNat ((s.homeRead l.world l.dpa n).clean l.dpa)
  | none => 0

/-- Bytes written to an owner's reserve. -/
def State.resWrite (s : State) (o off : Nat) (data : List Byte) : State :=
  match (s.owner o).mapReserve off data.length with
  | some l => s.homeWrite l.world l.dpa data
  | none => s

/-- Whether a ring has room for k more requests (R319). -/
def State.svcRoom (s : State) (o k : Nat) : Bool :=
  let b := (s.owner o).sring
  s.resRead o (srOff b) 8 - s.resRead o (srOff b + 8) 8 + k ≤ srSlots b

/-- The allotment address that a thread's address translates to, for the aux of an ALLOT fault (R171). -/
def State.aaOf (s : State) (k addr : Nat) : Nat :=
  let g := s.group (k / 32)
  match (s.core (k / 32 / 512)).tlb.find? (fun e => e.owner == g.owner && tlbMatches e.bits (s.aspOf g) addr) with
  | some e => tlbFrame e.bits * 2 ^ 16 + addr % tlbBytes e.bits
  | none => 0

/-- The checks of one thread of a service call: the place of its reply block (R319). -/
def State.svcCheck (s : State) (k : Nat) (f : FWord) : Except FaultInfo Loc :=
  let t := s.thread k
  let b := (s.rd k f.b true).toNat
  let a : Nat := match f.a with
    | .w i => i
    | _ => 0
  if (s.group (k / 32)).allot ≤ t.winbase + a + 15 then .error (s.pcFault k .illopd)
  else if b % 32 ≠ 0 then .error (s.pcFault k .illopd)
  else
    match s.translateFor k .write b 32 with
    | .error fi => .error fi
    | .ok l =>
      if b < reserveBase ∧ l.tier ≠ 0 then
        .error { cls := .allot, acc := .write, addr := b, aux := BitVec.ofNat 32 (s.aaOf k b / 2 ^ 16) }
      else .ok l

/-- The header of a slot without v (R316). -/
def svcHeader (s : State) (k : Nat) (park : Bool) : Nat :=
  (if park then 2 ^ 62 else 0) + (s.group (k / 32)).owner * 2 ^ 56 + k / 32 / 512 * 2 ^ 49 + k / 32 % 512 * 2 ^ 40 + k % 32 * 2 ^ 35

/-- The 128 bytes of a slot without v (R316). -/
def State.svcSlot (s : State) (k a replyDpa seq : Nat) (park : Bool) : List Byte :=
  let t := s.thread k
  (List.range 16).flatMap (fun i => leBytes 4 (t.reg (t.winbase + a + i)).toNat) ++ leBytes 8 (svcHeader s k park) ++
    leBytes 8 (replyDpa % 2 ^ 46) ++ leBytes 8 seq ++ leBytes 8 s.now ++ List.replicate 32 0

/-- One request posted without its header's v: the stamp cleared, the slot written, the index given to the thread. -/
def State.svcPost (s : State) (k : Nat) (f : FWord) (l : Loc) (w : Nat) (park : Bool) : State :=
  let o := (s.group (k / 32)).owner
  let b := (s.owner o).sring
  let a : Nat := match f.a with
    | .w i => i
    | _ => 0
  let zero := leBytes 8 0
  let s1 := (s.updCore (k / 32 / 512) (fun c => c.l1Store o (l.dpa + 24) zero)).homeWrite l.world (l.dpa + 24) zero
  let s2 := s1.resWrite o (srOff b + 64 + 128 * (w % srSlots b)) (s.svcSlot k a l.dpa w park)
  let s3 := if (s.group (k / 32)).hdepth ≠ 0 then s2.countWalk o 136 else s2
  (s3.freeOpd k f.b 2 f.lu.b).wr k f.d false (BitVec.ofNat 64 w)

/-- A slot's header written with v = 1. -/
def State.svcValid (s : State) (k w : Nat) (park : Bool) : State :=
  let o := (s.group (k / 32)).owner
  let b := (s.owner o).sring
  s.resWrite o (srOff b + 64 + 128 * (w % srSlots b) + 64) (leBytes 8 (2 ^ 63 + svcHeader s k park))

/-- A service call (R319). Its header writes are a release at system scope: the lines it writes are first taken back from the
host, and until then the run stays at the word. -/
def State.svc (s : State) (f : FWord) (park : Bool) : State :=
  let e := s.enter f.guard {} [⟨f.d, 1, true⟩, ⟨f.b, 2, false⟩]
  let o := (s.group s.curG).owner
  let b := (s.owner o).sring
  if !srV b then e.lanes.foldl (fun acc k => acc.raisePc k .illopd) e.state
  else
    let cs := e.lanes.map (fun k => (k, e.state.svcCheck k f))
    let s0 := cs.foldl (fun acc c => match c.2 with | .error fi => acc.raise c.1 fi | .ok _ => acc) e.state
    let R := cs.filterMap (fun c => match c.2 with | .ok l => some (c.1, l) | .error _ => none)
    let ks := R.map (·.1)
    if ks.isEmpty then s0
    else if !s0.svcRoom o ks.length then s0.waitAt ks (.ring o)
    else
      let w := s0.resRead o (srOff b) 8
      let ring := (s0.owner o).mapReserve (srOff b) 1
      let lines := R.flatMap (fun r => s0.hostLinesIn r.2.dpa 32) ++
        (match ring with | some l => s0.hostLinesIn l.dpa (64 + 128 * srSlots b) | none => [])
      let d := s0.drainAll ks 6
      if !lines.isEmpty then lines.foldl State.snoop d.1
      else if d.2.length ≠ ks.length then d.1
      else
        let s1 := d.1.resWrite o (srOff b) (leBytes 8 (w + ks.length))
        let indexed := R.mapIdx (fun j r => (r.1, r.2, w + j))
        let s2 := indexed.foldl (fun acc r => acc.svcPost r.1 f r.2.1 r.2.2 park) s1
        let s3 := indexed.foldl (fun acc r => acc.svcValid r.1 r.2.2 park) s2
        let s4 := (s3.raiseEvent (64 + o)).advance {} ks
        if park then R.foldl (fun acc r => acc.updThread r.1 (fun t => { t with st := .parked, watch := some (r.2.dpa + 24) })) s4
        else s4

/-- SVC.S (R318, R319). -/
def execSvcS (f : FWord) (s : State) : Answer := .next (s.svc f false)

/-- SVC.P (R318, R319). -/
def execSvcP (f : FWord) (s : State) : Answer := .next (s.svc f true)

/-! ### Parking and comets (R320, R321) -/

/-- Whether the reply stamp that a thread of an owner watches is nonzero at its home slice. -/
def State.answered (s : State) (o : Nat) (t : Thread) : Bool :=
  match t.watch with
  | some d => leNat ((s.homeRead ((s.owner o).worldAt d) d 8).clean d) != 0
  | none => false

/-- A parked thread as it resumes (R320, R321): ready, with an acquire at system scope (R323, R242). -/
def State.resumed (s : State) (t : Thread) : Thread := s.withSystem { t with st := .ready, watch := none }

/-- PARKED_WAKE (R320): a parked thread whose stamp has come becomes ready, an acquire at system scope; those of a halted owner stay parked
(R125, R322). -/
def execParkedWake (k : Nat) (s : State) : Answer :=
  let t := s.thread k
  let o := (s.group (k / 32)).owner
  .next (if t.st = .parked && s.answered o t && !s.isHalting o then
      ((s.setThread k (s.resumed t)).invalidateL1 (k / 32 / 512) o).takeKnown k
    else s)

/-- The place of a park frame, where the allotment map places it in a tier-0 extent with rsv = 0 (R320). -/
def State.parkFrame (s : State) (o frame : Nat) : Option Loc :=
  let b := (s.owner o).sring
  if srFrames b ≤ frame then none
  else
    match (s.owner o).extentOf (srPark b + 8192 * frame) 8192 with
    | some x => if extTier x = 0 then some { dpa := extDpa x + (srPark b + 8192 * frame - extAab x), world := extWorld x } else none
    | none => none

/-- Whether a group may become a comet (R320). -/
def State.mayComet (s : State) (g : Nat) : Bool :=
  let live := (groupKeys g).filter (fun k => (s.thread k).st != .exited)
  let x := s.group g
  x.team.isSome && !live.isEmpty && live.all (fun k => (s.thread k).st == .parked) &&
    (groupKeys g).all (fun k => (s.thread k).flags == 0) && x.opc.isEmpty

/-- The bytes of a park frame (R320): their layout is not stated (log 14, DESIGN CHOICE). -/
def frameBytes (draw : Nat) : List Byte := (List.range 8192).map (Config.frameByte draw)

/-- Whether a park frame of an owner is free (R320). -/
def State.frameFree (s : State) (o frame : Nat) : Bool :=
  (s.parkFrame o frame).isSome && !s.comets.any (fun c => c.owner == o && c.frame == frame)

/-- COMET_FORM (R320): the context goes to the free frame of the lowest number, as R332 has it (log 79, DEDUCED). -/
def State.cometForm (s : State) (g frame : Nat) : State :=
  match s.group? g with
  | none => s
  | some x =>
    match s.parkFrame x.owner frame with
    | none => s
    | some l =>
      if !s.frameFree x.owner frame || (List.range frame).any (s.frameFree x.owner) || !s.mayComet g || s.isHalting x.owner then s
      else
        let (saved, s1) := (s.pinReleases g).takeGroup g
        let c : Comet :=
          { owner := x.owner, teamUid := (s.team (x.team.getD 0)).uid, saved, frame, frameDpa := l.dpa, frameWorld := l.world
            drawn := s.draws }
        { (s1.homeWrite l.world l.dpa (frameBytes s.draws)).draw with comets := s1.comets ++ [c] }

/-- COMET_FORM (R320). -/
def execCometForm (g frame : Nat) (s : State) : Answer := .next (s.cometForm g frame)

/-- A free value of 64 bits from a written frame. -/
def frameDWord (draw i : Nat) : DWord := Config.frameWord draw (2 * i) ++ Config.frameWord draw (2 * i + 1)

/-- A free fault class (R356). -/
def freeCls (w : Nat) : Cls :=
  [Cls.none, .illop, .illopd, .bounds, .xmiss, .prot, .allot, .depth, .spill, .debug, .svc, .pool, .watchdog, .seal, .runaway,
    .recurse].getD (w % 16) .none

/-- A free flag of a clause header (R42). -/
def freeFlagSet (w : Nat) : FlagSet := if w % 2 = 0 then none else some (Fin.ofNat 16 (w / 2 % 12))

/-- A free fault record (R356). -/
def freeFRec (w : Nat → Nat) : FRec :=
  { cls := freeCls (w 0), acc := [Acc.read, .write, .execute, .atomic].getD (w 1 % 4) .read, v := w 8 % 2 = 1, pbk := w 9 % 2 = 1
    rid := w 2 % 64, hd := w 3 % 3, cause2 := freeCls (w 4), repix := w 5 % 256, aux := BitVec.ofNat 32 (w 6), addr := w 7 * 2 ^ 16 % 2 ^ 48 }

/-- A free clause position (R42). -/
def freeClause (w : Nat → Nat) : Option ClausePos :=
  if w 0 % 2 = 0 then none
  else some { left := 1 + w 1 % 15, seta := freeFlagSet (w 2), setb := freeFlagSet (w 3), usedA := w 4 % 2 = 1, usedB := w 5 % 2 = 1 }

/-- A free thing for a word of a thread to wait for, of those that depend on no part of the device outside its owner (R125). -/
def freeWait (owner : Nat) (w : Nat → Nat) : WaitFor :=
  match w 0 % 3 with
  | 0 => .copyCount
  | 1 => .ring owner
  | _ => .count (w 1 % 4) (w 2 % 64)

/-- Free outstanding entries of a group, at most 63 of a class (R336). -/
def freeOpc (w : Nat → Nat) : List OpcEntry :=
  (List.range 3).flatMap (fun c => (List.range (w c % 64)).map (fun i =>
    { cls := c, q := w (3 + 2 * (64 * c + i)) % 768, w := w (4 + 2 * (64 * c + i)) }))

/-- A saved thread whose frame an agent has written: its registers, predicates, entry of the Orrery and thread state take free values, each
one that the field can hold. With no flag set it waits for none, and no long-latency operation of it is pending (R84, R122, R320, log 14,
DESIGN CHOICE). -/
def Thread.scramble (t : Thread) (draw allot lane owner : Nat) : Thread :=
  let w (i : Nat) : Nat := (Config.frameWord draw (8192 + 8 * lane + i)).toNat
  let v (i : Nat) : Nat := (Config.frameWord draw (8512 + 28 * lane + i)).toNat
  let winbase := 8 * (w 0 % (allot / 8))
  let st := [t.st, TState.ready, .lapped, .backoff, .exited, .parked, .waitHandler, .waitOp, .atBarrier, .atCluster, .atSync].getD (v 0 % 11) t.st
  { t with st
           waitFor := if st = .waitOp then some (freeWait owner (fun i => v (20 + i))) else none
           waitBar := v 23 % 16
           boexp := v 1 % 13
           bodly := v 2 % 4097
           repix := BitVec.ofNat 8 (v 3)
           frec := freeFRec (fun i => v (4 + i))
           clause := freeClause (fun i => v (14 + i))
           regs := (List.range allot).map (fun i => (i, Config.frameWord draw (256 * lane + i)))
           preds := BitVec.ofNat 7 (w 1)
           pc := (frameDWord draw (8192 + 3 * lane)) &&& ~~~7
           depth := BitVec.ofNat 8 (w 2)
           winbase
           rlo := w 3 % (winbase + 1)
           spillbase := frameDWord draw (8193 + 3 * lane)
           spilltop := frameDWord draw (8194 + 3 * lane) }

/-- A free ORBIT of a group (R128). -/
def freeOrbit (w : Nat → Nat) : Orbit :=
  { lhv := w 0 % 2 = 1, laphi := BitVec.ofNat 69 (w 1 * 2 ^ 32 + w 2), lapcnt := w 3 % 256, qcnt := w 4 % 256, qact := w 5 % 2 = 1 }

/-- A comet's context as it is restored: exactly as saved unless an agent wrote its frame. -/
def State.cometSaved (s : State) (c : Comet) : SavedGroup :=
  if (s.homeRead c.frameWorld c.frameDpa 8192).clean c.frameDpa = frameBytes c.drawn then c.saved
  else
    { c.saved with
      group := { c.saved.group with
        uni := (List.range 32).map (fun i => (i, Config.frameWord s.draws (8448 + i)))
        uviol := Config.frameWord s.draws 8480
        skipblk := Config.frameWord s.draws 8481
        satcnt := Config.frameWord s.draws 8482
        convtail := Config.frameWord s.draws 8483
        orbit := freeOrbit (fun i => (Config.frameWord s.draws (8484 + i)).toNat)
        opc := freeOpc (fun i => (Config.frameWord s.draws (9408 + i)).toNat) }
      threads := c.saved.threads.map (fun e => (e.1, e.2.scramble s.draws c.saved.group.allot e.1 c.owner)) }

/-- COMET_REENTER (R321): the i-th comet, all its parked threads answered, restored where its team is resident. -/
def State.cometReenter (s : State) (i gslot : Nat) : State :=
  match s.comets[i]? with
  | none => s
  | some c =>
    match s.findTeam c.teamUid with
    | none => s
    | some key =>
      let core := key / 32
      let g := gkey core gslot
      let parked := c.saved.threads.filter (fun e => e.2.st == .parked)
      if !s.gslotsOk core c.owner [gslot] || s.isHalting c.owner || !parked.all (fun e => s.answered c.owner e.2) then s
      else
        let x := s.cometSaved c
        let woken : SavedGroup :=
          { x with
            group := { x.group with team := some key }
            threads := x.threads.map (fun e =>
              (e.1, if e.2.st = .parked then s.resumed e.2 else e.2)) }
        (groupKeys g).foldl State.takeKnown (({ s.draw with comets := s.comets.eraseIdx i }.putGroup g woken).invalidateL1 core c.owner)

/-- COMET_REENTER (R321). -/
def execCometReenter (i gslot : Nat) (s : State) : Answer := .next (s.cometReenter i gslot)

/-! ### The host command window (R324..R327) -/

/-- Whether an owner exists. -/
def State.exists? (s : State) (o : Nat) : Bool := (s.owner o).ostat.st != .absent

/-- The 64 bytes of slot n of an owner's window as they stand. -/
def State.winSlotBytes (s : State) (o n : Nat) : List Byte := (List.range 64).map (fun i => Tab.getD s.window 0 (o * 2 ^ 16 + 64 * n + i))

/-- A record accepted: its bytes as they stand when its header has been written with v = 1 (R326). One accepted and not yet served is never
lost or served twice. -/
def State.acceptRec (s : State) (o n : Nat) : State :=
  if (Tab.find (s.owner o).winAccepted n).isSome || (Tab.getD s.window 0 (o * 2 ^ 16 + 64 * n + 7)).toNat < 128 then s
  else s.updOwner o (fun x => { x with winAccepted := Tab.put x.winAccepted n (s.winSlotBytes o n) })

/-- HOST_WINDOW_WRITE (R324, R326, R400): bytes outside the window, of an owner that does not exist, or written before ready are
discarded; a write of a header with v = 1 makes its record accepted. -/
def execHostWindowWrite (offset : Nat) (data : List Byte) (s : State) : Answer :=
  .next (if s.power ≠ .ready then s
    else
      let bytes := (data.mapIdx (fun i b => (offset + i, b))).filter (fun e => e.1 < 2 ^ 22 && s.exists? (e.1 / 2 ^ 16))
      let s1 := { s with window := bytes.foldl (fun w e => Tab.setD w 0 e.1 e.2) s.window }
      (bytes.filter (fun e => e.1 % 64 == 7)).foldl (fun acc e => acc.acceptRec (e.1 / 2 ^ 16) (e.1 % 2 ^ 16 / 64)) s1)

/-- The record that an owner's window comes to next (R325, R326). -/
structure HostRec where
  base : Nat
  header : Nat
  astamp : Nat
  arg0 : Nat
  arg1 : Nat
  rest : Nat
deriving DecidableEq, Repr

/-- The next record of an owner's window, as it was accepted; all zero, and so not valid, where it has not been. -/
def State.hostRec (s : State) (o : Nat) : HostRec :=
  let slot := (s.owner o).winSlot % 1024
  let bytes := Tab.getD (s.owner o).winAccepted [] slot
  let num (i n : Nat) : Nat := leNat ((bytes.drop i).take n)
  ⟨o * 2 ^ 16 + 64 * slot, num 0 8, num 8 8, num 16 8, num 24 8, num 32 32⟩

/-- The kind of a record. -/
def HostRec.kind (r : HostRec) : Nat := r.header / 2 ^ 59 % 16
/-- The record is valid. -/
def HostRec.valid (r : HostRec) : Bool := r.header / 2 ^ 63 == 1
/-- The host's sequence number. -/
def HostRec.seq (r : HostRec) : Nat := r.header % 2 ^ 32

/-- What makes a record refused with status 10 (R326, R327), a misaligned argument and a count of 0 among it (log 68, DESIGN CHOICE). -/
def HostRec.malformed (r : HostRec) (expected : Nat) : Bool :=
  r.seq != expected || r.header / 2 ^ 32 % 2 ^ 25 != 0 || r.rest != 0 ||
  (match r.kind with
   | 0 => r.arg1 != 0 || r.arg0 % 64 != 0
   | 1 => r.arg0 / 2 ^ 8 % 2 ^ 8 != 0 || r.arg0 / 2 ^ 32 != 0 || r.arg0 / 2 ^ 16 == 0 || r.arg1 % 16 != 0
   | 2 => r.arg0 / 2 ^ 8 != 0 || r.arg1 != 0
   | _ => true)

/-- A record finished (R326): its acceptance stamp, then v cleared, then the next slot with the next sequence number. -/
def State.finishRec (s : State) (o : Nat) (r : HostRec) (status pushed : Nat) : State :=
  let s1 := if r.astamp ≠ 0 ∧ r.astamp % 8 = 0 then
      s.resWrite o r.astamp (leBytes 8 (status * 2 ^ 56 + pushed % 2 ^ 16 * 2 ^ 40 + r.seq))
    else s
  let s2 := { s1 with window := Tab.setD s1.window 0 (r.base + 7) (Tab.getD s1.window 0 (r.base + 7) &&& 0x7F) }
  s2.updOwner o (fun x => { x with winAccepted := Tab.del x.winAccepted (x.winSlot % 1024), winSlot := (x.winSlot + 1) % 1024, winSeq := x.winSeq + 1, winPushed := 0 })

/-- Whether a record of a kind may be served now: the device is ready, the record is valid, and no back-invalidate that a release has carried is
on its way. A reserved kind is served as a launch record. -/
def State.recReady (s : State) (o kind : Nat) : Bool :=
  let r := s.hostRec o
  s.power == .ready && s.exists? o && r.valid && (r.kind == kind || (kind == 0 && 3 ≤ r.kind)) && !s.snoops.any (·.known)

/-- Lines that the host may hold are taken back before the device reads them (R242, R326). -/
def State.takeBack (s : State) (lines : List Nat) : State := lines.foldl State.snoop s

/-- HOST_LAUNCH_RECORD (R327). -/
def State.hostLaunch (s : State) (o : Nat) : State :=
  let r := s.hostRec o
  if !s.recReady o 0 then s
  else if r.malformed (s.owner o).winSeq.toNat then s.finishRec o r 10 0
  else
    let lines := match (s.owner o).mapReserve 0 1 with
      | some l => s.hostLinesIn l.dpa (s.owner o).reserveLen
      | none => []
    if !lines.isEmpty then s.takeBack lines
    else
      let a := s.acceptLaunch o r.arg0 (r.header / 2 ^ 57 % 4)
      a.1.finishRec o r a.2 0

/-- HOST_LAUNCH_RECORD (R327). -/
def execHostLaunchRecord (o : Nat) (s : State) : Answer := .next (s.hostLaunch o)

/-- HOST_ITEMS_RECORD (R327): the record's next item is pushed; the last one finishes the record. -/
def State.hostItems (s : State) (o : Nat) : State :=
  let r := s.hostRec o
  let n := r.arg0 / 2 ^ 16 % 2 ^ 16
  let pushed := (s.owner o).winPushed
  if !s.recReady o 1 then s
  else if r.malformed (s.owner o).winSeq.toNat then s.finishRec o r 10 0
  else
    match s.openLaunch o (r.arg0 % 256) with
    | none => s.finishRec o r 8 pushed
    | some l =>
      let z := s.itemSize l 0
      let world := (s.owner o).world
      if !(List.range n).all (fun i => ((s.owner o).mapAA world (r.arg1 + i * z) z).isSome) then s.finishRec o r 11 pushed
      else
        match (s.owner o).mapAA world (r.arg1 + pushed * z) z with
        | none => s.finishRec o r 11 pushed
        | some loc =>
          let lines := s.hostLinesIn loc.dpa z
          if !lines.isEmpty then s.takeBack lines
          else
            let t := s.ownerTouch (some o) loc.world loc.dpa z
            let lost := s.farDown loc.dpa
            let g : Got := if lost then { bytes := List.replicate z 0 } else s.homeRead loc.world loc.dpa z
            match t.pushItem l 0 (g.clean loc.dpa) with
            | .fault _ => s
            | .full _ _ => s
            | .stay _ => s
            | .done s1 st =>
              if st = closedStatus then s.finishRec o r 9 pushed
              else
                let s2 := (s1.countPoison o (if lost then 1 else g.poison.length)).updOwner o (fun x => { x with winPushed := pushed + 1 })
                if pushed + 1 = n then s2.finishRec o r 0 n else s2

/-- HOST_ITEMS_RECORD (R327). -/
def execHostItemsRecord (o : Nat) (s : State) : Answer := .next (s.hostItems o)

/-- HOST_CLOSE_RECORD (R327). -/
def execHostCloseRecord (o : Nat) (s : State) : Answer :=
  let r := s.hostRec o
  .next (if !s.recReady o 2 then s
    else if r.malformed (s.owner o).winSeq.toNat then s.finishRec o r 10 0
    else
      match s.openLaunch o (r.arg0 % 256) with
      | none => s.finishRec o r 8 0
      | some l => (s.closeQ l 0).1.finishRec o r 0 0)

end Sys2Proof.Machine
end

