-- ==== Sys2Proof/Machine/Seals.lean ====
section
/-! DEFINITION. Seals and restores (R183, R184, R337, R361..R365), halts (R366..R368), worlds (R369), owners and erasure (R24,
R370). A context holds one team or one cluster; contexts are numbered in the order of their seals (log 21, DEDUCED). -/

namespace Sys2Proof.Machine

/-! ### Draining (R361 step 2) -/

/-- The pending operations of the groups of a list of uids. -/
def State.opsOf (s : State) (uids : List Nat) : List Nat := (s.ops.filter (fun o => uids.contains o.uid)).map Op.id

/-- Pending operations performed as far as they may be, in issue order; a seal, a halt or a change of the map waits for them, as a release
does (R360, R361). -/
def State.performAll (s : State) (ids : List Nat) : State :=
  ids.foldl (fun acc i => match acc.op? i with | some o => acc.tryOp o true | none => acc) s

/-- Whether every operation of a list has been performed. -/
def State.allDone (s : State) (ids : List Nat) : Bool := ids.all (fun i => (s.op? i).isNone)

/-- The threads of the groups of a list of uids. -/
def State.threadsOf (s : State) (uids : List Nat) : List Nat :=
  (s.groups.filter (fun e => uids.contains e.2.uid)).flatMap (fun e => groupKeys e.1)

/-- The stores that the threads of groups, and the sequencers of teams, have observed: a seal is a release at device scope and waits for
them (R231, R233, R361). -/
def State.observedBy (s : State) (keys uids : List Nat) : List Nat :=
  (s.threadsOf uids).flatMap (fun k => s.observedIds k s.nextId) ++
    keys.flatMap (fun k => ((s.team k).matrix.map Matrix.view).getD [])

/-- The uids of the groups of teams. -/
def State.uidsOf (s : State) (keys : List Nat) : List Nat :=
  (s.groups.filter (fun e => e.2.team.any keys.contains)).map (fun e => e.2.uid)

/-- The uids of an owner's handler groups on a core. -/
def State.handlerUids (s : State) (core o : Nat) : List Nat :=
  (s.groups.filter (fun e => e.1 / 512 == core && e.2.owner == o && e.2.hdepth != 0)).map (fun e => e.2.uid)

/-! ### Miss records of a seal (R184) -/

/-- Whether a waiter belongs to one of the groups. -/
def Waiter.isOf (w : Waiter) (uids : List Nat) : Bool := uids.contains w.uid

/-- A record divided between the threads and sequencers that leave and those that stay. A part without waiters is dropped; the device
stays as a waiter (R364). -/
def MissRec.split (r : MissRec) (uids : List Nat) : Option MissRec × Option MissRec :=
  let part (p : Waiter → Bool) (seqs : List Nat) : Option MissRec :=
    let ws := r.waiters.filter p
    if ws.isEmpty ∧ seqs.isEmpty then none
    else some { r with waiters := ws, seqTeams := seqs, nwait := min (ws.length + seqs.length) 16383 }
  if r.device then (none, some r)
  else (part (fun w => w.isOf uids) (r.seqTeams.filter uids.contains), part (fun w => !w.isOf uids) (r.seqTeams.filter (fun u => !uids.contains u)))

/-- The waits for a record of the threads and sequencers that leave, in fault order (R170, R358). -/
def Core.waitsOf (c : Core) (uids : List Nat) : List RecWait := c.recWaits.filter (fun w => w.waiter.isOf uids)

/-- The unclaimed records of the waiters that leave, taken out of a core's table with their waits for one. -/
def Core.takeRecs (c : Core) (uids : List Nat) : Tab MissRec × Core :=
  let open' := c.recs.filter (fun e => e.2.claimed.isNone)
  (open'.filterMap (fun e => (e.2.split uids).1.map (fun r => (e.1, r))),
   { c with recs := c.recs.filterMap (fun e =>
       if e.2.claimed.isSome then some e else (e.2.split uids).2.map (fun r => (e.1, r)))
            recWaits := c.recWaits.filter (fun w => !w.waiter.isOf uids) })

/-- The records claimed by handler groups, taken out of a core's table. -/
def Core.takeClaimed (c : Core) (uids : List Nat) : Tab MissRec × Core :=
  (c.recs.filter (fun e => e.2.claimed.any uids.contains), { c with recs := c.recs.filter (fun e => !e.2.claimed.any uids.contains) })

/-! ### Sealing (R361, R362) -/

/-- The teams of the cluster of a team, itself included. -/
def State.clusterOf (s : State) (key : Nat) : List Nat := (s.team key).members

/-- A thread as a seal saves it: every flag is clear, its monitor is disarmed, a debug hit that is still to be raised stands in pbk, and one
that waits at a word is ready at it (R47, R142, R359, R362). -/
def State.sealThread (s : State) (uid lane : Nat) (t : Thread) : Thread :=
  let hit := s.hits.any (fun h => h.uid == uid && h.lane == lane && h.cls == .debug)
  let t1 := { t with flags := 0, flagDests := [], monitor := none, frec := { t.frec with pbk := t.frec.pbk || hit } }
  match t.st with
  | .waitOp => { t1 with st := .ready, waitFor := none }
  | .waitFlags => { t1 with st := .ready, header := none }
  | .ready => t1 | .waitHandler => t1 | .atBarrier => t1 | .atCluster => t1 | .atSync => t1 | .backoff => t1 | .parked => t1
  | .lapped => t1 | .exited => t1

/-- The groups of a list taken out of their slots. -/
def State.takeGroups (s : State) : List Nat → List SavedGroup × State
  | [] => ([], s)
  | g :: gs =>
    let (x, s1) := s.takeGroup g
    let r := s1.takeGroups gs
    ({ x with threads := x.threads.map (fun e => (e.1, s.sealThread x.group.uid e.1 e.2)) } :: r.1, r.2)

/-- One team saved and taken off its core (R161, R266, R362). -/
def State.saveTeam (s : State) (key : Nat) : SavedTeam × State :=
  let core := key / 32
  let s0 := s.completeAll key
  let (groups, s1) := s0.takeGroups (s0.groupsOf key)
  let t := s1.team key
  let m := t.matrix.map (fun m => { m with latch := none, barWait := none, early := [], view := [] })
  ({ team := { t with matrix := m }, groups, tiles := (s1.core core).tiles.filter (fun e => e.2.v && e.2.team == teamSlot key)
     perm := if t.matrix.isSome then (s1.core core).perm else [] },
   ({ s1 with teams := Tab.del s1.teams key }.updCore core (fun c =>
      { c with tiles := c.tiles.filter (fun e => e.2.team != teamSlot key), perm := if t.matrix.isSome then [] else c.perm
               permBefore := if t.matrix.isSome then none else c.permBefore })).invalidateL1
        core t.owner)

/-- Teams saved one after another. -/
def State.saveTeams (s : State) : List Nat → List SavedTeam × State
  | [] => ([], s)
  | k :: ks =>
    let (x, s1) := s.saveTeam k
    let r := s1.saveTeams ks
    (x :: r.1, r.2)

/-- Running commands that name the scratch of teams pause at an iteration boundary (R277). -/
def State.pauseFor (s : State) (ts : List Team) : State :=
  (s.queues.filter (fun e => e.2.st == .running)).foldl (fun acc e =>
    if ts.any (fun t => acc.queueNames e.1 t.owner t.tid) then (acc.atBoundary e.1).setQState e.1 .paused 0 0 else acc) s

/-- Why a context is made. -/
structure SealWhy where
  /-- The records stay in the miss table (R183). -/
  swap : Bool := false
  byDriver : Bool := false
  /-- The owner halts: its records are freed (R184). -/
  halt : Bool := false

/-- The bytes that a shadow store holds (R12, R364). -/
def shadowBytes : Nat := 128 * 2 ^ 20

/-- The bytes of the contexts in the shadow store of a die. -/
def State.shadowUsed (s : State) (die : Nat) : Nat :=
  (s.ctxs.filter (fun c => c.2.die == die && !c.2.evicted)).foldl (fun acc c => acc + c.2.room) 0

/-- Whether the shadow store of a die has room for the next context (R364). -/
def State.shadowRoom (s : State) (die : Nat) : Bool := s.shadowUsed die + Config.imageSize s.nextCtx ≤ shadowBytes

/-- The cores on which sealing teams leaves an owner without a team; its handler groups there are sealed with them (R184). -/
def State.emptied (s : State) (o : Nat) (keys : List Nat) : List Nat :=
  ((keys.map (· / 32)).eraseDups).filter (fun c => !s.teams.any (fun e => e.1 / 32 == c && e.2.owner == o && !keys.contains e.1))

/-- The position in a cluster of its team on a core. -/
def posOf (keys : List Nat) (core : Nat) : Nat := keys.findIdx (fun k => k / 32 == core)

/-- What of the miss tables travels with a seal, each item with the position of its core: records with their numbers, and waits for one in
fault order (R170, R184). -/
structure Travel where
  recs : List (Nat × Nat × MissRec) := []
  waits : List (Nat × RecWait) := []

/-- The records and waits that travel with a seal, taken out of the tables of its cores (R184, R358). -/
def State.takeAllRecs (s : State) (keys uids huids : List Nat) : Travel × State :=
  ((keys.map (· / 32)).eraseDups).foldl (fun (acc : Travel × State) c =>
    let a := (acc.2.core c).takeRecs uids
    let b := a.2.takeClaimed huids
    ({ recs := acc.1.recs ++ (a.1 ++ b.1).map (fun e => (posOf keys c, e))
       waits := acc.1.waits ++ ((acc.2.core c).waitsOf uids).map (fun w => (posOf keys c, w)) }, acc.2.setCore c b.2)) ({}, s)

/-- Teams of one cluster, their operations done, saved into a context; records and handler groups travel as R184 says, and the records
that this frees serve the threads that wait for one (R170). -/
def State.storeCluster (s : State) (keys : List Nat) (why : SealWhy) : State :=
  let first := keys.headD 0
  let o := (s.team first).owner
  let cores := (keys.map (· / 32)).eraseDups
  let hcores := if why.swap then [] else s.emptied o keys
  let huids := hcores.flatMap (fun c => s.handlerUids c o)
  let hkeys := (s.groups.filter (fun e => huids.contains e.2.uid)).map (·.1)
  let s1 := s.pauseFor (keys.map s.team)
  let r : Travel × State := if why.swap ∨ why.halt then ({}, s1)
    else s1.takeAllRecs keys (s.uidsOf keys ++ huids ++ keys.map (fun k => (s.team k).uid)) huids
  let (teams, s2) := r.2.saveTeams keys
  let (handlers, s3) := s2.takeGroups hkeys
  let ctx : Ctx :=
    { owner := o, die := dieOf (first / 32), teams, handlers := (hkeys.zip handlers).map (fun e => (posOf keys (e.1 / 512), e.2))
      recs := r.1.recs, recWaits := r.1.waits, swapped := why.swap, byDriver := why.byDriver
      readyAt := s.now, room := Config.imageSize s.nextCtx }
  cores.foldl (fun acc c => (acc.serveRecWaits c).releaseSlot c o)
    { s3 with ctxs := Tab.put s3.ctxs s3.nextCtx ctx, nextCtx := s3.nextCtx + 1 }

/-- A cluster sealed, where its operations can complete and its die's shadow store has room; otherwise its operations go on and
the seal is not yet made (R361, R364). It is a release at device scope of its threads. The records of a halting owner are freed (R184,
R363). -/
def State.sealCluster (s : State) (keys : List Nat) (why : SealWhy) : State :=
  let first := keys.headD 0
  let o := (s.team first).owner
  let uids := s.uidsOf keys ++ (s.emptied o keys).flatMap (fun c => s.handlerUids c o)
  let s0 := (s.groups.filter (fun e => uids.contains e.2.uid)).foldl (fun acc e => acc.stopRep e.1) s
  let ids := s0.opsOf uids ++ s0.observedBy keys uids
  let s1 := s0.performAll ids
  if !(s1.opsOf uids).isEmpty || !s1.allDone ids || !s1.shadowRoom (dieOf (first / 32)) || keys.any (fun k => (s1.team? k).isNone) then s1
  else ((s1.threadsOf uids).foldl State.expose s1).storeCluster keys { why with halt := why.halt || s.isHalting o }

/-- SEAL_CONTEXT (R361): the partition's clusters are sealed one after another, at the driver's request. -/
def execSealContext (teams : List Nat) (s : State) : Answer :=
  .next (teams.foldl (fun acc k =>
    match acc.team? k with
    | some t => if t.members.all teams.contains then acc.sealCluster t.members { byDriver := true } else acc
    | none => acc) s)

/-- PREEMPT (R364): the distributor seals a team, with its cluster. -/
def execPreempt (core tslot : Nat) (s : State) : Answer :=
  .next (match s.team? (teamKey core tslot) with
    | some t => if s.isHalting t.owner then s else s.sealCluster t.members {}
    | none => s)

/-- Whether some thread of a team's cluster waits with wr 1 (R183). -/
def State.teamWaits (s : State) (t : Team) : Bool :=
  s.threads.any (fun e => e.2.st == .waitHandler && ((s.group? (e.1 / 32)).bind Group.team).any t.members.contains)

/-- The ac of one µs. -/
def acPerUs : Nat := 1200

/-- SWAP_OUT (R183): a team or cluster of which, for PARKTH without a break, some thread has waited on a handler and no group has issued
(log 34, DEDUCED). -/
def execSwapOut (core tslot : Nat) (s : State) : Answer :=
  .next (match s.team? (teamKey core tslot) with
    | none => s
    | some t =>
      let parkth := (s.owner t.owner).parkth * acPerUs
      let waits := s.teamWaits t && t.waitSince.any (fun since => since + parkth ≤ s.now)
      let quiet := t.members.all (fun m => (s.team m).lastIssue + parkth ≤ s.now)
      if waits && quiet && !s.isHalting t.owner then s.sealCluster t.members { swap := true } else s)

/-! ### Restoring (R361, R303, R337) -/

/-- The record that a waiting thread's FREC describes (R368). -/
def State.recordAgain (s : State) (k : Nat) : State :=
  let g := s.group (k / 32)
  let f := (s.thread k).frec
  let core := k / 32 / 512
  match s.recordFor g.owner g.hdepth f.cls with
  | none =>
    s.reportHalt g.owner { cause := .recurse, hd := g.hdepth, core, gslot := k / 32 % 512, lane := k % 32, code := recordAux f.cls f.aux,
                           cls := f.cls, addr := f.addr }
  | some nest =>
    let w : Waiter := { uid := g.uid, lane := k % 32 }
    let r : MissRec := { cls := f.cls, acc := f.acc, nest, owner := g.owner, depth := g.hdepth, gslot := k / 32 % 512, lane := k % 32
                         cause2 := f.cause2, aux := recordAux f.cls f.aux, ova := f.addr, order := s.nextId }
    match (s.core core).takeRec r w with
    | some (c, i) =>
      ({ s with nextId := s.nextId + 1 }.setCore core c).updThread k (fun t => { t with frec := { t.frec with rid := i } })
    | none => s.updCore core (fun c => { c with recWaits := c.recWaits ++ [{ waiter := w, record := r }] })

/-- Whether a thread holds a record or waits for one, on a core or in a context that has not been restored. -/
def State.holdsRecord (s : State) (k : Nat) : Bool :=
  let uid := (s.group (k / 32)).uid
  let mine (w : Waiter) : Bool := w.uid == uid && w.lane == k % 32
  s.cores.any (fun c => c.2.recs.any (fun e => e.2.waiters.any mine) || c.2.recWaits.any (fun r => mine r.waiter)) ||
    s.ctxs.any (fun c => c.2.recs.any (fun e => e.2.2.waiters.any mine))

/-- Whether a team's sequencer holds a record or waits for one (R245). -/
def State.seqHolds (s : State) (uid : Nat) : Bool :=
  s.cores.any (fun c => c.2.recs.any (fun e => e.2.seqTeams.contains uid) || c.2.recWaits.any (fun r => r.seq && r.waiter.uid == uid)) ||
    s.ctxs.any (fun c => c.2.recs.any (fun e => e.2.2.seqTeams.contains uid))

/-- A restored sequencer that waits on a miss and holds no record fetches its word again (R245, R368). -/
def State.fetchAgain (s : State) (key : Nat) : State :=
  if s.seqHolds (s.team key).uid then s else s.updMatrix key (fun m => { m with missing := false })

/-- Every thread of a group that waits on a handler and holds no record raises its fault again as a new record (R368). -/
def State.raiseAgain (s : State) (g : Nat) : State :=
  (groupKeys g).foldl (fun acc k => if (acc.thread k).st = .waitHandler ∧ !acc.holdsRecord k then acc.recordAgain k else acc) s

/-- A record recreated on the receiving core, under the number it had where that is free, and else under the first free one; a claimed one
keeps the name by which its handler knows it (R184, log 62, DESIGN CHOICE). Its waiters' FREC takes the number. -/
def State.putRec (s : State) (core old : Nat) (r : MissRec) : State :=
  let c := s.core core
  let same := if r.depth = 0 ∧ (Tab.find c.recs old).isNone then some old else c.freeRec r.owner r.depth
  match same with
  | none => s
  | some i =>
    r.waiters.foldl (fun acc w =>
      match acc.findGroup w.uid with
      | some g => acc.updThread (tkey g w.lane) (fun t => { t with frec := { t.frec with rid := if r.claimed.isSome then r.name else i } })
      | none => acc) (s.updCore core (fun c => { c with recs := Tab.put c.recs i r }))

/-- Outstanding entries whose commands have completed meanwhile are marked (R337). -/
def State.recoverOpc (s : State) (g : Nat) : State :=
  (s.updGroup g (fun x => { x with opc := x.opc.map (fun (e : OpcEntry) =>
    if e.cls ≠ 3 ∧ !e.listed ∧ e.w < s.qRd e.q then { e with done := true } else e) })).retireOpc g

/-- One saved team put at a seat; the cluster's keys are given (R161, R303). -/
def State.restoreTeam (s : State) (x : SavedTeam) (members : List Nat) (seat : Seat) : State :=
  let key := teamKey seat.core seat.tslot
  let s1 := (s.makeResident seat.core x.team.owner).setTeam key { x.team with members, lastIssue := s.now }
  let s2 := s1.updCore seat.core (fun c =>
    { c with tiles := x.tiles.foldl (fun t e => Tab.put t e.1 { e.2 with team := seat.tslot }) c.tiles
             perm := if x.team.matrix.isSome then x.perm else c.perm
             permBefore := if x.team.matrix.isSome then none else c.permBefore })
  let s3 := (x.groups.zip seat.gslots).foldl (fun acc e =>
    (acc.putGroup (gkey seat.core e.2) { e.1 with group := { e.1.group with team := some key } }).recoverOpc (gkey seat.core e.2))
    (s2.invalidateL1 seat.core x.team.owner)
  let s3 := (((s3.groupsOf key)).flatMap groupKeys).foldl State.takeKnown s3
  if x.streamEnds then s3.endStream key (some .xmiss) else s3

/-- Whether a sealed context holds the team of an identity. -/
def State.sealedTid (s : State) (o tid : Nat) : Bool :=
  s.ctxs.any (fun c => c.2.owner == o && c.2.teams.any (fun t => t.team.tid == tid && !t.team.ended))

/-- Whether no team whose scratch a queue's head command names is sealed: one that names a team that has ended, or none, runs on (R277). -/
def State.namesResident (s : State) (q : Nat) : Bool :=
  (s.queueOwner q).all (fun o => (pktWords (s.queue q).slot).all (fun w => w / 2 ^ 62 % 4 != 2 || !s.sealedTid o (w / 2 ^ 36 % 2 ^ 16)))

/-- Paused commands whose teams are restored and whose engine is out of reset run again at iv (R277). -/
def State.resumePaused (s : State) : State :=
  (s.queues.filter (fun e => e.2.st == .paused)).foldl (fun acc e =>
    if acc.namesResident e.1 && !Tab.getD acc.engineReset false (engineOf e.1) then acc.setQState e.1 .running 0 0 else acc) s

/-- The needs of a saved team, the reservations of its comets included (R302, R320). -/
def State.needsOf (s : State) (x : SavedTeam) : Needs :=
  { owner := x.team.owner, groups := x.groups.length, pieces := x.team.scratchSize / 4096, bars := x.team.nbars + clusterBars x.team.pos
    stream := x.team.matrix.isSome, tiles := x.tiles.map (·.1), comets := s.cometsOf x.team.uid }

/-- The core that receives what a context holds for a position (R184). -/
def seatCore (seats : List Seat) (pos : Nat) : Nat := (seats.getD pos { core := 0, tslot := 0, gslots := [] }).core

/-- A handler group of a context put into the slot of the same depth on a core, with its outstanding entries (R184, R337). -/
def State.putHandler (s : State) (core o : Nat) (h : SavedGroup) : State :=
  match (s.core core).slotOf o with
  | none => s
  | some k =>
    let g := gkey core (handlerSlot k h.group.hdepth)
    (s.putGroup g h).recoverOpc g

/-- Whether the miss tables of the receiving cores have room for the records of a context (R170, R184). -/
def State.recsFit (s : State) (seats : List Seat) (c : Ctx) : Bool :=
  c.recs.all (fun r =>
    let core := seatCore seats r.1
    let table := (s.core core).recs
    if r.2.2.depth = 0 then
      c.recs.countP (fun e => seatCore seats e.1 == core && e.2.2.depth == 0) + table.countP (fun e => e.1 < 56) ≤ 56
    else (s.ownerSlotFor core c.owner).any (fun k => (Tab.find table (56 + k)).isNone))

/-- Whether the handler slots that a context needs are idle. -/
def State.handlersFit (s : State) (seats : List Seat) (c : Ctx) : Bool :=
  c.handlers.all (fun h =>
    let core := seatCore seats h.1
    (s.ownerSlotFor core c.owner).any (fun k => (s.group? (gkey core (handlerSlot k h.2.group.hdepth))).isNone))

/-- A context restored at seats that can hold it (R361, R303), with its records, its waits for one in fault order (R170, R358) and its
handler groups (R184); a thread or sequencer that waits and holds no record raises its fault again (R368). -/
def State.restore (s : State) (id : Nat) (seats : List Seat) : State :=
  match Tab.find s.ctxs id with
  | none => s
  | some c =>
    let t0 := (c.teams.headD { team := {}, groups := [] }).team
    let x := s.stageOf t0.launch t0.stage
    let fits := c.ready && !c.evicted && !s.isHalting c.owner && s.exists? c.owner && seats.length == c.teams.length &&
      isRectangle x.w x.h seats && (c.teams.zip seats).all (fun e => s.seatOk (s.needsOf e.1) e.2) && s.handlersFit seats c && s.recsFit seats c
    if !fits then s
    else
      let members := seats.map (fun e => teamKey e.core e.tslot)
      let s1 := (c.teams.zip seats).foldl (fun acc e => acc.restoreTeam e.1 members e.2) { s with ctxs := Tab.del s.ctxs id }
      let s2 := c.handlers.foldl (fun acc h => acc.putHandler (seatCore seats h.1) c.owner h.2) s1
      let s3 := c.recs.foldl (fun acc r => acc.putRec (seatCore seats r.1) r.2.1 r.2.2) s2
      let s4 := c.recWaits.foldl (fun acc w =>
        acc.updCore (seatCore seats w.1) (fun x => { x with recWaits := sortBy (fun v => v.record.order) (x.recWaits ++ [w.2]) })) s3
      let hkeys := (s4.groups.filter (fun e => c.handlers.any (fun h => h.2.group.uid == e.2.uid))).map (·.1)
      let s5 := members.foldl State.fetchAgain ((members.flatMap s4.groupsOf ++ hkeys).foldl State.raiseAgain s4)
      ((seats.map Seat.core).eraseDups.foldl State.serveRecWaits s5).resumePaused

/-- Whether another context of the owner became ready to re-enter earlier (R303). -/
def State.earlierReady (s : State) (id : Nat) : Bool :=
  match Tab.find s.ctxs id with
  | none => false
  | some c => s.ctxs.any (fun e => e.2.owner == c.owner && e.2.ready &&
      (e.2.readyAt < c.readyAt || (e.2.readyAt == c.readyAt && e.1 < id)))

/-- A context restored when it is its owner's turn: contexts of one owner re-enter in the order in which they became ready (R303). -/
def State.reenter (s : State) (id : Nat) (seats : List Seat) : State := if s.earlierReady id then s else s.restore id seats

/-- RESTORE (R361). -/
def execRestore (id : Nat) (seats : List Seat) (s : State) : Answer := .next (s.reenter id seats)

/-- TEAM_REENTER (R303). -/
def execTeamReenter (id : Nat) (seats : List Seat) (s : State) : Answer := .next (s.reenter id seats)

/-! ### Evicted contexts (R364, R365) -/

/-- The bytes of an owner's contexts in all shadow stores (SHUSED, R364). -/
def State.shused (s : State) (o : Nat) : Nat :=
  (s.ctxs.filter (fun c => c.2.owner == o && !c.2.evicted)).foldl (fun acc c => acc + c.2.room) 0

/-- A SEAL record taken on a core (R364); where none can be, the event of the owner is raised. -/
def State.sealRecord (s : State) (core o aux : Nat) : State :=
  match s.recordFor o 0 .seal with
  | none => s.reportHalt o { cause := .recurse, core, code := BitVec.ofNat 32 aux, cls := .seal }
  | some nest =>
    match (s.core core).freeRec o 0 with
    | some i =>
      let r : MissRec :=
        { cls := .seal, nest, owner := o, nwait := 1, aux := BitVec.ofNat 32 aux, order := s.nextId, device := true }
      { s with nextId := s.nextId + 1 }.updCore core (fun c => { c with recs := Tab.put c.recs i r })
    | none => s.raiseEvent (224 + o)

/-- Whether a SEAL request of an owner with this bit 31 of aux stands in some miss table, or in a sealed context. -/
def State.sealAsked (s : State) (o : Nat) (bring : Bool) (id : Option Nat) : Bool :=
  let asks (r : MissRec) : Bool := r.device && r.owner == o && r.aux.getLsbD 31 == bring && id.all (fun i => r.aux.toNat % 2 ^ 24 == i)
  s.cores.any (fun c => c.2.recs.any (fun e => asks e.2)) || s.ctxs.any (fun c => c.2.recs.any (fun e => asks e.2.2))

/-- SEAL_EVICT_REQUEST (R364): for the owner's oldest context in a shadow store, on the lowest core where it is resident. -/
def execSealEvictRequest (o : Nat) (s : State) : Answer :=
  .next (
    match s.ctxs.find? (fun c => c.2.owner == o && !c.2.evicted) with
    | none => s
    | some (id, _) =>
      if s.shused o ≤ (s.owner o).shq ∨ s.sealAsked o false none ∨ s.isHalting o then s
      else
        match (s.cores.find? (fun c => (c.2.slotOf o).isSome)).map (·.1) with
        | some core => s.sealRecord core o (id % 2 ^ 24)
        | none => s.raiseEvent (224 + o))

/-- SEAL_BRINGIN_REQUEST (R364): for an evicted context that is to be placed, on the lowest core where the owner is resident,
or else on the core chosen for the team, which then has room for the owner's handler slots (R17, R21). -/
def execSealBringinRequest (id core : Nat) (s : State) : Answer :=
  .next (
    match Tab.find s.ctxs id with
    | none => s
    | some c =>
      if !c.evicted ∨ !c.ready ∨ s.sealAsked c.owner true (some (id % 2 ^ 24)) ∨ s.isHalting c.owner ∨ 96 ≤ core then s
      else
        let aux := 2 ^ 31 + id % 2 ^ 24
        match (s.cores.find? (fun e => (e.2.slotOf c.owner).isSome)).map (·.1) with
        | some home => s.sealRecord home c.owner aux
        | none =>
          if (s.ownerSlotFor core c.owner).isSome ∧ s.groupsOn core + 2 ≤ 512 ∧ (s.core core).world = (s.owner c.owner).world then
            (s.makeResident core c.owner).sealRecord core c.owner aux
          else s.raiseEvent (224 + c.owner))

/-- The sealed context of an owner that an identifier names. -/
def State.ctxOf (s : State) (o id : Nat) : Option Ctx := (Tab.find s.ctxs id).filter (fun c => c.owner == o)

/-- The image of a context after its n-th eviction (log 13, DESIGN CHOICE). -/
def State.image (s : State) (id n : Nat) : List Byte :=
  (List.range (Config.imageSize id)).map (Config.imageByte s.imageKey id n)

/-- The places of the 64-byte pieces of [ova, ova + n) for an access, or the first fault (R208). -/
def State.pieces (s : State) (k : Nat) (acc : Acc) (ova n : Nat) : Except FaultInfo (List (Loc × Nat × Nat)) :=
  (List.range ((n + 63) / 64)).foldl (fun r i =>
    match r with
    | .error fi => .error fi
    | .ok ls =>
      let len := min 64 (n - 64 * i)
      match s.translateFor k acc (ova + 64 * i) len with
      | .error fi => .error fi
      | .ok l => .ok (ls ++ [(l, 64 * i, len)])) (.ok [])

/-- Bytes charged to a handler thread's owner. -/
def State.chargeImage (s : State) (o n : Nat) : State := s.countWalk o n

/-- The request of a piece of an image to L2, counted in PERF[5] (R201, R349). -/
def State.imageRequest (s : State) (core o : Nat) (l : Loc) (n : Nat) : State :=
  ((s.countPerf core o 5 1).activate o (some core) l.dpa n).touch l.world l.dpa n

/-- A piece of an image written as a store of the thread, which updates its core's L1 line, sector by sector (R189, R218): one that the far tier
fails is discarded and counted (R199, R365). -/
def State.writePiece (s : State) (core o : Nat) (l : Loc) (data : List Byte) : State :=
  if s.farDown l.dpa then s.countPoison o 1
  else ((s.imageRequest core o l data.length).updCore core (fun c => c.l1Stores o l.dpa data)).homeWrite l.world l.dpa data

/-- A piece of an image read; one that the far tier fails reads zero and is counted (R199). -/
def State.readPieceOf (s : State) (core o : Nat) (l : Loc) (n : Nat) : List Byte × State :=
  if s.farDown l.dpa then (List.replicate n 0, s.countPoison o 1)
  else
    let g := s.homeRead l.world l.dpa n
    (g.clean l.dpa, (s.imageRequest core o l n).countPoison o g.poison.length)

/-- SEAL.out for one thread (R365). -/
def State.sealOutFor (s : State) (k id b : Nat) : Except FaultInfo (State × Nat) :=
  let o := (s.group (k / 32)).owner
  match s.ctxOf o id with
  | none => .ok (s, 1)
  | some c =>
    if c.evicted then .ok (s, 1)
    else
      let img := s.image id (c.evictions + 1)
      match s.pieces k .write b img.length with
      | .error fi => .error fi
      | .ok ps =>
        let s1 := ps.foldl (fun acc p => acc.writePiece (k / 32 / 512) o p.1 ((img.drop p.2.1).take p.2.2)) s
        .ok ({ s1 with ctxs := Tab.put s1.ctxs id { c with evicted := true, evictions := c.evictions + 1 } }.chargeImage o img.length, 0)

/-- SEAL.in for one thread (R365). -/
def State.sealInFor (s : State) (k id b : Nat) : Except FaultInfo (State × Nat) :=
  let o := (s.group (k / 32)).owner
  match s.ctxOf o id with
  | none => .ok (s, 1)
  | some c =>
    if !c.evicted then .ok (s, 1)
    else if shadowBytes < s.shadowUsed c.die + c.room then .ok (s, 3)
    else
      let img := s.image id c.evictions
      match s.pieces k .read b img.length with
      | .error fi => .error fi
      | .ok ps =>
        let r := ps.foldl (fun (acc : List Byte × State) p =>
          let x := acc.2.readPieceOf (k / 32 / 512) o p.1 p.2.2
          (acc.1 ++ x.1, x.2)) ([], s)
        let s1 := r.2.chargeImage o img.length
        if r.1 = img then .ok ({ s1 with ctxs := Tab.put s1.ctxs id { c with evicted := false } }, 0) else .ok (s1, 2)

/-- A SEAL word (R365): once for a uniform d, otherwise for each thread in ascending index; its accesses come after the thread's earlier
ones, and from the first thread on whose accesses still wait, the threads stay at the word (R8). -/
def State.sealWord (s : State) (f : FWord) (bw : Bool) (act : State → Nat → Nat → Nat → Except FaultInfo (State × Nat)) : State :=
  let e := s.enter f.guard {} (fUses f (!bw) false bw false) .handlerOnly
  let d := e.state.drainAll e.lanes 5
  let one (st : State) (k : Nat) : Except FaultInfo (State × Nat) :=
    let a := st.rdNat k f.a
    let b := (st.rd k f.b true).toNat
    if 2 ^ 24 ≤ a ∨ (bw ∧ b % 64 ≠ 0) then .error (st.pcFault k .illopd) else act st k a b
  if isUni f.d then
    match e.lanes with
    | [] => d.1
    | k :: _ =>
      if d.2.length ≠ e.lanes.length then d.1
      else
        match one d.1 k with
        | .error fi => d.1.raiseAll e.lanes fi
        | .ok r => (r.1.wr k f.d (!bw) (BitVec.ofNat 64 r.2)).advance {} e.lanes
  else
    (e.lanes.takeWhile (fun k => d.2.contains k)).foldl (fun acc k =>
      match one acc k with
      | .error fi => acc.raise k fi
      | .ok r => ((r.1.freeLu k f 1 2 1).wr k f.d (!bw) (BitVec.ofNat 64 r.2)).advance {} [k]) d.1

/-- SEAL.out (R365). -/
def execSealOut (f : FWord) (s : State) : Answer := .next (s.sealWord f true State.sealOutFor)

/-- SEAL.in (R365). -/
def execSealIn (f : FWord) (s : State) : Answer := .next (s.sealWord f true State.sealInFor)

/-- SEAL.size (R365). -/
def execSealSize (f : FWord) (s : State) : Answer :=
  .next (s.sealWord f false (fun st k id _ =>
    .ok (st, if (st.ctxOf (st.group (k / 32)).owner id).isSome then Config.imageSize id else 0)))

/-! ### Halts (R366..R368) -/

/-- The clusters of an owner on cores, each named once. -/
def State.clustersOf (s : State) (o : Nat) : List (List Nat) :=
  ((s.teams.filter (fun e => e.2.owner == o)).map (fun e => e.2.members)).eraseDups

/-- Whether a queue belongs to an owner; a privileged queue belongs to none (R274). -/
def State.queueOf (s : State) (q o : Nat) : Bool := s.queueOwner q == some o

/-- The handler groups and records of an owner without a team on a core go with one of its swapped-out contexts (R184). -/
def State.stowHandlers (s : State) (core o : Nat) : State :=
  match s.ctxs.find? (fun c => c.2.owner == o && c.2.swapped) with
  | none => s
  | some (id, c) =>
    let uids := s.handlerUids core o
    let keys := (s.groups.filter (fun e => uids.contains e.2.uid)).map (·.1)
    let (hs, s1) := s.takeGroups keys
    let recs := (s1.core core).recs.filter (fun e => e.2.owner == o)
    let c1 : Ctx := { c with handlers := c.handlers ++ hs.map (fun h => (0, h)), recs := c.recs ++ recs.map (fun r => (0, r))
                             swapped := false }
    { s1 with ctxs := Tab.put s1.ctxs id c1 }

/-- OWNER_HALT (R367): once the owner's operations and matrix words are done, its queues halt, its records are freed, its clusters are
sealed as room allows, its slots on cores that hold no team of it are released (R364), OSTAT.st becomes halted and the event is raised. -/
def State.ownerHalt (s : State) (o : Nat) : State :=
  if (s.owner o).ostat.st ≠ .halting then s
  else
    let uids := (s.groups.filter (fun e => e.2.owner == o)).map (fun e => e.2.uid)
    let s0 := (s.teams.filter (fun e => e.2.owner == o)).foldl (fun acc e => acc.completeAll e.1) s
    let s1 := s0.performAll (s0.opsOf uids)
    if !(s1.opsOf uids).isEmpty then s1
    else
      let s2 := (s1.queues.filter (fun e => (e.2.st == .running || e.2.st == .paused) && s1.queueOf e.1 o)).foldl
        (fun acc e => (acc.atBoundary e.1).setQState e.1 .halted 0 0) s1
      let free (c : Core) : Core :=
        { c with recs := c.recs.filter (fun e => e.2.owner != o), recWaits := c.recWaits.filter (fun w => w.record.owner != o) }
      let freed : State := { s2 with cores := s2.cores.map (fun c => (c.1, free c.2)) }
      let s3 := freed.cores.foldl (fun acc c => acc.serveRecWaits c.1) freed
      let s4 := (s3.clustersOf o).foldl (fun acc ks => acc.sealCluster ks { halt := true, byDriver := true }) s3
      let left := (s4.cores.filter (fun c => (c.2.slotOf o).isSome && !s4.teams.any (fun e => e.1 / 32 == c.1 && e.2.owner == o))).map (·.1)
      let s5 := left.foldl (fun acc c => (acc.stowHandlers c o).releaseSlot c o) s4
      (s5.updOwner o (fun x => { x with ostat := { x.ostat with st := .halted } })).raiseEvent o

/-- OWNER_HALT (R367). -/
def execOwnerHalt (o : Nat) (s : State) : Answer := .next (s.ownerHalt o)

/-- DRIVER_HALT (R366). -/
def execDriverHalt (o : Nat) (s : State) : Answer := .next (s.reportHalt o { cause := .driver })

/-- Whether what a waiting word needs is free (R125). -/
def State.isFree (s : State) (k : Nat) : WaitFor → Bool
  | .stage l i => (s.stageQ l i).closed || !(s.stageQ l i).full
  | .slot q => (s.queue q).list.length < (s.queue q).listCap
  | .copyCount => [0, 1, 2].any (fun c => (s.group (k / 32)).opcCount c < 63)
  | .ring o => s.svcRoom o 1
  | .tile c i => (Tab.getD (s.core c).tiles {} i).hold == 0
  | .count c n => (s.group (k / 32)).opcCount c ≤ n

/-- The threads of an owner on cores that wait for what has become free during its halt (R125, R368). -/
def State.wakeResumed (s : State) (o : Nat) : State :=
  { s with threads := s.threads.map (fun e =>
      if e.2.st = .waitOp && (s.group (e.1 / 32)).owner == o && e.2.waitFor.any (s.isFree e.1) then (e.1, { e.2 with st := .ready, waitFor := none })
      else e) }

/-- OWNER_RESUME (R368). -/
def execOwnerResume (o : Nat) (s : State) : Answer :=
  .next (
    if (s.owner o).ostat.st ≠ .halted then s
    else
      let s1 := s.updOwner o (fun x => { x with ostat := { x.ostat with st := .running } })
      let s2 := (s1.queues.filter (fun e => e.2.st == .halted && s1.queueOf e.1 o)).foldl
        (fun acc e => (acc.setQState e.1 .idle 0 0).rebind e.1) (s1.wakeResumed o)
      let s3 := (s2.groups.filter (fun e => e.2.owner == o)).foldl (fun acc e => acc.raiseAgain e.1) s2
      { s3 with
        teams := s3.teams.map (fun e =>
          if e.2.owner = o then (e.1, { e.2 with matrix := e.2.matrix.map (fun m => { m with missing := false }) }) else e)
        ctxs := s3.ctxs.map (fun e => if e.2.owner = o then (e.1, { e.2 with swapped := false, byDriver := false, readyAt := s.now }) else e) })

/-! ### Worlds (R369) -/

/-- Whether a service core of a base die runs: each die has two, and either serves the cores above it (R12, R369) (log 45, DEDUCED). -/
def State.dieServed (s : State) (die : Nat) : Bool := s.scRuns (2 * die) || s.scRuns (2 * die + 1)

/-- WORLD_CHANGE (R369), by a service core of the core's die: no team is placed on the core from now on, and its teams are sealed; once none is left, its storage is cleared and the latch takes the new
world. Every bank keeps its mode. -/
def State.worldChange (s : State) (core world : Nat) : State :=
  if s.power ≠ .ready ∨ 96 ≤ core ∨ 16 ≤ world ∨ !s.dieServed (dieOf core) then s
  else
    let here := (s.teams.filter (fun e => e.1 / 32 == core)).map (fun e => e.2.members)
    let s1 := here.eraseDups.foldl (fun acc ks => acc.sealCluster ks { byDriver := true })
      (s.updCore core (fun c => { c with worldNext := some world }))
    let uids := (s1.groups.filter (fun e => e.1 / 512 == core)).map (fun e => e.2.uid)
    let s2 := s1.performAll (s1.opsOf uids)
    if s2.teams.any (fun e => e.1 / 32 == core) || !(s2.opsOf uids).isEmpty then s2
    else
      let s3 := ((s2.core core).slots.map (fun e => e.2.owner)).foldl (fun acc o => acc.stowHandlers core o) s2
      { s3 with groups := s3.groups.filter (fun e => e.1 / 512 != core)
                threads := s3.threads.filter (fun e => e.1 / 32 / 512 != core) }.setCore core
        { world, banks := (s3.core core).banks, window := (s3.core core).window, walks := (s3.core core).walks }

/-- WORLD_CHANGE (R369). -/
def execWorldChange (core world : Nat) (s : State) : Answer := .next (s.worldChange core world)

/-! ### Owners and erasure (R24, R167, R370) -/

/-- Whether two ranges of DPA overlap. -/
def extOverlap (x y : BitVec 128) : Bool := rangesMeet (extDpa x) (extLen x) (extDpa y) (extLen y)

/-- Whether an extent overlaps a range that is not yet swept (R167, R370). -/
def State.unswept (s : State) (x : BitVec 128) : Bool :=
  s.sweeps.any (fun e => e.2.any (fun r => rangesMeet (extDpa x) (extLen x) r.1 r.2))

/-- Whether an extent overlaps one of another owner. -/
def State.takenByOther (s : State) (o : Nat) (x : BitVec 128) : Bool :=
  s.owners.any (fun e => e.1 != o && e.2.extents.any (extOverlap x))

/-- OWNER_CREATE (R23, R24, R166, R192): a new owner with its reserve extent, which lies in HBM4E; the first owner of a protected world
has a new key made for the world. -/
def State.ownerCreate (s : State) (o world : Nat) (entry : BitVec 128) : State :=
  let reserve := extMask entry
  let ok := s.served && o < 64 && world < 16 && !s.exists? o && extV reserve && extRsv reserve && extTier reserve == 0 &&
    extPopulated reserve && extDpa reserve + extLen reserve ≤ 2 ^ 39 && extWorld reserve == world && 16 ≤ extLen reserve / 2 ^ 16 && extLen reserve / 2 ^ 16 ≤ 1024 && !s.unswept reserve && !s.takenByOther o reserve &&
    (Tab.find s.sweeps o).isNone
  if !ok then s
  else
    let s1 := if world ≠ 0 ∧ !s.owners.any (fun e => e.2.world == world) then
        { s with worldKey := Tab.put s.worldKey world s.nextKey, nextKey := s.nextKey + 1 }
      else s
    let digest := Config.sha512 (s1.plainBytes world (extDpa reserve) (extLen reserve))
    s1.setOwner o { world, allot := [(0, reserve)], ostat := { st := .running }, reserveDigest := digest }

/-- OWNER_CREATE (R24). -/
def execOwnerCreate (o world : Nat) (reserve : BitVec 128) (s : State) : Answer := .next (s.ownerCreate o world reserve)

/-- A table of a core that is not the owner's own and that another owner is rewriting no longer gives the owner's entries (R154, R370). -/
def Before.forget {β : Type} (b : Option (Before (Option Nat × β))) (o : Nat) : Option (Before (Option Nat × β)) :=
  b.filter (fun x => x.was.1 != some o)

/-- OWNER_DESTROY (R370): everything of the owner is dropped and the sweep of its allotment begins. An owner with work on the cores that
has not halted is not destroyed: the driver halts it first (R368) (log 80, DESIGN CHOICE). -/
def State.ownerDestroy (s : State) (o : Nat) : State :=
  let uids := (s.groups.filter (fun e => e.2.owner == o)).map (fun e => e.2.uid)
  let idle := (s.owner o).ostat.st == .halted || (s.teams.all (fun e => e.2.owner != o) && uids.isEmpty)
  if !s.exists? o || !idle then s
  else
    let x := s.owner o
    let keys := (s.groups.filter (fun e => e.2.owner == o)).map (·.1)
    let clean (c : Core) : Core :=
      { c with slots := c.slots.filter (fun e => e.2.owner != o), walks := Tab.del c.walks o, tlb := c.tlb.filter (fun e => e.owner != o)
               recs := c.recs.filter (fun e => e.2.owner != o), recWaits := c.recWaits.filter (fun w => w.record.owner != o)
               pats := (c.pats.filter (fun e => e.2.tag != some o)).map (fun e => (e.1, { e.2 with before := Before.forget e.2.before o }))
               cbs := (c.cbs.filter (fun e => e.2.tag != some o)).map (fun e => (e.1, { e.2 with before := Before.forget e.2.before o }))
               l1 := c.l1.filter (fun l => l.owner != o), code := c.code.filter (fun w => w.owner != o) }
    let teamKeys := (s.teams.filter (fun e => e.2.owner == o)).map (·.1)
    let ended := (s.groups.filter (fun e => e.2.owner == o)).foldl (fun acc e => acc.endRewrites (e.1 / 512) e.2.uid) s
    let s1 := teamKeys.foldl State.dropTeam { ended with
      groups := s.groups.filter (fun e => !keys.contains e.1)
      threads := s.threads.filter (fun e => !keys.contains (e.1 / 32)) }
    let mine (q : Nat) : Bool := s.queueOf q o
    let within (dpa : Nat) : Bool := x.extents.any (fun e => extDpa e ≤ dpa && dpa < extDpa e + extLen e)
    let lastOfWorld := !s.owners.any (fun e => e.1 != o && e.2.world == x.world)
    let s2 : State := { s1 with
      ctxs := s1.ctxs.filter (fun c => c.2.owner != o)
      comets := s1.comets.filter (fun c => c.owner != o)
      launches := s1.launches.filter (fun l => l.2.owner != o)
      ops := s1.ops.filter (fun p => !uids.contains p.uid)
      hits := s1.hits.filter (fun h => !uids.contains h.uid)
      queues := s1.queues.filter (fun e => !mine e.1)
      deliveries := s1.deliveries.filter (fun d => !mine d.q)
      l2 := s1.l2.filter (fun l => !within (128 * l.line))
      cores := s1.cores.map (fun c => (c.1, clean c.2))
      owners := Tab.del s1.owners o
      window := s1.window.filter (fun e => e.1 / 2 ^ 16 != o)
      worldKey := if x.world ≠ 0 ∧ lastOfWorld then Tab.del s1.worldKey x.world else s1.worldKey
      sweeps := Tab.put s1.sweeps o (x.extents.map (fun e => (extDpa e, extLen e))) }
    let s3 := (s2.qbindNew.filter (fun e => mine e.1)).foldl (fun acc e => acc.rebind e.1) s2
    s3.cores.foldl (fun acc c => acc.serveRecWaits c.1) s3

/-- OWNER_DESTROY (R370). -/
def execOwnerDestroy (o : Nat) (s : State) : Answer := .next (s.ownerDestroy o)

/-- The alias lines of a range swept: the element bytes that they stand for become zero (R190, R197, R370) (log 85, DEDUCED). -/
def State.sweepAlias (s : State) (dpa n : Nat) : State :=
  (s.fwin.filter (fun e => fwV e.2)).foldl (fun acc e =>
    let x := e.2
    let base := aliasBase + e.1 / 16 * 2 ^ 40 + 128 * fwAbase x
    let size := 8 * fwElemBits x
    ((List.range (fwLines x)).filter (fun i => dpa ≤ base + 128 * i && base + 128 * i < dpa + n)).foldl (fun acc i =>
      acc.rawWrite (fwWorld x) (fwEbase x + size * i) (List.replicate size 0)) acc) s

/-- A range of device memory swept with zeros, its moved units with it; a full write clears poison (R203, R370), and takes back the lines
that the host holds (R242). -/
def State.sweepRange (s : State) (dpa n : Nat) : State :=
  let inside (a : Nat) : Bool := dpa ≤ a && a < dpa + n
  let units := (s.moved.filter (fun e => inside (e.1 * 4096))).map (·.2)
  let gone (a : Nat) : Bool := inside a || units.contains (a / 4096)
  if isAlias dpa then
    let s1 := s.sweepAlias dpa n
    { s1 with hostLines := s1.hostLines.map (fun e => if inside (128 * e.1) then (e.1, true) else e) }
  else
  { s with mem := s.mem.filter (fun c => !gone c.1)
           poison := s.poison.filter (fun e => !gone (8 * e.1))
           hostLines := s.hostLines.map (fun e => if inside (128 * e.1) then (e.1, true) else e)
           moved := s.moved.filter (fun e => !inside (e.1 * 4096)) }

/-- ERASURE_END (R370, R371). -/
def execErasureEnd (o : Nat) (s : State) : Answer :=
  .next (match Tab.find s.sweeps o with
    | none => s
    | some rs =>
      let s1 := rs.foldl (fun (acc : State) r => acc.sweepRange r.1 r.2) s
      { s1 with sweeps := Tab.del s.sweeps o }.raiseEvent 419)

/-- CORE_WATCHDOG (R372): a core of which an entry has been ready for 10 ms without an issue is sealed, reset and restored: what
a seal leaves out is lost, and everything else is as a seal and its restoration leave it. -/
def execCoreWatchdog (core : Nat) (s : State) : Answer :=
  .next (if !(s.core core).readySince.any (fun t => t + 10000 * acPerUs ≤ s.now) then s
    else
      let s0 := (s.groups.filter (fun e => e.1 / 512 == core)).foldl (fun acc e => acc.stopRep e.1) s
      let uids := (s0.groups.filter (fun e => e.1 / 512 == core)).map (fun e => e.2.uid)
      let s1 := s0.performAll (s0.opsOf uids)
      if !(s1.opsOf uids).isEmpty then s1
      else
        let teams := s1.teams.filter (fun e => e.1 / 32 == core)
        let s2 := teams.foldl (fun acc e => (acc.completeAll e.1).updMatrix e.1 (fun m => { m with latch := none }))
          (s1.pauseFor (teams.map (·.2)))
        let sealed (e : Nat × Thread) : Nat × Thread :=
          if e.1 / 32 / 512 = core then (e.1, s2.sealThread (s2.group (e.1 / 32)).uid (e.1 % 32) e.2) else e
        (({ s2 with threads := s2.threads.map sealed }.updCore core
          (fun c => { c with l1 := [], code := [], pats := [], cbs := [], permBefore := none, banksBefore := none, readySince := none })).resumePaused).raiseEvent (288 + core))

end Sys2Proof.Machine
end

