-- ==== Sys2Proof/Machine/Allot.lean ====
section
/-! DEFINITION. Changes of the allotment map (R167) by a service core, at the driver's request or at the end of a migration
(R199). -/

namespace Sys2Proof.Machine

/-- Whether two extents of one owner overlap in AA. -/
def aaOverlap (x y : BitVec 128) : Bool := rangesMeet (extAab x) (extLen x) (extAab y) (extLen y)

/-- Whether the entries of a table are pairwise free of a relation. -/
def pairwiseNot (r : BitVec 128 → BitVec 128 → Bool) : List (BitVec 128) → Bool
  | [] => true
  | x :: xs => xs.all (fun y => !r x y) && pairwiseNot r xs

/-- Whether an extent of an owner holds a park frame (R167, R320). -/
def State.holdsFrame (s : State) (o : Nat) (e : BitVec 128) (frame : Nat) : Bool :=
  let a := srPark (s.owner o).sring + 8192 * frame
  extV e && !extRsv e && extAab e ≤ a && a + 8192 ≤ extAab e + extLen e

/-- Whether an extent that holds an occupied frame is neither removed nor shrunk nor moved out of tier 0 (R167). -/
def keepsFrame (old new : BitVec 128) : Bool :=
  extV new && !extRsv new && extTier new == 0 && extAab new ≤ extAab old && extAab old + extLen old ≤ extAab new + extLen new

/-- The conditions that R167, R190 and R370 put on an owner's map. -/
def State.allotOk (s : State) (o : Nat) (m : Tab (BitVec 128)) : Bool :=
  let x := s.owner o
  let exts := (m.map (·.2)).filter extV
  let rsv := exts.filter extRsv
  let shared (e : BitVec 128) (p : Nat × Owner) : Bool := extWorld e == 0 && x.world == 0 && p.2.world == 0
  rsv.length == 1 && rsv.all (fun e => extTier e == 0 && extDpa e + extLen e ≤ 2 ^ 39 && 16 ≤ extLen e / 2 ^ 16 && extLen e / 2 ^ 16 ≤ 1024) &&
  pairwiseNot aaOverlap (exts.filter (fun e => !extRsv e)) &&
  exts.all (fun e => extTier e != 3 && extPopulated e && (extWorld e == 0 || extWorld e == x.world) && !s.unswept e &&
    s.owners.all (fun p => p.1 == o || p.2.extents.all (fun f => !extOverlap e f || (shared e p && extWorld f == 0)))) &&
  (let s' := s.setOwner o { x with allot := m }
   s.comets.all (fun c => c.owner != o || ((s'.parkFrame o c.frame).isSome && x.allot.all (fun e => !s.holdsFrame o e.2 c.frame || keepsFrame e.2 (Tab.getD m 0 e.1)))))

/-- The accesses of an owner and of its queues' engines that were checked against the old contents, performed as far as they may be. -/
def State.quietOwner (s : State) (o : Nat) : State :=
  ((s.queues.filter (fun e => s.queueOf e.1 o)).foldl (fun acc e => acc.landEngAll e.1) s).performAll ((s.ops.filter (fun p => p.owner == o && p.space == .g && p.isMem)).map Op.id)

/-- Whether an owner has no access in flight, of its threads or of its queues' reduce-adds. -/
def State.ownerQuiet (s : State) (o : Nat) : Bool :=
  !s.ops.any (fun p => p.owner == o && p.space == .g && p.isMem) &&
    s.deliveries.all (fun d => !s.queueOf d.q o)

/-- ALLOT_MAP_WRITE (R167): refused where the result breaks a condition; the change completes only once every access checked
against the old contents has been performed. -/
def execAllotMapWrite (o i : Nat) (entry : BitVec 128) (s : State) : Answer :=
  let m := Tab.put (s.owner o).allot i (extMask entry)
  .next (
    if !s.served ∨ !s.exists? o ∨ 64 ≤ i ∨ !s.allotOk o m then s
    else
      let s1 := s.quietOwner o
      if s1.ownerQuiet o then s1.updOwner o (fun x => { x with allot := m }) else s1)

/-- An extent with another tier and first DPA. -/
def extMoved (x : BitVec 128) (tier dpa : Nat) : BitVec 128 :=
  (x &&& ~~~((3 : BitVec 128) <<< 124) &&& ~~~((0x3FFFFFFF : BitVec 128) <<< 88)) |||
    (BitVec.ofNat 128 (tier % 4) <<< 124) ||| (BitVec.ofNat 128 (dpa / 2 ^ 16 % 2 ^ 30) <<< 88)

/-- The stamp and the line that a thread watches as an extent moves (R223, R322). -/
def Thread.moveWatch (t : Thread) (move : Nat → Nat) : Thread :=
  { t with watch := t.watch.map move, monitor := t.monitor.map (fun m => { m with line := move (128 * m.line) / 128 }) }

/-- The watches of a saved group as an extent moves. -/
def SavedGroup.moveWatches (g : SavedGroup) (move : Nat → Nat) : SavedGroup :=
  { g with threads := g.threads.map (fun e => (e.1, e.2.moveWatch move)) }

/-- The watched stamps of a sealed context as an extent moves (R322). -/
def Ctx.moveWatches (c : Ctx) (move : Nat → Nat) : Ctx :=
  { c with teams := c.teams.map (fun t => { t with groups := t.groups.map (·.moveWatches move) })
           handlers := c.handlers.map (fun h => (h.1, h.2.moveWatches move)) }

/-- The map update that ends a migration, once every access checked against the old contents has been performed: the moved
bits clear, and park frames, watched stamps and armed lines of the extent follow it (R199, R223, R320). -/
def State.migrateMap (s : State) (o i : Nat) (old new : BitVec 128) : State :=
  let inside (a : Nat) : Bool := extDpa old ≤ a && a < extDpa old + extLen old
  let move (a : Nat) : Nat := if inside a then extDpa new + (a - extDpa old) else a
  let s1 := s.updOwner o (fun x => { x with allot := Tab.put x.allot i new })
  { s1 with moved := s1.moved.filter (fun e => !inside (e.1 * 4096))
            comets := s1.comets.map (fun c =>
              if c.owner = o then
                { c with frameDpa := move c.frameDpa, saved := c.saved.moveWatches move }
              else c)
            ctxs := s1.ctxs.map (fun c => if c.2.owner = o then (c.1, c.2.moveWatches move) else c)
            threads := s1.threads.map (fun e => if (s1.group (e.1 / 32)).owner = o then (e.1, e.2.moveWatch move) else e) }

/-- One 4 KiB unit of a migration moved: its bytes and its poison (R199, R203). A unit that an expander fails to give reads zero, one that
it fails to take is discarded, and either counts in the owner's POISON. -/
def State.moveUnit (s : State) (o world u v : Nat) : State :=
  let s0 := if s.farDown (4096 * u) then s.countPoison o 1 else s
  if s.farDown (4096 * v) then { s0.countPoison o 1 with moved := Tab.put s0.moved u v }
  else
    let lost := s.farDown (4096 * u)
    let bytes := if lost then List.replicate 4096 0 else (List.range 4096).map (fun i => s.plainByte world (4096 * u + i))
    let s1 := s0.storeBytes world (4096 * v) bytes
    let poison := (List.range 512).foldl (fun (p : Tab Bool) i =>
      if Tab.getD p false (512 * u + i) && !lost then Tab.put p (512 * v + i) true else Tab.del p (512 * v + i)) s1.poison
    { s1 with poison, moved := Tab.put s1.moved u v }

end Sys2Proof.Machine
end

