-- ==== Sys2Proof/Machine/Jpeg.lean ====
section
/-! DEFINITION. The image decoder of copy engines (R288): baseline sequential JPEG, decoded exactly. -/

namespace Sys2Proof.Machine

/-- Why a stream is not decoded: the status codes of R288. -/
inductive JpegFail
  | unsupported | malformed
deriving DecidableEq, Repr

/-- A frame component: identifier, sampling factors and quantisation table. -/
structure JpegComp where
  id : Nat
  h : Nat
  v : Nat
  tq : Nat
deriving DecidableEq, Repr, Inhabited

/-- A Huffman table: the number of codes of each length 1..16, and the values in code order. -/
structure JpegHuff where
  counts : List Nat
  vals : List Nat
deriving DecidableEq, Repr, Inhabited

/-- What the marker segments have said so far, and the decoded blocks: key component × 2^24 + block row × 2^12 + column. -/
structure Jpeg where
  width : Nat := 0
  height : Nat := 0
  comps : List JpegComp := []
  quant : Tab (List Nat) := []
  /-- Keyed by 0..1 for DC tables and 2..3 for AC tables. -/
  huff : Tab JpegHuff := []
  restart : Nat := 0
  blocks : Tab (List Int) := []
  seen : List Nat := []
deriving DecidableEq, Repr, Inhabited

/-- The largest sampling factors of the frame. -/
def Jpeg.hMax (j : Jpeg) : Nat := (j.comps.map JpegComp.h).foldl max 1
/-- The largest vertical sampling factor of the frame. -/
def Jpeg.vMax (j : Jpeg) : Nat := (j.comps.map JpegComp.v).foldl max 1

/-- The natural position (row × 8 + column) of each zigzag position. -/
def zigzag : List Nat :=
  [0, 1, 8, 16, 9, 2, 3, 10, 17, 24, 32, 25, 18, 11, 4, 5, 12, 19, 26, 33, 40, 48, 41, 34, 27, 20, 13, 6, 7, 14, 21, 28] ++
  [35, 42, 49, 56, 57, 50, 43, 36, 29, 22, 15, 23, 30, 37, 44, 51, 58, 59, 52, 45, 38, 31, 39, 46, 53, 60, 61, 54, 47, 55, 62, 63]

/-! ### The inverse DCT in exact real arithmetic -/

/-- The precision of the cosine table. A block's sample is 1/16 of an integer combination V of 2cos(kπ/16), k = 0..7. Where V
is irrational, its distance from an integer exceeds 2^−350, so 512 bits round it exactly. -/
def cosBits : Nat := 512

/-- 2cos(kπ/16) × 2^512 for k = 0..7, each within a few units. -/
def cosTable : List Int :=
  let one : Nat := 2 ^ cosBits
  let c4 := Nat.sqrt (2 * one * one)
  let c2 := Nat.sqrt ((2 * one + c4) * one)
  let c1 := Nat.sqrt ((2 * one + c2) * one)
  let mul (x y : Nat) : Nat := x * y / one
  let c3 := mul c1 c2 - c1
  [2 * one, c1, c2, c3, c4, mul c1 c4 - c3, mul c2 c4 - c2, mul c3 c4 - c1]

/-- F × 2cos(kπ/16) added to a combination, by the symmetries of the cosine. -/
def addCos (acc : List Int) (k : Nat) (F : Int) : List Int :=
  let k := k % 32
  let k := if 16 < k then 32 - k else k
  if k < 8 then acc.set k (acc.getD k 0 + F) else if k = 8 then acc else acc.set (16 - k) (acc.getD (16 - k) 0 - F)

/-- The sample at column x and row y of a block from its dequantised coefficients in natural order (R288 step 1). -/
def idctSample (F : List Int) (x y : Nat) : Int :=
  let angle (u p : Nat) : Nat := if u = 0 then 4 else (2 * p + 1) * u
  let acc := (List.range 64).foldl (fun (acc : List Int) i =>
    let f := F.getD i 0
    if f = 0 then acc
    else
      let m := angle (i % 8) x
      let n := angle (i / 8) y
      addCos (addCos acc (m + n) f) (if m < n then n - m else m - n) f) (List.replicate 8 0)
  let sum := if (acc.drop 1).all (· == 0) then 2 * acc.getD 0 0 * 2 ^ cosBits
    else (acc.zip cosTable).foldl (fun t e => t + e.1 * e.2) 0
  max 0 (min 255 (Int.fdiv (sum + 2056 * 2 ^ cosBits) (16 * 2 ^ cosBits)))

/-! ### Entropy-coded data -/

/-- The bits still to be read: the bytes of the scan and what is left of the current one. -/
structure JpegBits where
  bytes : List Byte
  cur : Nat := 0
  left : Nat := 0

/-- One bit, the most significant first; a stuffed zero is skipped, and a marker ends the data. -/
def JpegBits.bit (b : JpegBits) : Option (Nat × JpegBits) :=
  if b.left ≠ 0 then some (b.cur / 2 ^ (b.left - 1) % 2, { b with left := b.left - 1 })
  else
    match b.bytes with
    | [] => none
    | x :: xs =>
      if x = 0xFF then
        match xs with
        | z :: zs => if z = 0 then some (1, { bytes := zs, cur := 0xFF, left := 7 }) else none
        | [] => none
      else some (x.toNat / 128, { bytes := xs, cur := x.toNat, left := 7 })

/-- n bits as a number. -/
def JpegBits.take (b : JpegBits) : Nat → Option (Nat × JpegBits)
  | 0 => some (0, b)
  | n + 1 =>
    match b.take n with
    | none => none
    | some (v, b1) => b1.bit.map (fun r => (2 * v + r.1, r.2))

/-- One Huffman code: `code` and `first` are the present and the first code of the length, `index` the values passed. -/
def huffWalk (vals : List Nat) : List Nat → Nat → Nat → Nat → JpegBits → Option (Nat × JpegBits)
  | [], _, _, _, _ => none
  | n :: ns, code, first, index, b =>
    match b.bit with
    | none => none
    | some (x, b1) =>
      let c := 2 * code + x
      let f := 2 * first
      if c < f + n then (vals[index + (c - f)]?).map (fun v => (v, b1)) else huffWalk vals ns c (f + n) (index + n) b1

/-- The next value under a table. -/
def JpegHuff.next (t : JpegHuff) (b : JpegBits) : Option (Nat × JpegBits) := huffWalk t.vals t.counts 0 0 0 b

/-- The signed value of n magnitude bits. -/
def extend (v n : Nat) : Int := if n = 0 then 0 else if v < 2 ^ (n - 1) then (v : Int) - 2 ^ n + 1 else v

/-- The AC coefficients from zigzag position k on, in natural order, dequantised. -/
def jpegAc (t : JpegHuff) (q : List Nat) : Nat → Nat → List Int → JpegBits → Option (List Int × JpegBits)
  | 0, _, F, b => some (F, b)
  | fuel + 1, k, F, b =>
    if 64 ≤ k then some (F, b)
    else
      match t.next b with
      | none => none
      | some (rs, b1) =>
        let r := rs / 16
        let n := rs % 16
        if n = 0 then (if r = 15 then jpegAc t q fuel (k + 16) F b1 else some (F, b1))
        else if 64 ≤ k + r ∨ 10 < n then none
        else
          match b1.take n with
          | none => none
          | some (v, b2) => jpegAc t q fuel (k + r + 1) (F.set (zigzag.getD (k + r) 0) (extend v n * q.getD (k + r) 0)) b2

/-- One block: its coefficients and its DC value. -/
def jpegBlock (dc ac : JpegHuff) (q : List Nat) (pred : Int) (b : JpegBits) : Option (List Int × Int × JpegBits) :=
  match dc.next b with
  | none => none
  | some (n, b1) =>
    if 11 < n then none
    else
      match b1.take n with
      | none => none
      | some (v, b2) =>
        let d := pred + extend v n
        (jpegAc ac q 64 1 ((List.replicate 64 0).set 0 (d * q.getD 0 0)) b2).map (fun r => (r.1, d, r.2))

/-- A component as a scan uses it: its place in the frame and its tables. -/
structure ScanComp where
  idx : Nat
  dc : Nat
  ac : Nat
deriving DecidableEq, Repr, Inhabited

/-- What a scan carries from one MCU to the next. -/
structure ScanState where
  j : Jpeg
  preds : Tab Int := []
  bits : JpegBits

/-- One block of a component at a block row and column, kept as its 64 samples. -/
def ScanState.block (st : ScanState) (c : ScanComp) (row col : Nat) : Option ScanState :=
  match Tab.find st.j.huff c.dc, Tab.find st.j.huff (2 + c.ac), Tab.find st.j.quant (st.j.comps.getD c.idx default).tq with
  | some dc, some ac, some q =>
    (jpegBlock dc ac q (Tab.getD st.preds 0 c.idx) st.bits).map (fun r =>
      let px := (List.range 64).map (fun i => idctSample r.1 (i % 8) (i / 8))
      { j := { st.j with blocks := Tab.put st.j.blocks (c.idx * 2 ^ 24 + row * 2 ^ 12 + col) px }
        preds := Tab.put st.preds c.idx r.2.1, bits := r.2.2 })
  | _, _, _ => none

/-- The blocks of MCU m of a scan, in order: a component, a block row and a column each. -/
def Jpeg.mcuBlocks (j : Jpeg) (cs : List ScanComp) (m : Nat) : List (ScanComp × Nat × Nat) :=
  match cs with
  | [c] =>
    let x := j.comps.getD c.idx default
    let across := (((j.width * x.h + j.hMax - 1) / j.hMax) + 7) / 8
    [(c, m / across, m % across)]
  | _ =>
    let across := (j.width + 8 * j.hMax - 1) / (8 * j.hMax)
    cs.flatMap (fun c =>
      let x := j.comps.getD c.idx default
      (List.range (x.h * x.v)).map (fun i => (c, m / across * x.v + i / x.h, m % across * x.h + i % x.h)))

/-- The number of MCUs of a scan. -/
def Jpeg.mcus (j : Jpeg) (cs : List ScanComp) : Nat :=
  match cs with
  | [c] =>
    let x := j.comps.getD c.idx default
    ((((j.width * x.h + j.hMax - 1) / j.hMax) + 7) / 8) * ((((j.height * x.v + j.vMax - 1) / j.vMax) + 7) / 8)
  | _ => ((j.width + 8 * j.hMax - 1) / (8 * j.hMax)) * ((j.height + 8 * j.vMax - 1) / (8 * j.vMax))

/-- The bytes behind any fill bytes before a marker. -/
def skipFill : List Byte → List Byte
  | a :: b :: t => if a = 0xFF ∧ b = 0xFF then skipFill (b :: t) else a :: b :: t
  | t => t

/-- The restart marker of a number read, where it stands next. -/
def ScanState.restartAt (st : ScanState) (k : Nat) : Option ScanState :=
  match skipFill st.bits.bytes with
  | a :: b :: t => if a = 0xFF ∧ b.toNat = 0xD0 + k % 8 then some { st with preds := [], bits := { bytes := t } } else none
  | _ => none

/-- One MCU, after its restart marker where one is due. -/
def ScanState.mcu (st : ScanState) (cs : List ScanComp) (m : Nat) : Option ScanState :=
  let due := st.j.restart ≠ 0 && m != 0 && m % st.j.restart == 0
  let st1 := if due then st.restartAt (m / st.j.restart - 1) else some st
  (st.j.mcuBlocks cs m).foldl (fun acc e => acc.bind (fun x => x.block e.1 e.2.1 e.2.2)) st1

/-- A whole scan: the frame with its blocks, and the bytes behind it. -/
def Jpeg.scan (j : Jpeg) (cs : List ScanComp) (bytes : List Byte) : Option (Jpeg × List Byte) :=
  ((List.range (j.mcus cs)).foldl (fun acc m => acc.bind (fun st => st.mcu cs m)) (some { j, bits := { bytes } : ScanState })).map
    (fun st => ({ st.j with seen := st.j.seen ++ cs.map ScanComp.idx }, st.bits.bytes))

/-! ### Marker segments -/

/-- A big-endian 16-bit number at a position. -/
def be16 (p : List Byte) (i : Nat) : Nat := (p.getD i 0).toNat * 256 + (p.getD (i + 1) 0).toNat

/-- The quantisation tables of a segment; `fuel` bounds their number. -/
def Jpeg.dqt (j : Jpeg) : Nat → List Byte → Except JpegFail Jpeg
  | 0, p => if p.isEmpty then .ok j else .error .malformed
  | fuel + 1, p =>
    match p with
    | [] => .ok j
    | x :: t =>
      if 16 ≤ x.toNat then .error .unsupported
      else if 3 < x.toNat ∨ t.length < 64 then .error .malformed
      else Jpeg.dqt { j with quant := Tab.put j.quant x.toNat ((t.take 64).map BitVec.toNat) } fuel (t.drop 64)

/-- The Huffman tables of a segment; `fuel` bounds their number. -/
def Jpeg.dht (j : Jpeg) : Nat → List Byte → Except JpegFail Jpeg
  | 0, p => if p.isEmpty then .ok j else .error .malformed
  | fuel + 1, p =>
    match p with
    | [] => .ok j
    | x :: t =>
      let counts := (t.take 16).map BitVec.toNat
      let n := counts.foldl (· + ·) 0
      if 1 < x.toNat / 16 then .error .malformed
      else if 1 < x.toNat % 16 then .error .unsupported
      else if t.length < 16 + n then .error .malformed
      else Jpeg.dht { j with huff := Tab.put j.huff (x.toNat / 16 * 2 + x.toNat % 16) ⟨counts, ((t.drop 16).take n).map BitVec.toNat⟩ }
        fuel (t.drop (16 + n))

/-- The baseline frame header: 8-bit samples, three components, 4:4:4, 4:2:2 or 4:2:0, and 1..16 384 samples a side. -/
def Jpeg.sof (j : Jpeg) (p : List Byte) : Except JpegFail Jpeg :=
  if !j.comps.isEmpty then .error .malformed
  else if (p.getD 0 0).toNat ≠ 8 ∨ (p.getD 5 0).toNat ≠ 3 then .error .unsupported
  else if p.length ≠ 15 then .error .malformed
  else
    let comp (i : Nat) : JpegComp :=
      let hv := (p.getD (7 + 3 * i) 0).toNat
      { id := (p.getD (6 + 3 * i) 0).toNat, h := hv / 16, v := hv % 16, tq := (p.getD (8 + 3 * i) 0).toNat }
    let y := comp 0
    let b := comp 1
    let r := comp 2
    let w := be16 p 3
    let h := be16 p 1
    let ratio := b.h = r.h ∧ b.v = r.v ∧ 1 ≤ b.h ∧ 1 ≤ b.v ∧
      ((y.h = b.h ∧ y.v = b.v) ∨ (y.h = 2 * b.h ∧ y.v = b.v) ∨ (y.h = 2 * b.h ∧ y.v = 2 * b.v))
    if ratio ∧ 1 ≤ w ∧ w ≤ 16384 ∧ 1 ≤ h ∧ h ≤ 16384 then .ok { j with width := w, height := h, comps := [y, b, r] }
    else .error .unsupported

/-- The components that a scan header names. -/
def Jpeg.sos (j : Jpeg) (p : List Byte) : Except JpegFail (List ScanComp) :=
  let n := (p.getD 0 0).toNat
  let cs := (List.range n).filterMap (fun i =>
    (j.comps.findIdx? (fun c => c.id == (p.getD (1 + 2 * i) 0).toNat)).map (fun k =>
      ({ idx := k, dc := (p.getD (2 + 2 * i) 0).toNat / 16, ac := (p.getD (2 + 2 * i) 0).toNat % 16 } : ScanComp)))
  if n = 0 ∨ 3 < n ∨ p.length ≠ 4 + 2 * n ∨ cs.length ≠ n ∨ cs.any (fun c => j.seen.contains c.idx) then .error .malformed
  else if (p.getD (1 + 2 * n) 0).toNat ≠ 0 ∨ (p.getD (2 + 2 * n) 0).toNat ≠ 63 ∨ (p.getD (3 + 2 * n) 0).toNat ≠ 0 ∨
      cs.any (fun c => 1 < c.dc || 1 < c.ac) then .error .unsupported
  else .ok cs

/-- The segments of a stream up to its EOI; `fuel` bounds their number. -/
def Jpeg.segments (j : Jpeg) : Nat → List Byte → Except JpegFail Jpeg
  | 0, _ => .error .malformed
  | fuel + 1, bytes =>
    match skipFill bytes with
    | a :: m :: t =>
      let len := be16 t 0
      let body := (t.drop 2).take (len - 2)
      let rest := t.drop len
      let mk := m.toNat
      if a ≠ 0xFF then .error .malformed
      else if mk = 0xD9 then (if j.seen.length = 3 then .ok j else .error .malformed)
      else if t.length < len ∨ len < 2 then .error .malformed
      else if (0xE0 ≤ mk ∧ mk ≤ 0xEF) ∨ mk = 0xFE then Jpeg.segments j fuel rest
      else if mk = 0xDB then
        match j.dqt 64 body with
        | .error e => .error e
        | .ok j1 => Jpeg.segments j1 fuel rest
      else if mk = 0xC4 then
        match j.dht 64 body with
        | .error e => .error e
        | .ok j1 => Jpeg.segments j1 fuel rest
      else if mk = 0xC0 then
        match j.sof body with
        | .error e => .error e
        | .ok j1 => Jpeg.segments j1 fuel rest
      else if mk = 0xDD then
        (if body.length = 2 then Jpeg.segments { j with restart := be16 body 0 } fuel rest else .error .malformed)
      else if mk = 0xDA then
        match j.sos body with
        | .error e => .error e
        | .ok cs =>
          match j.scan cs rest with
          | none => .error .malformed
          | some (j1, rest1) => Jpeg.segments j1 fuel rest1
      else .error .unsupported
    | _ => .error .malformed

/-- A stream decoded. -/
def jpegOf (bytes : List Byte) : Except JpegFail Jpeg :=
  match bytes with
  | a :: b :: t => if a = 0xFF ∧ b = 0xD8 then Jpeg.segments {} (t.length + 1) t else .error .unsupported
  | _ => .error .unsupported

/-! ### From samples to patches -/

/-- A component's sample at an image position, upsampled by replication (R288 step 2). -/
def Jpeg.sample (j : Jpeg) (c x y : Nat) : Int :=
  let k := j.comps.getD c default
  let cx := x * k.h / j.hMax
  let cy := y * k.v / j.vMax
  (Tab.getD j.blocks [] (c * 2 ^ 24 + cy / 8 * 2 ^ 12 + cx / 8)).getD (cy % 8 * 8 + cx % 8) 0

/-- A channel (0 R, 1 G, 2 B) at an image position (R288 step 3). -/
def Jpeg.rgb (j : Jpeg) (ch x y : Nat) : Int :=
  let Y := j.sample 0 x y
  let b := j.sample 1 x y - 128
  let r := j.sample 2 x y - 128
  let v := match ch with
    | 0 => Int.fdiv (1000 * Y + 1402 * r + 500) 1000
    | 1 => Int.fdiv (1000000 * Y - 344136 * b - 714136 * r + 500000) 1000000
    | _ => Int.fdiv (1000 * Y + 1772 * b + 500) 1000
  max 0 (min 255 v)

/-- An output sample: the mean of a d × d block over what lies inside the image, rounded half up (R288 step 4). -/
def Jpeg.mean (j : Jpeg) (d ch x y : Nat) : Nat :=
  let xs := (List.range d).map (fun i => d * x + i) |>.filter (· < j.width)
  let ys := (List.range d).map (fun i => d * y + i) |>.filter (· < j.height)
  let n := xs.length * ys.length
  let sum : Int := ys.foldl (fun t b => xs.foldl (fun t a => t + j.rgb ch a b) t) 0
  (2 * sum.toNat + n) / (2 * n)

/-- The rows and columns of patches of P × P. -/
def Jpeg.grid (j : Jpeg) (d P : Nat) : Nat × Nat := (((j.height + d - 1) / d + P - 1) / P, ((j.width + d - 1) / d + P - 1) / P)

/-- The bytes of one patch: P rows of 3P bytes in R, G, B order; positions beyond the image read `pad`. -/
def Jpeg.patch (j : Jpeg) (d P : Nat) (pad : Byte) (row col : Nat) : List Byte :=
  let W := (j.width + d - 1) / d
  let H := (j.height + d - 1) / d
  (List.range (P * P)).flatMap (fun i =>
    let x := col * P + i % P
    let y := row * P + i / P
    (List.range 3).map (fun ch => if x < W ∧ y < H then BitVec.ofNat 8 (j.mean d ch x y) else pad))

/-- What a decode command does with a stream (R288): its status, the number of patches, and the index entries and patches
(log 30, DEDUCED). -/
def decodeStream (bytes : List Byte) (M d P : Nat) (pad : Byte) : Nat × Nat × List Byte × List Byte :=
  match jpegOf bytes with
  | .error .unsupported => (1, 0, [], [])
  | .error .malformed => (2, 0, [], [])
  | .ok j =>
    let g := j.grid d P
    let n := g.1 * g.2
    if M < n then (3, 0, [], [])
    else
      (0, n, (List.range M).flatMap (fun k => leBytes 4 (if k < n then k / g.2 * 2 ^ 16 + k % g.2 else 0)),
       (List.range n).flatMap (fun k => j.patch d P pad (k / g.2) (k % g.2)))

end Sys2Proof.Machine
end

