-- ==== Sys2Proof/Machine/Engines.lean ====
section
/-! DEFINITION. Copy engines (R277..R291): packets, their checks, one iteration of each kind, completion, stops and resets. -/

namespace Sys2Proof.Machine

/-! ### The packet (R278, R279, R280) -/

/-- A packet's numbers. -/
structure Pkt where
  header : Nat
  source : Nat
  dest : Nat
  loop : Nat
  stamp : Nat
  value : Nat
  qp : Nat
deriving DecidableEq, Repr, Inhabited

/-- A packet from its 64 bytes. -/
def pktOf (b : List Byte) : Pkt :=
  { header := pktNum b 0 8, source := pktNum b 8 8, dest := pktNum b 16 8, loop := pktNum b 24 20, stamp := pktNum b 44 8
    value := pktNum b 52 8, qp := pktNum b 60 4 }

/-- The command's kind. -/
def Pkt.kind (p : Pkt) : Nat := p.header / 2 ^ 59 % 16
/-- The counter class. -/
def Pkt.cls (p : Pkt) : Nat := p.header / 2 ^ 57 % 4
/-- The traffic class. -/
def Pkt.tc (p : Pkt) : Nat := p.header / 2 ^ 55 % 4
/-- Whether the packet completes a tile. -/
def Pkt.tv (p : Pkt) : Bool := p.header / 2 ^ 46 % 2 == 1
/-- The tile's index. -/
def Pkt.tile (p : Pkt) : Nat := p.header / 2 ^ 38 % 256
/-- Whether the completion event is raised. -/
def Pkt.ev (p : Pkt) : Bool := p.header / 2 ^ 37 % 2 == 1
/-- Whether the origin is valid. -/
def Pkt.origin (p : Pkt) : Bool := p.header / 2 ^ 31 % 2 == 1
/-- The bytes of a row. -/
def Pkt.rowLen (p : Pkt) : Nat := p.loop % 2 ^ 16 + 1
/-- The count of level 1..4. -/
def Pkt.count (p : Pkt) (level : Nat) : Nat := p.loop / 2 ^ (6 + 10 * level) % 1024 + 1
/-- The source stride of level 1..4. -/
def Pkt.ss (p : Pkt) (level : Nat) : Int := asInt true 13 (p.loop / 2 ^ (30 + 26 * level) % 2 ^ 13)
/-- The destination stride of level 1..4. -/
def Pkt.ds (p : Pkt) (level : Nat) : Int := asInt true 13 (p.loop / 2 ^ (43 + 26 * level) % 2 ^ 13)
/-- The iterations of one row. -/
def Pkt.chunks (p : Pkt) : Nat := (p.rowLen + 4095) / 4096

/-- The source offset of a row, with x for the index of level 1 (R280, R283). -/
def Pkt.srcOff (p : Pkt) (x : Nat) (iv : List Nat) : Int :=
  2 ^ (p.header / 2 ^ 51 % 16) * ((x : Int) * p.ss 1 + (iv.getD 2 0 : Nat) * p.ss 2 + (iv.getD 3 0 : Nat) * p.ss 3 +
    (iv.getD 4 0 : Nat) * p.ss 4)

/-- The destination offset of a row (R280). -/
def Pkt.dstOff (p : Pkt) (iv : List Nat) : Int :=
  2 ^ (p.header / 2 ^ 47 % 16) * ((iv.getD 1 0 : Nat) * p.ds 1 + (iv.getD 2 0 : Nat) * p.ds 2 + (iv.getD 3 0 : Nat) * p.ds 3 +
    (iv.getD 4 0 : Nat) * p.ds 4)

/-- The row's number in iteration order. -/
def Pkt.row (p : Pkt) (iv : List Nat) : Nat :=
  iv.getD 1 0 + p.count 1 * (iv.getD 2 0 + p.count 2 * (iv.getD 3 0 + p.count 3 * iv.getD 4 0))

/-- The iteration's number in iteration order. -/
def Pkt.linear (p : Pkt) (iv : List Nat) : Nat := p.row iv * p.chunks + iv.getD 0 0

/-- The bytes of the row that an iteration takes: the first and their number. -/
def Pkt.part (p : Pkt) (iv : List Nat) : Nat × Nat :=
  let lo := 4096 * iv.getD 0 0
  (lo, min 4096 (p.rowLen - lo))

/-- The next iteration vector under limits, innermost first. -/
def bumpIv : List Nat → List Nat → Option (List Nat)
  | l :: ls, i :: is => if i + 1 < l then some ((i + 1) :: is) else (bumpIv ls is).map (0 :: ·)
  | _, _ => none

/-! ### Checks (R289) -/

/-- Why an iteration is not made: the queue stops with a cause and an address, or with cause ILLOP, or pauses for a sealed
team, or lines that the host holds are first taken back. -/
inductive EngErr
  | stop (cause addr : Nat)
  | illop
  | pause
  | snoop (lines : List Nat)
deriving DecidableEq, Repr

/-- A live team of an owner by its identity, on a core (R279). -/
def State.teamByTid (s : State) (o tid : Nat) : Option (Nat × Team) :=
  s.teams.find? (fun e => e.2.owner == o && e.2.tid == tid && !e.2.ended)

/-- Two places joined where one follows the other in device memory. -/
def joinPlace (dpa world n : Nat) : List (EngLoc × Nat) → List (EngLoc × Nat)
  | (.g d w, k) :: t => if d = dpa + n ∧ w = world then (.g dpa world, n + k) :: t else (.g dpa world, n) :: (.g d w, k) :: t
  | t => (.g dpa world, n) :: t

/-- The places of [a, a + n) of an owner's allotment, piece by piece, each within one extent. -/
def State.allotPieces (s : State) (q : Nat) (a n : Nat) : Option (List (EngLoc × Nat)) :=
  let o := s.owner (qbOwner (s.binding q))
  let first := a / 2 ^ 16
  (List.range ((a + n + 2 ^ 16 - 1) / 2 ^ 16 - first)).foldr (fun j acc =>
    let lo := max a ((first + j) * 2 ^ 16)
    let hi := min (a + n) ((first + j + 1) * 2 ^ 16)
    let place : Option Loc :=
      if qbPv (s.binding q) then (if isReserved lo then none else some { dpa := lo, world := 0 }) else o.mapAA o.world lo (hi - lo)
    match place, acc with
    | some l, some ls => some (joinPlace l.dpa l.world (hi - lo) ls)
    | _, _ => none) (some [])

/-- The places that [off, off + n) from an address word names, checked (R279, R289); `link` asks for the access itself, which may fail after
its retries. -/
def State.engWord (s : State) (q word : Nat) (off : Int) (n : Nat) (link : Bool := true) : Except EngErr (List (EngLoc × Nat)) :=
  let b := s.binding q
  let o := qbOwner b
  let at48 (v : Int) : Nat := (v % 2 ^ 48).toNat
  match word / 2 ^ 62 with
  | 0 =>
    let a : Int := (word % 2 ^ 44 : Nat) + off
    let dev := word / 2 ^ 44 % 256
    if word / 2 ^ 52 % 2 ^ 10 ≠ 0 then .error .illop
    else if dev ≠ 0 then
      (if link && (s.fabid == 0 || Config.outsideFails s.draws) then .error (.stop 6 (at48 a)) else .ok [(.peer dev (at48 a), n)])
    else if a < 0 ∨ 2 ^ 44 < a + n then .error (.stop 2 (at48 a))
    else
      match s.allotPieces q a.toNat n with
      | some ls => .ok ls
      | none => .error (.stop 2 (at48 a))
  | 1 =>
    let a : Int := (word % 2 ^ 26 : Nat) + off
    if word / 2 ^ 26 % 2 ^ 36 ≠ 0 then .error .illop
    else if a < 0 ∨ qbPv b then .error (.stop 3 (at48 a))
    else
      match (s.owner o).mapReserve a.toNat n with
      | some l => .ok [(.g l.dpa l.world, n)]
      | none => .error (.stop 3 (at48 a))
  | 2 =>
    let a : Int := (word % 2 ^ 20 : Nat) + off
    let tid := word / 2 ^ 36 % 2 ^ 16
    if word / 2 ^ 52 % 2 ^ 10 ≠ 0 ∨ word / 2 ^ 20 % 2 ^ 16 ≠ 0 ∨ tid = 0xFFFF then .error .illop
    else if qbPv b then .error (.stop 3 (at48 a))
    else
      match s.teamByTid o tid with
      | some (_, t) => if a < 0 ∨ t.scratchSize < a + n then .error (.stop 3 (at48 a)) else .ok [(.l t.uid a.toNat, n)]
      | none => if s.sealedTid o tid then .error .pause else .error (.stop 3 (at48 a))
  | _ =>
    let a : Int := (word % 2 ^ 62 : Nat) + off
    if !qbHp b then .error (.stop 4 (at48 a))
    else if link && Config.outsideFails s.draws then .error (.stop 6 (at48 a))
    else .ok [(.host (a % 2 ^ 62).toNat, n)]

/-- The low part of an address word: what alignment is tested on. -/
def wordOffset (w : Nat) : Nat :=
  match w / 2 ^ 62 with
  | 0 => w % 2 ^ 44
  | 1 => w % 2 ^ 26
  | 2 => w % 2 ^ 20
  | _ => w % 2 ^ 62

/-- The stamp address checked: its alignment, and its space as for a payload address (R289). -/
def State.stampPlace (s : State) (q : Nat) (p : Pkt) (link : Bool) : Except EngErr (List (EngLoc × Nat)) :=
  if wordOffset p.stamp % 8 ≠ 0 then .error (.stop 5 (wordOffset p.stamp % 2 ^ 48)) else s.engWord q p.stamp 0 8 link

/-- The places of a source, from which lines that the host may hold are first taken back: the command's reads follow an acquire at system
scope (R235, R242). -/
def State.srcWord (s : State) (q word : Nat) (off : Int) (n : Nat) : Except EngErr (List (EngLoc × Nat)) :=
  match s.engWord q word off n with
  | .error e => .error e
  | .ok ls =>
    let lines := ls.flatMap (fun e => match e.1 with
      | .g dpa _ => s.hostLinesIn dpa e.2
      | .l _ _ => [] | .peer _ _ => [] | .host _ => [])
    if lines.isEmpty then .ok ls else .error (.snoop lines)

/-- The fields of R278 and R282..R288 that are wrong for every iteration: cause ILLOP. -/
def State.pktIllop (s : State) (q : Nat) (p : Pkt) : Bool :=
  let b := s.binding q
  p.header / 2 ^ 32 % 32 != 0 || p.header % 2 ^ 15 != 0 ||
  (match p.kind with
   | 0 => p.qp != 0
   | 1 => p.qp / 2 ^ 26 != 0
   | 2 => p.qp % 8 != 0 || !(2 ≤ p.qp / 16 % 16 && p.qp / 16 % 16 ≤ 13)
   | 3 => p.qp / 2 != 0 || p.dest / 2 ^ 62 != 0
   | 4 => p.qp != 0 || p.source / 2 ^ 62 != 0 || p.source / 2 ^ 44 % 256 != 0
   | 5 => !qbPv b || p.qp / 2 ^ 18 != 0 || p.qp / 64 % 4 != 0 || p.qp / 2 ^ 14 % 4 != 0 || p.qp / 2 ^ 16 % 4 == 3 ||
     p.dest / 2 ^ 46 != 0 || p.loop != 0 || p.source != 0
   | 6 => q / 16 % 6 < 4 || p.qp / 8 % 32 != 0 || p.qp / 2 ^ 16 == 0 || p.loop / 2 ^ 16 != 0
   | _ => true)

/-! ### Engine accesses -/

/-- Bytes read of a space with what a command has read ahead in place of them (R238). -/
def Got.withEarly (g : Got) (es : List EngRead) (space : Space) (world base : Nat) : Got :=
  let mine := es.filter (fun e => e.space == space && e.world == world)
  if mine.isEmpty then g
  else
    { bytes := g.bytes.mapIdx (fun i b => match mine.find? (fun e => e.word == (base + i) / 8) with
        | some e => e.bytes.getD ((base + i) % 8) 0
        | none => b)
      poison := (wordsOf base g.bytes.length).filter (fun w => match mine.find? (fun e => e.word == w) with
        | some e => e.bad
        | none => g.poison.contains w) }

/-- The bytes of checked places, the poisoned words among them, and the state after the reads (R199, R203, R238). -/
def State.engRead (s : State) (q : Nat) (ls : List (EngLoc × Nat)) : List Byte × Nat × State :=
  let es := (s.queue q).early
  ls.foldl (fun acc e =>
    let (bs, n, st) := acc
    match e.1 with
    | .g dpa world =>
      if st.farDown dpa then (bs ++ List.replicate e.2 0, n, st.queuePoison q 1)
      else
        let g := (st.homeRead world dpa e.2).withEarly es .g world dpa
        (bs ++ g.clean dpa, n + g.poison.length, st.engTouch q world dpa e.2)
    | .l uid off =>
      let g := (st.scratchRead uid off e.2).withEarly es (.l uid) 0 off
      (bs ++ g.clean off, n + g.poison.length, st)
    | .peer _ a => (bs ++ (List.range e.2).map (fun i => Config.outsideByte st.draws (a + i)), n, st.draw)
    | .host a => (bs ++ (List.range e.2).map (fun i => Config.outsideByte st.draws (a + i)), n, st.draw)) ([], 0, s)

/-- A location read ahead for the running command of a queue (R238); it is not one that the host holds or that an expander fails. -/
def State.readAhead (s : State) (q : Nat) (team : Option Nat) (word : Nat) : State :=
  let x := s.queue q
  let b := s.binding q
  let add (e : EngRead) : State := s.updQueue q (fun y =>
    { y with early := y.early.filter (fun f => f.space != e.space || f.word != e.word) ++ [e] })
  if x.st ≠ .running ∨ x.done then s
  else
    match team with
    | some uid =>
      let g := s.scratchRead uid (8 * word) 8
      add { space := .l uid, word, bytes := g.bytes, bad := !g.poison.isEmpty }
    | none =>
      let world := if qbPv b then 0 else (s.owner (qbOwner b)).worldAt (8 * word)
      if s.farDown (8 * word) ∨ !(s.hostLinesIn (8 * word) 8).isEmpty then s
      else
        let g := s.homeRead world (8 * word) 8
        add { space := .g, world, word, bytes := g.bytes, bad := !g.poison.isEmpty }

/-- A place advanced by i bytes. -/
def EngLoc.plus (l : EngLoc) (i : Nat) : EngLoc :=
  match l with
  | .g dpa world => .g (dpa + i) world
  | .l uid off => .l uid (off + i)
  | .peer dev a => .peer dev (a + i)
  | .host a => .host (a + i)

/-- The address of a place in its space. -/
def EngLoc.addr (l : EngLoc) : Nat :=
  match l with
  | .g dpa _ => dpa
  | .l _ off => off
  | .peer _ a => a
  | .host a => a

/-- Bytes of a place divided into writes of 8-byte locations. -/
def splitWrite (l : EngLoc) (data : List Byte) : List EngWrite :=
  (wordsOf l.addr data.length).map (fun w =>
    let lo := 8 * w - l.addr
    ⟨l.plus lo, (data.take (8 * w + 8 - l.addr)).drop lo⟩)

/-- Bytes written to checked places at once: a stamp (R281). -/
def State.engWrite (s : State) (q : Nat) : List (EngLoc × Nat) → List Byte → State
  | [], _ => s
  | e :: es, data => (s.engStore q e.1 (data.take e.2)).engWrite q es (data.drop e.2)

/-- Payload bytes for checked places, whose writes are performed in no fixed order (R238). -/
def State.engPost (s : State) (q : Nat) : List (EngLoc × Nat) → List Byte → State
  | [], _ => s
  | e :: es, data =>
    (s.updQueue q (fun x => { x with pend := x.pend ++ splitWrite e.1 (data.take e.2) })).engPost q es (data.drop e.2)

/-! ### One iteration of each kind -/

/-- What an iteration does: the state after it, the count it adds (R281), and the decode word of R288. -/
structure IterOut where
  state : State
  count : Nat := 0
  word : Option Word := none
  bits : List Bool := []

/-- The source row's index at level 1: i1, or the entry of a gather's list (R283). -/
def State.levelOne (s : State) (q : Nat) (p : Pkt) (iv : List Nat) : Except EngErr (Nat × Nat × State) :=
  if p.kind ≠ 1 then .ok (iv.getD 1 0, 0, s)
  else
    let off := p.qp % 2 ^ 26
    if off % 4 ≠ 0 then .error (.stop 5 (off + 4 * iv.getD 1 0))
    else
      match s.srcWord q (2 ^ 62 + off) (4 * iv.getD 1 0 : Nat) 4 with
      | .error e => .error e
      | .ok ls =>
        let r := s.engRead q ls
        .ok (leNat r.1, r.2.1, r.2.2)

/-- The source and destination places of an iteration of the loop nest, the list entry read first. -/
def State.rowPlaces (s : State) (q : Nat) (p : Pkt) (iv : List Nat) (dstLo dstN : Nat) :
    Except EngErr (List (EngLoc × Nat) × List (EngLoc × Nat) × Nat × State) :=
  match s.levelOne q p iv with
  | .error e => .error e
  | .ok (x, n, s1) =>
    let part := p.part iv
    match s1.srcWord q p.source (p.srcOff x iv + part.1) part.2 with
    | .error e => .error e
    | .ok S =>
      match s1.engWord q p.dest (p.dstOff iv + dstLo) dstN with
      | .error e => .error e
      | .ok D => .ok (S, D, n, s1)

/-- Copy and gather (R282, R283). -/
def State.iterCopy (s : State) (q : Nat) (p : Pkt) (iv : List Nat) : Except EngErr IterOut :=
  let part := p.part iv
  (s.rowPlaces q p iv part.1 part.2).map (fun r =>
    let got := r.2.2.2.engRead q r.1
    { state := got.2.2.engPost q r.2.1 got.1, count := r.2.2.1 + got.2.1 })

/-- One quantised element: its code, and whether it counts (R284). -/
def quantElem (dfmt : Nat) (x g : Val) : Nat × Bool :=
  let e := deqElement dfmt
  match g with
  | .fin gm ge =>
    match fmtOfCode e, x with
    | some f, .nan => (f.nanCode, true)
    | some f, .inf neg => (f.pack (neg != (gm < 0)) f.maxCode, true)
    | some f, .zero neg => (f.pack (neg != (gm < 0)) 0, false)
    | some _, .exact0 => (0, false)
    | some f, .fin m xe =>
      let r := ratio m xe gm ge
      let mag := roundMag r.1 r.2.1 r.2.2.1 r.2.2.2 f .rn
      if f.maxCode < mag then (f.pack r.1 f.maxCode, true) else (f.pack r.1 mag, false)
    | none, .nan => (0, true)
    | none, .inf neg =>
      let n := fieldBits e
      (if neg != (gm < 0) then 2 ^ (n - 1) else 2 ^ (n - 1) - 1, true)
    | none, .fin m xe =>
      let n := fieldBits e
      let r := ratio m xe gm ge
      let k := if dfmt = 0xC then r.2.2.2 + 6 else r.2.2.2
      let a := if 0 ≤ k then roundRatio r.1 (r.2.1 * 2 ^ k.toNat) r.2.2.1 .rn
        else roundRatio r.1 r.2.1 (r.2.2.1 * 2 ^ (-k).toNat) .rn
      let v : Int := if r.1 then -(a : Int) else a
      ((satS n v % 2 ^ n).toNat, satS n v != v)
    | none, _ => (0, false)
  | _ =>
    match fmtOfCode e with
    | some f => (f.nanCode, true)
    | none => (0, true)

/-- The elements that share a scale in a destination format; 0 where one scale serves a row (R284). -/
def quantBlock (dfmt : Nat) : Nat := if dfmt = 0xD then 8 else if 0x9 ≤ dfmt then 32 else 0

/-- The number of elements that a row must be a multiple of (R284). -/
def quantUnit (dfmt : Nat) : Nat :=
  let bits := fieldBits (deqElement dfmt)
  max (quantBlock dfmt) (if bits = 6 then 4 else if bits = 4 then 2 else 1)

/-- A scale of the side tensor from its bytes. -/
def quantScale (dfmt : Nat) (bs : List Byte) : Val :=
  if dfmt = 0xD then Fmt.e5m2.decode (leNat bs) else if 0x9 ≤ dfmt then decodeE8M0 (leNat bs) else Fmt.fp32.decode (leNat bs)

/-- Quantise (R284). -/
def State.iterQuantise (s : State) (q : Nat) (p : Pkt) (iv : List Nat) : Except EngErr IterOut :=
  let dfmt := p.qp / 16 % 16
  let size := if p.qp / 8 % 2 = 1 then 2 else 4
  let E := p.rowLen / size
  let bits := fieldBits (deqElement dfmt)
  let block := quantBlock dfmt
  let part := p.part iv
  let e0 := part.1 / size
  let n := part.2 / size
  let here := p.srcOff (iv.getD 1 0) iv
  if p.rowLen % size ≠ 0 ∨ E % quantUnit dfmt ≠ 0 then .error (.stop 5 ((((wordOffset p.source : Nat) + here) % 2 ^ 48).toNat))
  else
    -- The side tensor: one scale for each block that the iteration meets, or the row's one scale.
    let soff := asInt true 24 (p.qp / 256)
    let sides : Nat × Nat := if block = 0 then (4 * p.row iv, 4) else (p.row iv * (E / block) + e0 / block, (n + block - 1) / block)
    match s.srcWord q p.source (here + part.1) part.2 with
    | .error e => .error e
    | .ok S =>
      match s.srcWord q p.source (64 * soff + sides.1) sides.2 with
      | .error e => .error e
      | .ok T =>
        match s.engWord q p.dest (p.dstOff iv + (e0 * bits / 8 : Nat)) ((n * bits + 7) / 8) with
        | .error e => .error e
        | .ok D =>
          let a := s.engRead q S
          let b := a.2.2.engRead q T
          let scale (j : Nat) : Val :=
            if block = 0 then quantScale dfmt b.1 else quantScale dfmt ((b.1.drop (j / block)).take 1)
          let elem (j : Nat) : Val :=
            let w := leNat ((a.1.drop (size * j)).take size)
            if size = 2 then Fmt.bf16.decode w else Fmt.fp32.decode w
          let out := (List.range n).map (fun j => quantElem dfmt (elem j) (scale j))
          let packed := out.foldr (fun e acc => e.1 + 2 ^ bits * acc) 0
          .ok { state := b.2.2.engPost q D (leBytes ((n * bits + 7) / 8) packed)
                count := a.2.1 + b.2.1 + out.countP (·.2) }

/-- The bytes of an element of a delivery. -/
def Delivery.size (d : Delivery) : Nat := if d.bf16 then 2 else 4

/-- Deliveries of the bytes of a place to the home slices: the elements that begin in a unit of 4 KiB go to its slice (R190, R285) (log 87,
DESIGN CHOICE). Bytes that make no whole element stay unadded. -/
def deliverParts (d : Delivery) : List Delivery :=
  let n := d.size
  let count := d.data.length / n
  let first := d.dpa / 4096
  let begin_ (unit : Nat) : Nat := min count ((4096 * unit - d.dpa + n - 1) / n)
  (List.range ((d.dpa + d.data.length + 4095) / 4096 - first)).filterMap (fun i =>
    let lo := begin_ (first + i)
    let hi := begin_ (first + i + 1)
    if hi ≤ lo then none
    else some { d with dpa := d.dpa + n * lo, data := (d.data.drop (n * lo)).take (n * (hi - lo))
                       cut := if hi = count then d.cut.map (fun c => (c.1 - n * lo, c.2)) else none })

/-- The deliveries of an iteration's bytes to its places: an element that begins at the end of one place goes on at the next (R285). -/
def deliverPlaces (d : Delivery) : Nat → List (EngLoc × Nat) → List Byte → List Delivery
  | fuel + 1, (.g dpa world, k) :: es, data =>
    let n := d.size
    let more := (n - k % n) % n
    let whole : Delivery := { d with dpa, world, data := data.take k }
    match es with
    | (.g dpa2 world2, k2) :: rest =>
      if more = 0 then deliverParts whole ++ deliverPlaces d fuel es (data.drop k)
      else
        -- The element is whole here, and the next place begins after it.
        deliverParts { whole with data := data.take (k + more), cut := some (k, dpa2, world2) } ++
          deliverPlaces d fuel ((.g (dpa2 + more) world2, k2 - more) :: rest) (data.drop (k + more))
    | _ => deliverParts whole ++ deliverPlaces d fuel es (data.drop k)
  | fuel + 1, (_, k) :: es, data => deliverPlaces d fuel es (data.drop k)
  | _, _, _ => []

/-- Reduce-add (R285): the iteration leaves as one tagged delivery for each slice's part of its places here, or for each place at a peer. -/
def State.iterReduce (s : State) (q : Nat) (p : Pkt) (iv : List Nat) : Except EngErr IterOut :=
  let part := p.part iv
  (s.rowPlaces q p iv part.1 part.2).map (fun r =>
    let got := r.2.2.2.engRead q r.1
    let d : Delivery := { q, seq := p.value % 2 ^ 32, iter := p.linear iv, dpa := 0, world := 0, bf16 := p.qp % 2 == 1, data := [] }
    let here : State := { got.2.2 with deliveries := got.2.2.deliveries ++ deliverPlaces d r.2.1.length r.2.1 got.1 }
    let sent := r.2.1.foldl (fun (acc : State × List Byte) e =>
      (match e.1 with
       | .peer dev a => acc.1.send q (some dev) a (acc.2.take e.2) (some (d.bf16, d.seq, d.iter))
       | .g _ _ => acc.1 | .host _ => acc.1 | .l _ _ => acc.1, acc.2.drop e.2)) (here, got.1)
    { state := sent.1, count := r.2.2.1 + got.2.1 })

/-- The bytes of bits, lowest first. -/
def bitBytes : Nat → List Bool → List Byte
  | 0, _ => []
  | n + 1, bs => BitVec.ofNat 8 ((bs.take 8).foldr (fun b acc => (if b then 1 else 0) + 2 * acc) 0) :: bitBytes n (bs.drop 8)

/-- Scrub (R286): whole bytes of the bitmap are written as their lines are read, the last one with zeros beyond the last line. A source inside
the owner's allotment but outside HBM4E stops the queue with cause ALLOT (log 88, DESIGN CHOICE). -/
def State.iterScrub (s : State) (q : Nat) (p : Pkt) (iv : List Nat) (held : List Bool) (last : Bool) : Except EngErr IterOut :=
  let part := p.part iv
  let off := p.srcOff (iv.getD 1 0) iv
  let a : Int := (p.source % 2 ^ 44 : Nat) + off
  let k0 := p.row iv * (p.rowLen / 128) + 32 * iv.getD 0 0
  if a % 128 ≠ 0 ∨ p.rowLen % 128 ≠ 0 then .error (.stop 5 ((a % 2 ^ 48).toNat))
  else
    match s.engWord q p.source (off + part.1) part.2 with
    | .error e => .error e
    | .ok S =>
      if S.any (fun e => match e.1 with | .g dpa _ => 2 ^ 39 ≤ dpa | .l _ _ => true | .peer _ _ => true | .host _ => true) then
        .error (.stop 2 (((a + part.1) % 2 ^ 48).toNat))
      else
        let lines := S.flatMap (fun e => match e.1 with
          | .g dpa world => (List.range (e.2 / 128)).map (fun i => (s.homeRead world (dpa + 128 * i) 128).poison.length)
          | .l _ _ => [] | .peer _ _ => [] | .host _ => [])
        let bits := held ++ lines.map (· != 0)
        let whole := if last then (bits.length + 7) / 8 else bits.length / 8
        match s.engWord q p.dest ((k0 - held.length) / 8 : Nat) whole with
        | .error e => .error e
        | .ok D =>
          let read := S.foldl (fun acc e => match e.1 with
            | .g dpa world => acc.engTouch q world dpa e.2
            | .l _ _ => acc | .peer _ _ => acc | .host _ => acc) s
          .ok { state := if whole = 0 then read else read.engPost q D (bitBytes whole bits), count := lines.foldl (· + ·) 0
                bits := bits.drop (8 * whole) }

/-- The owner, extent index, extent and moved extent of a migrate packet. -/
def State.migration (s : State) (p : Pkt) : Nat × Nat × BitVec 128 × BitVec 128 :=
  let o := p.qp % 64
  let i := p.qp / 256 % 64
  let x := Tab.getD (s.owner o).allot 0 i
  (o, i, x, extMoved x (p.qp / 2 ^ 16 % 4) (p.dest % 2 ^ 46))

/-- The unit of 4 KiB that an iteration of a migrate moves. -/
def unitOf (iv : List Nat) : Nat := iv.getD 0 0 + 2 ^ 16 * iv.getD 1 0

/-- Migrate (R287, R199): before the first unit the new place is checked as R167 would check the map. The poisoned words of a unit are read
with it, and count in the stamp (R281). -/
def State.iterMigrate (s : State) (p : Pkt) (iv : List Nat) : Except EngErr IterOut :=
  let (o, i, x, y) := s.migration p
  let u := unitOf iv
  let bad := !extV x || p.dest % 2 ^ 16 != 0 || !s.allotOk o (Tab.put (s.owner o).allot i y) || extOverlap x y
  if u = 0 ∧ bad then .error (.stop 2 (p.dest % 2 ^ 48))
  else if extLen x ≤ 4096 * u then .ok { state := s }
  else
    let from_ := extDpa x / 4096 + u
    let bad := (List.range 512).countP (fun i => Tab.getD s.poison false (512 * from_ + i))
    .ok { state := s.moveUnit o (extWorld x) from_ (extDpa y / 4096 + u), count := if s.farDown (4096 * from_) then 0 else bad }

/-- Decode (R288): the source and the index entries are checked before the stream is decoded, and the patches once their number is
known (R289). -/
def State.iterDecode (s : State) (q : Nat) (p : Pkt) : Except EngErr IterOut :=
  let M := p.qp / 2 ^ 16
  match s.srcWord q p.source 0 p.rowLen, s.engWord q p.dest 0 (4 * M) with
  | .error e, _ => .error e
  | _, .error e => .error e
  | .ok S, .ok D =>
    let a := s.engRead q S
    let r := decodeStream a.1 M (2 ^ (p.qp / 2 % 4)) (if p.qp % 2 = 1 then 16 else 14) (BitVec.ofNat 8 (p.qp / 256))
    let word : Word := BitVec.ofNat 32 (r.1 * 2 ^ 28 + min a.2.1 0xFFF * 2 ^ 16 + r.2.1)
    if r.1 ≠ 0 then .ok { state := a.2.2, word := some word }
    else
      let base := wordOffset p.dest
      let second := (base + 4 * M + 63) / 64 * 64 - base
      match s.engWord q p.dest second r.2.2.2.length with
      | .error e => .error e
      | .ok P => .ok { state := (a.2.2.engPost q D r.2.2.1).engPost q P r.2.2.2, word := some word }

/-- The limits of a command's iteration vector (R280, R287, R288). -/
def State.ivLimits (s : State) (p : Pkt) : List Nat :=
  match p.kind with
  | 5 =>
    let units := extLen (s.migration p).2.2.1 / 4096
    [min units (2 ^ 16), (units + 2 ^ 16 - 1) / 2 ^ 16, 1, 1, 1]
  | 6 => [1, 1, 1, 1, 1]
  | _ => [p.chunks, p.count 1, p.count 2, p.count 3, p.count 4]

/-- The iteration at iv, with the stamp address checked beside the first (R289). -/
def State.iterate (s : State) (q : Nat) (p : Pkt) (iv : List Nat) (held : List Bool) (last : Bool) : Except EngErr IterOut :=
  if s.pktIllop q p then .error .illop
  else
    let r := match p.kind with
      | 0 => s.iterCopy q p iv
      | 1 => s.iterCopy q p iv
      | 2 => s.iterQuantise q p iv
      | 3 => s.iterReduce q p iv
      | 4 => s.iterScrub q p iv held last
      | 5 => s.iterMigrate p iv
      | _ => s.iterDecode q p
    match r with
    | .error e => .error e
    | .ok out =>
      if iv.all (· == 0) then
        match s.stampPlace q p false with
        | .error e => .error e
        | .ok _ => .ok out
      else .ok out

/-! ### The state machine (R277) -/

/-- A queue stops: the iterations before are done, its state, cause, address and iv are recorded and its error event is raised (R277, R289,
R290, R371). -/
def State.stopQueue (s : State) (q cause addr : Nat) : State :=
  ((s.engRest q).setQState q .stopped cause addr).raiseEvent (176 + engineOf q)

/-- What a failed check does to a queue. -/
def State.engFail (s : State) (q : Nat) (e : EngErr) : State :=
  match e with
  | .stop c a => s.draw.stopQueue q c a
  | .illop => s.draw.stopQueue q 1 (Config.stopAddress s.draws % 2 ^ 48)
  | .pause => (s.engRest q).setQState q .paused 0 0
  | .snoop lines => lines.foldl State.snoop s

/-- Whether a queue's command may make an iteration at all: it runs, its engine is not in reset, and its owner is not halting (R277, R367). -/
def State.mayRun (s : State) (q : Nat) : Bool :=
  (s.queue q).st == .running && !(s.queue q).done && !Tab.getD s.engineReset false (engineOf q) && !(s.queueOwner q).any s.isHalting

/-- Whether an engine may serve a queue before its others: the lowest traffic class first, then the least recently served.
A TC0 command may be held to its share, so it does not bar the others (R277, R328). -/
def State.servesNext (s : State) (q : Nat) : Bool :=
  let tcOf (x : Queue) : Nat := (pktOf x.slot).tc
  let mine := s.queue q
  s.queues.all (fun e => e.1 == q || engineOf e.1 != engineOf q || !s.mayRun e.1 || tcOf e.2 == 0 && tcOf mine != 0 ||
    tcOf mine < tcOf e.2 || (tcOf mine == tcOf e.2 && mine.served ≤ e.2.served))

/-- Whether the iteration after the present one is the command's last, and the vector of the next one. -/
def State.nextIv (s : State) (p : Pkt) (iv : List Nat) : Option (List Nat) :=
  if p.kind = 5 ∧ extLen (s.migration p).2.2.1 ≤ 4096 * (unitOf iv + 1) then none else bumpIv (s.ivLimits p) iv

/-- Whether a switch holds what an iteration would send it: 65 535 of the engine's writes there are not yet acknowledged (R348). -/
def State.switchBars (s t : State) (q : Nat) : Bool :=
  (List.range 4).any (fun d => 65535 ≤ s.engineCount d (engineOf q) && s.engineCount d (engineOf q) < t.engineCount d (engineOf q))

/-- One iteration of the command of a queue that runs, or its stop or pause (log 36, DEDUCED); one that has been made before others is passed
over (R238). -/
def State.engineStep (s : State) (q : Nat) : State :=
  let x := s.queue q
  let p := pktOf x.slot
  if !s.mayRun q || !s.servesNext q then s
  else
    let next := s.nextIv p x.iv
    let last := next.isNone
    if x.ahead.any (fun e => e.1 == x.iv) then
      s.updQueue q (fun y =>
        { y with iv := next.getD y.iv, done := last, before := none, ahead := y.ahead.filter (fun e => e.1 != y.iv) })
    else
      match s.iterate q p x.iv x.bits last with
      | .error e => s.engFail q e
      | .ok out =>
        if s.switchBars out.state q then s
        else
          let s1 := { out.state.draw with nextId := out.state.nextId + 1 }
          s1.updQueue q (fun y =>
            { y with iv := next.getD y.iv, done := last, count := y.count + out.count, served := s1.nextId
                     decodeWord := if out.word.isSome then out.word else y.decodeWord, bits := out.bits, before := some (x.iv, x.count, x.bits) })

/-- The vectors of a command's next iteration and of so many after it. -/
def State.nextIvs (s : State) (p : Pkt) : Nat → List Nat → List (List Nat)
  | 0, iv => [iv]
  | k + 1, iv => iv :: ((s.nextIv p iv).map (s.nextIvs p k)).getD []

/-- The iteration that comes k after the next one of a copy, a gather or a quantise, made before those: payload accesses of a command are
unordered among themselves (R238). Those that come before it have passed their checks (R289). -/
def State.engineAhead (s : State) (q k : Nat) : State :=
  let x := s.queue q
  let p := pktOf x.slot
  let ivs := s.nextIvs p k x.iv
  let made (iv : List Nat) : Bool := x.ahead.any (fun e => e.1 == iv)
  if !s.mayRun q || !s.servesNext q || 2 < p.kind || k = 0 || ivs.length ≤ k || made (ivs.getD k []) then s
  else if !(ivs.take k).all (fun iv => made iv || (s.iterate q p iv [] false).isOk) then s
  else
    match s.iterate q p (ivs.getD k []) [] false with
    | .error _ => s
    | .ok out =>
      if s.switchBars out.state q then s
      else
        out.state.draw.updQueue q (fun y =>
          { y with count := y.count + out.count, ahead := y.ahead ++ [(ivs.getD k [], out.count)]
                   before := y.before.map (fun b => (b.1, b.2.1 + out.count, b.2.2)) })

/-- COPY_ITERATION (R280). -/
def execCopyIteration (q : Nat) (s : State) : Answer := .next (s.engineStep q)

/-- One iteration where the head command is of a kind. -/
def State.kindStep (s : State) (q kind : Nat) : State := if (pktOf (s.queue q).slot).kind = kind then s.engineStep q else s

/-- PACKET_COPY (R282). -/
def execPacketCopy (q : Nat) (s : State) : Answer := .next (s.kindStep q 0)
/-- PACKET_GATHER (R283). -/
def execPacketGather (q : Nat) (s : State) : Answer := .next (s.kindStep q 1)
/-- PACKET_QUANTISE (R284). -/
def execPacketQuantise (q : Nat) (s : State) : Answer := .next (s.kindStep q 2)
/-- PACKET_REDUCE_ADD (R285). -/
def execPacketReduceAdd (q : Nat) (s : State) : Answer := .next (s.kindStep q 3)
/-- PACKET_SCRUB (R286). -/
def execPacketScrub (q : Nat) (s : State) : Answer := .next (s.kindStep q 4)
/-- PACKET_MIGRATE (R287). -/
def execPacketMigrate (q : Nat) (s : State) : Answer := .next (s.kindStep q 5)
/-- PACKET_DECODE (R288). -/
def execPacketDecode (q : Nat) (s : State) : Answer := .next (s.kindStep q 6)

/-- COMMAND_START (R277, R235): the head slot of an idle queue is read as an acquire at system scope, so a line that the host may
hold is first taken back. A command that a halt left behind starts again at iv. A poisoned slot stops the queue (R373). -/
def execCommandStart (q : Nat) (s : State) : Answer :=
  let b := s.binding q
  let rd := s.qRd q
  let x := s.queue q
  let lines := s.hostLinesIn (s.slotDpa q rd) 64
  let got := s.slotRead q rd
  let again := !x.slot.isEmpty
  .next (
    if 768 ≤ q ∨ !qbV b ∨ x.st ≠ .idle ∨ s.qWr q ≤ rd ∨ Tab.getD s.engineReset false (engineOf q) ∨
        (!qbPv b ∧ (s.owner (qbOwner b)).ostat.st ≠ .running) then s
    else if !lines.isEmpty then lines.foldl State.snoop s
    else if got.poison.isEmpty ∧ pktNum got.bytes 0 8 < 2 ^ 63 then s
    else
      let start (y : Queue) : Queue :=
        if again then { y with slot := got.bytes }
        else { y with slot := got.bytes, iv := [0, 0, 0, 0, 0], done := false, count := 0, decodeWord := none, bits := [], before := none }
      let s1 := (s.updQueue q start).setQState q .running 0 0
      if got.poison.isEmpty then s1 else s1.engFail q .illop)

/-- The tile that a completed command makes ready (R281, R148). -/
def State.completeTile (s : State) (q : Nat) (p : Pkt) : State :=
  if !p.tv ∨ p.dest / 2 ^ 62 ≠ 2 then s
  else
    match (s.queueOwner q).bind (fun o => s.teamByTid o (p.dest / 2 ^ 36 % 2 ^ 16)) with
    | none => s
    | some (key, _) =>
      match s.tileOf key p.tile with
      | some t => if t.st = .filling then (s.turnTile (key / 32) p.tile { t with st := .ready }).wakeTile (key / 32) p.tile else s
      | none => s

/-- What follows the stamp, in the order of R277: the tile, the notification, the event, the slot's valid bit, and rd; a change of the
queue's binding that waits for an idle queue then takes effect (R274). -/
def State.afterStamp (s : State) (q : Nat) (p : Pkt) : State :=
  let rd := s.qRd q
  let s1 := s.completeTile q p
  let s2 := if p.origin ∧ p.cls ≠ 3 then
      { s1 with notes := s1.notes ++
          [{ core := p.header / 2 ^ 24 % 2 ^ 7, gslot := p.header / 2 ^ 15 % 2 ^ 9, cls := p.cls, q, w := rd, owner := qbOwner (s.binding q) }] }
    else s1
  let s3 := if p.ev then s2.raiseEvent (128 + engineOf q) else s2
  let s4 := s3.homeWrite (s3.queueWorld q) (s3.slotDpa q rd) (leBytes 8 (p.header % 2 ^ 63))
  let s5 := (s4.qcbWrite q 8 8 (rd + 1)).updQueue q (fun x =>
    { x with slot := [], done := false, bits := [], early := [], before := none, ahead := [] })
  ((s5.setQState q .idle 0 0).slotFreed q).rebind q

/-- The stamp of a command, where its address can be written (R281). -/
def State.putStamp (s : State) (q : Nat) (p : Pkt) (high : Nat) : Except EngErr State :=
  (s.stampPlace q p true).map (fun ls => (s.engWrite q ls (leBytes 8 (high * 2 ^ 32 + p.value % 2 ^ 32))).knownSnoops s.snoops.length)

/-- The update of the allotment map that a migrate waits for, by the service core of its engine's slice: not while that is in reset, accesses
checked against the old map are in flight, or it would refuse it (R199, R287, R401). -/
def State.finishMigrate (s : State) (q : Nat) (p : Pkt) : State × Bool :=
  let (o, i, x, y) := s.migration p
  let s1 := s.quietOwner o
  if !s.scRuns (engineOf q / 6) ∨ !s1.ownerQuiet o ∨ !s1.allotOk o (Tab.put (s1.owner o).allot i y) then (s1, false) else (s1.migrateMap o i x y, true)

/-- Whether a queue's command has nothing outstanding: its writes are performed, its deliveries are applied, what it has sent is acknowledged, and the
back-invalidates of its writes, and of those that releases have carried, have completed (R236, R237, R239, R242). -/
def State.engQuiet (s : State) (q : Nat) : Bool :=
  (s.queue q).pend.isEmpty && s.deliveries.all (fun d => d.q != q) && s.sent.all (fun x => x.q != q || x.acked) && s.snoops.all (fun x => !x.known && x.queue != some q)

/-- Whether a command's stamp or tile lies with a team that is sealed: they wait until it is restored (R277). -/
def State.stampSealed (s : State) (q : Nat) (p : Pkt) : Bool :=
  ([p.stamp] ++ if p.tv then [p.dest] else []).any (fun w =>
    w / 2 ^ 62 == 2 && (s.queueOwner q).any (fun o => s.sealedTid o (w / 2 ^ 36 % 2 ^ 16)))

/-- COMMAND_COMPLETE (R277, R281, R237): once the payload is performed and every back-invalidate has completed, the stamp is
written and its actions follow; where the stamp or the tile lies with a sealed team, they wait until it is restored. -/
def execCommandComplete (q : Nat) (s : State) : Answer :=
  let x := s.queue q
  let p := pktOf x.slot
  .next (
    if x.st ≠ .running ∨ !x.done ∨ Tab.getD s.engineReset false (engineOf q) then s
    else
      let s0 := s.landEngAll q
      if !s0.engQuiet q || s0.stampSealed q p then s0
      else
        let m := if p.kind = 5 then s0.finishMigrate q p else (s0, true)
        if !m.2 then m.1
        else
          let n := match x.decodeWord with
            | some w => w.toNat
            | none => x.count
          match m.1.putStamp q p (min (p.value / 2 ^ 32 + n) (2 ^ 32 - 1)) with
          | .error e => m.1.draw.engFail q e
          | .ok s1 => (s1.draw).afterStamp q p)

/-- QCB_RESUME (R277, R290): the slot is read again and the command goes on at iv. Where the owner has halted, the command that runs again
halts. -/
def execQcbResume (q : Nat) (s : State) : Answer :=
  .next (
    if (s.queue q).st ≠ .stopped ∨ s.qcbRead q 40 8 ≠ 1 ∨ Tab.getD s.engineReset false (engineOf q) then s
    else
      let got := s.slotRead q (s.qRd q)
      let s1 := ((s.qcbWrite q 40 8 0).updQueue q (fun x => { x with slot := got.clean (s.slotDpa q (s.qRd q)) })).setQState q .running 0 0
      if !got.poison.isEmpty then s1.engFail q .illop
      else if (s.queueOwner q).any (fun o => (s.owner o).ostat.st == .halted) then s1.setQState q .halted 0 0
      else s1)

/-- QCB_ABANDON (R277): the stamp, where its address can be written, takes the high word 0xFFFF_FFFF, and every action of a
completed command follows once, when what the command has done is performed (R237). -/
def execQcbAbandon (q : Nat) (s : State) : Answer :=
  let p := pktOf (s.queue q).slot
  .next (
    if (s.queue q).st ≠ .stopped ∨ s.qcbRead q 40 8 ≠ 2 ∨ Tab.getD s.engineReset false (engineOf q) ∨ !s.engQuiet q ∨ s.stampSealed q p then s
    else
      let s1 := s.qcbWrite q 40 8 0
      let s2 := match s1.putStamp q p (2 ^ 32 - 1) with
        | .ok t => t
        | .error _ => s1
      s2.draw.afterStamp q p)

/-! ### Reduce-add deliveries (R285) -/

/-- Whether a tag is later than another; sequence numbers are compared modulo 2^32. -/
def tagLater (seq iter : Nat) : Option (Nat × Nat) → Bool
  | none => true
  | some (s0, i0) =>
    let d := (seq + 2 ^ 32 - s0) % 2 ^ 32
    (d != 0 && d < 2 ^ 31) || (d == 0 && i0 < iter)

/-- Where the bytes of element i of a delivery lie: DPA, world and number, in one piece or in two. -/
def Delivery.pieces (d : Delivery) (i : Nat) : List (Nat × Nat × Nat) :=
  let n := d.size
  match d.cut with
  | some (k, dpa, world) =>
    if n * i < k ∧ k < n * i + n then [(d.dpa + n * i, d.world, k - n * i), (dpa, world, n * i + n - k)] else [(d.dpa + n * i, d.world, n)]
  | none => [(d.dpa + n * i, d.world, n)]

/-- One element of a delivery added at its home slice, as an atomic at device scope, for an owner where there is one; `own` says that an
engine of the device sent it. -/
def State.addElem (s : State) (owner : Option Nat) (own : Bool) (d : Delivery) (i : Nat) : State :=
  let ps := d.pieces i
  let f : Fmt := if d.bf16 then .bf16 else .fp32
  if ps.any (fun p => isAlias p.1) then { s with nowin := satInc64 s.nowin 1 }
  else if ps.any (fun p => s.farDown p.1) then s
  else
    let m := leNat (ps.flatMap (fun p => (s.homeRead p.2.1 p.1 p.2.2).clean p.1))
    let x := leNat ((d.data.drop (d.size * i)).take d.size)
    let new := leBytes d.size (round (addVal .rn (f.decode m) (f.decode x)) f .rn)
    let r := ps.foldl (fun (acc : State × List Byte) p =>
      ((acc.1.ownerTouch owner p.2.1 p.1 p.2.2).homeWrite p.2.1 p.1 (acc.2.take p.2.2), acc.2.drop p.2.2)) (s, new)
    if own then r.1.queueSnoops d.q s.snoops.length else r.1

/-- The elements of a delivery that are still to be added are added; those that the far tier fails are discarded and counted for the owner
(R199). -/
def State.addDelivery (s : State) (owner : Option Nat) (own : Bool) (d : Delivery) : State :=
  let s1 := ((List.range (d.data.length / d.size)).filter (fun j => !d.added.contains j)).foldl (fun acc j => acc.addElem owner own d j) s
  if s.farDown d.dpa || d.cut.any (fun c => s.farDown c.2.1) then owner.elim s1 (fun o => s1.countPoison o 1) else s1

/-- The tag that a delivery's home slice has last applied of its queue (R285). -/
def State.lastTag (s : State) (d : Delivery) : Option (Nat × Nat) := Tab.find (s.queue d.q).lastTags (homeSlice d.dpa)

/-- Whether two deliveries are of one queue and go to one home slice, where their tags order them (R285). -/
def Delivery.sameWay (d e : Delivery) : Bool := e.q == d.q && homeSlice e.dpa == homeSlice d.dpa

/-- REDUCE_ADD_DELIVERY (R285): the deliveries of one queue reach a home slice in order; one whose tag is not later than the
last applied there is dropped whole. Those of different slices are applied in no fixed order (R238). -/
def execReduceAddDelivery (i : Nat) (s : State) : Answer :=
  .next (
    match s.deliveries[i]? with
    | none => s
    | some d =>
      if (s.deliveries.take i).any d.sameWay then s
      else
        let s1 := { s with deliveries := s.deliveries.eraseIdx i }
        -- The parts of one iteration at one slice carry one tag: the tag counts as applied once its last part is.
        let more := (s1.deliveries.any (fun e => d.sameWay e && e.seq == d.seq && e.iter == d.iter))
        if !tagLater d.seq d.iter (s.lastTag d) then s1
        else
          let s2 := s1.addDelivery (s.queueOwner d.q) true d
          if more then s2
          else s2.updQueue d.q (fun x => { x with lastTags := Tab.put x.lastTags (homeSlice d.dpa) (d.seq, d.iter) }))

/-- One element of a delivery added before its others (R238, R285). -/
def State.addEarly (s : State) (i j : Nat) : State :=
  match s.deliveries[i]? with
  | none => s
  | some d =>
    if (s.deliveries.take i).any d.sameWay || !tagLater d.seq d.iter (s.lastTag d) || s.farDown d.dpa || d.added.contains j ||
      d.data.length < d.size * (j + 1) then s
    else { s with deliveries := s.deliveries.modify i (fun e => { e with added := e.added ++ [j] }) }.addElem (s.queueOwner d.q) true d j

/-- What a queue has sent is acknowledged by its destination (R239), one of the first 65 535 that its engine's switch has forwarded (R348). -/
def State.ackSent (s : State) (i : Nat) : State :=
  let e := (s.sent[i]?.map (fun x => engineOf x.q)).getD 0
  if 65535 ≤ (s.sent.take i).countP (fun x => engineOf x.q == e && !x.acked && x.dev.isSome) then s else { s with sent := s.sent.modify i (fun x => { x with acked := true }) }

/-! ### Engine resets (R372, R277) -/

/-- ENGINE_RESET (R372): the commands of the engine pause at an iteration boundary. -/
def execEngineReset (e : Nat) (s : State) : Answer :=
  .next (
    if s.power ≠ .ready ∨ 48 ≤ e then s
    else
      (s.queues.filter (fun x => engineOf x.1 == e && x.2.st == .running)).foldl (fun acc x => (acc.atBoundary x.1).setQState x.1 .paused 0 0)
        { s with engineReset := Tab.put s.engineReset e true })

/-- ENGINE_RESET_END (R372): each command goes on at the iv of the engine's state array. -/
def execEngineResetEnd (e : Nat) (s : State) : Answer := .next ({ s with engineReset := Tab.del s.engineReset e }.resumePaused)

end Sys2Proof.Machine
end

