-- ==== Sys2Proof/Machine/Host.lean ====
section
/-! DEFINITION. The agents outside the cores: event delivery (R159, R160), the host's, the peers' and the service cores' accesses
to device memory (R239..R242, R316), and the tables and parameters that service cores write for the driver. -/

namespace Sys2Proof.Machine

/-! ### Events (R160) -/

/-- One raised event changed. -/
def State.setEvent (s : State) (i : Nat) (e : Event) : State := { s with events := s.events.set i e }

/-- A raised event done. -/
def State.dropEvent (s : State) (i : Nat) : State := { s with events := s.events.eraseIdx i }

/-- The host told of events. -/
def State.tellHost (s : State) (n : HostNote) : State := { s with hostNotes := s.hostNotes ++ [n] }

/-- Whether a service core holds an event. -/
def Event.atSc (e : Event) : Bool :=
  match e.place with
  | .withSc _ => true
  | .withHost => false | .done => false

/-- A service core told that an action of its on an event is lost (R160). -/
def State.tellLost (s : State) (e : Event) : State := { s with lost := s.lost ++ [(e.sc, e.source)] }

/-- An action of a service core on an event that another party has: it is lost, and an event that is done is then over (R160). -/
def State.loses (s : State) (i : Nat) (e : Event) : State :=
  (if e.place = .done then s.dropEvent i else s.setEvent i { e with owed := false }).tellLost e

/-- The timer of an event takes its claim bit: the event goes to the host, or is logged as late and stays with the service core (R160). -/
def State.timerTakes (s : State) (i : Nat) (e : Event) : State :=
  if e.h then (s.setEvent i { e with place := .withHost }).tellHost (.interrupt e.vec e.source)
  else (s.setEvent i { e with late := true }).tellHost (.late e.source)

/-- Whether the timer of an event that a service core holds has passed, so that it takes the claim bit before any action of a later ac
(R160): in its own ac an action of the service core comes first. -/
def State.timerFirst (s : State) (e : Event) : Bool := e.atSc && !e.late && decide (e.raisedAt + 20 * acPerUs < s.now)

/-- SC_EVENT_COMPLETE (R160): lost where the host has the event, or where the timer gives it to the host first. -/
def execScEventComplete (i : Nat) (s : State) : Answer :=
  .next (match s.events[i]? with
    | none => s
    | some e =>
      if !s.scRuns e.sc then s
      else if !e.atSc then s.loses i e
      else if s.timerFirst e ∧ e.h then (s.timerTakes i { e with owed := false }).tellLost e
      else
        let s1 := if s.timerFirst e then s.timerTakes i e else s
        if e.h then (s1.dropEvent i).tellHost (.handled e.source) else s1.dropEvent i)

/-- SC_EVENT_FORWARD (R160): with h = 0 the service core receives "lost" and keeps the event. -/
def execScEventForward (i : Nat) (s : State) : Answer :=
  .next (match s.events[i]? with
    | none => s
    | some e =>
      if !s.scRuns e.sc then s
      else if !e.atSc then s.loses i e
      else if s.timerFirst e then (s.timerTakes i { e with owed := !e.h }).tellLost e
      else if e.h then (s.setEvent i { e with place := .withHost, owed := false }).tellHost (.interrupt e.vec e.source)
      else s.tellLost e)

/-- CLAIM_TIMER_EXPIRE (R160): 20 µs after the event was raised; in that ac a completion or a forward still takes the event first. -/
def execClaimTimerExpire (i : Nat) (s : State) : Answer :=
  .next (match s.events[i]? with
    | none => s
    | some e => if s.timerFirst e then s.timerTakes i e else s)

/-- HOST_EVENT_ACK (R160): a service core that was told of the event and has yet to act on it will find it done. -/
def execHostEventAck (i : Nat) (s : State) : Answer :=
  .next (match s.events[i]? with
    | none => s
    | some e => if e.place = .withHost then (if e.owed then s.setEvent i { e with place := .done } else s.dropEvent i) else s)

/-! ### Accesses from outside the cores (R239..R242, R316) -/

/-- The line of a DPA as an agent of no world receives it, a protected world's in its stored form (R192, R193, R241). -/
def State.hostLine (s : State) (dpa : Nat) : List Byte :=
  let a := dpa / 128 * 128
  if s.farDown a then List.replicate 128 0 else (s.homeRead 0 a 128).clean a

/-- The host receives bytes of a line, and may hold the line from then on (log 37, DEDUCED). -/
def State.hostTakes (s : State) (dpa : Nat) (data : List Byte) : State :=
  { s with
    hostLines := if (Tab.find s.hostLines (dpa / 128)).isSome then s.hostLines else Tab.put s.hostLines (dpa / 128) false
    replies := s.replies ++ [{ agent := .host, dpa, data }] }

/-- HOST_MEM_READ (R241): the host receives the line. -/
def execHostMemRead (dpa : Nat) (s : State) : Answer :=
  if s.power ≠ .ready then .next s
  else if isReserved dpa then .fault (.reservedAddress dpa)
  else .next ((s.touchOut (dpa / 128 * 128) 128).hostTakes (dpa / 128 * 128) (s.hostLine dpa))

/-- A write by an agent of no world, a protected world's bytes in their stored form (R192, R193). -/
def State.hostStore (s : State) (dpa : Nat) (data : List Byte) : State := if s.farDown dpa then s else s.homeWrite 0 dpa data

/-- A write of the host to a line: its own copy needs no back-invalidate, those of the alias lines of the bytes do (R198, R242). -/
def State.hostWrites (s : State) (dpa : Nat) (data : List Byte) : State :=
  let line := dpa / 128
  let t := s.hostStore dpa data
  { t with
    hostLines := match Tab.find s.hostLines line with
      | some b => Tab.put t.hostLines line b
      | none => t.hostLines
    snoops := s.snoops ++ (t.snoops.drop s.snoops.length).filter (fun x => x.lines != [line]) }

/-- HOST_MEM_WRITE (R241): a write-back or the answer to a snoop; the host's own copy of the line needs no back-invalidate. A
compare-and-swap of the host, made on a line that it holds alone, writes only where the stored bytes are the expected ones, and
receives the old bytes (R276, R295). -/
def execHostMemWrite (dpa : Nat) (st : HostStore) (s : State) : Answer :=
  let data := st.data
  if s.power ≠ .ready ∨ data.isEmpty then .next s
  else if isReserved dpa ∨ isReserved (dpa + data.length - 1) then .fault (.reservedAddress dpa)
  else if dpa / 128 ≠ (dpa + data.length - 1) / 128 then .next s
  else
    let s1 := s.touchOut dpa data.length
    match st.expected with
    | none => .next (s1.hostWrites dpa data)
    | some old =>
      let got := ((s.hostLine dpa).drop (dpa % 128)).take data.length
      .next ((if got = old then s1.hostWrites dpa data else s1).hostTakes dpa got)

/-- The back-invalidate of a line is complete for every write that waits for it (R242). The threads that had to obtain the host's copy find it at
the home slice, and no older bytes of the line in their L1. -/
def State.snoopDone (s : State) (line : Nat) : State :=
  let owed := s.threads.filter (fun e => e.2.sysLines.contains line)
  { s with hostLines := Tab.del s.hostLines line
           threads := if owed.isEmpty then s.threads else s.threads.map (fun e => (e.1, { e.2 with sysLines := e.2.sysLines.filter (· != line) }))
           cores := if owed.isEmpty then s.cores else
             s.cores.map (fun c => (c.1, if owed.any (fun e => e.1 / 32 / 512 == c.1) then c.2.l1Drop (fun l => l.line == line) else c.2))
           snoops := (s.snoops.map (fun x => { x with lines := x.lines.filter (· != line) })).filter (fun x => !x.lines.isEmpty) }

/-- BACK_INVALIDATE_COMPLETE (R242): the host no longer holds the line. Listed packets that waited for the line of their control block
claim their slots (R313). -/
def execBackInvalidateComplete (line : Nat) (s : State) : Answer :=
  .next (
    if Tab.getD s.hostLines false line then
      (s.queues.filter (fun e => !e.2.list.isEmpty && qbQcb (s.binding e.1) / 128 == line)).foldl (fun acc e => acc.slotFreed e.1)
        (s.snoopDone line)
    else s)

/-- The bytes that an agent receives. -/
def State.answer (s : State) (who : Agent) (dpa : Nat) (data : List Byte) : State :=
  { s with replies := s.replies ++ [{ agent := who, dpa, data }] }

/-- An access of a peer at a place of an owner's allotment, performed at the home slice in the owner's form (R240). A read at system
scope and a compare-and-swap first take the host's copy back (R217, R242). One that an expander fails gives zero, or is discarded, and
counts in the owner's POISON (R199). -/
def State.peerAt (s : State) (peer owner : Nat) (l : Loc) (acc : PeerAccess) : State :=
  let held (n : Nat) : List Nat := s.hostLinesIn l.dpa n
  let lost := s.farDown l.dpa
  match acc with
  | .read _ n sys =>
    if sys && !(held n).isEmpty then (held n).foldl State.snoop s
    else if lost then (s.countPoison owner 1).answer (.peer peer) l.dpa (List.replicate n 0)
    else (s.touch l.world l.dpa n).answer (.peer peer) l.dpa ((s.homeRead l.world l.dpa n).clean l.dpa)
  | .write _ data => if lost then s.countPoison owner 1 else (s.touch l.world l.dpa data.length).homeWrite l.world l.dpa data
  | .cas _ expected new =>
    let n := expected.length
    if !(held n).isEmpty then (held n).foldl State.snoop s
    else if lost then (s.countPoison owner 1).answer (.peer peer) l.dpa (List.replicate n 0)
    else if isAlias l.dpa then { s with nowin := satInc64 s.nowin 1 }.answer (.peer peer) l.dpa (List.replicate n 0)
    else
      let s1 := s.touch l.world l.dpa n
      let got := (s.homeRead l.world l.dpa n).clean l.dpa
      (if got = expected ∧ new.length = n then s1.homeWrite l.world l.dpa new else s1).answer (.peer peer) l.dpa got
  | .reduceAdd queue seq iter bf16 _ data =>
    let key := peer * 1024 + queue
    if !tagLater seq iter (Tab.find s.peerTags key) then s
    else
      { s with peerTags := Tab.put s.peerTags key (seq, iter) }.addDelivery (some owner) false { q := queue, seq, iter, dpa := l.dpa, world := l.world, bf16, data }

/-- The address of a peer's access, and its bytes. -/
def accRange : PeerAccess → Nat × Nat
  | .read a n _ => (a, n)
  | .write a data => (a, data.length)
  | .cas a expected _ => (a, expected.length)
  | .reduceAdd _ _ _ _ a data => (a, data.length)

/-- PEER_ACCESS (R240): an address of a peer's packet or thread is an allotment address of this device, checked by its map for the owner's
world (R24, R162, R279) (log 22, DESIGN CHOICE); a device outside any fabric has no peers (R404). -/
def execPeerAccess (peer : Nat) (req : PeerRequest) (s : State) : Answer :=
  let acc := req.access
  .next (
    if s.power ≠ .ready ∨ s.fabid = 0 ∨ (accRange acc).2 = 0 then s
    else
      match (s.owner req.owner).mapAA (s.owner req.owner).world (accRange acc).1 (accRange acc).2 with
      | none => s
      | some l => s.peerAt peer req.owner l acc)

/-- Bytes as a service core finds them: of a protected world it reads the stored form, since no plaintext of one reaches it (R24, R192)
(log 12, DEDUCED). -/
def State.storedBytes (s : State) (dpa n : Nat) : List Byte :=
  (List.range n).map (fun i => (s.hostLine (dpa + i)).getD ((dpa + i) % 128) 0)

/-- An access of a service core performed at the home slice, at system scope (R22, R316): a read first takes the host's copy back. -/
def State.serviceAt (s : State) (sc dpa : Nat) (acc : PeerAccess) : State :=
  let held (n : Nat) : List Nat := s.hostLinesIn dpa n
  match acc with
  | .read _ n _ =>
    if !(held n).isEmpty then (held n).foldl State.snoop s
    else (s.touchOut dpa n).answer (.sc sc) dpa (s.storedBytes dpa n)
  | .write _ data => (s.touchOut dpa data.length).hostStore dpa data
  | .cas _ expected new =>
    let n := expected.length
    let got := s.storedBytes dpa n
    if !(held n).isEmpty then (held n).foldl State.snoop s
    else if isAlias dpa then { s with nowin := satInc64 s.nowin 1 }.answer (.sc sc) dpa (List.replicate n 0)
    else
      let s1 := s.touchOut dpa n
      (if got = expected ∧ new.length = n then s1.hostStore dpa new else s1).answer (.sc sc) dpa got
  | .reduceAdd _ _ _ _ _ _ => s

/-- SERVICE_CORE_ACCESS (R316, R22): an agent at system scope; service cores have no engines, so they deliver no reduce-add. -/
def execServiceCoreAccess (sc : Nat) (acc : PeerAccess) (s : State) : Answer :=
  let dpa := (accRange acc).1
  let n := (accRange acc).2
  if s.power ≠ .ready ∨ 8 ≤ sc ∨ !s.scRuns sc ∨ n = 0 then .next s
  else if isReserved dpa ∨ isReserved (dpa + n - 1) then .fault (.reservedAddress dpa)
  else .next (s.serviceAt sc dpa acc)

/-! ### Fabric switches (R239, R348) -/

/-- FCNT of the switch of a base die for a source: the stores and atomics of the source that the switch has forwarded and that are not yet
acknowledged (R239, R348). It is a view of what is pending: a core's store is forwarded once it has reached the store queue, its
atomic once nothing holds it back, and an engine's write once its iteration has made it. Sources are numbered cores 0..95, then engines
0..47; of the service cores, the host and the peers, whose numbers follow, nothing is ever pending (log 22, DESIGN CHOICE). -/
def State.fcnt (s : State) (switch source : Nat) : Nat :=
  min 65535 (
    if 144 ≤ source then 0
    else if 96 ≤ source then s.engineCount switch (source - 96)
    else s.ops.countP (fun o => o.core == source && o.crosses && homeDie o.addr == switch &&
      (o.isAtomic && 3 ≤ o.scope && s.mayPerform o || o.isStore && o.reach.isSome)))

/-- SWITCH_RELEASE_ACK (R239): the acknowledgement stands for exactly the completion that R219 requires of a release, and a
release of the model looks at its operations themselves, so nothing is left to change. -/
def execSwitchReleaseAck (_switch _source : Nat) (s : State) : Answer := .next s

/-! ### Tables that service cores write (R22) -/

/-- Whether [dpa, dpa + n) lies inside one valid HBM4E extent of an owner. -/
def Owner.holdsHbm (o : Owner) (dpa n : Nat) : Bool :=
  o.extents.any (fun x => extTier x == 0 && extDpa x ≤ dpa && dpa + n ≤ extDpa x + extLen x)

/-- The bits of a binding that are not reserved (R5, R274). -/
def qbMask (x : BitVec 128) : BitVec 128 := x &&& ~~~((15 : BitVec 128) <<< 110) &&& ~~~(0x3FFFFFFF : BitVec 128)

/-- Whether a service core accepts a binding: its control block and ring lie inside the owner's HBM4E extents (R274). -/
def State.qbindOk (s : State) (e : BitVec 128) : Bool :=
  let o := s.owner (qbOwner e)
  let lsz := (e.extractLsb' 114 5).toNat
  let inside (dpa n : Nat) : Bool := if qbPv e then dpa + n ≤ 2 ^ 39 else o.holdsHbm dpa n
  !qbV e || (6 ≤ lsz && lsz ≤ 16 && inside (qbQcb e) 64 && inside (qbRing e) (64 * qbSlots e) && (qbPv e || s.exists? (qbOwner e)))

/-- QBIND_WRITE (R274): it takes effect at once on an idle queue, and on another once the queue is idle. -/
def execQbindWrite (q : Nat) (entry : BitVec 128) (s : State) : Answer :=
  let e := qbMask entry
  .next (
    if !s.served ∨ 768 ≤ q ∨ !s.qbindOk e then s
    else { s with qbindNew := Tab.put s.qbindNew q e }.rebind q)

/-- Whether a service call of an owner is in flight. -/
def State.callsInFlight (s : State) (o : Nat) : Bool :=
  let b := (s.owner o).sring
  (srV b && s.resRead o (srOff b) 8 != s.resRead o (srOff b + 8) 8) || s.comets.any (fun c => c.owner == o) ||
    s.threads.any (fun e => e.2.st == .parked && (s.group (e.1 / 32)).owner == o) ||
    s.ctxs.any (fun c => c.2.owner == o && (c.2.teams.flatMap (fun t => t.groups) ++ c.2.handlers.map (·.2)).any (fun g =>
      g.threads.any (fun e => e.2.st == .parked)))

/-- SRING_WRITE (R315): only while the owner has no request in flight, and refused in the cases of the rule. An entry with v = 0 names no
ring, and is held to none of them (log 86, DESIGN CHOICE). -/
def execSringWrite (o : Nat) (entry : BitVec 128) (s : State) : Answer :=
  let e := (entry >>> 63) <<< 63
  let x := s.owner o
  let lsz := (e.extractLsb' 123 4).toNat
  let park := srFrames e == 0 || (x.extentOf (srPark e) (8192 * srFrames e)).any (fun y => extTier y == 0)
  let ok := !srV e || (5 ≤ lsz && lsz ≤ 12 && 0x140 ≤ srOff e && srOff e + 64 + 128 * srSlots e ≤ x.reserveLen && park)
  .next (if !s.served ∨ !s.exists? o ∨ s.callsInFlight o ∨ !ok then s else s.updOwner o (fun y => { y with sring := e }))

/-- UMASK_WRITE (R191): the masks of a slice stay disjoint and hold at most 14 ways. The lines of a way that leaves or joins the mask are
first written back, sealed where they are a world's, and are invalidated. -/
def execUmaskWrite (slice world : Nat) (ways : BitVec 16) (s : State) : Answer :=
  let others := (s.umask.filter (fun e => e.1 / 16 == slice && e.1 % 16 != world)).map (·.2)
  let union := others.foldl (· ||| ·) (0 : BitVec 16)
  let count (m : BitVec 16) : Nat := (List.range 16).countP (fun i => m.getLsbD i)
  .next (
    if s.power ≠ .ready ∨ 8 ≤ slice ∨ !s.scRuns slice ∨ world = 0 ∨ 16 ≤ world ∨ union &&& ways ≠ 0 ∨ 14 < count (union ||| ways) then s
    else
      let moved : BitVec 16 := Tab.getD s.umask 0 (16 * slice + world) ^^^ ways
      { s with umask := Tab.setD s.umask 0 (16 * slice + world) ways
               l2 := s.l2.filter (fun l => !(homeSlice (128 * l.line) == slice && moved.getLsbD l.way)) })

/-- The element bytes of a format window: first DPA and number. -/
def fwElemRange (x : BitVec 256) : Nat × Nat := (fwEbase x, 8 * fwLines x * fwElemBits x)
/-- The scale bytes of a format window. -/
def fwScaleRange (x : BitVec 256) : Nat × Nat := (fwSbase x, 64 * fwLines x / fwBlock x)

/-- Whether two ranges meet. -/
def pairsMeet (a b : Nat × Nat) : Bool := rangesMeet a.1 a.2 b.1 b.2

/-- The conditions of R196 on a window of a slice beside the others. -/
def State.windowOk (s : State) (key : Nat) (x : BitVec 256) : Bool :=
  let e := fwElemRange x
  let c := fwScaleRange x
  let others := s.fwin.filter (fun w => w.1 != key && fwV w.2)
  9 ≤ fwFmt x && fwFmt x ≤ 13 && e.1 + e.2 ≤ 2 ^ 39 && c.1 + c.2 ≤ 2 ^ 39 &&
  others.all (fun w => !(w.1 / 16 == key / 16 && rangesMeet (fwAbase x) (fwLines x) (fwAbase w.2) (fwLines w.2))) &&
  others.all (fun w => !pairsMeet e (fwElemRange w.2) && !pairsMeet e (fwScaleRange w.2))

/-- Whether a DPA lies in the alias lines of a window. -/
def inWindow (key : Nat) (x : BitVec 256) (dpa : Nat) : Bool :=
  isAlias dpa && (dpa - aliasBase) / 2 ^ 40 == key / 16 && fwAbase x ≤ (dpa - aliasBase) % 2 ^ 40 / 128 &&
    (dpa - aliasBase) % 2 ^ 40 / 128 < fwAbase x + fwLines x

/-- The accesses in flight to the alias lines of a window. -/
def State.aliasOps (s : State) (key : Nat) (x : BitVec 256) : List Nat :=
  (s.ops.filter (fun o => o.space == .g && o.isMem && inWindow key x o.addr)).map Op.id

/-- Whether a payload write of an engine to the alias lines of a window is still to be performed (R198). -/
def Queue.writesAlias (x : Queue) (key : Nat) (w : BitVec 256) : Bool :=
  x.pend.any (fun p => match p.place with
    | .g dpa _ => inWindow key w dpa
    | .l _ _ => false | .peer _ _ => false | .host _ => false)

/-- The accesses in flight to the alias lines of a window performed, as far as they may be (R198). -/
def State.drainAlias (s : State) (key : Nat) (x : BitVec 256) : State :=
  ((s.queues.filter (fun e => e.2.writesAlias key x)).foldl (fun acc e => acc.landEngAll e.1) s).performAll (s.aliasOps key x)

/-- Whether no access to the alias lines of a window is in flight (R198). -/
def State.aliasQuiet (s : State) (key : Nat) (x : BitVec 256) : Bool :=
  (s.aliasOps key x).isEmpty && !s.queues.any (fun e => e.2.writesAlias key x) && !s.deliveries.any (fun d => inWindow key x d.dpa)

/-- The alias lines of a window that has changed are invalidated: in L2, and in the host's caches (R198). -/
def State.dropAliases (s : State) (key : Nat) (old : BitVec 256) : State :=
  if fwV old then
    { s with l2 := s.l2.filter (fun l => !inWindow key old (128 * l.line))
             hostLines := s.hostLines.map (fun e => if inWindow key old (128 * e.1) then (e.1, true) else e) }
  else s

/-- FWIN_WRITE (R196, R198): refused where a condition of R196 fails; it takes effect once every access in flight to the alias
range of the old window has been performed. -/
def execFwinWrite (slice i : Nat) (entry : BitVec 256) (s : State) : Answer :=
  let key := 16 * slice + i
  let e := entry &&& ~~~((0x7FFFFF : BitVec 256) <<< 224) &&& ~~~((0x1FFFFFF : BitVec 256) <<< 32)
  let old := Tab.getD s.fwin 0 key
  .next (
    if s.power ≠ .ready ∨ 8 ≤ slice ∨ !s.scRuns slice ∨ 16 ≤ i ∨ (fwV e && !s.windowOk key e) then s
    else
      let s1 := if fwV old then s.drainAlias key old else s
      if fwV old && !s1.aliasQuiet key old then s1
      else
        { s1 with fwin := Tab.setD s1.fwin 0 key e }.dropAliases key old)

/-- CLAIM_WRITE (R159): it affects events raised later. -/
def execClaimWrite (source : Nat) (entry : BitVec 32) (s : State) : Answer :=
  .next (if !s.served ∨ 512 ≤ source then s else { s with claims := Tab.setD s.claims 0 source (entry &&& 0xF800FFFF) })

/-- DBG_WRITE (R359). -/
def execDbgWrite (o i : Nat) (c : Comparator) (s : State) : Answer :=
  .next (
    if !s.served ∨ !s.exists? o ∨ 4 ≤ i ∨ 40 < c.mask then s
    else s.updOwner o (fun x => { x with dbg := Tab.put x.dbg i { c with addr := c.addr % 2 ^ 45 } }))

/-- The least and the greatest value of a parameter (R129, R174, R183, R201, R304, R312, R328, R360, R364, R370, R404); PARKTH and
WDLIM are in µs, POOLMAX and the length of the pool's range in KiB, SHQ in bytes, the pool's range an AA. -/
def paramRange : Param → Nat × Nat
  | .lapq => (1, 255) | .quant => (1, 255) | .walkbudget => (256, 240000) | .parkth => (10, 10000) | .wt => (1, 255)
  | .poolmax => (0, 1048576) | .otc => (0, 3) | .shq => (0, 512 * 2 ^ 20) | .wdlim => (100, 100000) | .ercap => (1, 10)
  | .hrt => (64, 4096) | .fabid => (0, 255)
  | .poolbase => (0, 2 ^ 44 - 1) | .poollen => (0, 2 ^ 34)

/-- OWNER_PARAM_WRITE (R174): the driver sets a parameter of an owner or of the device. -/
def execOwnerParamWrite (p : Param) (o v : Nat) (s : State) : Answer :=
  let r := paramRange p
  .next (
    if !s.served ∨ v < r.1 ∨ r.2 < v then s
    else
      match p with
      | .lapq => s.updOwner o (fun x => { x with lapq := v })
      | .quant => s.updOwner o (fun x => { x with quant := v })
      | .walkbudget => s.updOwner o (fun x => { x with walkbudget := v })
      | .parkth => s.updOwner o (fun x => { x with parkth := v })
      | .wt => s.updOwner o (fun x => { x with wt := v })
      | .poolmax => s.updOwner o (fun x => { x with poolmax := v })
      | .otc => s.updOwner o (fun x => { x with otc := v })
      | .shq => s.updOwner o (fun x => { x with shq := v })
      | .wdlim => { s with wdlim := v * acPerUs }
      | .ercap => { s with ercap := v }
      | .hrt => { s with hrt := v }
      | .fabid => { s with fabid := v }
      | .poolbase => s.updOwner o (fun x => { x with poolbase := v })
      | .poollen => s.updOwner o (fun x => { x with poollen := v }))

/-- DEVICE_COUNTER_CLEAR (R348). -/
def execDeviceCounterClear (c : DeviceCounter) (s : State) : Answer :=
  .next (if !s.served then s else match c with
    | .noclaim => { s with noclaim := 0 }
    | .nowin => { s with nowin := 0 }
    | .dcorr => { s with dcorr := 0 }
    | .dpoison => { s with dpoison := 0 }
    | .wsat slice i => { s with fwin := Tab.upd s.fwin (16 * slice + i) (fun w => w >>> 32 <<< 32) })

end Sys2Proof.Machine
end

