-- ==== Sys2Proof/Machine/Platform.lean ====
section
/-! DEFINITION. The package (R11, R198..R202, R398..R404), the resets of units (R371, R372), monitors and abandonment as events
(R223, R359, R360), deficits (R304, R328) and the end of groups (R136). -/

namespace Sys2Proof.Machine

/-! ### Crady links, expanders and the host link (R371, R404) -/

/-- The ac of one ms. -/
def acPerMs : Nat := 1000 * acPerUs

/-- A Crady link; none is up before it has trained (R400). -/
def State.link (s : State) (l : Nat) : Link := if s.power = .ready then Tab.getD s.links {} l else { st := .down }

/-- What the driver reads of a link: its state, its replay count, and the FABID of the peer behind it (R404). -/
def State.linkReport (s : State) (l : Nat) : LinkSt × Nat × Nat := ((s.link l).st, (s.link l).replays, Config.peerFabid l)

/-- A Crady link changed. -/
def State.setLink (s : State) (l : Nat) (x : Link) : State := { s with links := Tab.put s.links l x }

/-- A link that sees one more replay at a time: it has seen 64 within 1 ms once the one 63 before lies less than 1 ms back (R404). -/
def Link.replay (x : Link) (now : Nat) : Link :=
  let recent := (x.recent ++ [now]).filter (fun t => now < t + acPerMs)
  { x with replays := x.replays + 1, recent := recent.drop (recent.length - 63), due := x.due || 64 ≤ recent.length }

/-- LINK_REPLAY (R404, R202): the replay is counted once, for the link and for the owner whose access was retried. -/
def execLinkReplay (l o : Nat) (s : State) : Answer :=
  .next (
    if 16 ≤ l ∨ (s.link l).st ≠ .up then s
    else (s.setLink l ((s.link l).replay s.now)).updOwner o (fun y => { y with linkretry := satInc64 y.linkretry 1 }))

/-- LINK_RETRAIN (R404): after 64 replays within 1 ms. -/
def execLinkRetrain (l : Nat) (s : State) : Answer :=
  let x := s.link l
  .next (
    if 16 ≤ l ∨ x.st ≠ .up ∨ !x.due then s
    else (s.setLink l { x with st := .retraining, since := s.now, recent := [], due := false }).raiseEvent (384 + l))

/-- LINK_RETRAINED (R404) (log 45, DEDUCED). -/
def execLinkRetrained (l : Nat) (s : State) : Answer :=
  let x := s.link l
  .next (if x.st = .retraining ∧ s.now < x.since + acPerMs then s.setLink l { x with st := .up } else s)

/-- LINK_DOWN (R404): a link that has not retrained within 1 ms. -/
def execLinkDown (l : Nat) (s : State) : Answer :=
  let x := s.link l
  .next (if x.st = .retraining ∧ x.since + acPerMs ≤ s.now then (s.setLink l { x with st := .down }).raiseEvent (384 + l) else s)

/-- EXPANDER_DOWN (R371, R199): accesses behind the port fail from then on. -/
def execExpanderDown (p : Nat) (s : State) : Answer :=
  .next (if s.power ≠ .ready ∨ 2 ≤ p ∨ Tab.getD s.portsDown false p then s else { s with portsDown := Tab.put s.portsDown p true }.raiseEvent (416 + p))

/-- HOST_LINK_RETRAIN (R371). -/
def execHostLinkRetrain (s : State) : Answer := .next (if s.power = .ready then s.raiseEvent 418 else s)

/-! ### HBM4E channels and the thermal policy (R11, R200, R201, R399) -/

/-- The data-rate points in descending order: 0 for 12.8, 1 for 9.6 and 2 for 6.4 Gb/s. -/
def rateStep : DataRate → Nat
  | .g128 => 0 | .g96 => 1 | .g64 => 2

/-- The data-rate point of a step. -/
def rateOf (step : Nat) : DataRate :=
  match step with
  | 0 => .g128
  | 1 => .g96
  | _ => .g64

/-- The base die of a channel: 32 channels to a stack, two stacks to a base die (R12, R200). -/
def channelDie (c : Nat) : Nat := c / 64

/-- Whether the service core of a channel's stack runs, which alone moves the channel (R200, R401). -/
def State.channelServed (s : State) (c : Nat) : Bool := s.scRuns (c / 32)

/-- A channel put at the point that the driver asked for, or at the slower one that the policy allows; it stays where it is while its service
core is in reset. -/
def State.setRate (s : State) (c : Nat) : State :=
  if !s.channelServed c then s else
  let want := rateStep (Tab.getD s.wantRates .g128 c)
  { s with rates := Tab.put s.rates c (rateOf (max want (Tab.getD s.dieHot 0 (channelDie c)))) }

/-- HBM_RATE_SWITCH (R200, R399): a request above what the policy allows is held. -/
def execHbmRateSwitch (c : Nat) (r : DataRate) (s : State) : Answer :=
  .next (if s.power ≠ .ready ∨ 256 ≤ c ∨ !s.channelServed c then s else { s with wantRates := Tab.put s.wantRates c r }.setRate c)

/-- The channels of a base die's stacks after its thermal step has changed. -/
def State.setDieStep (s : State) (die step : Nat) : State :=
  (List.range 64).foldl (fun acc i => acc.setRate (64 * die + i)) { s with dieHot := Tab.put s.dieHot die step }

/-- A report of 90 °C or more ends the 10 ms below it (R399). -/
def State.warm (s : State) (die celsius : Nat) : State := if 90 ≤ celsius then { s with coolSince := Tab.del s.coolSince die } else s

/-- THERMAL_STEP_DOWN (R399): the die reports to its service cores, of which one in reset takes no action (R401). -/
def execThermalStepDown (die celsius : Nat) (s : State) : Answer :=
  let step := if 102 ≤ celsius then 2 else if 95 ≤ celsius then 1 else 0
  .next (
    if s.power ≠ .ready ∨ 4 ≤ die ∨ !s.dieServed die then s
    else if step ≤ Tab.getD s.dieHot 0 die then s.warm die celsius
    else (s.warm die celsius).setDieStep die step)

/-- THERMAL_STEP_UP (R399): a report of the junction below 90 °C starts the 10 ms, and once they have passed the channels step up
one point and the next 10 ms begin; a report of 90 °C or more ends them. -/
def execThermalStepUp (die celsius : Nat) (s : State) : Answer :=
  .next (
    if s.power ≠ .ready ∨ 4 ≤ die ∨ !s.dieServed die then s
    else if 90 ≤ celsius then s.warm die celsius
    else
      match Tab.find s.coolSince die with
      | none => { s with coolSince := Tab.put s.coolSince die s.now }
      | some t =>
        if s.now < t + 10 * acPerMs ∨ Tab.getD s.dieHot 0 die = 0 then s
        else { s with coolSince := Tab.put s.coolSince die s.now }.setDieStep die (Tab.getD s.dieHot 0 die - 1))

/-- ROW_HAMMER_LIMIT (R201): the activations of a row, which the bank has counted by owner, have reached the threshold; each owner with
at least half of them is limited until the row is refreshed. -/
def execRowHammerLimit (row : Nat) (counts : List (Nat × Nat)) (s : State) : Answer :=
  let total := counts.foldl (fun t e => t + e.2) 0
  let hot := (counts.filter (fun e => total ≤ 2 * e.2)).map (fun e => (e.1, row))
  .next (
    if Tab.getD s.rows [] row ≠ counts ∨ total < s.hrt then s
    else { s with limits := s.limits.filter (fun e => !hot.contains e) ++ hot })

/-- ROW_REFRESH (R201): the counts reset, and no owner is limited for the row any more. -/
def execRowRefresh (row : Nat) (s : State) : Answer :=
  .next { s with rows := Tab.del s.rows row, limits := s.limits.filter (fun e => e.2 != row)
                 lastActs := s.lastActs.filter (fun e => e.2.1 != row) }

/-- HBM_CHANNEL_RESET (R372): data is kept and the requests in flight are issued again in their order. -/
def execHbmChannelReset (c : Nat) (s : State) : Answer := .next (if s.power ≠ .ready ∨ 256 ≤ c then s else s.raiseEvent (400 + c / 32))

/-! ### Firmware, power and attestation (R398..R403) -/

/-- The bytes of an image before its signature. -/
def firmwareSigned (f : Firmware) : List Byte := leBytes 8 f.version ++ leBytes 32 f.signer.toNat ++ f.limpor ++ f.sc

/-- The rollback counter (R401): fused at manufacture, raised by accepted images. -/
def State.rollbackNow (s : State) : Nat := max s.rollback Config.fusedRollback

/-- Whether Limpor accepts an image (R401). -/
def State.accepts (s : State) (f : Firmware) : Bool :=
  Config.sha512 (leBytes 32 f.signer.toNat) == Config.fusedKeyDigest &&
  Config.ed25519Verify f.signer (Config.sha512 (firmwareSigned f)) f.signature && s.rollbackNow ≤ f.version

/-- What outlives a loss of power: flash, the fused counter, what the outside has been told or sent, for which nothing waits any more, and the
model's own bookkeeping (log 41, DEDUCED). -/
def State.powered (s : State) (p : Power) : State :=
  { power := p, flash := s.flash, rollback := s.rollback, tape := s.tape, draws := s.draws, nextKey := s.nextKey + 1
    imageKey := s.nextKey, hostNotes := s.hostNotes, sent := s.sent.map (fun x => { x with acked := true }), replies := s.replies, reports := s.reports }

/-- Links and expander ports trained as the device comes up: one that does not train is reported down (R400, R371) (log 70, DESIGN
CHOICE). -/
def State.train (s : State) : State :=
  let links := (List.range 16).filter (fun l => !Config.linkTrains l)
  let ports := (List.range 2).filter (fun p => !Config.portTrains p)
  ((links.map (384 + ·)) ++ ports.map (416 + ·)).foldl State.raiseEvent
    { s with links := links.map (fun l => (l, { st := .down })), portsDown := ports.map (fun p => (p, true)) }

/-- What the host finds in configuration space, which is there once power is: the ready bit, and the public half of the device identity
key with its certificate (R400, R402) (log 71, DESIGN CHOICE). -/
structure ConfigSpace where
  ready : Bool
  publicKey : BitVec 256
  certificate : List Byte
deriving DecidableEq, Repr

/-- The configuration space that the host sees: from the training of the host link on, the ready bit clear until step 6 (R400, R402). -/
def State.configSpace (s : State) : Option ConfigSpace :=
  if s.power = .off then none
  else some { ready := s.power == .ready, publicKey := Config.identityPublic, certificate := Config.identityCertificate }

/-- POWER_GOOD (R400), steps 1 to 4: the image is verified, every array and table takes its reset value, and the host link is trained; a failed
check leaves the device in recovery. -/
def execPowerGood (s : State) : Answer :=
  .next (
    if s.power ≠ .off then s
    else if s.accepts s.flash then { s.powered .training with rollback := max s.rollback s.flash.version }
    else s.powered .recovery)

/-- Steps 5 and 6 (R400): links and expander ports are trained, and the ready bit is set. -/
def State.bringUp (s : State) : State := if s.power = .training then { s with power := .ready }.train else s

/-- POWER_LOSS (R398): every array loses its contents. -/
def execPowerLoss (s : State) : Answer := .next (s.powered .off)

/-- THERMAL_TRIP (R399): a loss of power. -/
def execThermalTrip (die celsius : Nat) (s : State) : Answer := .next (if 8 ≤ die ∨ celsius < 110 then s else s.powered .off)

/-- RECOVERY_WINDOW_WRITE (R400). -/
def execRecoveryWindowWrite (f : Firmware) (s : State) : Answer := .next (if s.power = .recovery then { s with flash := f } else s)

/-- SERVICE_CORE_RESET (R372, R401): the image is verified again; a reload that fails leaves the service core in reset. One that runs again puts
the channels of its stack where the policy has them (R200, R399). -/
def execServiceCoreReset (sc : Nat) (s : State) : Answer :=
  .next (
    if 8 ≤ sc ∨ s.power ≠ .ready then s
    else if !s.accepts s.flash then { s with scDown := Tab.put s.scDown sc true }.raiseEvent (408 + sc)
    else ((List.range 32).foldl (fun (acc : State) i => acc.setRate (32 * sc + i)) { s with scDown := Tab.del s.scDown sc }).raiseEvent (408 + sc))

/-- The configuration that a report covers: UMASK of all slices and every WLATCH, in slice and then core order (R403). -/
def State.worldConfig (s : State) : List Byte :=
  (List.range 8).flatMap (fun sl => (List.range 15).flatMap (fun w => leBytes 4 (Tab.getD s.umask 0 (16 * sl + w + 1)).toNat)) ++
  (List.range 96).flatMap (fun c => leBytes 4 (s.core c).world)

/-- The bytes of a digest. -/
def digestBytes (d : BitVec 512) : List Byte := leBytes 64 d.toNat

/-- Bytes 0..447 of a report (R403). -/
def State.reportBody (s : State) (owner : Option Nat) (nonce : BitVec 256) : List Byte :=
  let o := owner.filter s.exists?
  let world := (o.map (fun i => (s.owner i).world)).getD 0
  let rsv := (o.map (fun i => digestBytes (s.owner i).reserveDigest)).getD (List.replicate 64 0)
  leBytes 4 1 ++ leBytes 4 (owner.getD 0xFFFFFFFF) ++ leBytes 32 nonce.toNat ++ digestBytes (Config.sha512 s.flash.limpor) ++
    digestBytes (Config.sha512 s.flash.sc) ++ leBytes 4 s.rollbackNow ++ leBytes 4 world ++ digestBytes (Config.sha512 s.worldConfig) ++
    rsv ++ List.replicate 144 0

/-- ATTEST_REPORT (R403), through any service core that runs. -/
def execAttestReport (owner : Option Nat) (nonce : BitVec 256) (s : State) : Answer :=
  let body := s.reportBody owner nonce
  .next (
    if !s.served then s
    else { s with reports := s.reports ++ [{ body, sig := Config.identitySign (Config.sha512 body) }] })

/-! ### Monitors (R223) -/

/-- A thread's MONWAIT ended with a status. -/
def State.endMonwait (s : State) (k status : Nat) (when_ : Op → Bool) : State :=
  match (s.threadOps k).find? (fun o => (match o.kind with | .monwait _ => true | _ => false) && when_ o) with
  | none => s
  | some o =>
    let s1 := (s.updThread k (fun t => { t with monitor := none })).finishOp o status
    s1.updThread k (fun t => if t.st = .waitOp then { t with st := .ready } else t)

/-- The ac at which an operation's time limit passes. -/
def Op.deadline (o : Op) : Option Nat :=
  match o.kind with
  | .monwait d => d
  | _ => none

/-- MONITOR_WAKE (R223): the armed line has been written. -/
def execMonitorWake (k : Nat) (s : State) : Answer :=
  .next (if (s.thread k).monitor.any Monitor.hit then s.endMonwait k 1 (fun _ => true) else s)

/-- MONWAIT_TIMEOUT (R223): status 2, or 3 where no monitor was armed. -/
def execMonwaitTimeout (k : Nat) (s : State) : Answer :=
  .next (s.endMonwait k (if (s.thread k).monitor.isSome then 2 else 3) (fun o => o.deadline.any (· ≤ s.now)))

/-- MONITOR_LOST (R223): status 3 may be returned at any moment. -/
def execMonitorLost (k : Nat) (s : State) : Answer := .next (s.endMonwait k 3 (fun _ => true))

/-! ### Debug hits and abandonment (R359, R360) -/

/-- A recorded fault of an access raised for its thread (R358, R359): PC is set back to the accessing word at its place in its clause (R42,
R43) and at its repetition, which is 0 where the word stands under no REP (R50); a pending DEBUG of the thread is no longer pending. -/
def State.raiseHit (s : State) (k : Nat) (h : Hit) : State :=
  let pbk := if h.cls = .debug then false else (s.thread k).frec.pbk
  let s1 := { s with hits := s.hits.erase h }.updThread k (fun t =>
    { t with pc := h.pc, repix := h.repix, clause := h.clause.map (fun (c : ClausePos) => { c with dests := (t.clause.map ClausePos.dests).getD [] }), frec := { t.frec with pbk } })
  s1.raise k { cls := h.cls, addr := h.addr, aux := h.aux }

/-- DEBUG_HIT (R359): a recorded hit of a thread that is ready is raised. -/
def execDebugHit (i : Nat) (s : State) : Answer :=
  .next (match s.hits[i]? with
    | none => s
    | some h =>
      match s.findGroup h.uid with
      | none => s
      | some g => if (s.thread (tkey g h.lane)).st = .ready ∧ (s.hits.take i).all (fun x => x.uid != h.uid || x.lane != h.lane) then
          s.raiseHit (tkey g h.lane) h else s)

/-- The write part of an abandoned store or atomic performed (R360). -/
def State.abandonWrite (s : State) (o : Op) : State :=
  match o.kind, o.space with
  | .store data _, .g => s.performStore o data
  | .atomic op ty b c _, .g => s.performAtomic o op ty b c
  | _, _ => s

/-- A performed store whose back-invalidate a release has waited for longer than WDLIM is abandoned: the release waits for it no more
(R242, R360). -/
def State.abandonSnoop (s : State) (id : Nat) : State :=
  match s.snoops.find? (fun x => x.uid != 0 && x.id == id) with
  | none => s
  | some x =>
    if s.now - x.issuedAt < s.wdlim ∨ !s.releaseAwaits id then s
    else
      { s with
        snoops := s.snoops.filter (fun y => y.id != id)
        hits := s.hits ++ [{ uid := x.uid, lane := x.lane, pc := x.pc, clause := x.clause, repix := x.repix, cls := .watchdog, addr := x.pc.toNat
                             aux := BitVec.ofNat 32 (min (s.now - x.issuedAt) (2 ^ 32 - 1)) }] }

/-- OPERATION_ABANDON (R360): `writes` says whether the write part has been performed, which an earlier operation that orders it may still
hold back (R8, R218). A load or atomic delivers zero. -/
def execOperationAbandon (id : Nat) (writes : Bool) (s : State) : Answer :=
  .next (match s.op? id with
    | none => s.abandonSnoop id
    | some o =>
      if !s.abandoned o || (writes && s.ops.any (fun p => o.heldBy p false)) then s
      else
        let done := if writes then { s.abandonWrite { o with dest := .none } with hits := s.hits } else s
        done.abandon o)

/-! ### Who may issue (R174, R367) -/

/-- The ac within which a halting owner stops issuing (R367). -/
def haltAc : Nat := 2400

/-- Whether an owner's groups and sequencers may issue: an owner that is halting stops within 2 µs (R367). -/
def State.ownerIssues (s : State) (o : Nat) : Bool :=
  let x := s.owner o
  s.power == .ready && x.ostat.st != .halted && (x.ostat.st != .halting || s.now < x.haltAt + haltAc)

/-- Whether a group is the one that OSTAT names as having halted its owner: it issues no more (R377, R379) (log 81, DEDUCED). -/
def OStat.names (x : OStat) (g : Nat) : Bool := x.st == .halting && x.cause != .driver && x.core == g / 512 && x.gslot == g % 512

/-- Whether a group may issue: a handler group also needs budget in the window (R174). -/
def State.groupIssues (s : State) (g : Nat) : Bool :=
  match s.group? g with
  | none => false
  | some x =>
    let c := s.core (g / 512)
    let used := (Tab.getD c.walks {} x.owner).used
    s.ownerIssues x.owner && !(s.owner x.owner).ostat.names g && (x.hdepth == 0 || used < (s.owner x.owner).walkbudget)

/-! ### Deficits and shares (R304, R328) -/

/-- Whether an owner has a ready run on a core, in a group that may issue. -/
def State.ownerReady (s : State) (core o : Nat) : Bool :=
  s.groups.any (fun e => e.1 / 512 == core && e.2.owner == o && !(s.readyKeys e.1).isEmpty && s.groupIssues e.1)

/-- How many replenishments make a deficit positive. -/
def needOf (deficit : Int) (wt : Nat) : Nat := if 0 < deficit then 0 else (-deficit).toNat / (256 * wt) + 1

/-- What n ac do to the deficits of a core (R304): in each of them in which no owner with a ready run has a positive deficit, every held
slot is replenished. -/
def State.replenishFor (s : State) (core n : Nat) : State :=
  let x := s.core core
  let wt (o : Nat) : Nat := max 1 (s.owner o).wt
  let ready := x.slots.filter (fun e => s.ownerReady core e.2.owner)
  let steps := ready.foldl (fun m e => min m (needOf e.2.deficit (wt e.2.owner))) n
  if steps = 0 then s
  else
    s.setCore core { x with slots := x.slots.map (fun e =>
      (e.1, { e.2 with deficit := min (e.2.deficit + steps * (256 * wt e.2.owner)) (512 * wt e.2.owner) })) }

/-- The present ac considered for replenishment, once (R304): it comes before the ac's issues (log 26, DEDUCED). -/
def State.replenish (s : State) (core : Nat) : State :=
  if (s.core core).nextReplenish ≤ s.now then
    (s.replenishFor core 1).updCore core (fun c => { c with nextReplenish := s.now + 1 })
  else s

/-- DEF_REPLENISH (R304). -/
def execDefReplenish (core : Nat) (s : State) : Answer := .next (s.replenish core)

/-- TC0_SHARE_WINDOW (R328): a 1 µs window begins. -/
def execTc0ShareWindow (s : State) : Answer := .next { s with tc0Window := s.now / acPerUs }

/-! ### Errors of the storage arrays (R202) -/

/-- A saved group of a uid changed, of a team or of a handler. -/
def Ctx.onGroup (uid : Nat) (f : SavedGroup → SavedGroup) (c : Ctx) : Ctx :=
  let on (g : SavedGroup) : SavedGroup := if g.group.uid = uid then f g else g
  { c with teams := c.teams.map (fun t => { t with groups := t.groups.map on }), handlers := c.handlers.map (fun h => (h.1, on h.2)) }

/-- A saved team of a uid changed. -/
def Ctx.onTeam (uid : Nat) (f : Team → Team) (c : Ctx) : Ctx :=
  { c with teams := c.teams.map (fun t => if t.team.uid = uid then { t with team := f t.team } else t) }

/-- A row of a saved thread lost. -/
def SavedGroup.loseRow (lane row : Nat) (g : SavedGroup) : SavedGroup := g.updThread lane (fun x => { x with regs := Tab.del x.regs row })

/-- The predicates of a saved thread lost. -/
def SavedGroup.losePreds (lane : Nat) (g : SavedGroup) : SavedGroup := g.updThread lane (fun x => { x with preds := 0 })

/-- A uniform register of a saved group lost. -/
def SavedGroup.loseUni (row : Nat) (g : SavedGroup) : SavedGroup := { g with group := { g.group with uni := Tab.del g.group.uni row } }

/-- The word of a saved record that holds its OVA lost (log 44, DESIGN CHOICE). -/
def Ctx.loseRec (i : Nat) (c : Ctx) : Ctx := { c with recs := c.recs.modify i (fun r => (r.1, r.2.1, { r.2.2 with ova := 0 })) }

/-- A change of a team's matrix state. -/
def Team.onMatrix (f : Matrix → Matrix) (t : Team) : Team := { t with matrix := t.matrix.map f }

/-- A saved thread of a lane changed. -/
def SavedGroup.onLane (lane : Nat) (f : Thread → Thread) (g : SavedGroup) : SavedGroup := g.updThread lane f

/-- A saved group's state changed. -/
def SavedGroup.onState (f : Group → Group) (g : SavedGroup) : SavedGroup := { g with group := f g.group }

/-- One half of a fault record lost (R356). -/
def FRec.lose (high : Bool) (r : FRec) : FRec := if high then { addr := r.addr } else { r with addr := 0 }

/-- The word of a saved thread that holds the rest of its state lost: its entry of the Orrery, REPIX, WINBASE, RLO and its clause position. -/
def Thread.loseEntry (t : Thread) : Thread :=
  { t with st := .ready, waitFor := none, header := none, waitBar := 0, watch := none, boexp := 0, bodly := 0, depth := 0, repix := 0, winbase := 0
           rlo := 0, clause := none }

/-- A word of a stream's state lost (R243, R244). -/
def Matrix.loseWord (w : Nat) (m : Matrix) : Matrix :=
  match w with
  | 0 => { m with mpc := 0 }
  | 1 => { m with widx := 0 }
  | 2 => { m with mtag := (List.range 8).foldl (fun t k => Tab.put t k 0) m.mtag }
  | 3 => { m with mtag := (List.range 8).foldl (fun t k => Tab.put t (8 + k) 0) m.mtag }
  | _ => { m with psrc := (List.range 4).foldl (fun t b => Tab.put t b 0) m.psrc }

/-- A quarter of an entry of permutation table memory lost (R151). -/
def loseQuarter (quarter : Nat) (x : BitVec 256) : BitVec 256 := x &&& ~~~((BitVec.ofNat 256 (2 ^ 64 - 1)) <<< (64 * (quarter % 4)))

/-- A saved team of a uid changed, with what is saved beside it. -/
def Ctx.onSaved (uid : Nat) (f : SavedTeam → SavedTeam) (c : Ctx) : Ctx :=
  { c with teams := c.teams.map (fun t => if t.team.uid = uid then f t else t) }

/-- What of a context reads as zero when a word of the shadow store is lost (R202, R362). -/
def loseItem (item : SavedItem) (uid : Nat) : Ctx → Ctx :=
  match item with
  | .pc lane => Ctx.onGroup uid (SavedGroup.onLane lane (fun t => { t with pc := 0 }))
  | .spillbase lane => Ctx.onGroup uid (SavedGroup.onLane lane (fun t => { t with spillbase := 0 }))
  | .spilltop lane => Ctx.onGroup uid (SavedGroup.onLane lane (fun t => { t with spilltop := 0 }))
  | .frec lane high => Ctx.onGroup uid (SavedGroup.onLane lane (fun t => { t with frec := t.frec.lose high }))
  | .entry lane => Ctx.onGroup uid (SavedGroup.onLane lane Thread.loseEntry)
  | .orbit => Ctx.onGroup uid (SavedGroup.onState (fun x => { x with orbit := {} }))
  | .counters => Ctx.onGroup uid (SavedGroup.onState (fun x => { x with uviol := 0, skipblk := 0, satcnt := 0, convtail := 0 }))
  | .opc => Ctx.onGroup uid (SavedGroup.onState (fun x => { x with opc := [] }))
  | .tile i => Ctx.onSaved uid (fun t => { t with tiles := Tab.upd t.tiles i (fun x => { team := x.team, v := true }) })
  | .cbar i => Ctx.onTeam uid (fun t => { t with cbars := Tab.del t.cbars i })
  | .perm e quarter => Ctx.onSaved uid (fun t => { t with perm := Tab.upd t.perm e (loseQuarter quarter) })
  | .stream w => Ctx.onTeam uid (Team.onMatrix (Matrix.loseWord w))
  | .zew i => Ctx.onTeam uid (Team.onMatrix (fun m => { m with zew := (List.range 8).foldl (fun t j => Tab.del t (8 * i + j)) m.zew }))
  | .zea i => Ctx.onTeam uid (Team.onMatrix (fun m => { m with zea := (List.range 8).foldl (fun t j => Tab.del t (8 * i + j)) m.zea }))

/-- A saved context changed; the loss counts for its owner. -/
def State.loseSaved (s : State) (c : Nat) (f : Ctx → Ctx) : State :=
  match Tab.find s.ctxs c with
  | none => s
  | some x => { s with ctxs := Tab.put s.ctxs c (f x) }.countPoison x.owner 1

/-- The i-th pair of accumulator words read as zero. -/
def Matrix.loseAcc (i : Nat) (m : Matrix) : Matrix := { m with acc := Tab.del (Tab.del m.acc (2 * i)) (2 * i + 1) }

/-- The i-th eight bytes of the tile registers read as zero, and with them every element of 6 bits that has a bit there (R64, R267). -/
def Matrix.loseTile (i : Nat) (m : Matrix) : Matrix :=
  let row := 8 * i / 64 * 64
  let b := 8 * i % 64
  if matBits (m.tagOf (8 * i / tileElems)) = 6 ∧ b < 48 then
    let lost := (List.range ((8 * b + 63) / 6 + 1 - 8 * b / 6)).map (8 * b / 6 + ·)
    { m with mreg := Tab.putRange m.mreg row (leBytes 48 (lost.foldl (clearElem 6) (leNat ((List.range 48).map (fun j => Tab.getD m.mreg 0 (row + j)))))) }
  else { m with mreg := (List.range 8).foldl (fun r j => Tab.del r (8 * i + j)) m.mreg }

/-- The i-th eight scale bytes of the tile registers read as zero. -/
def Matrix.loseScales (i : Nat) (m : Matrix) : Matrix := { m with msc := (List.range 8).foldl (fun r j => Tab.del r (8 * i + j)) m.msc }

/-- A running sum reads as zero: each lies in a word of its own (log 44, DESIGN CHOICE). -/
def Matrix.loseSum (i : Nat) (m : Matrix) : Matrix := { m with z := Tab.del m.z i }

/-- An error that cannot be corrected: words of memory, caches, scratch and FIFO banks are poisoned, other storage reads zero, a record of a
command window among it (R202, R373). A
transfer that an expander's port cannot correct is an access that fails (R199). -/
def State.loseWord (s : State) (site : ErrorSite) : State :=
  let lost (key : Nat) (f : Matrix → Matrix) : State := (s.updMatrix key f).countPoison (s.team key).owner 1
  match site with
  | .memory w => { s with poison := Tab.put s.poison w true }
  | .scratch key w => s.updTeam key (fun t => { t with scratchPoison := Tab.put t.scratchPoison w true })
  | .l1 core i w => s.updCore core (fun c =>
      { c with l1 := c.l1.modify i (fun l => { l with poison := l.poison ||| BitVec.ofNat 16 (2 ^ (w % 16)) }) })
  | .fifo launch stage item w =>
    { s with launches := Tab.upd s.launches launch (fun x =>
        { x with queues := Tab.upd x.queues stage (fun q => { q with bad := q.bad ++ [(item, w)] }) }) }
  | .row k r =>
    match s.group? (k / 32) with
    | none => s
    | some g => (s.updThread k (fun t => { t with regs := Tab.del t.regs r })).countPoison g.owner 1
  | .uniRow key r =>
    match s.group? key with
    | none => s
    | some g => (s.setGroup key { g with uni := Tab.del g.uni r }).countPoison g.owner 1
  | .acc key i => lost key (Matrix.loseAcc i)
  | .tileReg key i => lost key (Matrix.loseTile i)
  | .sums key i => lost key (Matrix.loseSum i)
  | .scales key i => lost key (Matrix.loseScales i)
  | .shadow c uid lane r => s.loseSaved c (Ctx.onGroup uid (SavedGroup.loseRow lane r))
  | .shadowUni c uid r => s.loseSaved c (Ctx.onGroup uid (SavedGroup.loseUni r))
  | .shadowPreds c uid lane => s.loseSaved c (Ctx.onGroup uid (SavedGroup.losePreds lane))
  | .shadowScratch c uid w => s.loseSaved c (Ctx.onTeam uid (fun t => { t with scratch := Memory.writeN t.scratch (8 * w) (List.replicate 8 0) }))
  | .shadowAcc c uid i => s.loseSaved c (Ctx.onTeam uid (Team.onMatrix (Matrix.loseAcc i)))
  | .shadowTile c uid i => s.loseSaved c (Ctx.onTeam uid (Team.onMatrix (Matrix.loseTile i)))
  | .shadowSums c uid i => s.loseSaved c (Ctx.onTeam uid (Team.onMatrix (Matrix.loseSum i)))
  | .shadowScales c uid i => s.loseSaved c (Ctx.onTeam uid (Team.onMatrix (Matrix.loseScales i)))
  | .shadowBar c uid b => s.loseSaved c (Ctx.onTeam uid (fun t => { t with bars := Tab.del t.bars b }))
  | .shadowRec c i => s.loseSaved c (Ctx.loseRec i)
  | .shadowItem c uid item => s.loseSaved c (loseItem item uid)
  | .window w =>
    let o := 8 * w / 2 ^ 16
    let at_ := 8 * w % 2 ^ 16
    ({ s with window := (List.range 8).foldl (fun t i => Tab.setD t 0 (8 * w + i) 0) s.window }.updOwner o (fun x =>
      { x with winAccepted := Tab.upd x.winAccepted (at_ / 64) (fun bs =>
          bs.mapIdx (fun i b => if at_ % 64 ≤ i ∧ i < at_ % 64 + 8 then 0 else b)) })).countPoison o 1
  | .cxl _ => s

/-- Whether an error is one of a transfer, which is retried (R202). -/
def isTransfer (site : ErrorSite) : Bool :=
  match site with
  | .cxl _ => true
  | .memory _ | .scratch _ _ | .l1 _ _ _ | .row _ _ | .acc _ _ | .tileReg _ _ | .sums _ _ | .scales _ _ | .shadow _ _ _ _ | .uniRow _ _
  | .fifo _ _ _ _ | .shadowScratch _ _ _ | .shadowAcc _ _ _ | .shadowTile _ _ _ | .shadowSums _ _ _ | .shadowUni _ _ _ | .shadowPreds _ _ _
  | .shadowScales _ _ _ | .shadowBar _ _ _ | .shadowRec _ _ | .shadowItem _ _ _ | .window _ => false

/-- An error met by an owner's access, or by a scrub, a write-back or an erasure (R202) (log 44, DESIGN CHOICE). -/
def State.arrayError (s : State) (site : ErrorSite) (corrected : Bool) (owner : Option Nat) : State :=
  if s.power ≠ .ready then s else
  match corrected, owner with
  | true, some o => s.updOwner o (fun x =>
      if isTransfer site then { x with linkretry := satInc64 x.linkretry 1 } else { x with corr := satInc64 x.corr 1 })
  | true, none => if isTransfer site then s else { s with dcorr := satInc64 s.dcorr 1 }
  | false, some _ => s.loseWord site
  | false, none => { s.loseWord site with dpoison := satInc64 s.dpoison 1 }

/-! ### The end of groups (R136, R172) -/

/-- The records that a handler group still holds become unclaimed (R172). -/
def State.unclaim (s : State) (core uid : Nat) : State :=
  s.updCore core (fun c => { c with recs := c.recs.map (fun e =>
    if e.2.claimed = some uid then (e.1, { e.2 with claimed := none }) else e) })

/-- GROUP_RETIRE (R136): all threads exited, every operation completed and counted off. The last group ends its team. -/
def execGroupRetire (g : Nat) (s : State) : Answer :=
  .next (match s.group? g with
    | none => s
    | some x =>
      let exited := (groupKeys g).all (fun k => (s.thread k).st == .exited)
      let busy := s.ops.any (fun o => o.uid == x.uid) || !x.opc.isEmpty
      if !exited ∨ busy then s
      else
        let s1 := (s.takeGroup g).2
        let s2 : State := { s1 with hits := s1.hits.filter (fun h => h.uid != x.uid) }
        match x.team with
        | some key => s2.endTeam key
        | none => (s2.unclaim (g / 512) x.uid).releaseSlot (g / 512) x.owner)

end Sys2Proof.Machine
end

