-- ==== Sys2Proof/Machine/Rep.lean ====
section
/-! DEFINITION. REP (R48..R50): the checks before repetition 0, the repetitions, and the end of a sequence. -/

namespace Sys2Proof.Machine

/-! ### What a word is, by its opcode -/

/-- The opcodes of the long-latency words (R43). -/
def longOp (op : Nat) : Bool :=
  (0x37 ≤ op && op ≤ 0x3C) || op == 0x67 || (0x80 ≤ op && op ≤ 0x85) || (0xA0 ≤ op && op ≤ 0xA2) ||
  (0xA5 ≤ op && op ≤ 0xA7) || op == 0xAB || op == 0xD1 || op == 0xD3

/-- The site of an F-form word by its opcode (R43, R46). -/
def siteOp (op : Nat) : Site := { long := longOp op, ctrl := op / 16 == 7 }

/-- The handler depths at which an opcode is legal (R173, R176). -/
def depthOp (op : Nat) : DepthRule :=
  if 0xD2 ≤ op ∧ op ≤ 0xD6 then .ordinaryOnly else if 0xF0 ≤ op then .handlerOnly else .any

/-! ### The bounds of R49 -/

/-- The registers that the operands d, a, b and c of a repeated word cover (R32, R49, R211). -/
structure FieldRegs where
  d : Nat := 1
  a : Nat := 1
  b : Nat := 1
  c : Nat := 1

/-- The registers of a register word's operands, by opcode. -/
def fieldRegsF (op : Nat) (f : FWord) : FieldRegs :=
  let w := regs (wide f.ty)
  match op with
  | 0x08 => { d := 2, c := 2 }
  | 0x0E => { d := 2, a := 2 }
  | 0x17 => { d := w, a := w }
  | 0x19 => { d := w, a := w }
  | 0x1C => { d := w, a := w }
  | 0x1D => { d := w, a := w, c := w }
  | 0x1E => { a := w }
  | 0x1F => { a := w }
  | 0x20 => { a := w, b := w }
  | 0x24 => { d := w, a := w, b := w }
  | 0x2B => { a := w }
  | 0x50 => { d := w, a := regs ((tyOfCode f.mod.toNat).any wide) }
  | 0x55 => if f.sub = 2 then {} else { a := 2, b := 2, c := 2 }
  | 0x60 => { d := w, a := w, c := w }
  | 0x61 => { d := w, a := w, c := w }
  | 0x67 => { d := w, a := w }
  | 0x68 => { d := w, a := w, c := w }
  | 0xA0 => { d := w, a := 2, b := w }
  | 0xA1 => { d := w, b := w }
  | 0xA2 => { d := w, b := w }
  | 0xA3 => { a := 2, b := w }
  | 0xA4 => { b := w }
  | 0xA5 => { d := w, a := 2, b := w, c := w }
  | 0xA6 => { d := w, b := w, c := w }
  | 0xA7 => { d := w, b := w, c := w }
  | 0xB0 => { b := 2 }
  | 0xBB => { d := 2 }
  | 0xD0 => { b := 16 }
  | 0xD1 => { d := 2 }
  | 0xD5 => { b := 2 }
  | 0xD6 => { b := 2 }
  | 0xD7 => { a := 16, b := 2 }
  | 0xD8 => { a := 16, b := 2 }
  | 0xE8 => { d := w }
  | 0xE9 => { d := w }
  | 0xF0 => { a := 2, b := 2 }
  | 0xF1 => { a := 2 }
  | 0xF2 => { d := 4 }
  | 0xF7 => if f.sub = 2 then { d := 2 } else { b := 2 }
  | _ => { d := w, a := w, b := w, c := w }

/-- The registers of a memory form's data operand. -/
def memDataRegs (op : Nat) (f : MWord) : Nat := if op = 0x85 then regs (wide f.ty) else sizeRegs (memSize f)

/-- The registers of a memory form's base: a pair for device memory (R205, R211). -/
def memBaseRegs (op : Nat) (f : MWord) : Nat :=
  match op with
  | 0x81 => 1 | 0x82 => 1 | 0x91 => 1 | 0x92 => 1
  | 0x84 => regs (vecSpace f == .g)
  | 0x93 => regs (vecSpace f == .g)
  | _ => 2

/-- The registers of the operands of a repeated word. -/
def fieldRegs (body : DWord) : FieldRegs :=
  let r := rawOf body
  let op := r.op.toNat
  match layoutOf op r.sub.toNat with
  | .reg => match fwordOf r with
    | some f => fieldRegsF op f
    | none => {}
  | .imm => match iwordOf none r with
    | some f => if op = 0x21 then { a := regs (wide f.ty) } else { d := regs (wide f.ty), a := regs (wide f.ty) }
    | none => {}
  | .load => match mwordOf false r with
    | some f => { d := memDataRegs op f, a := memBaseRegs op f }
    | none => {}
  | .store => match mwordOf true r with
    | some f => { a := memBaseRegs op f, c := memDataRegs op f }
    | none => {}
  | .off => {}

/-- The stride of a code (R48). -/
def strideOf (x : BitVec 2) : Nat := match x.toNat with | 0 => 0 | 1 => 1 | 2 => 2 | _ => 4

/-- The bounds of one field (R49): its last register, and the alignment that its stride keeps. -/
def fieldBounds (count stride code r winbase A : Nat) : Bool :=
  let last := code % 32 + (count - 1) * stride + r - 1
  stride == 0 || (last ≤ 31 && (32 ≤ code || winbase + last < A) && (r ≤ 1 || count ≤ 1 || stride % r == 0))

/-- The bounds of a REP for a thread's window base and allotment (R49). -/
def repBounds (p : RepPrefix) (body : DWord) (winbase A : Nat) : Bool :=
  let r := rawOf body
  let n := fieldRegs body
  let n0 := p.count.toNat
  fieldBounds n0 (strideOf p.sd) r.d.toNat n.d winbase A && fieldBounds n0 (strideOf p.sa) r.a.toNat n.a winbase A &&
  fieldBounds n0 (strideOf p.sb) r.b.toNat n.b winbase A && fieldBounds n0 (strideOf p.sc) r.c.toNat n.c winbase A

/-- The word of repetition i: each register replaced by itself plus i strides (R49). -/
def bumpBody (p : RepPrefix) (body : DWord) (i : Nat) : DWord :=
  let r := rawOf body
  let up (c : BitVec 7) (s : BitVec 2) : BitVec 7 := c + BitVec.ofNat 7 (i * strideOf s)
  packRaw { r with d := up r.d p.sd, a := up r.a p.sa, b := up r.b p.sb, c := up r.c p.sc }

/-! ### The repeated word -/

/-- The effect of the words that a REP may stand before. -/
def repWord (i : Instr) (s : State) : Answer :=
  match i with
  | .iadd f => execIadd f s
  | .iaddi f => execIaddi f s
  | .isub f => execIsub f s
  | .irsbi f => execIrsbi f s
  | .imul f => execImul f s
  | .imuli f => execImuli f s
  | .imulhi f => execImulhi f s
  | .imad f => execImad f s
  | .imadw f => execImadw f s
  | .imin f => execImin f s
  | .imax f => execImax f s
  | .iabs f => execIabs f s
  | .iadds f => execIadds f s
  | .isubs f => execIsubs f s
  | .lea f => execLea f s
  | .leai f => execLeai f s
  | .and f => execAnd f s
  | .andi f => execAndi f s
  | .or f => execOr f s
  | .ori f => execOri f s
  | .xor f => execXor f s
  | .xori f => execXori f s
  | .not f => execNot f s
  | .shl f => execShl f s
  | .shli f => execShli f s
  | .shr f => execShr f s
  | .shri f => execShri f s
  | .dsh f => execDsh f s
  | .bfe f => execBfe f s
  | .bfi f => execBfi f s
  | .popc f => execPopc f s
  | .clz f => execClz f s
  | .icmp f => execIcmp f s
  | .icmpi f => execIcmpi f s
  | .fcmp f => execFcmp f s
  | .plog f => execPlog f s
  | .sel f => execSel f s
  | .seli f => execSeli f s
  | .mov f => execMov f s
  | .movi f => execMovi f s
  | .movu f => execMovu f s
  | .vote f => execVote f s
  | .ballot f => execBallot f s
  | .matchT f => execMatchT f s
  | .prmt f => execPrmt f s
  | .brev f => execBrev f s
  | .fadd f => execFadd f s
  | .fsub f => execFsub f s
  | .fmul f => execFmul f s
  | .ffma f => execFfma f s
  | .fmin f => execFmin f s
  | .fmax f => execFmax f s
  | .fclamp f => execFclamp f s
  | .frcp f => execFrcp f s
  | .frsq f => execFrsq f s
  | .fex2 f => execFex2 f s
  | .flg2 f => execFlg2 f s
  | .fsin f => execFsin f s
  | .fcos f => execFcos f s
  | .fround f => execFround f s
  | .fabs f => execFabs f s
  | .fneg f => execFneg f s
  | .hadd f => execHadd f s
  | .hsub f => execHsub f s
  | .hmul f => execHmul f s
  | .hfma f => execHfma f s
  | .hmin f => execHmin f s
  | .hmax f => execHmax f s
  | .habs f => execHabs f s
  | .hneg f => execHneg f s
  | .hdot2 f => execHdot2 f s
  | .lmul f => execLmul f s
  | .ladd f => execLadd f s
  | .cvt f => execCvt f s
  | .cvtl f => execCvtl f s
  | .cvtn f => execCvtn f s
  | .cvtw f => execCvtw f s
  | .deq f => execDeq f s
  | .bdotDb4 f => execBdotDb4 f s
  | .bdotMxfp4 f => execBdotMxfp4 f s
  | .bdotTsc f => execBdotTsc f s
  | .qblk f => execQblk f s
  | .shfl f => execShfl f s
  | .shflx f => execShflx f s
  | .xbar f => execXbar f s
  | .scan f => execScan f s
  | .scanseg f => execScanseg f s
  | .reduce f => execReduce f s
  | .reduceu f => execReduceu f s
  | .xpipe f => execXpipe f s
  | .bcast f => execBcast f s
  | .ldg f => execLdg f s
  | .ldl f => execLdl f s
  | .ldx f => execLdx f s
  | .ldu f => execLdu f s
  | .ldv f => execLdv f s
  | .ldvq f => execLdvq f s
  | .prefg f => execPrefg f s
  | .stg f => execStg f s
  | .stl f => execStl f s
  | .stx f => execStx f s
  | .stv f => execStv f s
  | .atomg f => execAtomg f s
  | .atoml f => execAtoml f s
  | .atomx f => execAtomx f s
  | .redg f => execRedg f s
  | .redx f => execRedx f s
  | .casg f => execCasg f s
  | .casl f => execCasl f s
  | .casx f => execCasx f s
  | .fenceFull f => execFenceFull f s
  | .fenceAcq f => execFenceAcq f s
  | .fenceRel f => execFenceRel f s
  | .cinvL1 f => execCinvL1 f s
  | .cinvLine f => execCinvLine f s
  | .cinvCode f => execCinvCode f s
  | .monarm f => execMonarm f s
  | .monwait f => execMonwait f s
  | .tiledef f => execTiledef f s
  | .tilefree f => execTilefree f s
  | .tilest f => execTilest f s
  | .tilesetFill f => execTilesetFill f s
  | .tilesetReady f => execTilesetReady f s
  | .tilesetDrain f => execTilesetDrain f s
  | .tilesetEmpty f => execTilesetEmpty f s
  | .tilesetRearm f => execTilesetRearm f s
  | .permb f => execPermb f s
  | .permld f => execPermld f s
  | .permst f => execPermst f s
  | .patld f => execPatld f s
  | .patrd f => execPatrd f s
  | .cbld f => execCbld f s
  | .lscfg f => execLscfg f s
  | .lsst f => execLsst f s
  | .cpyq f => execCpyq f s
  | .qstat f => execQstat f s
  | .pushq f => execPushq f s
  | .popq f => execPopq f s
  | .qcloseOut f => execQcloseOut f s
  | .qcloseLaunch f => execQcloseLaunch f s
  | .launch f => execLaunch f s
  | .launchU f => execLaunchU f s
  | .svcS f => execSvcS f s
  | .svcP f => execSvcP f s
  | .barinit f => execBarinit f s
  | .bararrArr f => execBararrArr f s
  | .bararrTx f => execBararrTx f s
  | .bararrCpl f => execBararrCpl f s
  | .barwait f => execBarwait f s
  | .bartestPh f => execBartestPh f s
  | .bartestSt f => execBartestSt f s
  | .cbarinit f => execCbarinit f s
  | .cbararr f => execCbararr f s
  | .cbarwait f => execCbarwait f s
  | .waitc f => execWaitc f s
  | .rdcnt f => execRdcnt f s
  | .clrcnt f => execClrcnt f s
  | .tlbw f => execTlbw f s
  | .tlbinv f => execTlbinv f s
  | .walkrd f => execWalkrd f s
  | .tretRetry f => execTretRetry f s
  | .tretExit f => execTretExit f s
  | .fpop f => execFpop f s
  | .fpush f => execFpush f s
  | .ownhalt f => execOwnhalt f s
  | .sealOut f => execSealOut f s
  | .sealIn f => execSealIn f s
  | .sealSize f => execSealSize f s
  | .bra _ | .braU _ | .brx _ | .brxU _ | .call _ | .callx _ | .ret _ | .exit _ | .backoff _ | .yield _ | .syncg _
  | .trap _ | .bkpt _ | .nop _ | .mlda _ | .mma _ | .mmaConv _ | .mmas _ | .mzflush _ | .mzclr _ | .mcvt _
  | .mstore _ | .mzero _ | .mbarArr _ | .mbarWait _ | .mwaitt _ | .mfence _ | .mend _ | .clause _ | .rep _ _
  | .repRepetition _ _ | .pair _ _ | .longLatencyComplete _ | .quantumEnd _ | .backoffExpire _ | .groupRetire _
  | .completionNotify _ | .handlerStart _ _ _ | .walkWindowEnd _ | .swapOut _ _ | .defReplenish _
  | .teamPlace _ _ _ | .teamReenter _ _ | .stageComplete _ _ | .stallEnlarge _ | .commandStart _ | .packetCopy _
  | .packetGather _ | .packetQuantise _ | .packetReduceAdd _ | .packetScrub _ | .packetMigrate _ | .packetDecode _
  | .copyIteration _ | .commandComplete _ | .reduceAddDelivery _ | .qcbResume _ | .qcbAbandon _ | .engineReset _
  | .engineResetEnd _ | .parkedWake _ | .cometForm _ _ | .cometReenter _ _ | .monitorWake _ | .monwaitTimeout _
  | .monitorLost _ | .debugHit _ | .operationAbandon _ _ | .sealContext _ | .restore _ _ | .preempt _ _
  | .sealEvictRequest _ | .sealBringinRequest _ _ | .ownerHalt _ | .driverHalt _ | .ownerResume _
  | .ownerCreate _ _ _ | .ownerDestroy _ | .erasureEnd _ | .worldChange _ _ | .allotMapWrite _ _ _
  | .qbindWrite _ _ | .sringWrite _ _ | .umaskWrite _ _ _ | .fwinWrite _ _ _ | .claimWrite _ _ | .dbgWrite _ _ _
  | .ownerParamWrite _ _ _ | .deviceCounterClear _ | .attestReport _ _ | .scEventComplete _ | .scEventForward _
  | .claimTimerExpire _ | .hostEventAck _ | .hostWindowWrite _ _ | .hostLaunchRecord _ | .hostItemsRecord _
  | .hostCloseRecord _ | .hostMemRead _ | .hostMemWrite _ _ | .backInvalidateComplete _ | .peerAccess _ _
  | .switchReleaseAck _ _ | .linkReplay _ _ | .linkRetrain _ | .linkDown _ | .expanderDown _ | .hostLinkRetrain
  | .hbmRateSwitch _ _ | .rowHammerLimit _ _ | .rowRefresh _ | .hbmChannelReset _ | .serviceCoreReset _
  | .coreWatchdog _ | .tc0ShareWindow | .thermalStepDown _ _ | .thermalStepUp _ _ | .thermalTrip _ _ | .powerGood
  | .powerLoss | .matrixWordComplete _ | .storePerformed _ | .serviceCoreAccess _ _ | .linkRetrained _
  | .recoveryWindowWrite _ => .next s

/-- The state of a repetition's answer: no word of a program stops the machine. -/
def Answer.stateOr (a : Answer) (s : State) : State :=
  match a with
  | .next t => t
  | .fault _ => s
  | .refused _ => s

/-! ### Charges (R49, R173, R304, R349) -/

/-- An issue of a run of m threads charged: DEF (a 24-bit number, which stays at its least), WALKISSUE and the window's budget in
a handler group, and PERF[0] and PERF[1] (log 42, DESIGN CHOICE). -/
def State.charge (s : State) (g m : Nat) : State :=
  let x := s.group g
  let core := g / 512
  let s1 := s.updCore core (fun c => { c.updSlot x.owner (fun sl => { sl with deficit := max (sl.deficit - m) (-(2 ^ 23)) }) with
    walks := if x.hdepth = 0 then c.walks else
      let w := Tab.getD c.walks {} x.owner
      Tab.put c.walks x.owner { w with used := w.used + m }
    readySince := none })
  let s2 := if x.hdepth = 0 then s1 else s1.updOwner x.owner (fun o => { o with walkissue := satInc64 o.walkissue m })
  let s3 := match x.team with
    | some t => s2.updTeam t (fun t => { t with lastIssue := s.now })
    | none => s2
  (s3.countPerf core x.owner 0 m).countPerf core x.owner 1 1

/-! ### The sequence -/

/-- Threads that have left a sequence: the flag of the word settles, or the wait outside a clause begins (R44, R50). -/
def State.leaveRep (s : State) (g : Nat) (lanes : List Nat) : State :=
  lanes.foldl (fun acc l => acc.settle (tkey g l) (acc.thread (tkey g l)).nextFlag) s

/-- A sequence counted once for laps and quanta, at its end (R49, R128): one that a seal interrupts counts when it ends. -/
def State.countRep (s : State) (g key : Nat) : State :=
  (s.updGroup g (Group.countIssue (s.owner (s.group g).owner) key)).endQuantum g

/-- The end of a sequence for the threads still in it (R49, R44): REPIX is 0 again and PC passes both words. -/
def State.finishRep (s : State) (g : Nat) (site : Site) (key : Nat) (lanes : List Nat) : State :=
  let s1 := s.updGroup g (fun x => { x with rep := none })
  let uid := (s.group g).uid
  (lanes.foldl (fun acc l =>
    let k := tkey g l
    let flag := (acc.thread k).nextFlag
    let busy := acc.ops.any (fun o => o.isLong && o.ofThread uid l && (o.flagFor l).isNone)
    let acc1 := acc.updThread k (fun t =>
      { t with repix := 0, pc := t.pc + 16, st := if t.clause.isNone ∧ busy then .waitOp else t.st }.passWords site 2)
    if flag.isSome then acc1.settle k flag else acc1) s1).countRep g key

/-- The threads of a sequence that are ready; the others leave it, and a sequence without threads ends. -/
def State.trimRep (s : State) (g : Nat) (c : RepCtx) : State × List Nat :=
  let ready := c.lanes.filter (fun l => (s.thread (tkey g l)).st == .ready)
  let gone := c.lanes.filter (fun l => !ready.contains l)
  let s1 := s.updGroup g (fun x => { x with rep := if ready.isEmpty then none else some { c with lanes := ready } })
  let s2 := s1.leaveRep g gone
  (if ready.isEmpty then s2.countRep g c.key else s2, ready)

/-- The least REPIX among lanes. -/
def State.leastRepix (s : State) (g : Nat) (lanes : List Nat) (n : Nat) : Nat :=
  lanes.foldl (fun m l => min m (s.thread (tkey g l)).repix.toNat) n

/-- One repetition for the lanes that stand at it (R49): it is charged as an issue of the run, re-evaluates the predicate, and
each lane that it passes has its REPIX raised (log 8, DEDUCED). -/
def State.repetition (s : State) (g : Nat) (c : RepCtx) (ready : List Nat) (i : Nat) : State :=
  let here := ready.filter (fun l => (s.thread (tkey g l)).repix.toNat == i)
  let s1 := { s.charge g ready.length with
    cur := { core := g / 512, gslot := g % 512, lanes := here, len := 16, inRep := true } }
  match decodeF false none (bumpBody c.prefixed c.body i) with
  | some w => (repWord w s1).stateOr s1
  | none =>
    let act := s1.curKeys.filter (s1.active (rawOf c.body).guard)
    (act.foldl (fun acc k => acc.raisePc k .illop) s1).advance {} (s1.curKeys.filter (fun k => !act.contains k))

/-- The next repetition of a group's sequence, and its end once every repetition is done. -/
def State.repStep (s : State) (g : Nat) : State :=
  match (s.group g).rep with
  | none => s
  | some c =>
    let count := c.prefixed.count.toNat
    let site := siteOp (rawOf c.body).op.toNat
    let (s1, ready) := s.trimRep g c
    let i := s1.leastRepix g ready count
    if ready.isEmpty then s1
    else if count ≤ i then s1.finishRep g site c.key ready
    else
      let (s2, left) := (s1.repetition g c ready i).trimRep g { c with lanes := ready }
      if !left.isEmpty ∧ count ≤ s2.leastRepix g left count then s2.finishRep g site c.key left else s2

/-- REP (R49, R50, R52): with count 0 every thread of the run passes both words, and since W is not examined the clause position keeps
its flags (log 8, DEDUCED); otherwise the checks are made for the active threads that are not resuming, and the run's other threads
and those that pass begin the sequence. Threads whose flag is busy stay at the word (R44). -/
def execRep (p : RepPrefix) (body : DWord) (s : State) : Answer :=
  let keys := s.curKeys
  let key := (s.thread (keys.headD 0)).key
  let A := (s.group s.curG).allot
  if p.count = 0 then
    let bad := keys.filter (fun k => !placeOk {} 2 (s.thread k).clause)
    let s1 := bad.foldl (fun acc k => acc.raisePc k .illop) s
    .next (s1.advance {} (keys.filter (fun k => !bad.contains k)))
  else
    let r := rawOf body
    let site := siteOp r.op.toNat
    let act := keys.filter (s.active r.guard)
    let illop (k : Nat) : Bool :=
      !(depthOp r.op.toNat).ok (s.group s.curG).hdepth || !placeOk site 2 (s.thread k).clause
    let illopd (k : Nat) : Bool := (s.thread k).repix == 0 && !repBounds p body (s.thread k).winbase A
    let bad1 := act.filter illop
    let bad2 := act.filter (fun k => !illop k && illopd k)
    let busy := act.filter (fun k => site.long && (s.thread k).flagBusy)
    let seq := keys.filter (fun k => !(bad1.contains k || bad2.contains k || busy.contains k))
    let s1 := bad1.foldl (fun acc k => acc.raisePc k .illop) s
    let s2 := bad2.foldl (fun acc k => acc.raisePc k .illopd) s1
    if seq.isEmpty then .next (s2.countRep s.curG key)
    else
      .next ((s2.updGroup s.curG (fun x => { x with rep := some { lanes := seq.map (· % 32), prefixed := p, body, key } })).repStep s.curG)

/-- REP_REPETITION (R49): the next repetition of the sequence of a group. -/
def execRepRepetition (core gslot : Nat) (s : State) : Answer := .next (s.repStep (gkey core gslot))

end Sys2Proof.Machine
end

