-- ==== Sys2Proof/Machine/Dispatch.lean ====
section
/-! DEFINITION. Each instruction's meaning, one arm per constructor. -/

namespace Sys2Proof.Machine

def exec (i : Instr) (s : State) : Host.Outcome State Fault Refusal :=
  match i with
  | .iadd f => Sys2Proof.Machine.execIadd f s
  | .iaddi f => Sys2Proof.Machine.execIaddi f s
  | .isub f => Sys2Proof.Machine.execIsub f s
  | .irsbi f => Sys2Proof.Machine.execIrsbi f s
  | .imul f => Sys2Proof.Machine.execImul f s
  | .imuli f => Sys2Proof.Machine.execImuli f s
  | .imulhi f => Sys2Proof.Machine.execImulhi f s
  | .imad f => Sys2Proof.Machine.execImad f s
  | .imadw f => Sys2Proof.Machine.execImadw f s
  | .imin f => Sys2Proof.Machine.execImin f s
  | .imax f => Sys2Proof.Machine.execImax f s
  | .iabs f => Sys2Proof.Machine.execIabs f s
  | .iadds f => Sys2Proof.Machine.execIadds f s
  | .isubs f => Sys2Proof.Machine.execIsubs f s
  | .lea f => Sys2Proof.Machine.execLea f s
  | .leai f => Sys2Proof.Machine.execLeai f s
  | .and f => Sys2Proof.Machine.execAnd f s
  | .andi f => Sys2Proof.Machine.execAndi f s
  | .or f => Sys2Proof.Machine.execOr f s
  | .ori f => Sys2Proof.Machine.execOri f s
  | .xor f => Sys2Proof.Machine.execXor f s
  | .xori f => Sys2Proof.Machine.execXori f s
  | .not f => Sys2Proof.Machine.execNot f s
  | .shl f => Sys2Proof.Machine.execShl f s
  | .shli f => Sys2Proof.Machine.execShli f s
  | .shr f => Sys2Proof.Machine.execShr f s
  | .shri f => Sys2Proof.Machine.execShri f s
  | .dsh f => Sys2Proof.Machine.execDsh f s
  | .bfe f => Sys2Proof.Machine.execBfe f s
  | .bfi f => Sys2Proof.Machine.execBfi f s
  | .popc f => Sys2Proof.Machine.execPopc f s
  | .clz f => Sys2Proof.Machine.execClz f s
  | .icmp f => Sys2Proof.Machine.execIcmp f s
  | .icmpi f => Sys2Proof.Machine.execIcmpi f s
  | .fcmp f => Sys2Proof.Machine.execFcmp f s
  | .plog f => Sys2Proof.Machine.execPlog f s
  | .sel f => Sys2Proof.Machine.execSel f s
  | .seli f => Sys2Proof.Machine.execSeli f s
  | .mov f => Sys2Proof.Machine.execMov f s
  | .movi f => Sys2Proof.Machine.execMovi f s
  | .movu f => Sys2Proof.Machine.execMovu f s
  | .vote f => Sys2Proof.Machine.execVote f s
  | .ballot f => Sys2Proof.Machine.execBallot f s
  | .matchT f => Sys2Proof.Machine.execMatchT f s
  | .prmt f => Sys2Proof.Machine.execPrmt f s
  | .brev f => Sys2Proof.Machine.execBrev f s
  | .fadd f => Sys2Proof.Machine.execFadd f s
  | .fsub f => Sys2Proof.Machine.execFsub f s
  | .fmul f => Sys2Proof.Machine.execFmul f s
  | .ffma f => Sys2Proof.Machine.execFfma f s
  | .fmin f => Sys2Proof.Machine.execFmin f s
  | .fmax f => Sys2Proof.Machine.execFmax f s
  | .fclamp f => Sys2Proof.Machine.execFclamp f s
  | .frcp f => Sys2Proof.Machine.execFrcp f s
  | .frsq f => Sys2Proof.Machine.execFrsq f s
  | .fex2 f => Sys2Proof.Machine.execFex2 f s
  | .flg2 f => Sys2Proof.Machine.execFlg2 f s
  | .fsin f => Sys2Proof.Machine.execFsin f s
  | .fcos f => Sys2Proof.Machine.execFcos f s
  | .fround f => Sys2Proof.Machine.execFround f s
  | .fabs f => Sys2Proof.Machine.execFabs f s
  | .fneg f => Sys2Proof.Machine.execFneg f s
  | .hadd f => Sys2Proof.Machine.execHadd f s
  | .hsub f => Sys2Proof.Machine.execHsub f s
  | .hmul f => Sys2Proof.Machine.execHmul f s
  | .hfma f => Sys2Proof.Machine.execHfma f s
  | .hmin f => Sys2Proof.Machine.execHmin f s
  | .hmax f => Sys2Proof.Machine.execHmax f s
  | .habs f => Sys2Proof.Machine.execHabs f s
  | .hneg f => Sys2Proof.Machine.execHneg f s
  | .hdot2 f => Sys2Proof.Machine.execHdot2 f s
  | .lmul f => Sys2Proof.Machine.execLmul f s
  | .ladd f => Sys2Proof.Machine.execLadd f s
  | .cvt f => Sys2Proof.Machine.execCvt f s
  | .cvtl f => Sys2Proof.Machine.execCvtl f s
  | .cvtn f => Sys2Proof.Machine.execCvtn f s
  | .cvtw f => Sys2Proof.Machine.execCvtw f s
  | .deq f => Sys2Proof.Machine.execDeq f s
  | .bdotDb4 f => Sys2Proof.Machine.execBdotDb4 f s
  | .bdotMxfp4 f => Sys2Proof.Machine.execBdotMxfp4 f s
  | .bdotTsc f => Sys2Proof.Machine.execBdotTsc f s
  | .qblk f => Sys2Proof.Machine.execQblk f s
  | .shfl f => Sys2Proof.Machine.execShfl f s
  | .shflx f => Sys2Proof.Machine.execShflx f s
  | .xbar f => Sys2Proof.Machine.execXbar f s
  | .scan f => Sys2Proof.Machine.execScan f s
  | .scanseg f => Sys2Proof.Machine.execScanseg f s
  | .reduce f => Sys2Proof.Machine.execReduce f s
  | .reduceu f => Sys2Proof.Machine.execReduceu f s
  | .xpipe f => Sys2Proof.Machine.execXpipe f s
  | .bcast f => Sys2Proof.Machine.execBcast f s
  | .bra f => Sys2Proof.Machine.execBra f s
  | .braU f => Sys2Proof.Machine.execBraU f s
  | .brx f => Sys2Proof.Machine.execBrx f s
  | .brxU f => Sys2Proof.Machine.execBrxU f s
  | .call f => Sys2Proof.Machine.execCall f s
  | .callx f => Sys2Proof.Machine.execCallx f s
  | .ret f => Sys2Proof.Machine.execRet f s
  | .exit f => Sys2Proof.Machine.execExit f s
  | .backoff f => Sys2Proof.Machine.execBackoff f s
  | .yield f => Sys2Proof.Machine.execYield f s
  | .syncg f => Sys2Proof.Machine.execSyncg f s
  | .trap f => Sys2Proof.Machine.execTrap f s
  | .bkpt f => Sys2Proof.Machine.execBkpt f s
  | .nop f => Sys2Proof.Machine.execNop f s
  | .ldg f => Sys2Proof.Machine.execLdg f s
  | .ldl f => Sys2Proof.Machine.execLdl f s
  | .ldx f => Sys2Proof.Machine.execLdx f s
  | .ldu f => Sys2Proof.Machine.execLdu f s
  | .ldv f => Sys2Proof.Machine.execLdv f s
  | .ldvq f => Sys2Proof.Machine.execLdvq f s
  | .prefg f => Sys2Proof.Machine.execPrefg f s
  | .stg f => Sys2Proof.Machine.execStg f s
  | .stl f => Sys2Proof.Machine.execStl f s
  | .stx f => Sys2Proof.Machine.execStx f s
  | .stv f => Sys2Proof.Machine.execStv f s
  | .atomg f => Sys2Proof.Machine.execAtomg f s
  | .atoml f => Sys2Proof.Machine.execAtoml f s
  | .atomx f => Sys2Proof.Machine.execAtomx f s
  | .redg f => Sys2Proof.Machine.execRedg f s
  | .redx f => Sys2Proof.Machine.execRedx f s
  | .casg f => Sys2Proof.Machine.execCasg f s
  | .casl f => Sys2Proof.Machine.execCasl f s
  | .casx f => Sys2Proof.Machine.execCasx f s
  | .fenceFull f => Sys2Proof.Machine.execFenceFull f s
  | .fenceAcq f => Sys2Proof.Machine.execFenceAcq f s
  | .fenceRel f => Sys2Proof.Machine.execFenceRel f s
  | .cinvL1 f => Sys2Proof.Machine.execCinvL1 f s
  | .cinvLine f => Sys2Proof.Machine.execCinvLine f s
  | .cinvCode f => Sys2Proof.Machine.execCinvCode f s
  | .monarm f => Sys2Proof.Machine.execMonarm f s
  | .monwait f => Sys2Proof.Machine.execMonwait f s
  | .tiledef f => Sys2Proof.Machine.execTiledef f s
  | .tilefree f => Sys2Proof.Machine.execTilefree f s
  | .tilest f => Sys2Proof.Machine.execTilest f s
  | .tilesetFill f => Sys2Proof.Machine.execTilesetFill f s
  | .tilesetReady f => Sys2Proof.Machine.execTilesetReady f s
  | .tilesetDrain f => Sys2Proof.Machine.execTilesetDrain f s
  | .tilesetEmpty f => Sys2Proof.Machine.execTilesetEmpty f s
  | .tilesetRearm f => Sys2Proof.Machine.execTilesetRearm f s
  | .permb f => Sys2Proof.Machine.execPermb f s
  | .permld f => Sys2Proof.Machine.execPermld f s
  | .permst f => Sys2Proof.Machine.execPermst f s
  | .patld f => Sys2Proof.Machine.execPatld f s
  | .patrd f => Sys2Proof.Machine.execPatrd f s
  | .cbld f => Sys2Proof.Machine.execCbld f s
  | .lscfg f => Sys2Proof.Machine.execLscfg f s
  | .lsst f => Sys2Proof.Machine.execLsst f s
  | .mlda z => Sys2Proof.Machine.execMlda z s
  | .mma z => Sys2Proof.Machine.execMma z s
  | .mmaConv z => Sys2Proof.Machine.execMmaConv z s
  | .mmas z => Sys2Proof.Machine.execMmas z s
  | .mzflush z => Sys2Proof.Machine.execMzflush z s
  | .mzclr z => Sys2Proof.Machine.execMzclr z s
  | .mcvt z => Sys2Proof.Machine.execMcvt z s
  | .mstore z => Sys2Proof.Machine.execMstore z s
  | .mzero z => Sys2Proof.Machine.execMzero z s
  | .mbarArr z => Sys2Proof.Machine.execMbarArr z s
  | .mbarWait z => Sys2Proof.Machine.execMbarWait z s
  | .mwaitt z => Sys2Proof.Machine.execMwaitt z s
  | .mfence z => Sys2Proof.Machine.execMfence z s
  | .mend z => Sys2Proof.Machine.execMend z s
  | .cpyq f => Sys2Proof.Machine.execCpyq f s
  | .qstat f => Sys2Proof.Machine.execQstat f s
  | .pushq f => Sys2Proof.Machine.execPushq f s
  | .popq f => Sys2Proof.Machine.execPopq f s
  | .qcloseOut f => Sys2Proof.Machine.execQcloseOut f s
  | .qcloseLaunch f => Sys2Proof.Machine.execQcloseLaunch f s
  | .launch f => Sys2Proof.Machine.execLaunch f s
  | .launchU f => Sys2Proof.Machine.execLaunchU f s
  | .svcS f => Sys2Proof.Machine.execSvcS f s
  | .svcP f => Sys2Proof.Machine.execSvcP f s
  | .barinit f => Sys2Proof.Machine.execBarinit f s
  | .bararrArr f => Sys2Proof.Machine.execBararrArr f s
  | .bararrTx f => Sys2Proof.Machine.execBararrTx f s
  | .bararrCpl f => Sys2Proof.Machine.execBararrCpl f s
  | .barwait f => Sys2Proof.Machine.execBarwait f s
  | .bartestPh f => Sys2Proof.Machine.execBartestPh f s
  | .bartestSt f => Sys2Proof.Machine.execBartestSt f s
  | .cbarinit f => Sys2Proof.Machine.execCbarinit f s
  | .cbararr f => Sys2Proof.Machine.execCbararr f s
  | .cbarwait f => Sys2Proof.Machine.execCbarwait f s
  | .waitc f => Sys2Proof.Machine.execWaitc f s
  | .rdcnt f => Sys2Proof.Machine.execRdcnt f s
  | .clrcnt f => Sys2Proof.Machine.execClrcnt f s
  | .tlbw f => Sys2Proof.Machine.execTlbw f s
  | .tlbinv f => Sys2Proof.Machine.execTlbinv f s
  | .walkrd f => Sys2Proof.Machine.execWalkrd f s
  | .tretRetry f => Sys2Proof.Machine.execTretRetry f s
  | .tretExit f => Sys2Proof.Machine.execTretExit f s
  | .fpop f => Sys2Proof.Machine.execFpop f s
  | .fpush f => Sys2Proof.Machine.execFpush f s
  | .ownhalt f => Sys2Proof.Machine.execOwnhalt f s
  | .sealOut f => Sys2Proof.Machine.execSealOut f s
  | .sealIn f => Sys2Proof.Machine.execSealIn f s
  | .sealSize f => Sys2Proof.Machine.execSealSize f s
  | .clause h => Sys2Proof.Machine.execClause h s
  | .rep p body => Sys2Proof.Machine.execRep p body s
  | .repRepetition core gslot => Sys2Proof.Machine.execRepRepetition core gslot s
  | .pair h1 h0 => Sys2Proof.Machine.execPair h1 h0 s
  | .longLatencyComplete op => Sys2Proof.Machine.execLongLatencyComplete op s
  | .quantumEnd group => Sys2Proof.Machine.execQuantumEnd group s
  | .backoffExpire thread => Sys2Proof.Machine.execBackoffExpire thread s
  | .groupRetire group => Sys2Proof.Machine.execGroupRetire group s
  | .completionNotify note => Sys2Proof.Machine.execCompletionNotify note s
  | .handlerStart core owner depth => Sys2Proof.Machine.execHandlerStart core owner depth s
  | .walkWindowEnd core => Sys2Proof.Machine.execWalkWindowEnd core s
  | .swapOut core tslot => Sys2Proof.Machine.execSwapOut core tslot s
  | .defReplenish core => Sys2Proof.Machine.execDefReplenish core s
  | .teamPlace launch stage seats => Sys2Proof.Machine.execTeamPlace launch stage seats s
  | .teamReenter ctx seats => Sys2Proof.Machine.execTeamReenter ctx seats s
  | .stageComplete launch stage => Sys2Proof.Machine.execStageComplete launch stage s
  | .stallEnlarge owner => Sys2Proof.Machine.execStallEnlarge owner s
  | .commandStart q => Sys2Proof.Machine.execCommandStart q s
  | .packetCopy q => Sys2Proof.Machine.execPacketCopy q s
  | .packetGather q => Sys2Proof.Machine.execPacketGather q s
  | .packetQuantise q => Sys2Proof.Machine.execPacketQuantise q s
  | .packetReduceAdd q => Sys2Proof.Machine.execPacketReduceAdd q s
  | .packetScrub q => Sys2Proof.Machine.execPacketScrub q s
  | .packetMigrate q => Sys2Proof.Machine.execPacketMigrate q s
  | .packetDecode q => Sys2Proof.Machine.execPacketDecode q s
  | .copyIteration q => Sys2Proof.Machine.execCopyIteration q s
  | .commandComplete q => Sys2Proof.Machine.execCommandComplete q s
  | .reduceAddDelivery delivery => Sys2Proof.Machine.execReduceAddDelivery delivery s
  | .qcbResume q => Sys2Proof.Machine.execQcbResume q s
  | .qcbAbandon q => Sys2Proof.Machine.execQcbAbandon q s
  | .engineReset engine => Sys2Proof.Machine.execEngineReset engine s
  | .engineResetEnd engine => Sys2Proof.Machine.execEngineResetEnd engine s
  | .parkedWake thread => Sys2Proof.Machine.execParkedWake thread s
  | .cometForm group frame => Sys2Proof.Machine.execCometForm group frame s
  | .cometReenter comet gslot => Sys2Proof.Machine.execCometReenter comet gslot s
  | .monitorWake thread => Sys2Proof.Machine.execMonitorWake thread s
  | .monwaitTimeout thread => Sys2Proof.Machine.execMonwaitTimeout thread s
  | .monitorLost thread => Sys2Proof.Machine.execMonitorLost thread s
  | .debugHit hit => Sys2Proof.Machine.execDebugHit hit s
  | .operationAbandon op writes => Sys2Proof.Machine.execOperationAbandon op writes s
  | .sealContext teams => Sys2Proof.Machine.execSealContext teams s
  | .restore ctx seats => Sys2Proof.Machine.execRestore ctx seats s
  | .preempt core tslot => Sys2Proof.Machine.execPreempt core tslot s
  | .sealEvictRequest owner => Sys2Proof.Machine.execSealEvictRequest owner s
  | .sealBringinRequest ctx core => Sys2Proof.Machine.execSealBringinRequest ctx core s
  | .ownerHalt owner => Sys2Proof.Machine.execOwnerHalt owner s
  | .driverHalt owner => Sys2Proof.Machine.execDriverHalt owner s
  | .ownerResume owner => Sys2Proof.Machine.execOwnerResume owner s
  | .ownerCreate owner world reserve => Sys2Proof.Machine.execOwnerCreate owner world reserve s
  | .ownerDestroy owner => Sys2Proof.Machine.execOwnerDestroy owner s
  | .erasureEnd owner => Sys2Proof.Machine.execErasureEnd owner s
  | .worldChange core world => Sys2Proof.Machine.execWorldChange core world s
  | .allotMapWrite owner index entry => Sys2Proof.Machine.execAllotMapWrite owner index entry s
  | .qbindWrite q entry => Sys2Proof.Machine.execQbindWrite q entry s
  | .sringWrite owner entry => Sys2Proof.Machine.execSringWrite owner entry s
  | .umaskWrite slice world ways => Sys2Proof.Machine.execUmaskWrite slice world ways s
  | .fwinWrite slice index entry => Sys2Proof.Machine.execFwinWrite slice index entry s
  | .claimWrite source entry => Sys2Proof.Machine.execClaimWrite source entry s
  | .dbgWrite owner index cmp => Sys2Proof.Machine.execDbgWrite owner index cmp s
  | .ownerParamWrite param owner value => Sys2Proof.Machine.execOwnerParamWrite param owner value s
  | .deviceCounterClear counter => Sys2Proof.Machine.execDeviceCounterClear counter s
  | .attestReport owner nonce => Sys2Proof.Machine.execAttestReport owner nonce s
  | .scEventComplete event => Sys2Proof.Machine.execScEventComplete event s
  | .scEventForward event => Sys2Proof.Machine.execScEventForward event s
  | .claimTimerExpire event => Sys2Proof.Machine.execClaimTimerExpire event s
  | .hostEventAck event => Sys2Proof.Machine.execHostEventAck event s
  | .hostWindowWrite offset data => Sys2Proof.Machine.execHostWindowWrite offset data s
  | .hostLaunchRecord owner => Sys2Proof.Machine.execHostLaunchRecord owner s
  | .hostItemsRecord owner => Sys2Proof.Machine.execHostItemsRecord owner s
  | .hostCloseRecord owner => Sys2Proof.Machine.execHostCloseRecord owner s
  | .hostMemRead dpa => Sys2Proof.Machine.execHostMemRead dpa s
  | .hostMemWrite dpa data => Sys2Proof.Machine.execHostMemWrite dpa data s
  | .backInvalidateComplete line => Sys2Proof.Machine.execBackInvalidateComplete line s
  | .peerAccess peer access => Sys2Proof.Machine.execPeerAccess peer access s
  | .switchReleaseAck switch source => Sys2Proof.Machine.execSwitchReleaseAck switch source s
  | .linkReplay link owner => Sys2Proof.Machine.execLinkReplay link owner s
  | .linkRetrain link => Sys2Proof.Machine.execLinkRetrain link s
  | .linkDown link => Sys2Proof.Machine.execLinkDown link s
  | .expanderDown port => Sys2Proof.Machine.execExpanderDown port s
  | .hostLinkRetrain => Sys2Proof.Machine.execHostLinkRetrain s
  | .hbmRateSwitch channel rate => Sys2Proof.Machine.execHbmRateSwitch channel rate s
  | .rowHammerLimit row counts => Sys2Proof.Machine.execRowHammerLimit row counts s
  | .rowRefresh row => Sys2Proof.Machine.execRowRefresh row s
  | .hbmChannelReset channel => Sys2Proof.Machine.execHbmChannelReset channel s
  | .serviceCoreReset sc => Sys2Proof.Machine.execServiceCoreReset sc s
  | .coreWatchdog core => Sys2Proof.Machine.execCoreWatchdog core s
  | .tc0ShareWindow => Sys2Proof.Machine.execTc0ShareWindow s
  | .thermalStepDown die celsius => Sys2Proof.Machine.execThermalStepDown die celsius s
  | .thermalStepUp die celsius => Sys2Proof.Machine.execThermalStepUp die celsius s
  | .thermalTrip die celsius => Sys2Proof.Machine.execThermalTrip die celsius s
  | .powerGood => Sys2Proof.Machine.execPowerGood s
  | .powerLoss => Sys2Proof.Machine.execPowerLoss s
  | .matrixWordComplete core => Sys2Proof.Machine.execMatrixWordComplete core s
  | .storePerformed op => Sys2Proof.Machine.execStorePerformed op s
  | .serviceCoreAccess sc access => Sys2Proof.Machine.execServiceCoreAccess sc access s
  | .linkRetrained link => Sys2Proof.Machine.execLinkRetrained link s
  | .recoveryWindowWrite image => Sys2Proof.Machine.execRecoveryWindowWrite image s

end Sys2Proof.Machine
end

