-- ==== Sys2Proof/Machine/Issue.lean ====
section
/-! DEFINITION. Issue: which group of a pipe may issue (R95, R173, R174, R304, R367), the choice of the run (R126), the fetch
(R25, R54, R132), the legality of the fetched word (R52, R53), and the same for a core's matrix sequencer (R245). -/

namespace Sys2Proof.Machine

/-! ### Who may issue -/

/-- The perihelion run of a group (R126): the ready threads of least key, by their keys in the thread table. Which threads are ready
depends on when each one's operation completes (log 67, DEDUCED). -/
def State.perihelion (s : State) (g : Nat) : List Nat :=
  let ready := s.readyKeys g
  match ready with
  | [] => []
  | k :: ks =>
    let least := ks.foldl (fun m j => min m (s.thread j).key) (s.thread k).key
    ready.filter (fun j => (s.thread j).key == least)

/-- The threads that a group's next issue acts for: the rest of a REP sequence, or the perihelion run. -/
def State.nextRun (s : State) (g : Nat) : List Nat :=
  match (s.group g).rep with
  | some c => c.lanes.map (tkey g)
  | none => s.perihelion g

/-- The deficit of the owner of a group on its core (R304). -/
def State.deficitOf (s : State) (g : Nat) : Int :=
  let c := s.core (g / 512)
  (((c.slotOf (s.group g).owner).bind (Tab.find c.slots)).map OwnerSlot.deficit).getD 0

/-! ### Fetch -/

/-- A word of code read for a core: what a load of the core finds, past L1 (R189, R198), by a request that L2 and the row see (R194, R201,
R349). A poisoned word, and one that the far tier fails, reads zero and is counted (R199, R203). The core holds the word from then on. -/
def State.fetchNew (s : State) (core owner : Nat) (l : Loc) : State × DWord :=
  if s.farDown l.dpa then (s.countPoison owner 1, 0)
  else
    let got := s.coreRead core l.world l.dpa 8
    let word : DWord := BitVec.ofNat 64 (leNat (got.clean l.dpa))
    ((((((s.countPerf core owner 5 1).activate owner (some core) l.dpa 8).touch l.world l.dpa 8).countPoison owner got.poison.length).updCore core
      (fun c => { c with code := c.code ++ [{ owner, dpa := l.dpa, word }] })), word)

/-- A fetched word: the core may still hold a word that it has read from the address before, and of several the one that stands first (R54). -/
def State.fetchAt (s : State) (core owner : Nat) (l : Loc) : State × DWord :=
  match (s.core core).code.find? (fun w => w.owner == owner && w.dpa == l.dpa) with
  | some w => (s, w.word)
  | none => s.fetchNew core owner l

/-- A core reads a word of a group's code before a fetch needs it: until CINV.code a fetch of the address may return it (R54). -/
def State.fetchAhead (s : State) (core gslot addr : Nat) : State :=
  match s.group? (gkey core gslot) with
  | none => s
  | some x =>
    match s.translate core x.owner (s.aspOf x) .execute (8 * addr) 8 with
    | .error _ => s
    | .ok l => (s.fetchNew core x.owner l).1

/-- Another of the words that a core holds of its addresses stands first (R54). -/
def State.turnCode (s : State) (core i : Nat) : State :=
  s.updCore core (fun c => { c with code := (c.code[i]?).toList ++ c.code.eraseIdx i })

/-- The word at an address fetched for a group, with execute permission (R162). -/
def State.fetchFor (s : State) (g pc : Nat) : Except FaultInfo (State × DWord) :=
  let x := s.group g
  match s.translate (g / 512) x.owner (s.aspOf x) .execute pc 8 with
  | .error f => .error f
  | .ok l => .ok (s.fetchAt (g / 512) x.owner l)

/-- The instruction at an address: a prefix is fetched with the word after it (R25) (log 28, DEDUCED). -/
def State.fetchInstr (s : State) (g pc : Nat) : Except FaultInfo (State × DWord × DWord) :=
  match s.fetchFor g pc with
  | .error f => .error f
  | .ok (s1, w) =>
    if isPrefix w then
      match s1.fetchFor g (pc + 8) with
      | .error f => .error f
      | .ok (s2, n) => .ok (s2, w, n)
    else .ok (s1, w, 0)

/-! ### An illegal word -/

/-- Whether a thread is active for a word that is no prefix, by its bits (R27, R36, R52). An X-form word has no predicate: where one
stands after a prefix, every thread of the run counts as active for it (log 8, DEDUCED). -/
def State.activeBits (s : State) (w : DWord) (k : Nat) : Bool :=
  match (w.extractLsb' 61 3).toNat with
  | 4 => s.active ⟨false, Fin.ofNat 8 (w.extractLsb' 53 3).toNat⟩ k || s.active ⟨false, Fin.ofNat 8 (w.extractLsb' 22 3).toNat⟩ k
  | 5 => s.active ⟨false, Fin.ofNat 8 (w.extractLsb' 53 3).toNat⟩ k || s.active ⟨false, Fin.ofNat 8 (w.extractLsb' 22 3).toNat⟩ k
  | 6 => true
  | 7 => true
  | _ => s.active (rawOf w).guard k

/-- Whether a word is a REP prefix with count 0: its word is not examined, and every thread of the run is active for it (R52). -/
def isRepZero (w : DWord) : Bool := w.extractLsb' 58 6 == 0x38 && w.extractLsb' 50 8 == 0

/-- The threads of the issuing run that are active for a word with the word after it, by their bits (R52). -/
def State.activeFor (s : State) (w next : DWord) (ks : List Nat) : List Nat :=
  if isRepZero w then ks else ks.filter (s.activeBits (if isPrefix w then next else w))

/-- The site of a word by its bits: that of the word that a prefix stands before, and none where that is not examined (R49). -/
def siteBits (w next : DWord) : Site :=
  let body := if isPrefix w then next else w
  if isRepZero w || body.getLsbD 63 then {} else siteOp (rawOf body).op.toNat

/-- An illegal word (R52, R53): ILLOP for each thread of the run that is active for it, a prefix under its word's predicate; for
the others it is a no-operation. -/
def State.illegal (s : State) (w next : DWord) : State :=
  let act := s.activeFor w next s.curKeys
  (act.foldl (fun acc k => acc.raisePc k .illop) s).advance (siteBits w next).off (s.curKeys.filter (fun k => !act.contains k))

/-! ### Grants (R95, R173, R304) -/

/-- The other group of a group's pipe: pipe p holds group slots p and p + 256 (log 26, DEDUCED). -/
def pipeMate (g : Nat) : Nat := if g % 512 < 256 then g + 256 else g - 256

/-- Whether an instruction is a clause header. -/
def isHeader (i : Instr) : Bool := match i with | .clause _ => true | _ => false

/-- Whether a word is a clause header, which needs no grant and costs no issue slot (R42). -/
def isHeaderWord (w next : DWord) : Bool := (decodeWords false w next).any (fun r => isHeader r.1)

/-- Whether a run waits before its long-latency word: a flag that the word sets for a thread active for it is still set (R44). -/
def State.longWaits (s : State) (run : List Nat) (w next : DWord) : Bool :=
  (siteBits w next).long && (s.activeFor w next run).any (fun k => (s.thread k).flagBusy)

/-- Whether a run need not wait at its word: at a clause header a thread of it finds its masked flags clear, and before another word no flag
that the word sets is still set (R42, R44, R95). -/
def State.wordFree (s : State) (run : List Nat) (w next : DWord) : Bool :=
  match decodeWords false w next with
  | some (.clause h, _) => run.any (fun k => (s.thread k).flags &&& h.wait == 0)
  | _ => !s.longWaits run w next

/-- Whether a group has a word to issue: the next repetition of its sequence, or a word that waits for no flag. -/
def State.hasWord (s : State) (g : Nat) : Bool :=
  s.groupIssues g && !(s.nextRun g).isEmpty &&
    ((s.group g).rep.isSome ||
     (match s.fetchInstr g (s.thread ((s.nextRun g).headD 0)).pc.toNat with
      | .error _ => false
      | .ok (_, w, next) => s.wordFree (s.nextRun g) w next))

/-- Whether a deeper handler group of a group's owner has a word to issue on the core: it issues before the group (R173). -/
def State.outrun (s : State) (g : Nat) : Bool :=
  let x := s.group g
  s.groups.any (fun e => e.1 / 512 == g / 512 && e.2.owner == x.owner && x.hdepth < e.2.hdepth && s.hasWord e.1)

/-- Whether a group requests a collector entry for its head instruction (R95). -/
def State.requests (s : State) (g : Nat) : Bool := s.hasWord g && !s.outrun g

/-- The ac in which a group's head instruction became eligible is kept while the group requests an entry for it (R95). -/
def State.markEligible (s : State) (g : Nat) : State :=
  let key := (s.thread ((s.nextRun g).headD 0)).key
  let kept := (s.group g).eligible.filter (fun e => e.1 == key)
  if (s.group? g).isNone then s
  else s.updGroup g (fun x => { x with eligible := if s.requests g then some (kept.getD (key, s.now)) else none })

/-- Whether a group is granted a contested issue against the other group of its pipe: after two losses it wins the next; else the larger
deficit wins, on a tie the older head instruction, and then the group in pipe slot 0 (R95, R304). -/
def State.granted (s : State) (g m : Nat) : Bool :=
  let x := s.group g
  let y := s.group m
  let dx := s.deficitOf g
  let dy := s.deficitOf m
  let ax := (x.eligible.map (·.2)).getD s.now
  let ay := (y.eligible.map (·.2)).getD s.now
  2 ≤ x.lost || (y.lost < 2 && (dy < dx || (dy == dx && (ax < ay || (ax == ay && g % 512 < 256)))))

/-- A grant recorded: the winner's losses start again, and its next head instruction is a new one. -/
def State.recordGrant (s : State) (g : Nat) : State := s.updGroup g (fun x => { x with lost := 0, eligible := none })

/-- A group's request for its pipe: it is granted where the other group requests nothing or loses. -/
def State.contest (s : State) (g : Nat) (go : State → Answer) : Answer :=
  let m := pipeMate g
  let s1 := s.markEligible m
  if s.outrun g then .next s
  else if (s1.group m).eligible.isNone then go (s1.recordGrant g)
  else
    let s2 := s1.markEligible g
    if s2.granted g m then go ((s2.recordGrant g).updGroup m (fun x => { x with lost := x.lost + 1 })) else .next s2

/-! ### An issue -/

/-- A state's answer changed. -/
def after (a : Answer) (f : State → State) : Answer :=
  match a with
  | .next s => .next (f s)
  | .fault r => .fault r
  | .refused r => .refused r

/-- Whether an instruction takes an issue slot of its own: a clause header takes none (R42), and of a REP sequence each
repetition takes one, so that one of count 0 takes none (R49). -/
def takesSlot : Instr → Bool
  | .clause _ => false
  | .rep _ _ => false
  | _ => true

/-- Whether an instruction counts for laps and quanta as it issues: a header costs no issue slot (R42), and a REP sequence counts at its end
(R49, R128). -/
def countsOrbit : Instr → Bool
  | .clause _ => false
  | .rep p _ => p.count == 0
  | _ => true

/-- The issuing run, with its instruction's length: what `exec` acts on. A word that takes an issue slot is charged; one that counts for
laps and quanta does so under the owner's present LAPQ and QUANT, and reads the lap count before it (R128, R129). -/
def State.begin (s : State) (g : Nat) (run : List Nat) (len : Nat) (slot counts : Bool) : State :=
  let x := s.group g
  let o := s.owner x.owner
  let key := (s.thread (run.headD 0)).key
  let s0 := s.endRewrites (g / 512) x.uid
  let s1 := if counts then s0.updGroup g (Group.countIssue o key) else s0
  { (if slot then s1.charge g run.length else s1) with
    cur := { core := g / 512, gslot := g % 512, lanes := run.map (· % 32), len, lap := some x.orbit.lapcnt } }

/-- A core's miss table without some of its waiting threads; a record that is left without a waiter goes. -/
def Core.dropWaiters (c : Core) (mine : Waiter → Bool) : Core :=
  { c with
    recs := c.recs.filterMap (fun e =>
      let ws := e.2.waiters.filter (fun w => !mine w)
      if !e.2.waiters.any mine then some e
      else if ws.isEmpty ∧ e.2.seqTeams.isEmpty then none
      else some (e.1, { e.2 with waiters := ws, nwait := min (ws.length + e.2.seqTeams.length) 16383 }))
    recWaits := c.recWaits.filter (fun w => w.seq || !mine w.waiter) }

/-- The faulting threads of one run take their records in ascending idx, whatever the check that each failed (R358). -/
def State.orderFaults (g : Nat) (lanes : List Nat) (s : State) : State :=
  let uid := (s.group g).uid
  let ks := (lanes.map (tkey g)).filter (fun k => (s.thread k).st == .waitHandler && s.holdsRecord k)
  if ks.length ≤ 1 then s
  else ks.foldl State.recordAgain (s.updCore (g / 512) (fun c => c.dropWaiters (fun w => w.uid == uid && ks.contains (tkey g w.lane))))

/-- What follows an issue: the records of its faults stand in order, the threads that issued (of a REP, those at its repetition) have looked
up the entries held for them (R164), and a quantum may end (R128), but not within a REP sequence. -/
def State.finishIssue (g : Nat) (lanes : List Nat) (s : State) : State :=
  let s1 := (s.orderFaults g lanes).lookedUp g (if s.cur.inRep then s.cur.lanes else lanes)
  if (s1.group g).rep.isSome then s1 else s1.endQuantum g

/-- A fetched word issued for a run. -/
def State.issueWord (s : State) (g : Nat) (run : List Nat) (w next : DWord) : Answer :=
  let len := if isPrefix w then 16 else 8
  let lanes := run.map (· % 32)
  match decodeWords false w next with
  | none => .next (((s.begin g run len true true).illegal w next).finishIssue g lanes)
  | some (i, _) => after (exec i (s.begin g run len (takesSlot i) (countsOrbit i))) (State.finishIssue g lanes)

/-- The word at a run's PC fetched and issued: a header at once, another word when it waits for no flag and its group is granted the
pipe. A fault of the fetch is raised for the run, and costs no issue. -/
def State.issueRun (s : State) (g : Nat) (run : List Nat) : Answer :=
  match s.fetchInstr g (s.thread (run.headD 0)).pc.toNat with
  | .error f => .next ((s.raiseAll run f).endQuantum g)
  | .ok (s1, w, next) =>
    if isHeaderWord w next then s1.issueWord g run w next
    else if s.longWaits run w next then .next s
    else s1.contest g (fun t => t.issueWord g run w next)

/-- Recorded hits and abandoned operations of threads raised before their next word is examined (R358) (log 40, DEDUCED). -/
def State.raiseHits (s : State) (g : Nat) (run : List Nat) : State :=
  let uid := (s.group g).uid
  run.foldl (fun acc k =>
    match acc.hits.find? (fun h => h.uid == uid && h.lane == k % 32) with
    | some h => acc.raiseHit k h
    | none => acc) s

/-- Threads that wait for room in their owner's service ring are ready when there is room (R125, R319). -/
def State.wakeRing (s : State) (o : Nat) : State :=
  if s.svcRoom o 1 then s.wake (fun w => w == .ring o) else s

/-- The quantum of a group that does not issue ends where it must (R128); groups of a halted owner keep their states (R125). -/
def State.idleQuantum (s : State) (g : Nat) : State := if s.ownerIssues (s.group g).owner then s.endQuantum g else s

/-- A group slot of a core issues, where its group may and is granted the pipe: the next repetition of a REP sequence, or the
word of the perihelion run. A group without a ready thread ends its quantum (R128). -/
def State.issue (s : State) (core gslot : Nat) : Answer :=
  let g := gkey core gslot
  match s.group? g with
  | none => .next s
  | some x =>
    let s0 := ((s.walkWindowEnd core).replenish core).wakeRing x.owner
    if !s0.groupIssues g || (s0.nextRun g).isEmpty then .next (s0.idleQuantum g)
    else
      let s1 := s0.raiseHits g (s0.nextRun g)
      if x.rep.isSome then s1.contest g (fun t => after (exec (.repRepetition core gslot) t) (fun t =>
        (t.orderFaults g ((s0.nextRun g).map (· % 32))).lookedUp g (if t.cur.inRep then t.cur.lanes else [])))
      else
        match (s0.nextRun g).filter (fun k => (s1.thread k).st == .ready && (s1.thread k).pc == (s0.thread k).pc) with
        | [] => .next (s1.endQuantum g)
        | run => s1.issueRun g run

/-! ### The sequencer (R245) -/

/-- A sequencer's translation miss: it waits on a record as a depth-0 waiter, and where none is free for its turn to take one (R170,
R245); where the owner has no handler the owner halts (R175). -/
def State.seqMiss (s : State) (core key : Nat) (t : Team) (f : FaultInfo) : State :=
  let gslot := ((s.group0 key).map (· % 512)).getD 0
  match s.recordFor t.owner 0 .xmiss with
  | none => s.reportHalt t.owner { cause := .recurse, core, gslot, cls := .xmiss, addr := f.addr, code := f.aux }
  | some nest =>
    let r : MissRec := { cls := .xmiss, acc := .execute, nest, owner := t.owner, gslot, ova := f.addr, order := s.nextId }
    let s1 := match (s.core core).takeSeqRec r t.uid with
      | none =>
        let w : RecWait := { waiter := { uid := t.uid, lane := 0 }, record := r, seq := true }
        s.updCore core (fun c => { c with recWaits := c.recWaits ++ [w] })
      | some c => { s with nextId := s.nextId + 1 }.setCore core c
    s1.updMatrix key (fun m => { m with missing := true, st := .waiting })

/-- A core's sequencer fetches its next word and issues it; an illegal word or a fetch fault ends the stream (R245, R250). -/
def State.sequence (s : State) (core : Nat) : Answer :=
  match s.sequencer core with
  | none => .next s
  | some (key, t, m) =>
    if m.missing || m.st == .ended || m.st == .faulted || !s.ownerIssues t.owner then .next s
    else
      match s.translate core t.owner (some t.asp.toNat) .execute m.mpc.toNat 8 with
      | .error f => .next (if f.cls = .xmiss then s.seqMiss core key t f else s.endStream key (some f.cls))
      | .ok l =>
        let (s1, w) := s.fetchAt core t.owner l
        match decodeWords true w 0 with
        | none => .next (s1.endStream key (some .illop))
        | some (i, _) => exec i { s1 with cur := { core } }

/-- The state in which the sequencer has examined so many words more. -/
def State.sequenced (s : State) (core : Nat) : Nat → State
  | 0 => s
  | n + 1 => match s.sequence core with
    | .next t => t.sequenced core n
    | .fault _ => s
    | .refused _ => s

/-- The scratch writes of the word that comes `ahead` after the sequencer's next one, where that word and those before it can issue as things
stand and no MFENCE is among them. -/
def State.writesAhead (s : State) (core ahead : Nat) : Option (List (Nat × List Byte)) :=
  match s.sequencer core with
  | none => none
  | some (key, _, m) =>
    let t := ((s.sequenced core (ahead + 1)).team key).matrix.getD {}
    if m.widx + ahead + 1 < 0xFFFFFF ∧ t.widx = m.widx + ahead + 1 ∧ t.st = .running ∧ t.fence = m.fence then t.flight.getLast?.map (·.writes)
    else none

/-- A team's scratch with every bit inverted. -/
def Team.inverted (t : Team) : Team :=
  { t with scratch := Memory.writeN t.scratch 0 ((Memory.readN t.scratch 0 t.scratchSize).map (fun b => ~~~b)) }

/-- One scratch write of a word of the stream that comes `ahead` words after the next one, performed before the reads of the words between them
and before its own issue: no order holds between the scratch accesses of words but those of R265. What the word writes does not depend on
what those words read. It is fixed with the first of its writes (log 38, DEDUCED). -/
def State.matAhead (s : State) (core ahead i : Nat) : State :=
  match s.sequencer core with
  | none => s
  | some (key, _, m) =>
    let w := m.widx + ahead
    let held := m.ahead.find? (fun e => e.1 == w)
    let ws := match held with
      | some e => e.2
      | none =>
        match s.writesAhead core ahead, (s.updTeam key Team.inverted).writesAhead core ahead with
        | some a, some b => if a = b then a else []
        | _, _ => []
    match ws[i]? with
    | none => s
    | some x => (s.landWrites key [x]).updMatrix key (fun m => { m with ahead := m.ahead.filter (fun e => e.1 != w) ++ [(w, ws.eraseIdx i)] })

/-! ### Time and choices -/

/-- The ticks of 16 ac within a span (R137). -/
def ticksIn (now n : Nat) : Nat := (now + n) / 16 - now / 16

/-- The ac of a span considered for replenishment on a core, but those already considered (R304). -/
def State.replenishSpan (s : State) (core n : Nat) : State :=
  let first := max (s.core core).nextReplenish s.now
  if s.now + n ≤ first then s
  else (s.replenishFor core (s.now + n - first)).updCore core (fun c => { c with nextReplenish := s.now + n })

/-- Whether an entry of a core is ready. -/
def State.coreReady (s : State) (core : Nat) : Bool := s.threads.any (fun e => e.1 / 32 / 512 == core && e.2.st == .ready)

/-- What the counters whose gain timing alone decides gain for the owners of a core as n ac pass: of the ac without a grant at most n, and none
where no group of the owner holds a ready run (R349). -/
def State.gainPerf (s : State) (core n : Nat) : State :=
  (s.core core).slots.foldl (fun acc e =>
    let gain (i : Nat) : Nat := Config.perfGain i core e.2.owner s.now
    let waits := s.groups.any (fun x => x.1 / 512 == core && x.2.owner == e.2.owner && !(s.nextRun x.1).isEmpty)
    (acc.countPerf core e.2.owner 2 (if waits then min n (gain 2) else 0)).countPerf core e.2.owner 7 (gain 7)) s

/-- n ac pass (R93): groups without a ready thread end their quanta (R128), head instructions become eligible (R95) and deficits are
replenished (R304); $clock rises, backoff delays run down (R137), and the ready entries of cores (R372), the waits of teams (R183) and the
stall of each owner (R310) are observed; threads of a halted owner keep their states (R125) (log 35, DEDUCED) (log 43, DESIGN CHOICE). -/
def State.passTime (s : State) (n : Nat) : State :=
  let d := ticksIn s.now n
  let s1 := (s.groups.map (·.1)).foldl (fun acc g => (acc.idleQuantum g).markEligible g) s
  let s2 := (s1.cores.map (·.1)).foldl (fun acc c => (acc.replenishSpan c n).gainPerf c n) s1
  { s2 with
    clock := s2.clock + BitVec.ofNat 64 n
    cores := s2.cores.map (fun e =>
      (e.1, { e.2 with readySince := if s2.coreReady e.1 then some (e.2.readySince.getD s2.now) else none }))
    threads := s2.threads.map (fun e => if e.2.st = .backoff ∧ s2.ownerIssues (s2.group (e.1 / 32)).owner then (e.1, { e.2 with bodly := e.2.bodly - d }) else e)
    teams := s2.teams.map (fun e => (e.1, { e.2 with waitSince := if s2.teamWaits e.2 then some (e.2.waitSince.getD s2.now) else none }))
    owners := s2.owners.map (fun e => (e.1, { e.2 with stalled := if s2.stalledNow e.1 then some (e.2.stalled.getD s2.now) else none })) }

/-- A choice carried out (R380) (log 5, DESIGN CHOICE), but for one during which an expander fails. -/
def actOne (c : Choice) (s : State) : Answer :=
  match c with
  | .issue core gslot => s.issue core gslot
  | .sequence core => s.sequence core
  | .tick n => .next (s.passTime n)
  | .reachL1 op => .next (s.tryReach op)
  | .dropL1 core line => .next (s.updCore core (fun x => x.l1Drop (fun l => l.line == line)))
  | .dropTlb core owner page => .next (s.updCore core (fun x =>
      { x with tlb := x.tlb.filter (fun e => !(e.owner == owner && tlbPage e.bits == page && s.tlbFree core e)) }))
  | .dropCode core dpa => .next (s.updCore core (fun x => { x with code := x.code.filter (fun w => w.dpa != dpa) }))
  | .fetchAhead core gslot word => .next (s.fetchAhead core gslot word)
  | .turnCode core i => .next (s.turnCode core i)
  | .dropL2 line => .next { s with l2 := s.l2.filter (fun l => l.line != line) }
  | .perform op => .next (s.performSplit op)
  | .landRow op row => .next (s.landRow op row)
  | .farFail op => .next (s.updOp op (fun o => { o with failed := true }))
  | .matRead core ahead word => .next (s.readEarly core ahead word)
  | .matDone core op => .next (s.landWord core op)
  | .addElem delivery elem => .next (s.addEarly delivery elem)
  | .matWrite core op write => .next (s.landMat core op write)
  | .matAhead core ahead write => .next (s.matAhead core ahead write)
  | .engineAhead queue ahead => .next (s.engineAhead queue ahead)
  | .bringUp => .next s.bringUp
  | .engineRead queue team word => .next (s.readAhead queue team word)
  | .engineWrite queue write => .next (s.landEng queue write)
  | .ackSent i => .next (s.ackSent i)
  | .error site corrected owner => .next (s.arrayError site corrected owner)
  | .event i =>
    match i with
    | .repRepetition core gslot => if (s.group (gkey core gslot)).rep.isSome then s.issue core gslot else .next s
    | _ => if (encode i).isEmpty then exec i s else .next s
  | .withFailure _ _ => .next s

/-- A choice carried out; every retry of what it sends through a failing port fails (R199, R380). -/
def act (c : Choice) (s : State) : Answer :=
  match c with
  | .withFailure port c => after (actOne c { s with portFails := some port }) (fun t => { t with portFails := none })
  | c => actOne c s

/-- The next choice: the head of the tape, or a free one (log 2, DESIGN CHOICE). -/
def nextChoice (s : State) : Choice × State :=
  match s.tape with
  | c :: rest => (c, { s with tape := rest })
  | [] => (Config.choice s.draws, s.draw)

/-! ### A word placed where the next step fetches it (log 25, DESIGN CHOICE) -/

/-- The pinned reserve that `placeWord` gives owner 0: 1 MiB of tier 0 from DPA 2^20 on (R166). -/
def bootReserve : BitVec 128 := BitVec.ofNat 128 (2 ^ 127 + 2 ^ 126 + 16 * 2 ^ 88 + 16 * 2 ^ 32)

/-- The DPA and the PC of the placed words. -/
def bootDpa : Nat := 0x101000
/-- Their address in the reserve window (R23, R162). -/
def bootPc : DWord := 0xFFF000001000

/-- Whether a word is one of the handler forms 0xF0..0xFF, which run at depth 1 or 2 only (R176). -/
def isHandlerWord (w : DWord) : Bool := w.extractLsb' 59 5 == 0x0F

/-- Whether a word stands in a matrix stream. -/
def isStreamWord (w : DWord) : Bool := w.extractLsb' 59 5 == 0x0C

/-- The state with bytes where the next step fetches an instruction: owner 0 runs one thread on core 0, in an ordinary group of a
team, in its handler group of depth 1, or in a team's matrix stream, as the word requires; the bytes stand in its reserve, and
the next choice lets that group or sequencer issue. -/
def State.placeWord (s : State) (bytes : List Byte) : State :=
  let w := wordOf bytes
  let handler := isHandlerWord w
  let g := if handler then 510 else 0
  let o : Owner := { s.owner 0 with ostat := { st := .running }, allot := Tab.put (s.owner 0).allot 0 bootReserve }
  let c : Core :=
    { s.core 0 with
      world := o.world, slots := Tab.put (s.core 0).slots 0 { owner := 0 }, window := s.now / windowAc
      code := (s.core 0).code.filter (fun x => x.dpa != bootDpa && x.dpa != bootDpa + 8) }
  let grp : Group := { uid := s.nextUid, team := if handler then none else some 0, hdepth := if handler then 1 else 0, lost := 2 }
  let team : Team := { uid := s.nextUid + 1, members := [0], matrix := if isStreamWord w then some { mpc := bootPc } else none }
  let thread : Thread := { pc := bootPc }
  let gone : Thread := { st := .exited, pc := bootPc }
  let s1 : State :=
    { s with
      power := .ready, owners := Tab.put s.owners 0 o, cores := Tab.put s.cores 0 c, groups := Tab.put s.groups g grp
      teams := Tab.put s.teams 0 team, nextUid := s.nextUid + 2, mem := Memory.writeN s.mem bootDpa bytes
      poison := Tab.del (Tab.del s.poison (bootDpa / 8)) (bootDpa / 8 + 1)
      tape := (if isStreamWord w then .sequence 0 else .issue 0 g) :: s.tape }
  (List.range 32).foldl (fun acc l => acc.setThread (tkey g l) (if l = 0 then thread else gone)) s1

end Sys2Proof.Machine
end

