-- ==== Sys2Proof/WellFormed.lean ====
section
/-! DEFINITION. Which instructions are well-formed: those that some words of a program encode, and every event. -/

namespace Sys2Proof

/-- Whether an instruction is well-formed: it passes the static checks of its entry (steps 2 to 4 of R53), and what a REP with a
nonzero count repeats may be repeated (R49, R131). -/
def wellFormed (i : Instr) : Bool :=
  Machine.formOk i && (match i with | .rep p body => p.count == 0 || repBodyOk p body | _ => true)

end Sys2Proof
end

