-- ==== Sys2Proof/Machine/Step.lean ====
section
/-! DEFINITION. One step of the device, and how an instruction comes to stand where the next step fetches it (log 25, DESIGN CHOICE). -/

namespace Sys2Proof.Machine

/-- One step: the next choice carried out. -/
def step (s : State) : Host.Outcome State Fault Refusal :=
  let c := nextChoice s
  act c.1 c.2

/-- The state with an instruction's words where the next step fetches its instruction. -/
def State.withFetchWord (s : State) (nbits w : Nat) : State := s.placeWord (leBytes 16 (w % 2 ^ nbits))

end Sys2Proof.Machine
end

