-- ==== Sys2Proof/Safety.lean ====
section
/-! DEFINITION. The terms in which statements speak of a step: the threads of a run that a word acts for, when they pass the
checks of R53, what a computing word leaves behind and what it does not touch, and the invariant of every step. -/

namespace Sys2Proof.Machine

/-! ### The run of an issue -/

/-- The lanes of the issuing run are distinct lanes of one group. -/
def State.runOk (s : State) : Prop := s.cur.lanes.Nodup ∧ ∀ l ∈ s.cur.lanes, l < 32

/-- The threads of the run that are active under a guard (R27). -/
def State.actives (s : State) (g : Guard) : List Nat := s.curKeys.filter (s.active g)

/-- Whether a thread passes steps 3, 5 and 6 of R53 for a word: the handler depth, the placement in a clause, and the bounds and
alignment of its operands. -/
def State.passes (s : State) (k : Nat) (site : Site) (uses : List Use) (dr : DepthRule) : Bool :=
  dr.ok (s.group s.curG).hdepth && (s.cur.inRep || placeOk site s.cur.words (s.thread k).clause) &&
    uses.all (fun u => u.ok (s.thread k).winbase (s.group s.curG).allot)

/-- The run is well formed and each of some threads passes the checks. -/
def State.clean (s : State) (ks : List Nat) (site : Site) (uses : List Use) (dr : DepthRule := .any) : Prop :=
  s.runOk ∧ ∀ k ∈ ks, s.passes k site uses dr = true

/-- The run is one thread, active under a guard, that passes the checks of a word. -/
def State.lone (s : State) (k : Nat) (g : Guard) (site : Site) (uses : List Use) (dr : DepthRule := .any) : Prop :=
  s.cur.lanes = [k % 32] ∧ k / 32 = s.curG ∧ s.active g k = true ∧ s.passes k site uses dr = true

/-! ### What a word leaves behind -/

/-- A thread has moved past the word: PC (within a REP, REPIX), and its place in a clause (R42, R49). -/
def State.movedFrom (t s : State) (k : Nat) (site : Site) : Prop :=
  let a := (s.thread k).pass site s.cur.inRep s.cur.len
  (t.thread k).pc = a.pc ∧ (t.thread k).clause = a.clause ∧ (t.thread k).repix = a.repix

/-- A thread's destination holds a result: a register or pair, a uniform register or pair, or a predicate; a write to zero or to
q7 is discarded (R29, R30, R32). -/
def State.holds (t : State) (k : Nat) (d : Opd) (dw : Bool) (v : BitVec 64) : Prop :=
  match d with
  | .w _ => t.rd k d dw = if dw then v else v &&& 0xFFFFFFFF
  | .s _ => t.rd k d dw = if dw then v else v &&& 0xFFFFFFFF
  | .q i => i.val = 7 ∨ t.rdPred k d = v.getLsbD 0
  | .sr _ => True
  | .m _ => True
  | .zero => True

/-- The rows of the window that n registers of an operand cover, by absolute index. -/
def State.rowsOf (s : State) (k : Nat) (o : Opd) (n : Nat) : List Nat :=
  match o with
  | .w i => (List.range n).map (fun j => (s.thread k).winbase + i + j)
  | _ => []

/-- The uniform registers that n registers of an operand cover. -/
def uniRows (o : Opd) (n : Nat) : List Nat :=
  match o with
  | .s i => (List.range n).map (fun j => i + j)
  | _ => []

/-- The rows that the last-use bits of a register word free (R35, R90). -/
def State.lastUses (s : State) (k : Nat) (f : FWord) (na nb nc : Nat) : List Nat :=
  (if f.lu.a then s.rowsOf k f.a na else []) ++ (if f.lu.b then s.rowsOf k f.b nb else []) ++
    (if f.lu.c then s.rowsOf k f.c nc else [])

/-- What a word that computes leaves behind, `ks` being the threads that it acts for: each one's destination holds its result (a
uniform one that of the lowest thread, R92), every thread of the run has moved past the word, one for which it is predicated off as past a no-operation
(R27, R42), and NOTHING ELSE has changed but
rows that a last-use bit frees. -/
structure Computed (s t : State) (ks : List Nat) (d : Opd) (dw : Bool) (freed : Nat → List Nat) (site : Site)
    (val : Nat → BitVec 64) : Prop where
  result : ∀ k ∈ ks, t.holds k d dw (val (if isUni d then ks.headD 0 else k))
  moved : ∀ k ∈ s.curKeys, t.movedFrom s k (if k ∈ ks then site else site.off)
  rows : ∀ k r, (k ∈ ks → r ∉ s.rowsOf k d (regs dw) ∧ r ∉ freed k) → (t.thread k).reg r = (s.thread k).reg r
  preds : ∀ k (q : Fin 8), (k ∈ ks → d ≠ .q q) → (t.thread k).pred q = (s.thread k).pred q
  uniform : ∀ g r, (g = s.curG → ks ≠ [] → r ∉ uniRows d (regs dw)) → (t.group g).reg r = (s.group g).reg r
  threads : ∀ k, t.thread k = if k ∈ s.curKeys then
      { s.thread k with regs := (t.thread k).regs, preds := (t.thread k).preds, pc := (t.thread k).pc
                        clause := (t.thread k).clause, repix := (t.thread k).repix }
    else s.thread k
  groups : ∀ g, t.group g = { s.group g with uni := (t.group g).uni }
  others : t = { s with threads := t.threads, groups := t.groups }

/-- An instruction with the fields of a register word gives its active threads their results, wherever they pass the checks
(R7, R27, R53). -/
def Gives (i : Instr) (s : State) (f : FWord) (dw aw bw cw : Bool) (val : Nat → BitVec 64) : Prop :=
  s.clean (s.actives f.guard) {} (fUses f dw aw bw cw) →
    ∃ t, exec i s = .next t ∧
      Computed s t (s.actives f.guard) f.d dw (fun k => s.lastUses k f (regs aw) (regs bw) (regs cw)) {} val

/-- The fields of an immediate word as a register word without b and c. -/
def asF (f : IWord) : FWord :=
  { guard := f.guard, d := f.d, a := f.a, b := .zero, c := .zero, lu := ⟨f.lua, false, false⟩, ty := f.ty, sc := 0, sub := f.sub, mod := 0 }

/-- The same for an immediate word. -/
def GivesI (i : Instr) (s : State) (f : IWord) (dw aw : Bool) (val : Nat → BitVec 64) : Prop :=
  Gives i s (asF f) dw aw false false val

/-- A word of a lone thread k has an effect s' of its own on the machine, and beside it gives its destination a value and moves the
thread on: nothing else differs from s' but rows that a last-use bit frees. -/
def ActsOnce (i : Instr) (s s' : State) (k : Nat) (d : Opd) (dw : Bool) (freed : List Nat) (site : Site) (v : BitVec 64) : Prop :=
  ∃ t, exec i s = .next t ∧ Computed s' t [k] d dw (fun _ => freed) site (fun _ => v)

/-- A word moves a lone thread on, changed by a function, and changes no other thread; s' is its effect on the rest. -/
def MovesOn (i : Instr) (s s' : State) (k : Nat) (site : Site) (f : Thread → Thread) : Prop :=
  ∃ t, exec i s = .next t ∧ t = { s' with threads := t.threads } ∧
    t.thread k = (f (s.thread k)).pass site s.cur.inRep s.cur.len ∧ ∀ j, j ≠ k → t.thread j = s.thread j

/-- The rows that a word's last-use bits free where it acts for one thread; none where its destination is uniform. -/
def State.uses (s : State) (k : Nat) (f : FWord) (na nb nc : Nat) : List Nat :=
  if isUni f.d then [] else s.lastUses k f na nb nc

/-! ### Operations -/

/-- An operation is thread k's own, the j-th that the word at its PC issues. -/
structure Op.IsOf (o : Op) (s : State) (k j : Nat) : Prop where
  id : o.id = s.nextId + j
  uid : o.uid = (s.group (k / 32)).uid
  lane : o.lane = k % 32 ∧ o.lanes = [k % 32]
  owner : o.owner = (s.group (k / 32)).owner
  core : o.core = k / 32 / 512
  flag : o.flag = (s.thread k).nextFlag
  pc : o.pc = (s.thread k).pc

/-- An operation acts at a checked place. -/
def Op.isAt (o : Op) (p : Place) : Prop :=
  match p with
  | .g l => o.space = .g ∧ o.addr = l.dpa ∧ o.world = l.world
  | .l uid off => o.space = .l uid ∧ o.addr = off

/-- What an operation of a flag will write in its thread's window: the flag, the first row and the number of rows (R90). -/
def Op.noted (o : Op) : Option (Nat × Nat × Nat) :=
  match o.flag, o.dest with
  | some f, .win a => some (f, a, o.regs)
  | _, _ => none

/-- What issuing operations makes of their thread: where one is long-latency its clause's flag is set, or outside a clause the
thread waits (R43, R44); the rows that they will write are noted (R90). -/
def Thread.after (t : Thread) (os : List Op) (inRep : Bool) : Thread :=
  let long := os.any Op.isLong
  let rows := os.filterMap Op.noted
  { t with
    flags := match t.nextFlag with
      | some f => if long then (t.setFlag f true).flags else t.flags
      | none => t.flags
    st := if long && t.nextFlag.isNone && !inRep then .waitOp else t.st
    flagDests := t.flagDests ++ rows
    clause := t.clause.map (fun c => { c with dests := c.dests ++ rows.map (·.2) }) }

/-- A word leaves operations of thread k behind: they join the pending ones, and the thread, changed as they change it, moves on.
NOTHING ELSE changes but rows that a last-use bit frees: no register, no other thread, and no byte of memory. -/
structure Issued (s t : State) (k : Nat) (site : Site) (os : List Op) (freed : List Nat) : Prop where
  mine : ∀ j (o : Op), os[j]? = some o → o.IsOf s k j
  this : t.thread k = { ((s.thread k).after os s.cur.inRep).pass site s.cur.inRep s.cur.len with regs := (t.thread k).regs }
  rows : ∀ r, r ∉ freed → (t.thread k).reg r = (s.thread k).reg r
  threads : ∀ j, j ≠ k → t.thread j = s.thread j
  others : t = { s with threads := t.threads, ops := s.ops ++ os, nextId := s.nextId + os.length }

/-- A long-latency word may issue: within a REP, or where its flag is clear (R44). -/
def State.flagFree (s : State) (k : Nat) : Prop := s.cur.inRep = true ∨ (s.thread k).flagBusy = false

/-- The rows that the last-use bits of a memory form free. -/
def State.memLastUses (s : State) (k : Nat) (f : MWord) (sp : SpaceCode) (n : Nat) : List Nat :=
  (if f.lu.a then s.rowsOf k f.base (regs (baseWide sp)) else []) ++ (if f.lu.b then s.rowsOf k f.index 1 else []) ++
    (if f.lu.c then s.rowsOf k f.r n else [])

/-- A thread's earlier accesses, and the stores that it has observed, are all performed, and no back-invalidate that a write caused is on its
way: a release of the thread takes effect at once (R219, R231, R242). -/
def State.quiet (s : State) (k : Nat) : Prop :=
  s.threadOps k = [] ∧ (s.thread k).obs = [] ∧ (s.thread k).seen = [] ∧ s.snoops = []

/-- What a thread's acquires and fences order before its next access is done (R145, R219, R221). -/
def State.accessReady (s : State) (k : Nat) : Prop :=
  (∀ o ∈ s.threadOps k, o.leads (s.thread k) = false) ∧ ((s.thread k).rels = [] ∨ s.quiet k)

/-- None of a thread's accesses to scratch is pending either. -/
def State.scratchReady (s : State) (k : Nat) : Prop :=
  s.accessReady k ∧ ∀ o ∈ s.threadOps k, o.isMem = true → o.space = .g

/-- A word that reads a table gives its active threads their results; it is an access of each of them (R144, R145). -/
def Reads (i : Instr) (s : State) (f : FWord) (dw : Bool) (val : Nat → BitVec 64) : Prop :=
  (∀ k ∈ s.actives f.guard, s.accessReady k) → Gives i s f dw false false false val

/-- The pending operations but one; which of them sends its line's request is left out (R194). -/
def State.opsBut (s : State) (id : Nat) : List Op := (s.ops.filter (fun p => p.id != id)).map (fun p => { p with lineHead := false })

/-! ### The matrix stream -/

/-- The core of the issue has a sequencer in the middle of its stream, and no word in flight occupies any of some units. -/
structure State.inStream (s : State) (key : Nat) (t : Team) (m : Matrix) (units : List Nat) : Prop where
  seq : s.sequencer s.cur.core = some (key, t, m) ∧ s.team? key = some t
  goes : m.st ≠ .ended ∧ m.st ≠ .faulted
  free : ∀ o ∈ m.flight, ∀ u ∈ o.units, u ∉ units

/-- The state once what a team's stream was rewriting is rewritten, as its next word has it (R145). -/
def State.streamNext (s : State) (key : Nat) : State := s.endRewrites (key / 32) (s.team key).uid

/-- A matrix word issues: s' is its effect; beside it the sequencer moves on, and the word's operation is in flight (R244, R249), its scratch
writes with it but for those that were performed before (R265). -/
def StreamIssues (i : Instr) (s s' : State) (key : Nat) (ops : List MatOp) : Prop :=
  exec i s = .next (s'.updMatrix key (fun m =>
    { m.pass with flight := m.flight ++ ops.map (fun o => { o with writes := m.writesLeft o }) }))

/-- A matrix word waits, for a barrier's completion where one is named (R250, R262). -/
def StreamWaits (i : Instr) (s : State) (key : Nat) (bar : Option Nat) : Prop :=
  exec i s = .next (s.updMatrix key (fun m => { m with st := .waiting, barWait := bar }))

/-- A matrix word ends its stream with a fault (R250). -/
def StreamFaults (i : Instr) (s : State) (key : Nat) (c : Cls) : Prop := exec i s = .next ((s.streamNext key).endStream key (some c))

/-! ### The invariant of every step -/

/-- Device memory is in its canonical form: addresses strictly rising, no zero byte listed. -/
def State.Inv (s : State) : Prop := s.mem.wf = true

end Sys2Proof.Machine
end

