-- ==== Sys2Proof/Certificates/Slice0/Obligations.lean ====
section
/-! DEFINITION. The statements about the device, each a proposition that the provers prove. -/

open Sys2Proof Sys2Proof.Machine

/-! ### Words that compute -/

/-- R97, R98: every integer and address instruction gives each active thread the value of its row, lane by lane, taken modulo
2^w (`intLanes` reads the lanes as exact integers, signed or not by the type), and changes nothing else; only words of the row's
types are well-formed, and the IRSB half of a pair is ISUB with its operands exchanged. -/
def Obligations.IntegerWordsGiveTheirResults : Prop := ∀ (f : FWord) (g : IWord) (s : State),
  let w := wide f.ty
  let a := fun k => s.rd k f.a w
  let b := fun k => s.rd k f.b w
  let c := fun k => s.rd k f.c w
  let v := wide g.ty
  let x := fun k => s.rd k g.a v
  let imm := immLanes g.ty (immValue g)
  Gives (.iadd f) s f w w w false (fun k => intLanes f.ty (fun p q _ => p + q) (a k) (b k) 0) ∧
  GivesI (.iaddi g) s g v v (fun k => intLanes g.ty (fun p q _ => p + q) (x k) imm 0) ∧
  Gives (.isub f) s f w w w false (fun k => intLanes f.ty (fun p q _ => p - q) (a k) (b k) 0) ∧
  GivesI (.irsbi g) s g v v (fun k => intLanes g.ty (fun p q _ => p - q) imm (x k) 0) ∧
  Gives (.imul f) s f w w w false (fun k => intLanes f.ty (fun p q _ => p * q) (a k) (b k) 0) ∧
  GivesI (.imuli g) s g v v (fun k => intLanes g.ty (fun p q _ => p * q) (x k) imm 0) ∧
  Gives (.imulhi f) s f w w w false (fun k => intLanes f.ty (fun p q _ => p * q / 2 ^ laneBits f.ty) (a k) (b k) 0) ∧
  Gives (.imad f) s f w w w w (fun k => intLanes f.ty (fun p q r => p * q + r) (a k) (b k) (c k)) ∧
  Gives (.imadw f) s f true false false true (fun k => BitVec.ofInt 64
    (asInt (tySigned f.ty) 32 (s.rdNat k f.a) * asInt (tySigned f.ty) 32 (s.rdNat k f.b) + (s.rd k f.c true).toNat)) ∧
  Gives (.imin f) s f w w w false (fun k => intLanes f.ty (fun p q _ => min p q) (a k) (b k) 0) ∧
  Gives (.imax f) s f w w w false (fun k => intLanes f.ty (fun p q _ => max p q) (a k) (b k) 0) ∧
  Gives (.iabs f) s f w w false false (fun k => intLanes f.ty (fun p _ _ => p.natAbs) (a k) 0 0) ∧
  Gives (.iadds f) s f w w w false (fun k => intLanes f.ty (fun p q _ => satLane f.ty (p + q)) (a k) (b k) 0) ∧
  Gives (.isubs f) s f w w w false (fun k => intLanes f.ty (fun p q _ => satLane f.ty (p - q)) (a k) (b k) 0) ∧
  Gives (.lea f) s f true true false false (fun k => BitVec.ofInt 64
    ((s.rd k f.a true).toNat + asInt (tySigned f.ty) 32 (s.rdNat k f.b) * 2 ^ f.mod.toNat)) ∧
  GivesI (.leai g) s g v v (fun k => x k + immValue g) ∧
  (∀ (h : Half) (k : Nat), h.op = .irsb → s.halfResult h k =
    intLanes h.pty (fun p q _ => p - q) (s.rd k (halfOpd h.a) false) (s.rd k (halfOpd h.d) false) 0) ∧
  (let scalar : List Ty := [.s32, .n32, .s64, .n64]
   let all : List Ty := scalar ++ [.s16x2, .n16x2, .s8x4, .n8x4]
   (∀ i ∈ [Instr.iadd f, .isub f, .imin f, .imax f], wellFormed i = true → f.ty ∈ all) ∧
   (∀ i ∈ [Instr.iaddi g, .irsbi g], wellFormed i = true → g.ty ∈ all) ∧
   (∀ i ∈ [Instr.imul f, .imulhi f, .imad f], wellFormed i = true → f.ty ∈ scalar) ∧
   (wellFormed (.imuli g) = true → g.ty ∈ scalar) ∧
   (∀ i ∈ [Instr.imadw f, .lea f], wellFormed i = true → f.ty = .s32 ∨ f.ty = .n32) ∧
   (wellFormed (.iabs f) = true → f.ty ∈ [Ty.s32, .s64, .s16x2, .s8x4]) ∧
   (∀ i ∈ [Instr.iadds f, .isubs f], wellFormed i = true → f.ty ∈ [Ty.s32, .n32, .s16x2, .n16x2, .s8x4, .n8x4]) ∧
   (wellFormed (.leai g) = true → g.ty = .b64))

/-- R99: every logic, shift and bit instruction gives each active thread the value of its row; b of the shifts, BFE and BFI is
32-bit, and so is d of POPC and CLZ. Only words of the row's types are well-formed, and of SHLI and SHRI only those that shift by
less than the width. -/
def Obligations.LogicWordsGiveTheirResults : Prop := ∀ (f : FWord) (g : IWord) (s : State),
  let w := wide f.ty
  let a := fun k => s.rd k f.a w
  let b := fun k => s.rd k f.b w
  let v := wide g.ty
  let x := fun k => s.rd k g.a v
  let imm := trunc g.ty (immValue g)
  Gives (.and f) s f w w w false (fun k => a k &&& b k) ∧
  GivesI (.andi g) s g v v (fun k => x k &&& imm) ∧
  Gives (.or f) s f w w w false (fun k => a k ||| b k) ∧
  GivesI (.ori g) s g v v (fun k => x k ||| imm) ∧
  Gives (.xor f) s f w w w false (fun k => a k ^^^ b k) ∧
  GivesI (.xori g) s g v v (fun k => x k ^^^ imm) ∧
  Gives (.not f) s f w w false false (fun k => trunc f.ty (~~~(a k))) ∧
  Gives (.shl f) s f w w false false (fun k =>
    if tyBits f.ty ≤ s.rdNat k f.b then 0 else trunc f.ty (a k <<< s.rdNat k f.b)) ∧
  GivesI (.shli g) s g v v (fun k => if tyBits g.ty ≤ imm.toNat then 0 else trunc g.ty (x k <<< imm.toNat)) ∧
  Gives (.shr f) s f w w false false (fun k => aluShr f.ty (a k) (s.rdNat k f.b)) ∧
  GivesI (.shri g) s g v v (fun k => aluShr g.ty (x k) imm.toNat) ∧
  Gives (.dsh f) s f w w w w (fun k => aluDsh (f.sub == 1) (a k) (b k) (s.rd k f.c w)) ∧
  Gives (.bfe f) s f w w false false (fun k => aluBfe f.ty (a k) (s.rd k f.b false)) ∧
  Gives (.bfi f) s f w w false w (fun k => aluBfi f.ty (a k) (s.rd k f.b false) (s.rd k f.c w)) ∧
  Gives (.popc f) s f false w false false (fun k => BitVec.ofNat 64 (popCount (a k).toNat (tyBits f.ty))) ∧
  Gives (.clz f) s f false w false false (fun k => aluClz f.ty (a k)) ∧
  Gives (.prmt f) s f w w w w (fun k => BitVec.ofNat 64 (permBytes (a k).toNat (b k).toNat (s.rd k f.c w).toNat)) ∧
  Gives (.brev f) s f w w false false (fun k => aluBrev f.ty (a k)) ∧
  (∀ i ∈ [Instr.and f, .or f, .xor f, .not f, .shl f, .bfi f, .popc f, .clz f, .brev f],
    wellFormed i = true → f.ty = .b32 ∨ f.ty = .b64) ∧
  (∀ i ∈ [Instr.andi g, .ori g, .xori g, .shli g], wellFormed i = true → g.ty = .b32 ∨ g.ty = .b64) ∧
  (∀ i ∈ [Instr.shr f, .bfe f], wellFormed i = true → f.ty ∈ [Ty.s32, .n32, .s64, .n64]) ∧
  (wellFormed (.shri g) = true → g.ty ∈ [Ty.s32, .n32, .s64, .n64]) ∧
  (∀ i ∈ [Instr.shli g, .shri g], wellFormed i = true → imm.toNat < tyBits g.ty) ∧
  (∀ i ∈ [Instr.dsh f, .prmt f], wellFormed i = true → f.ty = .b32) ∧ (wellFormed (.dsh f) = true → f.sub = 0 ∨ f.sub = 1)

/-- R100, R101: the compare, select and move instructions. A truth value goes to a predicate, or to a register as 1 or 0; a
uniform d takes the value of the lowest-numbered active thread, which is MOVU's whole effect (R92). A select or move that is
well-formed has one of the row's types, SEL a predicate for c (a tile register is judged at step 6 of R53), and MOVU a uniform d and an
a that is not. -/
def Obligations.CompareAndMoveWordsGiveTheirResults : Prop := ∀ (f : FWord) (g : IWord) (s : State),
  let w := wide f.ty
  let v := wide g.ty
  let signed := tySigned f.ty
  Gives (.icmp f) s f false w w false (fun k => boolVal (combine (f.mod.toNat % 4)
    (cmpInt f.sub.toNat (asInt signed (tyBits f.ty) (s.rd k f.a w).toNat) (asInt signed (tyBits f.ty) (s.rd k f.b w).toNat))
    (s.rdPred k f.c != f.mod.getLsbD 2))) ∧
  GivesI (.icmpi g) s g false v (fun k => boolVal (cmpInt g.sub.toNat
    (asInt (tySigned g.ty) (tyBits g.ty) (s.rd k g.a v).toNat) (asInt (tySigned g.ty) (tyBits g.ty) (immValue g).toNat))) ∧
  Gives (.fcmp f) s f false false false false (fun k => boolVal (combine (f.mod.toNat % 4)
    (cmpVal f.sub.toNat (Fmt.fp32.decode (s.rdNat k f.a)) (Fmt.fp32.decode (s.rdNat k f.b)))
    (s.rdPred k f.c != f.mod.getLsbD 2))) ∧
  Gives (.plog f) s f false false false false (fun k => boolVal (combine (f.sub.toNat / 4 % 4)
    (combine (f.sub.toNat % 4) (s.rdPred k f.a != f.mod.getLsbD 0) (s.rdPred k f.b != f.mod.getLsbD 1))
    (s.rdPred k f.c != f.mod.getLsbD 2))) ∧
  Gives (.sel f) s f w w w false (fun k => if s.rdPred k f.c then s.rd k f.a w else s.rd k f.b w) ∧
  GivesI (.seli g) s g v v (fun k =>
    if (s.thread k).pred (g.sub.toNat % 8) != g.sub.getLsbD 3 then s.rd k g.a v else trunc g.ty (immValue g)) ∧
  Gives (.mov f) s f w w false false (fun k => s.rd k f.a w) ∧
  GivesI (.movi g) s g v false (fun _ => trunc g.ty (immValue g)) ∧
  Gives (.movu f) s f w w false false (fun k => s.rd k f.a w) ∧
  (∀ i ∈ [Instr.sel f, .mov f, .movu f], wellFormed i = true → f.ty = .b32 ∨ f.ty = .b64) ∧
  (∀ i ∈ [Instr.seli g, .movi g], wellFormed i = true → g.ty = .b32 ∨ g.ty = .b64) ∧
  (wellFormed (.sel f) = true → (∃ q, f.c = .q q) ∨ ∃ m, f.c = .m m) ∧ (wellFormed (.seli g) = true → g.sub.getLsbD 4 = false) ∧
  (wellFormed (.movu f) = true → (∃ u, f.d = .s u) ∧ ∀ u, f.a ≠ .s u)

/-- R102: VOTE, BALLOT and MATCH read a source from every active thread of the run, R. -/
def Obligations.VotesReadTheActiveThreadsOfTheRun : Prop := ∀ (f : FWord) (s : State),
  let R := s.actives f.guard
  let p := fun i => s.rdPred i f.a
  let a := fun i => s.rd i f.a (wide f.ty)
  let sum := fun (q : Nat → Bool) => BitVec.ofNat 64 ((R.map (fun i => if q i then 2 ^ (i % 32) else 0)).sum)
  Gives (.vote f) s f false false false false (fun _ => boolVal (match f.sub.toNat with
    | 0 => R.all p
    | 1 => R.any p
    | _ => R.all p || R.all (fun i => !p i))) ∧
  Gives (.ballot f) s f false false false false (fun _ => sum p) ∧
  Gives (.matchT f) s f false (wide f.ty) false false (fun t =>
    if f.sub = 0 then sum (fun i => a i == a t)
    else if R.all (fun i => a i == a t) then sum (fun _ => true) else 0)

/-- R105, R107, R108: the floating-point and LN6 instructions. Each lane's result is one rounding, in the word's mode, of the
exact result of its decoded operands (R72..R80); ABS and NEG act on the bits alone. -/
def Obligations.FloatWordsGiveTheirResults : Prop := ∀ (f : FWord) (s : State),
  let w := wide f.ty
  let a := fun k => s.rd k f.a w
  let b := fun k => s.rd k f.b w
  let c := fun k => s.rd k f.c w
  let rm := rmOf f
  let sum := fun k => floatLanes f.ty (fun m x y _ => round (addVal rm (m.decode x) (m.decode y)) m rm) (a k) (b k) 0
  let diff := fun k => floatLanes f.ty (fun m x y _ => round (addVal rm (m.decode x) (m.decode y).negate) m rm) (a k) (b k) 0
  let prod := fun k => floatLanes f.ty (fun m x y _ => round (mulVal (m.decode x) (m.decode y)) m rm) (a k) (b k) 0
  let fma := fun k =>
    floatLanes f.ty (fun m x y z => round (addVal rm (mulVal (m.decode x) (m.decode y)) (m.decode z)) m rm) (a k) (b k) (c k)
  let least := fun k => floatLanes f.ty (fun m x y _ => minCode m x y) (a k) (b k) 0
  let most := fun k => floatLanes f.ty (fun m x y _ => maxCode m x y) (a k) (b k) 0
  let magn := fun k => floatLanes f.ty (fun m x _ _ => x % 2 ^ m.magBits) (a k) 0 0
  let minus := fun k => floatLanes f.ty (fun m x _ _ => (x + 2 ^ m.magBits) % 2 ^ (m.magBits + 1)) (a k) 0 0
  Gives (.fadd f) s f w w w false sum ∧ Gives (.hadd f) s f w w w false sum ∧
  Gives (.fsub f) s f w w w false diff ∧ Gives (.hsub f) s f w w w false diff ∧
  Gives (.fmul f) s f w w w false prod ∧ Gives (.hmul f) s f w w w false prod ∧
  Gives (.ffma f) s f w w w w fma ∧ Gives (.hfma f) s f w w w w fma ∧
  Gives (.fmin f) s f w w w false least ∧ Gives (.hmin f) s f w w w false least ∧
  Gives (.fmax f) s f w w w false most ∧ Gives (.hmax f) s f w w w false most ∧
  Gives (.fclamp f) s f w w w w (fun k => fpMin f.ty (fpMax f.ty (a k) (b k)) (c k)) ∧
  Gives (.fabs f) s f w w false false magn ∧ Gives (.habs f) s f w w false false magn ∧
  Gives (.fneg f) s f w w false false minus ∧ Gives (.hneg f) s f w w false false minus ∧
  Gives (.fround f) s f w w false false (fun k => fpRoundInt rm (a k)) ∧
  Gives (.hdot2 f) s f false false false false (fun k =>
    fpDot2 f.ty rm (s.rd k f.a false) (s.rd k f.b false) (s.rd k f.c false)) ∧
  Gives (.lmul f) s f w w w false (fun k => packLanes 8 4 (fun j => lmulByte (laneOf 8 (a k) j) (laneOf 8 (b k) j))) ∧
  Gives (.ladd f) s f w w w false (fun k => packLanes 8 4 (fun j => laddByte (laneOf 8 (a k) j) (laneOf 8 (b k) j)))

/-- R109 to R115: the conversions, DEQ, QBLK and BDOT.tsc give each active thread the value of its row: each converts its decoded
operand to the destination's format with one rounding, packs or takes one field, multiplies an element by its scale, names a
block's scale, or sums a block's products. That integer element 0 is +0, so that a negative scale gives -0, is the model's choice (log 48,
DEDUCED). -/
def Obligations.ConversionWordsGiveTheirResults : Prop := ∀ (f : FWord) (s : State),
  let st := (tyOfCode f.mod.toNat).getD .s32
  let a := fun k => s.rdNat k f.a
  Gives (.cvt f) s f (wide f.ty) (wide st) false false (fun k =>
    cvtVal f.ty st (f.sub.getLsbD 0) (rmOf f) (s.rd k f.a (wide st))) ∧
  Gives (.cvtl f) s f false false false false (fun k => packLanes 16 2 (fun i =>
    cvtlLane f.ty ((tyOfCode f.mod.toNat).getD .s16x2) (rmOf f) (laneOf 16 (s.rd k f.a false) i))) ∧
  Gives (.cvtn f) s f false false false false (fun k => BitVec.ofNat 64 (putField (s.rdNat k f.c) (fieldBits f.mod.toNat)
    (f.sub.toNat % 8) (elementCode f.mod.toNat (f.sub.getLsbD 4) (rmOf f) (Fmt.fp32.decode (a k))))) ∧
  Gives (.cvtw f) s f false false false false (fun k => BitVec.ofNat 64
    (round (elementVal f.mod.toNat (getField f.mod.toNat (f.sub.toNat % 8) (a k))) .fp32 .rn)) ∧
  Gives (.deq f) s f false false false false (fun k =>
    let e := elementVal (deqElement f.mod.toNat) (getField (deqElement f.mod.toNat) (f.sub.toNat % 8) (a k))
    BitVec.ofNat 64 (round (mulVal (if f.mod = 0xC then e.scale (-6) else e)
      (scaleVal (f.sub.toNat / 8) (s.rdNat k f.b))) .fp32 (rmOf f))) ∧
  Gives (.qblk f) s f false false false false (fun k =>
    BitVec.ofNat 64 (qblkVal (f.sub == 1) f.mod.toNat (Fmt.fp32.decode (a k % 2 ^ 31)))) ∧
  Gives (.bdotTsc f) s f false false false false (fun k =>
    BitVec.ofNat 64 (bdotTscVal (s.rd k f.a false) (s.rd k f.b false)))

/-- R115, R121: BDOT.db4 and BDOT.mxfp4 give each active thread its sum, and the blocks that they leave out for all of them are
added to the group's SKIPBLK, which saturates. -/
def Obligations.BlockDotsGiveTheirSumsAndCountOmittedBlocks : Prop := ∀ (f : FWord) (s : State),
  s.clean (s.actives f.guard) {} (fUses f false true true true) →
  let R := s.actives f.guard
  let skip := f.mod.getLsbD 0
  let of := fun (val : BitVec 64 → BitVec 64 → BitVec 64 → Nat × Nat) k => val (s.rd k f.a true) (s.rd k f.b true) (s.rd k f.c true)
  let gives := fun (i : Instr) (val : BitVec 64 → BitVec 64 → BitVec 64 → Nat × Nat) =>
    ∃ t, exec i s = .next (t.updGroup s.curG (fun g =>
        { g with skipblk := satInc32 g.skipblk ((R.map (fun k => (of val k).2)).sum) })) ∧
      Computed s t R f.d false (fun k => s.lastUses k f 2 2 2) {} (fun k => BitVec.ofNat 64 (of val k).1)
  gives (.bdotDb4 f) (bdotDb4Val skip) ∧ gives (.bdotMxfp4 f) (bdotMxVal skip (f.mod.getLsbD 1))

/-- R116 to R119: the exchange instructions read the active threads of the run only. A reader whose source thread is not among
them takes c of its own; scans and reductions combine the sources in ascending thread index. XBAR reads its pattern table as its
group finds it: the table itself, or, while another group's PATLD rewrites it, each entry as it was or as it is. When an entry is
rewritten is a free value of the model's (log 52, DESIGN CHOICE). -/
def Obligations.ExchangeWordsReadTheActiveThreadsOfTheRun : Prop := ∀ (f : FWord) (s : State),
  let w := wide f.ty
  let R := s.actives f.guard
  let from' := fun (k u : Nat) => if tkey s.curG u ∈ R then s.rd (tkey s.curG u) f.a w else s.rd k f.c w
  let shuffled := fun (W k : Nat) => match shuffleSource (f.sub.toNat % 4) W (k % 32) (s.rdNat k f.b) with
    | some u => from' k u
    | none => s.rd k f.c w
  let a := fun k => s.rd k f.a false
  let scanned := fun (head : Nat → Bool) (k : Nat) =>
    (((scanFrom f.sub.toNat f.ty (rmOf f) (f.mod.getLsbD 0) a head none R).find? (fun e => e.1 == k)).map (·.2)).getD 0
  let total := ((scanFrom f.sub.toNat f.ty (rmOf f) false a (fun _ => false) none R).getLast?.map (·.2)).getD 0
  Gives (.shfl f) s f w w false w (shuffled 32) ∧
  Gives (.shflx f) s f w w false w (shuffled (2 ^ f.mod.toNat)) ∧
  Gives (.bcast f) s f w w false w (fun k => from' k (s.rdNat k f.b % 32)) ∧
  (let n := f.sub.toNat % 16
   let now := Tab.getD (s.core (s.curG / 512)).pats {} n
   let found := fun k => s.patFor s.curG n (k % 32)
   (∀ k, ((∀ b, now.before = some b → b.uid = (s.group s.curG).uid) → found k = (now.tag, now.entries)) ∧
     ∀ b, now.before = some b → found k = (now.tag, now.entries) ∨ found k = b.was) ∧
   Gives (.xbar f) s f false false false false (fun k =>
     let e := if (found k).1 = some (s.group s.curG).owner then Tab.getD (found k).2 0 (k % 32) else 0
     let u := tkey s.curG (patSource e)
     if patValid e ∧ u ∈ R then BitVec.ofNat 64 (permBytes (s.rdNat u f.a) (s.rdNat u f.b) (patSels e)) else s.rd k f.c false)) ∧
  Gives (.scan f) s f false false false false (scanned (fun _ => false)) ∧
  Gives (.scanseg f) s f false false false false (scanned (fun j => s.rdPred j f.c)) ∧
  Gives (.reduce f) s f false false false false (fun _ => total) ∧
  Gives (.reduceu f) s f false false false false (fun _ => total)

/-! ### Long-latency words and memory at issue -/

/-- R106, R120, R223, R43, R44: a special function, XPIPE and MONWAIT leave one long-latency operation for a lone thread. The
result of a special function, and of an XPIPE that names the thread itself or a pipe beyond 31, is fixed at issue; MONWAIT holds
its thread in a wait even within a clause. -/
def Obligations.LongLatencyWordsIssueTheirOperation : Prop := ∀ (f : FWord) (s : State) (k : Nat),
  let w := wide f.ty
  let x := Fmt.fp32.decode (s.rdNat k f.a)
  let fun' := fun (i : Instr) (v : Nat) => s.lone k f.guard { long := true } (fUses f false false false false) → s.flagFree k →
    ∃ t o, exec i s = .next t ∧ Issued s t k { long := true } [o] (s.lastUses k f 1 1 1) ∧ o.dest = s.destOf k f.d ∧
      o.kind = .value (BitVec.ofNat 64 v) 1
  fun' (.frcp f) (frcp x) ∧ fun' (.frsq f) (frsq x) ∧ fun' (.fex2 f) (fex2 x) ∧ fun' (.flg2 f) (flg2 x) ∧
  fun' (.fsin f) (fsin x) ∧ fun' (.fcos f) (fcos x) ∧
  (s.lone k f.guard { long := true } (fUses f w w false false) → s.flagFree k →
    ∃ t o, exec (.xpipe f) s = .next t ∧ Issued s t k { long := true } [o] (s.lastUses k f (regs w) 1 1) ∧
      o.dest = s.destOf k f.d ∧
      (let b := s.rdNat k f.b
       o.kind = if b / 1024 ≠ 0 then .value 0 (regs w)
         else if b / 32 = (s.group (k / 32)).gidx ∧ b % 32 = k % 32 then .value (s.rd k f.a w) (regs w)
         else .xpipe (b / 32) (b % 32) (match f.a with | .w i => i.val | _ => 0) (regs w))) ∧
  (s.lone k f.guard { long := true } (fUses f false false false false) → s.flagFree k →
    ∃ t o, exec (.monwait f) s = .next t ∧ t.ops = s.ops ++ [o] ∧ o.IsOf s k 0 ∧ o.dest = s.destOf k f.d ∧
      o.kind = .monwait (if s.rdNat k f.a = 0 then none else some (s.now + s.rdNat k f.a)) ∧
      (t.thread k).st = .waitOp ∧ (t.thread k).pc = ((s.thread k).pass { long := true } s.cur.inRep s.cur.len).pc ∧ t.mem = s.mem)

/-- R206 to R212: a load of a lone thread whose check passes leaves one load at the checked place, of the size and sign of its
field, or one for each 8-byte word of a vector (R207), and touches no memory; a .far one drops the L1 sectors that it reads. LDU's
result is a uniform register's; LDVQ's check is that of its index byte. -/
def Obligations.LoadsIssueOneCheckedAccess : Prop := ∀ (f : MWord) (s : State) (k : Nat) (p : Place),
  let n := memSize f
  let signed := decide (f.sub.toNat % 8 = 1 ∨ f.sub.toNat % 8 = 3)
  let load := fun (i : Instr) (sp : SpaceCode) =>
    s.lone k f.guard { long := true } (memUses f sp (sizeRegs n) true) → s.flagFree k →
    s.checkAccess k sp .read (s.memAddr k f sp n) n n = .ok p →
    ∃ t os, exec i s = .next t ∧ Issued (s.dropFar k p (memCache f) n) t k { long := true } os (s.memLastUses k f sp 0) ∧
      os.length = n / min n 8 ∧ ∀ j (o : Op), os[j]? = some o → o.isAt (p.word j) ∧ o.dest = (s.destOf k f.r).word j ∧
        ∃ grain, o.kind = .load (min n 8) signed (memCache f) grain
  let size := tyBits f.ty / 8
  let off := asInt true 32 (s.rdNat k f.index) * 2 ^ (f.mod.toNat % 4) + f.disp.toInt * size
  load (.ldg f) .g ∧ load (.ldl f) .l ∧ load (.ldx f) .x ∧ load (.ldv f) (vecSpace f) ∧
  (s.lone k f.guard { long := true } (memUses f .g (sizeRegs n) true) → s.flagFree k →
    s.checkAccess k .g .read (s.memAddr k f .g n) n n = .ok p →
    ∃ t o grain, exec (.ldu f) s = .next t ∧ Issued (s.dropFar k p (memCache f) n) t k { long := true } [o] [] ∧ o.isAt p ∧
      o.dest = s.destOf k f.r ∧ o.kind = .load n false (memCache f) grain) ∧
  (s.lone k f.guard { long := true } (memUses f .g (sizeRegs size) true) → s.flagFree k → 0 ≤ off → off % size = 0 →
    s.checkAccess k .g .read ((s.rd k f.base true).toNat + off / 8) 1 1 = .ok p →
    ∃ t o, exec (.ldvq f) s = .next t ∧ Issued (s.dropFar k p (memCache f) 1) t k { long := true } [o] (s.memLastUses k f .g 0) ∧
      o.isAt p ∧ o.dest = s.destOf k f.r ∧ o.kind = .vq (f.sub.toNat % 8) (off % 8).toNat size (memCache f))

/-- R206 to R208, R211, R214 to R217: a store of a lone thread whose check passes is posted with the bytes of its register, read at
issue, a vector as one store for each 8-byte word (R207); the thread waits for nothing, and no byte of memory has changed yet. An
atomic leaves one atomic with its operation, type and operands, and drops its line from L1; the reductions are posted and wait for
nothing. -/
def Obligations.StoresAndAtomicsIssueOneCheckedAccess : Prop := ∀ (s : State) (k : Nat) (p : Place),
  (∀ f : MWord,
    let n := memSize f
    let store := fun (i : Instr) (sp : SpaceCode) =>
      s.lone k f.guard {} (memUses f sp (sizeRegs n) false) → s.checkAccess k sp .write (s.memAddr k f sp n) n n = .ok p →
      ∃ t os, exec i s = .next t ∧ Issued s t k {} os (s.memLastUses k f sp (sizeRegs n)) ∧ os.length = n / min n 8 ∧
        ∀ j (o : Op), os[j]? = some o → o.isAt (p.word j) ∧ o.dest = .none ∧
          o.kind = .store (((s.storeData k f.r n).drop (8 * j)).take 8) (memCache f == .once)
    store (.stg f) .g ∧ store (.stl f) .l ∧ store (.stx f) .x ∧ store (.stv f) (vecSpace f)) ∧
  ∀ f : FWord,
    let w := wide f.ty
    let n := tyBits f.ty / 8
    let atomic := fun (i : Instr) (sp : SpaceCode) (op : AtomOp) (posted : Bool) =>
      s.lone k f.guard { long := !posted } (fUses f w (baseWide sp) w w) → (posted = true ∨ s.flagFree k) →
      s.checkAccess k sp .atomic (s.rd k f.a (baseWide sp)).toNat n n = .ok p →
      ∃ t o, exec i s = .next t ∧
        Issued (s.dropAtomic k p) t k { long := !posted } [o] (s.lastUses k f (regs (baseWide sp)) (regs w) (regs w)) ∧
        o.isAt p ∧ o.dest = s.destOf k f.d ∧ o.scope = f.sc.toNat ∧ o.acq = f.mod.getLsbD 0 ∧
        o.kind = .atomic op f.ty (s.rd k f.b w) (s.rd k f.c w) posted
    let op := atomOpOf f.sub.toNat
    atomic (.atomg f) .g op false ∧ atomic (.atoml f) .l op false ∧ atomic (.atomx f) .x op false ∧
    atomic (.redg f) .g op true ∧ atomic (.redx f) .x op true ∧
    atomic (.casg f) .g .cas false ∧ atomic (.casl f) .l .cas false ∧ atomic (.casx f) .x .cas false

/-- R207, R208, R141: a load, store or atomic of a lone thread whose check fails raises the fault that the check gives, and
accesses no byte. -/
def Obligations.FailedAccessChecksRaiseTheirFault : Prop := ∀ (f : MWord) (g : FWord) (s : State) (k : Nat) (fi : FaultInfo),
  let n := memSize f
  let m := tyBits g.ty / 8
  let load := fun (i : Instr) (sp : SpaceCode) =>
    s.lone k f.guard { long := true } (memUses f sp (sizeRegs n) true) → s.flagFree k →
    s.checkAccess k sp .read (s.memAddr k f sp n) n n = .error fi → exec i s = .next (s.raise k fi)
  let store := fun (i : Instr) (sp : SpaceCode) =>
    s.lone k f.guard {} (memUses f sp (sizeRegs n) false) →
    s.checkAccess k sp .write (s.memAddr k f sp n) n n = .error fi → exec i s = .next (s.raise k fi)
  let atomic := fun (i : Instr) (sp : SpaceCode) (posted : Bool) =>
    s.lone k g.guard { long := !posted } (fUses g (wide g.ty) (baseWide sp) (wide g.ty) (wide g.ty)) →
    (posted = true ∨ s.flagFree k) →
    s.checkAccess k sp .atomic (s.rd k g.a (baseWide sp)).toNat m m = .error fi → exec i s = .next (s.raise k fi)
  load (.ldg f) .g ∧ load (.ldl f) .l ∧ load (.ldx f) .x ∧ load (.ldv f) (vecSpace f) ∧ load (.ldu f) .g ∧
  store (.stg f) .g ∧ store (.stl f) .l ∧ store (.stx f) .x ∧ store (.stv f) (vecSpace f) ∧
  atomic (.atomg g) .g false ∧ atomic (.atoml g) .l false ∧ atomic (.atomx g) .x false ∧ atomic (.redg g) .g true ∧
  atomic (.redx g) .x true ∧ atomic (.casg g) .g false ∧ atomic (.casl g) .l false ∧ atomic (.casx g) .x false

/-- R206, R207, R208, R162, R186: the address check. Global addresses wrap at 2^64, a misaligned one is ILLOPD, then translation
decides; a scratch offset below 0, from 2^32 on, or beyond the team's allocation is BOUNDS. -/
def Obligations.AddressChecksFollowTheirOrder : Prop := ∀ (s : State) (k n : Nat) (acc : Acc) (v : Int), 0 < n →
  (s.checkAccess k .g acc v n n =
    if (v % 2 ^ 64).toNat % n ≠ 0 then .error { cls := .illopd, addr := (s.thread k).pc.toNat }
    else (s.translateFor k acc (v % 2 ^ 64).toNat n).map Place.g) ∧
  (v % n ≠ 0 → s.checkAccess k .l acc v n n = .error { cls := .illopd, addr := (s.thread k).pc.toNat }) ∧
  (v % n = 0 → v < 0 ∨ 2 ^ 32 ≤ v → s.checkAccess k .l acc v n n = .error { cls := .bounds, addr := (s.thread k).pc.toNat }) ∧
  (∀ t : Team, (s.group (k / 32)).team.bind s.team? = some t → v % n = 0 → 0 ≤ v → v < 2 ^ 32 →
    s.checkAccess k .l acc v n n =
      if v.toNat + n ≤ t.scratchSize then .ok (.l t.uid v.toNat) else .error { cls := .bounds, addr := (s.thread k).pc.toNat })

/-- R162: translation of an owner address. From 2^48 on it is PROT; in the reserve window it is the pinned reserve's own
location or ALLOT; below, no entry is XMISS, an entry without the permission PROT, and a frame outside the allotment ALLOT. -/
def Obligations.TranslationDecidesByWindowEntryAndAllotment : Prop :=
  ∀ (s : State) (core owner : Nat) (asp : Option Nat) (acc : Acc) (a n : Nat),
  let r := s.translate core owner asp acc a n
  let hit := (s.core core).tlb.find? (fun e => e.owner == owner && tlbMatches e.bits asp a)
  (2 ^ 48 ≤ a → r = .error { cls := .prot, acc, addr := a % 2 ^ 48 }) ∧
  (reserveBase ≤ a → a < 2 ^ 48 → (∀ l, (s.owner owner).mapReserve (a - reserveBase) n = some l → r = .ok l) ∧
    ((s.owner owner).mapReserve (a - reserveBase) n = none → r = .error { cls := .allot, acc, addr := a })) ∧
  (a < reserveBase → hit = none → r = .error { cls := .xmiss, acc, addr := a }) ∧
  (∀ e, a < reserveBase → hit = some e → tlbAdmits e.bits acc = false → r = .error { cls := .prot, acc, addr := a }) ∧
  (∀ e, a < reserveBase → hit = some e → tlbAdmits e.bits acc = true →
    let aa := tlbFrame e.bits * 2 ^ 16 + a % tlbBytes e.bits
    (∀ l, (s.owner owner).mapAA (s.core core).world aa n = some l → r = .ok { l with entry := some e.bits }) ∧
    ((s.owner owner).mapAA (s.core core).world aa n = none →
      r = .error { cls := .allot, acc, addr := a, aux := BitVec.ofNat 32 (aa / 2 ^ 16) }))

/-! ### Performing operations -/

/-- R214: a posted store that may be performed writes its bytes where it was checked, and no other byte of memory changes; in a
team's scratch likewise. -/
def Obligations.PerformedStoresWriteTheirBytes : Prop := ∀ (s : State) (id : Nat) (o : Op) (data : List Byte) (once : Bool),
  s.op? id = some o → o.kind = .store data once → o.dest = .none → o.split = false → s.mayPerform o = true → s.abandoned o = false →
  (o.space = .g → o.world = 0 → isAlias o.addr = false → s.fails o = false → s.moved = [] →
    ∃ t, exec (.storePerformed id) s = .next t ∧
      (∀ i, i < data.length → Memory.read t.mem (o.addr + i) = data.getD i 0) ∧
      (∀ a, a < o.addr ∨ o.addr + data.length ≤ a → Memory.read t.mem a = Memory.read s.mem a) ∧
      t.opsBut id = s.opsBut id ∧ (∀ p ∈ t.ops, p.id ≠ id) ∧ t.groups = s.groups ∧ t.teams = s.teams ∧
      ∀ k, t.thread k = { s.thread k with monitor := (t.thread k).monitor }) ∧
  (∀ uid key, o.space = .l uid → s.findTeam uid = some key →
    ∃ t, exec (.storePerformed id) s = .next t ∧ t.mem = s.mem ∧
      (∀ i, i < data.length → Memory.read (t.team key).scratch (o.addr + i) = data.getD i 0) ∧
      (∀ a, a < o.addr ∨ o.addr + data.length ≤ a → Memory.read (t.team key).scratch a = Memory.read (s.team key).scratch a) ∧
      t.ops = s.ops.filter (fun p => p.id != id) ∧ t.groups = s.groups ∧ t.threads = s.threads)

/-- R44, R209: a long-latency operation that may be performed delivers its result to the rows that it was issued for, by absolute
index, and its flag clears with the last operation that holds it. A .far load that no store of the core stands before delivers
the bytes of memory. Memory keeps every byte. (A pair whose rows are written one by one, R45, stays pending until both are.) -/
def Obligations.CompletedOperationsDeliverTheirResults : Prop := ∀ (s : State) (id : Nat) (o : Op) (g abs : Nat),
  let k := tkey g o.lane
  s.op? id = some o → s.findGroup o.uid = some g → o.lane < 32 → o.dest = .win abs → (s.thread k).st ≠ .exited →
  s.mayPerform o = true → s.abandoned o = false → o.split = false →
  let delivers := fun (v n : Nat) => ∃ t, exec (.longLatencyComplete id) s = .next t ∧
    (∀ j, j < n → (t.thread k).reg (abs + j) = BitVec.ofNat 32 (v / 2 ^ (32 * j))) ∧
    (∀ r, r < abs ∨ abs + n ≤ r → (t.thread k).reg r = (s.thread k).reg r) ∧
    (∀ j, j ≠ k → (t.thread j).regs = (s.thread j).regs) ∧ t.mem = s.mem ∧ t.opsBut id = s.opsBut id ∧ (∀ p ∈ t.ops, p.id ≠ id) ∧
    ∀ f, o.flag = some f → o.lanes = [o.lane] → (s.group g).rep = none →
      (∀ p ∈ s.ops, p.id ≠ id → p.flagFor o.lane ≠ some f) → (t.thread k).flags.getLsbD f = false
  (∀ v n, o.kind = .value v n → delivers v.toNat n) ∧
  (∀ n signed grain, o.kind = .load n signed .far grain → o.space = .g → o.world = 0 → isAlias o.addr = false →
    s.fails o = false → s.moved = [] → s.poison = [] → o.acq = false → s.storeQueue o.core = [] → s.ownStores o false = [] →
    delivers (loadValue n signed (Memory.readN s.mem o.addr n)) (max 1 (n / 4)))

/-- R216, R217: an atomic at cluster scope or wider that may be performed replaces the word by its operation's result, in one step,
and delivers the old value; no other byte of memory changes. A posted one delivers nothing. -/
def Obligations.PerformedAtomicsReplaceTheWord : Prop :=
  ∀ (s : State) (id : Nat) (o : Op) (op : AtomOp) (ty : Ty) (b c : BitVec 64) (posted : Bool),
  s.op? id = some o → o.kind = .atomic op ty b c posted → o.space = .g → o.world = 0 → 3 ≤ o.scope → isAlias o.addr = false →
  s.fails o = false → s.moved = [] → s.poison = [] → s.mayPerform o = true → s.abandoned o = false → o.split = false →
  let n := tyBits ty / 8
  let old : BitVec 64 := BitVec.ofNat 64 (leNat (Memory.readN s.mem o.addr n))
  let new := leBytes n (atomNew op ty old b c).toNat
  ∃ t, exec (if posted then .storePerformed id else .longLatencyComplete id) s = .next t ∧
    (∀ i, i < n → Memory.read t.mem (o.addr + i) = new.getD i 0) ∧
    (∀ a, a < o.addr ∨ o.addr + n ≤ a → Memory.read t.mem a = Memory.read s.mem a) ∧
    t.opsBut id = s.opsBut id ∧ (∀ p ∈ t.ops, p.id ≠ id) ∧
    ∀ g abs, posted = false → s.findGroup o.uid = some g → o.lane < 32 → o.dest = .win abs → (s.thread (tkey g o.lane)).st ≠ .exited →
      ∀ j, j < o.regs → (t.thread (tkey g o.lane)).reg (abs + j) = BitVec.ofNat 32 (old.toNat / 2 ^ (32 * j))

/-- R218, R219, R221, R225: an operation stays pending while an earlier access of its thread touches a common 8-byte location, is an
acquire, or is one that a release or a fence of the thread has named; of these a spill waits only for a common location or a fence, and no
release waits for it (R88). -/
def Obligations.EarlierAccessesHoldLaterOnesBack : Prop := ∀ (s : State) (o p : Op),
  s.op? o.id = some o → p ∈ s.ops → p.id < o.id → o.sameThread p = true → p.isMem = true → o.isMem = true →
  s.abandoned o = false → s.hostHolds o = false →
  ((p.acq = true ∧ o.spill = false) ∨ (p.spill = false ∧ ∃ w ∈ o.waits, p.id < w.1 ∧ 3 ≤ w.2) ∨ ((p.isLoad = true ∨ p.isAtomic = true) ∧ p.id < o.waitLoads) ∨
    (o.meets p = true ∧ (o.isLoad = false ∨ p.isStore = false))) →
  exec (.longLatencyComplete o.id) s = .next s ∧ exec (.storePerformed o.id) s = .next s

/-! ### Fences, cache control, monitors -/

/-- R221: a fence marks its thread with the number that parts earlier operations from later ones, and moves it on; one at thread
scope orders nothing more than R218 and only moves it on. Nothing else changes. After an acquiring fence at cluster scope or wider the
thread's next load drops the owner's L1 lines; one at system scope makes its later loads obtain the host's copies of the lines that the host
may hold now (R242). How the model keeps that is its own (log 31, DEDUCED). -/
def Obligations.FencesMarkTheirThread : Prop := ∀ (f : FWord) (s : State) (k : Nat), s.lone k f.guard {} [] →
  let n := s.nextId + 1
  let sc := f.sc.toNat
  let s' := { s with nextId := n }
  let rel := fun (t : Thread) => { t with rels := t.rels ++ [(n, sc)] }
  let system := fun (t : Thread) => if sc = 6 then s.withSystem t else t
  let acq := fun (t : Thread) => { system t with
    acqMark := n, acqFences := t.acqFences ++ [(n, sc)], invMarks := if 3 ≤ sc then t.invMarks ++ [n] else t.invMarks }
  let full := fun (t : Thread) => { acq (rel t) with fulls := t.fulls ++ [(n, sc)] }
  let marks := fun (i : Instr) (m : Thread → Thread) => MovesOn i s s' k {} (if sc = 0 then id else m)
  marks (.fenceRel f) rel ∧ marks (.fenceAcq f) acq ∧ marks (.fenceFull f) full ∧
  (∀ t line, line ∈ (s.withSystem t).sysLines ↔ line ∈ t.sysLines ∨ (Tab.find s.hostLines line).isSome = true) ∧
  ∀ o : Op, s.findGroup o.uid = some (k / 32) → o.lanes = [k % 32] → (∃ m ∈ (s.thread k).invMarks, m ≤ o.id) →
    ∀ l ∈ ((s.fenceInvalidate o).core o.core).l1, l.owner ≠ o.owner

/-- R222, R213, R223: CINV removes lines of the issuing owner from the core's L1, or its fetched words, and nothing else; .code waits
until what a FENCE before it makes visible is performed (R54). Where no entry translates the address of .line, all the owner's lines go,
the one that holds it among them: that is the model's choice (log 56, DESIGN CHOICE). PREFG changes no byte of memory, at level .l2 no
line of L1, and at level .l1 leaves its line in L1. MONARM arms the monitor of its thread on the line of its checked address; an address that fails its check faults.
-/
def Obligations.CacheControlAndMonarmActOnTheirLines : Prop := ∀ (f : FWord) (g : MWord) (s : State) (k : Nat),
  let c := s.cur.core
  let owner := (s.group s.curG).owner
  let line := (s.memAddr k g .g 128 % 2 ^ 64).toNat / 128 * 128
  let drops := fun (p : L1Line → Bool) => s.setCore c { s.core c with l1 := (s.core c).l1.filter (fun l => !p l) }
  (s.lone k f.guard {} [] →
    MovesOn (.cinvL1 f) s (drops (fun l => l.owner == owner)) k {} id ∧
    ((s.thread k).rels = [] ∨ s.quiet k →
      MovesOn (.cinvCode f) s (s.setCore c { s.core c with code := (s.core c).code.filter (fun w => w.owner != owner) }) k {} id) ∧
    ((s.drainFences k).fencesDone k = false → exec (.cinvCode f) s = .next (s.drainFences k))) ∧
  (s.lone k g.guard {} (memUses g .g 1 false) →
    let frees := s.memLastUses k g .g 0
    (∀ l, s.lineAt k line = some l → ActsOnce (.cinvLine g) s (drops (fun x => x.owner == owner && x.line == l)) k .zero false frees {} 0) ∧
    (s.lineAt k line = none → ActsOnce (.cinvLine g) s (drops (fun x => x.owner == owner)) k .zero false frees {} 0) ∧
    (∀ l, s.translateFor k .read line 1 = .ok l → s.lineAt k line = some (l.dpa / 128)) ∧
    (∃ s', ActsOnce (.prefg g) s s' k .zero false frees {} 0 ∧
      s' = { s with cores := s'.cores, l2 := s'.l2, nowin := s'.nowin, draws := s'.draws, rows := s'.rows, limits := s'.limits
                    lastActs := s'.lastActs } ∧ (g.sub = 0 → ∀ c', (s'.core c').l1 = (s.core c').l1) ∧
      (∀ e, s.translateFor k .read line 128 = .error e → s' = s) ∧
      ∀ l, g.sub ≠ 0 → s.translateFor k .read line 128 = .ok l → s.farDown l.dpa = false →
        (s'.core (k / 32 / 512)).l1Hit (s.group (k / 32)).owner l.dpa 128 = true)) ∧
  (s.lone k g.guard {} (memUses g .g 1 false) →
    (∀ l, s.checkAccess k .g .read (s.memAddr k g .g 8) 8 8 = .ok (.g l) →
      ∃ t, exec (.monarm g) s = .next t ∧ (t.thread k).monitor = some { line := l.dpa / 128 } ∧ t.movedFrom s k {} ∧
        t = { s with threads := t.threads } ∧ ∀ j, j ≠ k → t.thread j = s.thread j) ∧
    (∀ e, s.checkAccess k .g .read (s.memAddr k g .g 8) 8 8 = .error e → exec (.monarm g) s = .next (s.raise k e)))

/-! ### Control flow -/

/-- R131 to R133, R128: a taken branch of a lone thread sets its PC, ends its clause, and resets its backoff exponent where it goes
forward; a branch that does not go forward takes a lap, counted against LAPQ as it stood at the group's last issue (R129). No other thread
changes. -/
def Obligations.BranchesSetThePc : Prop := ∀ (f : OffWord) (g : FWord) (s : State) (k : Nat),
  let pc := (s.thread k).pc
  let taken := fun (i : Instr) (target : DWord) (freed : List Nat) => ∃ t, exec i s = .next t ∧
    t = { s with threads := t.threads, groups := t.groups } ∧ (∀ j, j ≠ k → t.thread j = s.thread j) ∧
    (∀ h, h ≠ s.curG → t.group h = s.group h) ∧ t.group s.curG = { s.group s.curG with orbit := (t.group s.curG).orbit } ∧
    (t.thread k).pc = target ∧ (t.thread k).clause = none ∧ (t.thread k).boexp = (if pc < target then 0 else (s.thread k).boexp) ∧
    (t.thread k).depth = (s.thread k).depth ∧ (t.thread k).winbase = (s.thread k).winbase ∧ (t.thread k).preds = (s.thread k).preds ∧
    (∀ r, r ∉ freed → (t.thread k).reg r = (s.thread k).reg r) ∧
    (pc < target → t.groups = s.groups ∧ (t.thread k).st = (s.thread k).st) ∧
    (target ≤ pc → (t.group s.curG).orbit.lapcnt = min ((s.group s.curG).orbit.lapcnt + 1) 255 ∧
      ((t.thread k).st = if (s.group s.curG).lapq ≤ min ((s.group s.curG).orbit.lapcnt + 1) 255
        then .lapped else (s.thread k).st))
  let off := pc + (f.off.signExtend 64 <<< 3)
  let reg := s.rd k g.a true &&& ~~~(7 : DWord)
  (s.lone k f.guard ctrl [] → taken (.bra f) off [] ∧ taken (.braU f) off []) ∧
  (s.lone k g.guard ctrl (fUses g false true false false) →
    taken (.brx g) reg (s.lastUses k g 2 1 1) ∧ taken (.brxU g) reg (s.lastUses k g 2 1 1))

/-- R134: a call of a lone thread that needs no spill opens a window of 8 × code registers further on, leaves the link in the two
registers below it, raises DEPTH and goes to its target; a window beyond the allotment is ILLOPD, and DEPTH 255 is DEPTH: neither of
them has another effect (R141). -/
def Obligations.CallsOpenAWindow : Prop := ∀ (f : OffWord) (g : FWord) (s : State) (k : Nat),
  let t0 := s.thread k
  let A := (s.group (k / 32)).allot
  let calls := fun (i : Instr) (code : Nat) (target : DWord) (freed : List Nat) =>
    let wb := t0.winbase + 8 * code
    let link : DWord := ((t0.pc + 8) &&& ~~~(7 : DWord)) ||| BitVec.ofNat 64 code
    min (wb + 32) A ≤ t0.rlo + 48 →
    (A < wb + 8 → exec i s = .next (s.raise k { cls := .illopd, addr := t0.pc.toNat })) ∧
    (wb + 8 ≤ A → t0.depth = 255 → exec i s = .next (s.raise k { cls := .depth, addr := t0.pc.toNat })) ∧
    (wb + 8 ≤ A → t0.depth ≠ 255 → 2 ≤ wb → ∃ t, exec i s = .next t ∧ t = { s with threads := t.threads } ∧
      (∀ j, j ≠ k → t.thread j = s.thread j) ∧
      t.thread k = { t0 with winbase := wb, depth := t0.depth + 1, pc := target, clause := none, boexp := 0, regs := (t.thread k).regs } ∧
      (t0.rlo ≤ wb - 2 → wb ≤ t0.rlo + 48 → (t.thread k).pair (wb - 2) = link) ∧
      ∀ r, t0.rlo ≤ r → r < t0.rlo + 48 → r < wb - 2 ∨ wb ≤ r → r ∉ freed → (t.thread k).reg r = t0.reg r)
  (s.lone k f.guard ctrl [] → calls (.call f) f.sub.toNat (t0.pc + (f.off.signExtend 64 <<< 3)) []) ∧
  (s.lone k g.guard ctrl (fUses g false true false false) →
    calls (.callx g) g.sub.toNat (s.rd k g.a true &&& ~~~(7 : DWord)) (s.lastUses k g 2 1 1))

/-- R135, R136: a return at DEPTH 0, like EXIT, ends its thread, which keeps PC and DEPTH and frees its rows; a return that needs no
fill restores the caller's window and goes to the link; a link of no window is ILLOPD. -/
def Obligations.ReturnsAndExitsEndTheCallOrTheThread : Prop := ∀ (f : FWord) (s : State) (k : Nat), s.lone k f.guard ctrl [] →
  let t0 := s.thread k
  let exits := fun (i : Instr) => ∃ t, exec i s = .next t ∧ t = { s with threads := t.threads } ∧
    t.thread k = { t0 with st := .exited, regs := [], clause := none, watch := none, monitor := none } ∧
    ∀ j, j ≠ k → (s.thread j).st ≠ .atSync → t.thread j = s.thread j
  exits (.exit f) ∧ (t0.depth = 0 → exits (.ret f)) ∧
  (t0.depth ≠ 0 → 2 ≤ t0.winbase → t0.rlo ≤ t0.winbase - 2 →
    s.slotsBusy k (t0.winbase - 24) t0.rlo = false →
    let link := t0.pair (t0.winbase - 2)
    let S := 8 * (link.toNat % 4)
    (S = 0 ∨ t0.winbase < S → exec (.ret f) s = .next (s.raisePc k .illopd)) ∧
    (S ≠ 0 → S ≤ t0.winbase → t0.rlo ≤ t0.winbase - S → ∃ t, exec (.ret f) s = .next t ∧ t = { s with threads := t.threads } ∧
      (∀ j, j ≠ k → t.thread j = s.thread j) ∧
      t.thread k = { t0 with winbase := t0.winbase - S, depth := t0.depth - 1, pc := link &&& ~~~(7 : DWord), clause := none
                             boexp := 0, regs := (t.thread k).regs } ∧
      ∀ r, r < t0.winbase - S + 32 ∨ (s.group (k / 32)).allot ≤ r → (t.thread k).reg r = t0.reg r))

/-- R137 to R140: BACKOFF waits 2^boexp ticks and raises the exponent, up to 12; YIELD laps its thread and starts a quantum; SYNCG
holds its thread until every thread of the group that has not exited is there, and then each goes on at its own PC + 8; those of
SYNCG.group acquire the stores that the arrivals carry (R231, R233).
TRAP raises SVC with its 18-bit code in aux, BKPT raises DEBUG, both with the word's own PC, and NOP only moves on. -/
def Obligations.WaitingTrappingAndIdleWordsActOnTheirThread : Prop := ∀ (f : FWord) (h : OffWord) (s : State) (k : Nat),
  (s.lone k h.guard ctrl [] → exec (.trap h) s =
    .next (s.raise k { cls := .svc, addr := (s.thread k).pc.toNat, aux := h.off.setWidth 32 })) ∧
  (s.lone k f.guard ctrl [] →
  let t0 := s.thread k
  exec (.bkpt f) s = .next (s.raise k { cls := .debug, addr := t0.pc.toNat }) ∧ MovesOn (.nop f) s s k ctrl id ∧
  MovesOn (.backoff f) s s k ctrl (fun t => { t with bodly := 2 ^ t.boexp, boexp := min (t.boexp + 1) 12, st := .backoff }) ∧
  MovesOn (.yield f) s (s.setGroup s.curG { s.group s.curG with orbit := { (s.group s.curG).orbit with qact := true, qcnt := 0 } }) k ctrl
    (fun t => { t with st := .lapped, boexp := 0 }) ∧
  ((f.sc = 1 → s.threadOps k = []) →
    let arrived : Thread := { t0 with st := .atSync, boexp := 0, clause := none, waitBar := f.sc.toNat }
    let s1 := s.setThread k arrived
    let syncs := (s1.liveKeys s.curG).filter (fun j => (s1.thread j).syncsGroup)
    let carried := syncs.flatMap (fun j => s1.carriedBy j s1.nextId)
    let obs := fun j => (s1.thread j).obs ++ if j ∈ syncs then carried.map (fun i => (0, i)) else []
    let others := (groupKeys s.curG).filter (fun j => decide (j ≠ k) && (s.thread j).st != .exited)
    ((∃ j ∈ others, (s.thread j).st ≠ .atSync) → exec (.syncg f) s = .next s1) ∧
    ((∀ j ∈ others, (s.thread j).st = .atSync) → ∃ t, exec (.syncg f) s = .next t ∧ t = { s with threads := t.threads } ∧
      t.thread k = { arrived with st := .ready, pc := t0.pc + 8, obs := obs k } ∧
      (∀ j ∈ others, t.thread j = { s.thread j with st := .ready, pc := (s.thread j).pc + 8, obs := obs j }) ∧
      ∀ j, j ≠ k → j ∉ others → t.thread j = s.thread j)))

/-! ### Clauses, pairs, repetitions -/

/-- R42, R46: at a clause header every thread of the run whose masked flags are clear enters the clause, whatever its predicates,
and the others wait at the header; a malformed header, or one inside a clause, is ILLOP for every thread of the run. -/
def Obligations.ClauseHeadersAdmitThreadsWhoseFlagsAreClear : Prop := ∀ (h : HWord) (s : State), s.runOk →
  (badHeader h = false → (∀ k ∈ s.curKeys, (s.thread k).clause = none) →
    ∃ t, exec (.clause h) s = .next t ∧ t = { s with threads := t.threads } ∧
      (∀ k, k ∉ s.curKeys → t.thread k = s.thread k) ∧
      ∀ k ∈ s.curKeys, t.thread k =
        if (s.thread k).flags &&& h.wait = 0 then
          { s.thread k with pc := (s.thread k).pc + 8, clause := some { left := h.len.toNat, seta := h.seta, setb := h.setb } }
        else { s.thread k with st := .waitFlags, header := some h }) ∧
  (badHeader h = true ∨ (∀ k ∈ s.curKeys, (s.thread k).clause.isSome = true) →
    exec (.clause h) s = .next (s.curKeys.foldl (fun acc k => acc.raisePc k .illop) s))

/-- R36, R40: the halves of a pair read their operands before either writes, each under its own predicate; the thread passes the
word once, and nothing else changes but the last uses of the halves. -/
def Obligations.PairsReadBothHalvesBeforeWriting : Prop := ∀ (h1 h0 : Half) (s : State) (k : Nat),
  let a1 := s.active (halfGuard h1) k && h1.op != .nop
  let a0 := s.active (halfGuard h0) k && h0.op != .nop
  let d1 := halfOpd h1.d
  let d0 := halfOpd h0.d
  s.cur.lanes = [k % 32] → k / 32 = s.curG → s.active (halfGuard h1) k = true ∨ s.active (halfGuard h0) k = true →
  s.passes k {} (halfUses h1 ++ halfUses h0) .any = true →
  ∃ t, exec (.pair h1 h0) s = .next t ∧ t.movedFrom s k {} ∧
    (a1 = true → a0 = false ∨ d0 ≠ d1 → t.holds k d1 false (s.halfResult h1 k)) ∧
    (a0 = true → t.holds k d0 false (s.halfResult h0 k)) ∧
    (∀ r, (a1 = true → r ∉ s.rowsOf k d1 1) → (a0 = true → r ∉ s.rowsOf k d0 1) →
      (h1.lu = true → r ∉ s.rowsOf k (halfOpd h1.a) 1) → (h0.lu = true → r ∉ s.rowsOf k (halfOpd h0.a) 1) →
      (t.thread k).reg r = (s.thread k).reg r) ∧
    (∀ r, (a1 = true → r ∉ uniRows d1 1) → (a0 = true → r ∉ uniRows d0 1) → (t.group s.curG).reg r = (s.group s.curG).reg r) ∧
    (∀ j, j ≠ k → t.thread j = s.thread j) ∧ t = { s with threads := t.threads, groups := t.groups }

/-- R49: a REP of count 0 only passes both its words; since its word is not examined, it is the model's choice that it takes no
long-latency position of a clause (log 8, DEDUCED). Otherwise the repetition of a lone lane at REPIX i is charged as an issue and is the
word with its fields raised i times, whatever word that is; REPIX then rises, and after the last repetition it is 0 again and PC has
passed both words. The word itself issues the first repetition of its sequence, where the checks made once for each active thread pass:
depth, place in the clause, a flag that is clear, and, at REPIX 0, the bounds of R49. The last part says it for a repeated IADD from end to
end: the repetition completes, and its destination holds the sum of the sources that its raised fields name. -/
def Obligations.RepRunsItsWordOncePerRepetition : Prop := ∀ (p : RepPrefix) (body : DWord) (s : State),
  (∀ k, p.count = 0 → s.cur.lanes = [k % 32] → k / 32 = s.curG → s.cur.inRep = false → s.cur.len = 16 →
    placeOk {} 2 (s.thread k).clause = true →
    MovesOn (.rep p body) s s k {} id) ∧
  let repeats := fun (answer : Answer) (u : State) (g l : Nat) (c : RepCtx) =>
    let k := tkey g l
    let i := (u.thread k).repix.toNat
    let s2 := { (u.updGroup g (fun x => { x with rep := some c })).charge g 1 with
      cur := { core := g / 512, gslot := g % 512, lanes := [l], len := 16, inRep := true } }
    ∀ w, let t := (repWord w s2).stateOr s2
    l < 32 → (u.thread k).st = .ready → i < p.count.toNat → decodeF false none (bumpBody p body i) = some w →
    ((t.thread k).st = .ready → (t.thread k).repix.toNat = i + 1 →
      ∃ t', answer = .next t' ∧ t'.mem = t.mem ∧
        (i + 1 < p.count.toNat → (t'.group g).rep = some c ∧ ∀ j, t'.thread j = t.thread j) ∧
        (i + 1 = p.count.toNat → (t'.group g).rep = none ∧ (t'.thread k).repix = 0 ∧ (t'.thread k).pc = (t.thread k).pc + 16 ∧
          (t'.thread k).regs = (t.thread k).regs)) ∧
    ∀ f, w = .iadd f → s2.lone k f.guard {} (fUses f (wide f.ty) (wide f.ty) (wide f.ty) false) →
      ∃ t', answer = .next t' ∧ t'.mem = u.mem ∧
        t'.holds k f.d (wide f.ty) (intLanes f.ty (fun x y _ => x + y) (s2.rd k f.a (wide f.ty)) (s2.rd k f.b (wide f.ty)) 0) ∧
        (i + 1 < p.count.toNat → (t'.group g).rep = some c ∧ (t'.thread k).repix.toNat = i + 1 ∧ (t'.thread k).pc = (u.thread k).pc) ∧
        (i + 1 = p.count.toNat → (t'.group g).rep = none ∧ (t'.thread k).repix = 0 ∧ (t'.thread k).pc = (u.thread k).pc + 16)
  (∀ k, p.count ≠ 0 → s.cur.lanes = [k % 32] → k / 32 = s.curG →
    (s.active (rawOf body).guard k = true →
      let op := (rawOf body).op.toNat
      (depthOp op).ok (s.group s.curG).hdepth = true ∧ placeOk (siteOp op) 2 (s.thread k).clause = true ∧
      (longOp op = true → (s.thread k).flagBusy = false) ∧
      ((s.thread k).repix = 0 → repBounds p body (s.thread k).winbase (s.group s.curG).allot = true)) →
    let c : RepCtx := { lanes := [k % 32], prefixed := p, body, key := (s.thread k).key }
    let u := s.updGroup s.curG (fun x => { x with rep := some c })
    (∃ t, exec (.rep p body) s = .next t) ∧ exec (.rep p body) s = exec (.repRepetition (s.curG / 512) (s.curG % 512)) u ∧
    repeats (exec (.rep p body) s) u s.curG (k % 32) c) ∧
  ∀ core gslot l key,
    let c : RepCtx := { lanes := [l], prefixed := p, body, key }
    (s.group (gkey core gslot)).rep = some c → repeats (exec (.repRepetition core gslot) s) s (gkey core gslot) l c

/-! ### Taking a fault -/

/-- R357, R170: a thread at handler depth 0 or 1 that faults waits with its PC at the word and its FREC filled in; where its owner runs, a
handler for the class exists and no miss record can be joined, it takes a free record with the fault's cause, of which it is the one
waiter; the aux field is 0 in the classes that define none (R171). No register, other thread or byte of memory changes. -/
def Obligations.RaisedFaultsWaitOnAMissRecord : Prop := ∀ (s : State) (k : Nat) (fi : FaultInfo),
  let g := s.group (k / 32)
  let t0 := s.thread k
  let core := k / 32 / 512
  let nest := g.hdepth = 1 ∨ (g.hdepth = 0 ∧ (s.handlerEntry g.owner fi.cls 1).isSome = false)
  let aux : Word := if fi.cls ∈ [Cls.svc, .allot, .pool, .seal] then fi.aux else 0
  s.isHalting g.owner = false → g.hdepth ≤ 1 →
  (s.handlerEntry g.owner fi.cls (g.hdepth + 1)).isSome = true ∨ (s.handlerEntry g.owner fi.cls 2).isSome = true →
  ∀ i, (fi.cls ≠ .xmiss ∨ (s.core core).recs = []) → (s.core core).freeRec g.owner g.hdepth = some i →
  let u := s.raise k fi
  u = { s with threads := u.threads, cores := u.cores, nextId := s.nextId + 1 } ∧
  (∀ j, j ≠ k → u.thread j = s.thread j) ∧
  u.thread k = { t0 with
    st := .waitHandler
    frec := { cls := fi.cls, acc := fi.acc, v := true, pbk := t0.frec.pbk, rid := i, hd := g.hdepth, cause2 := fi.cause2
              repix := t0.repix.toNat, aux := if fi.cls = .watchdog then fi.aux else aux, addr := fi.addr } } ∧
  Tab.find (u.core core).recs i = some { cls := fi.cls, acc := fi.acc, nest := decide nest, owner := g.owner, depth := g.hdepth
                                         gslot := k / 32 % 512, lane := k % 32, cause2 := fi.cause2, aux, ova := fi.addr
                                         order := s.nextId, waiters := [{ uid := g.uid, lane := k % 32 }], nwait := 1 }

/-- R175, R366: a fault for which no handler depth is left, or no entry of the handler table is valid, halts the owner with cause
RECURSE; a driver's halt has cause DRIVER. The first halt that reaches OSTAT decides; later ones are dropped. -/
def Obligations.FaultsWithoutAHandlerHaltTheOwner : Prop := ∀ (s : State) (k : Nat) (fi : FaultInfo) (x : Owner),
  let g := s.group (k / 32)
  let halts := fun (u : State) (o : Nat) (r : OStat) => u.owner o = { s.owner o with ostat := { r with st := .halting }, haltAt := s.now }
  (Tab.find s.owners g.owner = some x → x.ostat.st = .running →
    2 ≤ g.hdepth ∨ (g.hdepth = 1 ∧ s.handlerEntry g.owner fi.cls 2 = none) ∨
      (g.hdepth = 0 ∧ s.handlerEntry g.owner fi.cls 1 = none ∧ s.handlerEntry g.owner fi.cls 2 = none) →
    halts (s.raise k fi) g.owner { cause := .recurse, hd := g.hdepth, core := k / 32 / 512, gslot := k / 32 % 512, lane := k % 32
                                   code := if fi.cls ∈ [Cls.svc, .allot, .pool, .seal] then fi.aux else 0, cls := fi.cls, addr := fi.addr } ∧
    ((s.raise k fi).thread k).st = .waitHandler ∧ (s.raise k fi).cores = s.cores) ∧
  (∀ o, Tab.find s.owners o = some x →
    (x.ostat.st = .running → ∃ t, exec (.driverHalt o) s = .next t ∧ halts t o { cause := .driver } ∧ t = { s with owners := t.owners } ∧
      ∀ p, p ≠ o → t.owner p = s.owner p) ∧
    (x.ostat.st ≠ .running → ∃ t, exec (.driverHalt o) s = .next t ∧ ∀ p, t.owner p = s.owner p))

/-! ### Tables -/

/-- R147: TILEDEF checks its words in order (shape and reserved bits are ILLOPD, the team's scratch BOUNDS), and takes the
lowest-numbered descriptor that is free; where none is, d receives 0xFFFF_FFFF and no descriptor changes. -/
def Obligations.TiledefTakesTheLowestFreeDescriptor : Prop := ∀ (f : FWord) (s : State) (k key : Nat) (tm : Team),
  let b := s.rd k f.b true
  let c : Word := (s.rd k f.c false).setWidth 32
  let x := tileOfWords (key % 32) b c
  let core := k / 32 / 512
  let taken := fun i => (Tab.getD (s.core core).tiles {} i).v = true
  s.lone k f.guard {} (fUses f false false true false) → s.teamOf (k / 32) = some (key, tm) → s.accessReady k →
  (tileShapeOk b c x = false → exec (.tiledef f) s = .next (s.raisePc k .illopd)) ∧
  (tileShapeOk b c x = true → tileInside tm.scratchSize x = false → exec (.tiledef f) s = .next (s.raisePc k .bounds)) ∧
  (tileShapeOk b c x = true → tileInside tm.scratchSize x = true →
    (∀ i, i < 256 → ¬taken i → (∀ j, j < i → taken j) →
      ActsOnce (.tiledef f) s (s.turnTile core i x) k f.d false [] {} (BitVec.ofNat 64 i)) ∧
    ((∀ j, j < 256 → taken j) → ActsOnce (.tiledef f) s s k f.d false [] {} 0xFFFFFFFF))

/-- R148 to R150: each TILESET moves its descriptor from the state that the table gives and answers 1, waits while the tile is ready
and held, and in any other state changes nothing and answers 0; TILEFREE clears a descriptor that is empty or ready and not held.
An index that names no descriptor of the team is ILLOPD. -/
def Obligations.TileStatesMoveAsTheTableSays : Prop := ∀ (f : FWord) (s : State) (k key : Nat) (tm : Team),
  let idx := s.rdNat k f.a
  let core := key / 32
  let tag : Byte := BitVec.ofNat 8 (s.rdNat k f.b)
  s.teamOf (k / 32) = some (key, tm) → s.lone k f.guard {} (fUses f false false false false) →
  (s.tileOf key idx = none → ∀ i ∈ [Instr.tilesetFill f, .tilesetReady f, .tilesetDrain f, .tilesetEmpty f, .tilesetRearm f],
    exec i s = .next (s.raisePc k .illopd)) ∧
  (s.tileOf key idx = none → s.accessReady k → exec (.tilefree f) s = .next (s.raisePc k .illopd)) ∧
  ∀ x, s.tileOf key idx = some x →
    let moves := fun (i : Instr) (old : List TileSt) (new : Tile) => s.quiet k →
      (x.st ∈ old → x.st = .ready → x.hold ≠ 0 → exec i s = .next (s.waitAt [k] (.tile core idx))) ∧
      (x.st ∈ old → (x.st = .ready → x.hold = 0) → ActsOnce i s (s.turnTile core idx { new with view := [] }) k f.d false [] {} 1) ∧
      (x.st ∉ old → ActsOnce i s s k f.d false [] {} 0)
    moves (.tilesetFill f) [.empty] { x with st := .filling, ftag := tag } ∧
    moves (.tilesetReady f) [.filling] { x with st := .ready } ∧
    moves (.tilesetDrain f) [.ready] { x with st := .draining, dtag := tag } ∧
    moves (.tilesetEmpty f) [.ready, .draining] { x with st := .empty } ∧
    moves (.tilesetRearm f) [.draining] { x with st := .ready } ∧
    (s.accessReady k → (x.st = .empty ∨ x.st = .ready) ∧ x.hold = 0 → ActsOnce (.tilefree f) s (s.clearTile core idx) k f.d false [] {} 1) ∧
    (s.accessReady k → ¬((x.st = .empty ∨ x.st = .ready) ∧ x.hold = 0) → ActsOnce (.tilefree f) s s k f.d false [] {} 0)

/-- R151 to R153: in a pipe of the team that holds the sequencer, PERMB builds four entries from each row of an SL4 tile, PERMLD
takes entries of 32 bytes from scratch, and PERMST writes them there; every other entry and byte stays. While another group's
word rewrites the table, a reader finds each entry as it was or as it is (R145); that the choice is a free value is the model's
(log 52, DESIGN CHOICE). -/
def Obligations.PermutationFormsFillAndStoreTheTable : Prop := ∀ (f : FWord) (s : State) (k key : Nat) (tm : Team),
  let core := key / 32
  let perm := fun (u : State) i => Tab.getD (u.core core).perm 0 i
  let bank := f.mod.toNat % 4
  let a := s.rdNat k f.a
  let found := fun i => Tab.getD (s.readPerm core (s.group (k / 32)).uid) 0 i
  s.teamOf (k / 32) = some (key, tm) → tm.matrix.isSome = true → s.lone k f.guard {} (fUses f false false false false) →
  s.scratchReady k →
  (∀ i uid, i < 2048 → let seen := Tab.getD (s.readPerm core uid) 0 i
    ((s.core core).permBefore = none → seen = perm s i) ∧
    ∀ b, (s.core core).permBefore = some b → seen = perm s i ∨ (uid ≠ b.uid ∧ seen = Tab.getD b.was 0 i)) ∧
  (∀ x, s.tileOf key a = some x → x.fmt = 0xF → x.rowb = 63 → x.rows < 128 →
    ∃ s', ActsOnce (.permb (.pipe f)) s s' k f.d false [] {} 0 ∧ s'.mem = s.mem ∧ s'.threads = s.threads ∧ s'.groups = s.groups ∧
      (∀ n g, n ≤ x.rows → g < 4 →
        let r := 64 * x.base + 16 * x.pitch * n
        perm s' (512 * bank + 4 * n + g) = permEntry (((nibbles ((tm.scratchRead r 64).clean r)).drop (32 * g)).take 32)) ∧
      ∀ i, i < 512 * bank ∨ 512 * bank + 4 * (x.rows + 1) ≤ i → perm s' i = perm s i) ∧
  (∀ first count, permRange a (s.rdNat k f.b) = some (first, count) → a + 32 * count ≤ tm.scratchSize →
    (∃ s', ActsOnce (.permld (.pipe f)) s s' k f.d false [] {} 0 ∧ s'.mem = s.mem ∧ s'.threads = s.threads ∧ s'.groups = s.groups ∧
      (∀ i, i < count → perm s' (first + i) =
        BitVec.ofNat 256 (leNat ((((tm.scratchRead a (32 * count)).clean a).drop (32 * i)).take 32))) ∧
      ∀ i, i < first ∨ first + count ≤ i → perm s' i = perm s i) ∧
    ActsOnce (.permst (.pipe f)) s
      (s.updTeam key (fun t => t.scratchWrite a ((List.range count).flatMap (fun i => leBytes 32 (found (first + i)).toNat)))).draw
      k f.d false [] {} 0) ∧
  (permRange a (s.rdNat k f.b) = none → exec (.permld (.pipe f)) s = .next (s.raisePc k .illopd) ∧
    exec (.permst (.pipe f)) s = .next (s.raisePc k .illopd))

/-- R150, R155 to R158: TILEST gives a descriptor of the thread's team, or 0; PATRD an entry of a pattern table that the thread's owner
has loaded, or 0; LSST the modes of the core's 24 banks. PATLD and CBLD copy scratch
into the core's pattern table or codebook, tagged with the issuing owner, and change no other one; LSCFG changes the banks that may
change and answers with the banks that are in the requested mode, and drops the L1 lines of those that leave cache mode. A misaligned CBLD
is ILLOPD as a misaligned PATLD is (log 58, DESIGN CHOICE), and what a reader finds while another group's word rewrites a table or changes
banks is the model's free value (log 52, DESIGN CHOICE). Of LSCFG these are the model's choices: that d names every bank in the requested mode
(log 19, DEDUCED), which banks scratch fills (log 18, DEDUCED), and that a FIFO bank with items may not change (log 59, DESIGN CHOICE). -/
def Obligations.TableWordsReadAndLoadTheirTables : Prop := ∀ (f : FWord) (s : State),
  Reads (.tilest f) s f false (fun k =>
    match (s.teamOf (k / 32)).bind (fun t => s.tileOf t.1 (s.rdNat k f.a)) with
    | some t => BitVec.ofNat 64 (t.dtag.toNat * 2 ^ 11 + t.ftag.toNat * 2 ^ 3 + 4 + t.st.code)
    | none => 0) ∧
  Reads (.patrd f) s f false (fun k =>
    let i := s.rdNat k f.a % 32
    let found := s.patFor (k / 32) (f.sub.toNat % 16) i
    if found.1 = some (s.group (k / 32)).owner then (Tab.getD found.2 0 i).setWidth 64 else 0) ∧
  (let new := fun (c i : Nat) => ((s.core c).banks.getD i .cache).code
   let code := fun (k i : Nat) => s.bankCode (k / 32 / 512) (s.group (k / 32)).uid i
   (∀ k i, ((s.core (k / 32 / 512)).banksBefore = none → code k i = new (k / 32 / 512) i) ∧
     ∀ b, (s.core (k / 32 / 512)).banksBefore = some b → code k i ∈ [new (k / 32 / 512) i, (b.was.getD i .cache).code, 3]) ∧
   Reads (.lsst f) s f true (fun k =>
     BitVec.ofNat 64 (((List.range 24).map (fun i => code k i * 2 ^ (2 * i))).foldl (· + ·) 0))) ∧
  ∀ (k key : Nat) (tm : Team),
  let core := k / 32 / 512
  let a := s.rdNat k f.a
  let n := f.sub.toNat
  let owner := (s.group (k / 32)).owner
  s.teamOf (k / 32) = some (key, tm) → s.lone k f.guard {} (fUses f false false false false) → s.scratchReady k →
  (a % 4 = 0 → a + 128 ≤ tm.scratchSize → ∃ s', ActsOnce (.patld f) s s' k f.d false [] {} 0 ∧ s'.mem = s.mem ∧
    s'.threads = s.threads ∧
    (let p := Tab.getD (s'.core core).pats {} (n % 16)
     p.tag = some owner ∧ ∀ i, i < 32 → Tab.getD p.entries 0 i =
       BitVec.ofNat 32 (leNat ((((tm.scratchRead a 128).clean a).drop (4 * i)).take 4)) &&& 0x801FFFFF) ∧
    ∀ j, j ≠ n % 16 → Tab.getD (s'.core core).pats {} j = Tab.getD (s.core core).pats {} j) ∧
  (a % 8 = 0 → a + 2048 ≤ tm.scratchSize → ∃ s', ActsOnce (.cbld f) s s' k f.d false [] {} 0 ∧ s'.mem = s.mem ∧
    s'.threads = s.threads ∧
    (let p := Tab.getD (s'.core core).cbs {} (n % 8)
     p.tag = some owner ∧ ∀ i, i < 2048 → Tab.getD p.bytes 0 i = ((tm.scratchRead a 2048).clean a).getD i 0) ∧
    ∀ j, j ≠ n % 8 → Tab.getD (s'.core core).cbs {} j = Tab.getD (s.core core).cbs {} j) ∧
  (a < 2 ^ 24 →
    let m := bankModeOf n
    let modes := s.changeBanks core a m
    ActsOnce (.lscfg f) s (s.setCore core { s.core core with
        banks := modes, banksBefore := some (s.beforeWrite (s.group (k / 32)).uid (s.core core).banks)
        l1 := (s.core core).l1.filter (fun l => !(modes.getD l.bank .cache != .cache)) }).draw k f.d false []
      {} (BitVec.ofNat 64 ((List.range 24).foldl (fun acc i => acc + if modes.getD i .cache = m then 2 ^ i else 0) 0))) ∧
  (a % 4 ≠ 0 → exec (.patld f) s = .next (s.raisePc k .illopd)) ∧ (a % 8 ≠ 0 → exec (.cbld f) s = .next (s.raisePc k .illopd)) ∧
  (a % 4 = 0 → tm.scratchSize < a + 128 → exec (.patld f) s = .next (s.raisePc k .bounds)) ∧
  (a % 8 = 0 → tm.scratchSize < a + 2048 → exec (.cbld f) s = .next (s.raisePc k .bounds)) ∧
  (2 ^ 24 ≤ a → exec (.lscfg f) s = .next (s.raisePc k .illopd))

/-! ### Barriers and counters -/

/-- R341: after an event at a hardware barrier, no arrival pending and no byte outstanding flip its phase, start its next count
without a sequencer that has left, and make every thread that waits on it ready at its next word; otherwise the entry only
holds what the event has done to it. Those released acquire what the phase's arrivals carried of stores still pending and of their back-invalidates (R231, R233, R242); how an
entry keeps those is the model's own. -/
def Obligations.BarrierEventsCompleteThePhase : Prop := ∀ (s : State) (key b : Nat) (tm : Team) (f : Bar → Bar) (ids : List Nat),
  let pending := fun (l : List Nat) => l.filter s.live
  let old := Tab.getD tm.bars {} b
  let x := f { old with view := pending old.view ++ ids, carried := pending old.carried }
  let u := s.barEvent key b f ids
  s.team? key = some tm →
  (x.pend = 0 → x.txc = 0 →
    Tab.getD (u.team key).bars {} b = { x with ph := !x.ph, sa := false, pend := x.exp - (if x.sqd then 1 else 0)
                                               carried := x.carried ++ x.view, view := [] } ∧
    (∀ g l, g ∈ s.groupsOf key → l < 32 → (s.thread (tkey g l)).st = .atBarrier → (s.thread (tkey g l)).waitBar = b →
      (u.thread (tkey g l)).st = .ready ∧
      (u.thread (tkey g l)).obs = (s.thread (tkey g l)).obs ++ (x.carried ++ x.view).map (fun i => (0, i)) ∧
      (u.thread (tkey g l)).pc = (s.thread (tkey g l)).pc + (if (s.thread (tkey g l)).repix = 0 then 8 else 0)) ∧
    ∀ k, (s.thread k).st ≠ .atBarrier ∨ (s.thread k).waitBar ≠ b → u.thread k = s.thread k) ∧
  (x.pend ≠ 0 ∨ x.txc ≠ 0 → u.threads = s.threads ∧ Tab.getD (u.team key).bars {} b = x) ∧
  (∀ j, j ≠ b → Tab.getD (u.team key).bars {} j = Tab.getD tm.bars {} j) ∧ u.mem = s.mem ∧ u.groups = s.groups

/-- R342: BARINIT sets a count of 1 to 2047; an arrival answers with the phase before it and adds its bytes, a completion takes
bytes away; an index or a byte count out of range is ILLOPD. -/
def Obligations.BarrierWordsActOnTheirEntry : Prop := ∀ (f : FWord) (s : State) (k key i : Nat),
  let b := Tab.getD (s.team key).bars {} i
  let n := s.rdNat k f.b
  let freed := fun (u : State) => u.uses k f 1 1 1
  let ok := fun (after : Int) => n < 2 ^ 24 ∧ -(2 ^ 24) ≤ after ∧ after < 2 ^ 24
  let acts := fun (j : Instr) (g : Bar → Bar) => ActsOnce j s (s.barEvent key i g) k f.d false (freed (s.barEvent key i g)) {} (boolVal b.ph)
  s.lone k f.guard {} (fUses f false false false false) →
  (s.barOf k f = none → ∀ j ∈ [Instr.barinit f], exec j s = .next (s.raisePc k .illopd)) ∧
  (s.barOf k f = some (key, i) →
    (1 ≤ n → n ≤ 2047 → ActsOnce (.barinit f) s (s.barEvent key i (fun b => { b with
      exp := n, pend := n - (if b.sqd then 1 else 0), txc := 0, ovf := false, sa := false })) k f.d false [] {} 0) ∧
    (n = 0 ∨ 2047 < n → exec (.barinit f) s = .next (s.raisePc k .illopd)) ∧
    (s.quiet k → -(2 ^ 24) ≤ b.txc → b.txc < 2 ^ 24 → acts (.bararrArr f) (fun b => b.arrive 0 false)) ∧
    (s.quiet k → ok (b.txc + n) → acts (.bararrTx f) (fun b => b.arrive n false)) ∧
    (s.quiet k → ok (b.txc - n) → acts (.bararrCpl f) (fun b => { b with txc := b.txc - n })) ∧
    (s.quiet k → ¬ok (b.txc + n) → exec (.bararrTx f) s = .next (s.raisePc k .illopd)) ∧
    (s.quiet k → ¬ok (b.txc - n) → exec (.bararrCpl f) s = .next (s.raisePc k .illopd)))

/-- R342, R345: a wait on a barrier whose phase differs from the given parity goes on; otherwise its thread waits at the word. A test
answers whether it differs, or with the entry's bits. -/
def Obligations.BarrierWaitsAndTestsReadThePhase : Prop := ∀ (f : FWord) (s : State) (k key i : Nat) (members : List Nat),
  let parity := s.rdPred k f.b
  let b := Tab.getD (s.team key).bars {} i
  let c := Tab.getD (s.team (members.headD 0)).cbars {} i
  let waits := fun (j : Instr) (st : TState) => ∃ t, exec j s = .next t ∧ (t.thread k).st = st ∧ (t.thread k).waitBar = i ∧
    (t.thread k).pc = (s.thread k).pc ∧ t = { s with threads := t.threads } ∧ ∀ j, j ≠ k → t.thread j = s.thread j
  let goes := fun (j : Instr) => ∃ t, exec j s = .next t ∧ t.movedFrom s k {} ∧ (t.thread k).st = (s.thread k).st ∧
    t = { s with threads := t.threads, cores := t.cores } ∧ ∀ j, j ≠ k → t.thread j = s.thread j
  s.lone k f.guard {} (fUses f false false false false) →
  (s.barOf k f = some (key, i) →
    (b.ph ≠ parity → goes (.barwait f)) ∧ (b.ph = parity → waits (.barwait f) .atBarrier) ∧
    ActsOnce (.bartestPh f) s (if b.ph ≠ parity then s.acquire k b.carried else s) k f.d false (s.lastUses k f 1 1 1) {}
      (boolVal (b.ph != parity)) ∧
    ActsOnce (.bartestSt f) s s k f.d false (s.lastUses k f 1 1 1) {} (BitVec.ofNat 64
      ((if b.ovf then 2 ^ 14 else 0) + (if b.sqd then 2 ^ 13 else 0) + (if b.sa then 2 ^ 12 else 0) + (if b.ph then 2 ^ 11 else 0) +
        b.pend % 2 ^ 11))) ∧
  (s.cbarOf k f = some (members, i) →
    (c.ph ≠ parity → goes (.cbarwait f)) ∧ (c.ph = parity → waits (.cbarwait f) .atCluster)) ∧
  (s.barOf k f = none → exec (.barwait f) s = .next (s.raisePc k .illopd) ∧ exec (.bartestPh f) s = .next (s.raisePc k .illopd) ∧
    exec (.bartestSt f) s = .next (s.raisePc k .illopd)) ∧
  (s.cbarOf k f = none → exec (.cbarwait f) s = .next (s.raisePc k .illopd))

/-- R344, R345: a cluster barrier's entry is that of the cluster's first team; CBARINIT sets its count, an arrival answers with the
phase before it, and a count of 0 after the event flips the phase and starts the next one. -/
def Obligations.ClusterBarrierWordsActOnTheClustersEntry : Prop := ∀ (f : FWord) (s : State) (k i : Nat) (members : List Nat) (tm : Team),
  let home := members.headD 0
  let b := Tab.getD tm.cbars {} i
  let n := s.rdNat k f.b
  let set : CBar → CBar := fun b => { b with exp := n, pend := n, ovf := false }
  let arrive : CBar → CBar := fun b => if b.pend = 0 then { b with ovf := true } else { b with pend := b.pend - 1 }
  s.lone k f.guard {} (fUses f false false false false) →
  (s.cbarOf k f = none → exec (.cbarinit f) s = .next (s.raisePc k .illopd)) ∧
  (s.cbarOf k f = some (members, i) → s.team? home = some tm →
    (1 ≤ n → n ≤ 12288 → ActsOnce (.cbarinit f) s (s.cbarEvent members i set) k f.d false [] {} 0) ∧
    (n = 0 ∨ 12288 < n → exec (.cbarinit f) s = .next (s.raisePc k .illopd)) ∧
    (s.quiet k → ActsOnce (.cbararr f) s (s.cbarEvent members i arrive) k f.d false
      ((s.cbarEvent members i arrive).uses k f 1 1 1) {} (boolVal b.ph)) ∧
    ∀ g : CBar → CBar, let u := s.cbarEvent members i g
      Tab.getD (u.team home).cbars {} i =
        (if (g b).pend = 0 then { g b with ph := !(g b).ph, pend := (g b).exp } else g b) ∧ u.mem = s.mem ∧
      ((g b).pend ≠ 0 → u.threads = s.threads))

/-- R338, R346, R347: WAITC goes on once the class has at most a entries, dropping the owner's L1 lines and acquiring what releases have
carried, and waits otherwise; RDCNT gives the counter that its selector names, that of laps as it stood before the issue (R128), and of PERF
the counter that its index names; CLRCNT gives it and clears it. That a handler group has no team, so that its threads read tid 0 and no
stream, is the model's choice (log 32, DEDUCED). -/
def Obligations.CounterWordsReadWaitAndClear : Prop := ∀ (f : FWord) (s : State) (k : Nat),
  let g := s.group (k / 32)
  let o := s.owner g.owner
  let core := s.core (k / 32 / 512)
  let slot : OwnerSlot := ((core.slotOf g.owner).bind (Tab.find core.slots)).getD { owner := g.owner }
  let team := (s.teamOf (k / 32)).map (·.2)
  let n := s.rdNat k f.a
  let cls := f.sub.toNat % 4
  let w := wide f.ty
  let reads := fun (sel : Nat) (v : BitVec 64) => f.sub.toNat = sel → ActsOnce (.rdcnt f) s s k f.d w [] {} v
  let clears := fun (sel : Nat) (v : Word) (g' : Group) => f.sub.toNat = sel →
    ActsOnce (.clrcnt f) s (s.setGroup (k / 32) g') k f.d w [] {} (v.setWidth 64)
  (s.lone k f.guard {} (fUses f false false false false) →
    (64 ≤ n → exec (.waitc f) s = .next (s.raisePc k .illopd)) ∧
    (n < 64 → g.opcCount cls ≤ n → MovesOn (.waitc f) s
      (s.setCore (k / 32 / 512) { core with l1 := core.l1.filter (fun l => !(l.owner == g.owner)) }) k {}
      (fun t => { t with obs := t.obs ++ (s.snoops.filter (·.known)).map (fun x => (0, x.id)) })) ∧
    (n < 64 → n < g.opcCount cls → exec (.waitc f) s = .next (s.waitAt [k] (.count cls n)))) ∧
  (s.lone k f.guard {} (fUses f w false false false) →
    reads 0 ((s.thread k).flags.setWidth 64) ∧
    reads 1 (BitVec.ofNat 64 (g.opcCount 0 + g.opcCount 1 * 2 ^ 8 + g.opcCount 2 * 2 ^ 16 + g.opcCount 3 * 2 ^ 24)) ∧
    reads 2 (g.uviol.setWidth 64) ∧ reads 3 (g.skipblk.setWidth 64) ∧ reads 4 (g.satcnt.setWidth 64) ∧
    reads 5 (g.convtail.setWidth 64) ∧ reads 6 (BitVec.ofNat 64 (s.cur.lap.getD g.orbit.lapcnt)) ∧ reads 8 (BitVec.ofInt 64 slot.deficit) ∧
    reads 9 o.poison ∧ reads 10 o.corr ∧ reads 11 o.linkretry ∧ reads 12 o.walkissue ∧ reads 13 o.walkbytes ∧ reads 14 o.poolused ∧
    reads 7 (BitVec.ofNat 64 (mstatWord (team.bind Team.matrix))) ∧ reads 16 (BitVec.ofNat 64 ((team.map Team.tid).getD 0)) ∧
    (n < 8 → reads 15 ((Tab.getD slot.perf 0 n).setWidth 64)) ∧
    (f.sub.toNat = 15 → 8 ≤ n → exec (.rdcnt f) s = .next (s.raisePc k .illopd)) ∧
    clears 2 g.uviol { g with uviol := 0 } ∧ clears 3 g.skipblk { g with skipblk := 0 } ∧ clears 4 g.satcnt { g with satcnt := 0 } ∧
    clears 5 g.convtail { g with convtail := 0 })

/-! ### Copy queues, stage queues, launches, service calls -/

/-- R293, R313: CPYQ by a thread of a queue's owner claims the next slot, writes its packet there with the fields that CPYQ fills, and
leaves an outstanding entry of the packet's class; where the ring has no room or packets are listed, it lists the packet and answers
0xFFFFFFFF. It waits where its class has 63 entries or the list has no place, and until the host holds no copy of the control block (R242).
QSTAT leaves one read of the control block. A queue that the owner does not hold is ILLOPD. That CPYQ waits for the host's copy (log 31,
DEDUCED), and that a handler group's packet names no team (log 32, DEDUCED), are the model's choices. -/
def Obligations.CopyQueueWordsClaimAndRead : Prop := ∀ (f : FWord) (s : State) (k : Nat),
  let q := s.rdNat k f.a
  let g := s.group (k / 32)
  let p := g.packet (packetBase f.b)
  let cls := pktClass p
  let p1 := fillPacket p s.cur.core s.cur.gslot ((s.teamOf (k / 32)).map (·.2.tid))
  let w := s.qWr q
  let entry := fun (listed : Bool) (n : Nat) (u : State) =>
    if cls = 3 then u else u.updGroup (k / 32) (fun x => { x with opc := x.opc ++ [{ cls, q, w := n, listed }] })
  let lines := s.hostLinesIn (qbQcb (s.binding q)) 64
  let lists := s.ringRoom q = false ∨ (s.queue q).list ≠ []
  let place := (s.queue q).nextPlace
  (s.lone k f.guard {} (fUses f false false false false) →
    (s.ownsQueue k q = false → exec (.cpyq f) s = .next (s.raisePc k .illopd)) ∧
    (s.ownsQueue k q = true →
      (cls ≠ 3 → 63 ≤ g.opcCount cls → exec (.cpyq f) s = .next (s.waitAt [k] .copyCount)) ∧
      (cls = 3 ∨ g.opcCount cls < 63 →
        (lists → (s.queue q).listCap ≤ (s.queue q).list.length → exec (.cpyq f) s = .next (s.waitAt [k] (.slot q))) ∧
        (¬lists ∨ (s.queue q).list.length < (s.queue q).listCap → s.quiet k →
          (lines ≠ [] → exec (.cpyq f) s = .next (lines.foldl State.snoop s)) ∧
          (lines = [] → (lists → ActsOnce (.cpyq f) s (entry true place (s.updQueue q (fun x =>
              { x with list := x.list ++ [{ bytes := p1, uid := g.uid, place }], nextPlace := place + 1 }))) k f.d false [] {} 0xFFFFFFFF) ∧
            (¬lists → ActsOnce (.cpyq f) s (entry false w ((s.qcbWrite q 0 8 (w + 1)).writeSlot q w (stampPacket p1 w))) k f.d false [] {}
              (BitVec.ofNat 64 w))))))) ∧
  (s.lone k f.guard { long := true } (fUses f true false false false) → s.flagFree k →
    let at' := match f.sub.toNat with
      | 0 => (8, 8)
      | 1 => (0, 8)
      | 2 => (16, 8)
      | 3 => (24, 8)
      | _ => (32, 2)
    (s.ownsQueue k q = false → exec (.qstat f) s = .next (s.raisePc k .illopd)) ∧
    (s.ownsQueue k q = true → ∃ t o, exec (.qstat f) s = .next t ∧ Issued s t k { long := true } [o] [] ∧ o.IsOf s k 0 ∧
      o.dest = s.destOf k f.d ∧ o.space = .g ∧ o.addr = qbQcb (s.binding q) + at'.1 ∧ o.kind = .qstat at'.1 at'.2))

/-- R305, R306, R309: PUSHQ and the launches push one item of the queue's size, answer with its index, wait where the queue is full,
and answer 2^31 without an effect where it is closed. A launch of a thread that has acquired at system scope first takes back the lines of
its block that the host may hold (R242), which is the model's reading (log 31, DEDUCED). In a handler group the forms are ILLOP. -/
def Obligations.PushesAppendOneItem : Prop := ∀ (f : FWord) (s s1 : State) (k l i : Nat) (item : List Byte),
  let a := s.rdNat k f.a
  let pushes := fun (j : Instr) (l i : Nat) (closed : State) (freed : State → List Nat) =>
    let q := s.stageQ l i
    let s' := s1.setStageQ l i { q with items := q.items ++ [(q.next, item)], next := q.next + 1 }
    (q.closed = true → ActsOnce j s closed k f.d false (freed closed) {} 0x80000000) ∧
    (q.closed = false → q.full = true → exec j s = .next (s.waitAt [k] (.stage l i))) ∧
    (q.closed = false → q.full = false →
      ActsOnce j s s' k f.d false (freed s') {} (BitVec.ofNat 64 (2 ^ 30 + q.next % 2 ^ 30)))
  s.quiet k →
  (s.lone k f.guard {} (fUses f false false false false) .ordinaryOnly → s.stageFor k = some (l, i) →
    (s.lastStage l i = true ∨ a % 16 ≠ 0 → exec (.pushq f) s = .next (s.raisePc k .illopd)) ∧
    (s.lastStage l i = false → a % 16 = 0 → s.scratchBytes k a (s.itemSize l (i + 1)) = .ok (s1, item) →
      pushes (.pushq f) l (i + 1) s (fun u => u.uses k f 1 1 1))) ∧
  (s.cur.lanes = [k % 32] → k / 32 = s.curG → s.active f.guard k = true → (s.group s.curG).hdepth ≠ 0 →
    ∀ j ∈ [Instr.pushq f, .launch f, .launchU f], exec j s = .next (s.raisePc k .illop)) ∧
  (s.lone k f.guard {} (fUses f false false true false) .ordinaryOnly → s.openLaunch (s.group (k / 32)).owner (a % 256) = some l →
    let b := (s.rd k f.b true).toNat
    let held := s.blockHeld k b (s.itemSize l 0 / 16)
    b % 16 = 0 → ∀ j ∈ [Instr.launch f, .launchU f],
    (held ≠ [] → exec j s = .next (held.foldl State.snoop s)) ∧
    (held = [] → s.readPieces k b (s.itemSize l 0 / 16) = .ok (s1, item) → s1.launches = s.launches →
      pushes j l 0 s1 (fun u => u.lastUses k f 1 2 1)))

/-- R307, R308: POPQ takes the oldest item of its stage's queue, whose bytes and index its operation carries, or leaves the queue and
carries the status of an empty or closed one (poison of the item counts in POISON, R373); QCLOSE closes a queue once and answers 1, and
later answers 0. -/
def Obligations.PopsAndClosesActOnTheQueue : Prop := ∀ (f : FWord) (s : State) (k l i : Nat),
  let a := s.rdNat k f.a
  let q := s.stageQ l i
  let closes := fun (j : Instr) (l i : Nat) =>
    ((s.stageQ l i).closed = true → ActsOnce j s s k f.d false [] {} 0) ∧
    ((s.stageQ l i).closed = false → ActsOnce j s (s.setStageQ l i { s.stageQ l i with closed := true }) k f.d false [] {} 1)
  (s.lone k f.guard { long := true } (fUses f false false false false) .ordinaryOnly → s.flagFree k → s.stageFor k = some (l, i) →
    (a % 16 ≠ 0 → exec (.popq f) s = .next (s.raisePc k .illopd)) ∧
    ∀ p, a % 16 = 0 → s.scratchFor k a (s.itemSize l i) = .ok p →
      (∀ j item q', q.take = some (j, item, q') → ∃ t o, exec (.popq f) s = .next t ∧
        Issued (s.afterTake l i q') t k { long := true } [o] ((s.afterTake l i q').uses k f 1 1 1) ∧ o.isAt p ∧
        o.dest = s.destOf k f.d ∧ o.kind = .popq a item (BitVec.ofNat 32 (2 ^ 30 + j % 2 ^ 30))) ∧
      (q.take = none → ∃ t o, exec (.popq f) s = .next t ∧ Issued s t k { long := true } [o] (s.uses k f 1 1 1) ∧ o.isAt p ∧
        o.dest = s.destOf k f.d ∧ o.kind = .popq a [] (if q.closed then 0x80000000 else 0))) ∧
  (s.lone k f.guard {} (fUses f false false false false) .ordinaryOnly →
    (s.stageFor k = some (l, i) → s.lastStage l i = false → closes (.qcloseOut f) l (i + 1)) ∧
    (s.stageFor k = some (l, i) → s.lastStage l i = true → exec (.qcloseOut f) s = .next (s.raisePc k .illopd)) ∧
    (a < 256 → s.openLaunch (s.group (k / 32)).owner a = some l → closes (.qcloseLaunch f) l 0) ∧
    (256 ≤ a ∨ s.openLaunch (s.group (k / 32)).owner a = none → exec (.qcloseLaunch f) s = .next (s.raisePc k .illopd)))

/-- R318 to R320: a service call of a lone thread posts its sixteen registers in the next slot of the owner's ring, raises the owner's
event, answers with the slot's index, and with .p parks the thread on its reply stamp. Without a ring it is ILLOPD, a place for
the reply that fails its check faults, and a full ring makes it wait. -/
def Obligations.ServiceCallsPostARequest : Prop := ∀ (f : FWord) (s : State) (k : Nat) (park : Bool),
  let j := if park then Instr.svcP f else Instr.svcS f
  let o := (s.group (k / 32)).owner
  let b := (s.owner o).sring
  let w := s.resRead o (srOff b) 8
  s.lone k f.guard {} [⟨f.d, 1, true⟩, ⟨f.b, 2, false⟩] →
  (srV b = false → exec j s = .next (s.raisePc k .illopd)) ∧
  (srV b = true →
    (∀ fi, s.svcCheck k f = .error fi → exec j s = .next (s.raise k fi)) ∧
    (∀ l, s.svcCheck k f = .ok l →
      (s.svcRoom o 1 = false → exec j s = .next (s.waitAt [k] (.ring o))) ∧
      (s.svcRoom o 1 = true → s.hostLines = [] → s.quiet k →
        let posted := (((s.resWrite o (srOff b) (leBytes 8 (w + 1))).svcPost k f l w park).svcValid k w park).raiseEvent (64 + o)
        ∃ t, exec j s = .next t ∧ t.movedFrom posted k {} ∧ t.mem = posted.mem ∧ t.events = posted.events ∧ t.groups = posted.groups ∧
          (t.thread k).regs = (posted.thread k).regs ∧
          ((t.thread k).st = if park then .parked else (posted.thread k).st) ∧ (park = true → (t.thread k).watch = some (l.dpa + 24)) ∧
          ∀ i, i ≠ k → t.thread i = posted.thread i)))

/-! ### Handler forms -/

/-- R176 to R182: at handler depth 0 every handler form is ILLOP. In a handler, TLBW checks an entry and installs it in place of the
owner's entries that it overlaps, and where the owner's 1056 places (R164) are full one of its entries makes room; TLBINV removes the
entries that its kind names on the cores that its scope names; WALKRD claims the oldest record that the group may claim and gives its 128
bits; TRET releases the record that the group holds, whose waiters retry or exit; FPOP and FPUSH move one frame and charge its walk bytes, and take
their words' lines out of the core's L1 (R217); OWNHALT halts the owner, its thread staying at the word. That the ALLOT of TLBW and FPUSH has
the word's PC for its address and access 0 is the model's choice (log 76, DESIGN CHOICE). -/
def Obligations.HandlerFormsServeMisses : Prop := ∀ (f : FWord) (s : State) (k : Nat),
  let g := s.group (k / 32)
  let core := k / 32 / 512
  let o := g.owner
  let e := s.rd k f.b true ++ s.rd k f.a true
  let n := s.rdNat k f.a
  let a := (s.rd k f.a true).toNat
  let here := fun (u : State) j (x : Core) => u = s.setCore j { s.core j with tlb := x.tlb }
  let allot := fun (frame : Nat) => s.raise k { cls := .allot, addr := (s.thread k).pc.toNat, aux := BitVec.ofNat 32 frame }
  (s.cur.lanes = [k % 32] → k / 32 = s.curG → s.active f.guard k = true → g.hdepth = 0 →
    ∀ j ∈ [Instr.tlbw f, .tlbinv f, .walkrd f, .tretRetry f, .tretExit f, .fpop f, .fpush f, .ownhalt f],
      exec j s = .next (s.raisePc k .illop)) ∧
  (s.lone k f.guard {} (fUses f false true true false) .handlerOnly →
    (tlbFormed e = false → exec (.tlbw f) s = .next (s.raisePc k .illopd)) ∧
    (tlbFormed e = true → (s.owner o).holdsAA (tlbFrame e * 2 ^ 16) (tlbBytes e) = false → exec (.tlbw f) s = .next (allot (tlbFrame e))) ∧
    (tlbFormed e = true → (s.owner o).holdsAA (tlbFrame e * 2 ^ 16) (tlbBytes e) = true →
      let others := (s.core core).tlb.filter (fun x => !(x.owner == o && tlbOverlap x.bits e))
      let mine := others.countP (fun x => x.owner == o)
      let bits := fun (l : List TlbEntry) => l.map (fun x => (x.owner, x.bits))
      ∃ s', ActsOnce (.tlbw f) s s' k .zero false (s'.lastUses k f 2 2 1) {} 0 ∧ here s' core (s'.core core) ∧
        (mine < 1056 → bits (s'.core core).tlb = bits others ++ [(o, e)]) ∧
        (1056 ≤ mine → ∃ i, (others[i]?).map (·.owner) = some o ∧ bits (s'.core core).tlb = bits (others.eraseIdx i) ++ [(o, e)]))) ∧
  (s.lone k f.guard {} (fUses f false true false false) .handlerOnly → s.ops = [] →
    let gone := fun (x : TlbEntry) => x.owner = o ∧ (f.sub = 0 → tlbHolds x.bits (a % 2 ^ 48) = true) ∧
      (f.sub = 1 → tlbG x.bits = false ∧ tlbAsp x.bits = a % 256)
    let inScope := fun (c : Nat) => (f.sc = 2 → c = core) ∧ (f.sc = 4 → c / 24 = core / 24)
    ∃ s', ActsOnce (.tlbinv f) s s' k .zero false (s'.lastUses k f 2 1 1) {} 0 ∧ s' = { s with cores := s'.cores } ∧
      ∀ c, (inScope c → (s'.core c).tlb = (s.core c).tlb.filter (fun x => !decide (gone x))) ∧
        (¬inScope c → s'.core c = s.core c) ∧ s'.core c = { s.core c with tlb := (s'.core c).tlb }) ∧
  (s.lone k f.guard {} [⟨f.d, 4, true⟩] .handlerOnly → ∀ i, f.d = .w i →
    let row := (s.thread k).winbase + i
    let gets := fun (v : BitVec 128) (t : Thread) => (((t.setReg row (v.extractLsb' 0 32)).setReg (row + 1) (v.extractLsb' 32 32)).setReg
      (row + 2) (v.extractLsb' 64 32)).setReg (row + 3) (v.extractLsb' 96 32)
    ((s.core core).oldest g.mayClaim = none → MovesOn (.walkrd f) s s k {} (gets 0)) ∧
    ∀ j r, (s.core core).oldest g.mayClaim = some (j, r) → MovesOn (.walkrd f) s
      (s.setCore core { s.core core with recs := Tab.upd (s.core core).recs j (fun x => { x with claimed := some g.uid, name := j }) })
      k {} (gets (r.bits j))) ∧
  (s.lone k f.guard {} (fUses f false false false false) .handlerOnly →
    let held := (s.core core).heldRec g.uid n
    let tret := fun (retry : Bool) => if retry then Instr.tretRetry f else .tretExit f
    let pop := fun (u : State) (v : BitVec 64) => ActsOnce (.fpop f) s u k f.d false (u.uses k f 1 1 1) {} v
    let push := fun (u : State) (v : BitVec 64) => ActsOnce (.fpush f) s u k f.d false (u.uses k f 1 1 1) {} v
    (∀ retry, 64 ≤ n → exec (tret retry) s = .next (s.raisePc k .illopd)) ∧
    (∀ retry, n < 64 → s.quiet k →
      (∀ rid, held = some rid →
        let u := (s.holdFor k rid).releaseRecord core rid retry
        ActsOnce (tret retry) s u k .zero false (u.lastUses k f 1 1 1) {} 0) ∧
      (held = none → ActsOnce (tret retry) s s k .zero false (s.lastUses k f 1 1 1) {} 0)) ∧
    (s.reserveOps k = [] →
      (∀ base cap top, s.poolHeader o = some (base, cap, top + 1) →
        pop (((s.poolAtomic core o (base + 4 * top)).poolWrite core o 0x108 top).countWalk o 20) (BitVec.ofNat 64 (s.poolRead o (base + 4 * top) 4))) ∧
      (s.poolHeader o = none ∨ (∃ base cap, s.poolHeader o = some (base, cap, 0)) → pop ((s.poolAtomic core o 0x108).countWalk o 12) 0xFFFFFFFF) ∧
      (2 ^ 28 ≤ n → exec (.fpush f) s = .next (s.raisePc k .illopd)) ∧
      (n < 2 ^ 28 → (s.owner o).holdsAA (n * 2 ^ 16) (2 ^ 16) = false → exec (.fpush f) s = .next (allot n)) ∧
      (n < 2 ^ 28 → (s.owner o).holdsAA (n * 2 ^ 16) (2 ^ 16) = true →
        (∀ base cap top, s.poolHeader o = some (base, cap, top) → top ≠ cap →
          push (((s.poolWrite core o (base + 4 * top) n).poolWrite core o 0x108 (top + 1)).countWalk o 20) 1) ∧
        (s.poolHeader o = none ∨ (∃ base cap, s.poolHeader o = some (base, cap, cap)) → push ((s.poolAtomic core o 0x108).countWalk o 12) 0)) ∧
      ∀ off l, (s.owner o).mapReserve off 4 = some l → (s.poolAtomic core o off).mem = s.mem ∧
        ∀ x ∈ ((s.poolAtomic core o off).core core).l1, x.line ≠ l.dpa / 128) ∧
    exec (.ownhalt f) s = .next (s.reportHalt o { cause := .self, hd := g.hdepth, core, gslot := k / 32 % 512, lane := k % 32
                                                  code := BitVec.ofNat 32 n })) ∧
  (∀ i r w wg, Tab.find (s.core core).recs i = some r → r.waiters = [w] → r.seqTeams = [] → (s.core core).recWaits = [] →
    s.findGroup w.uid = some wg →
    let j := tkey wg w.lane
    let u := fun retry => s.releaseRecord core i retry
    (((u true).thread j).st = .ready ∧ ((u true).thread j).frec.v = false ∧
      ((u true).thread j).pc = (s.thread j).pc + (if r.cls = .svc ∨ r.cls = .debug then 8 else 0) ∧
      Tab.find ((u true).core core).recs i = none) ∧
    ((u false).thread j).st = .exited ∧ ((u false).thread j).frec.v = false ∧ Tab.find ((u false).core core).recs i = none)

/-! ### The matrix stream -/

/-- R252 to R259: a word that reads a tile raises ILLOPD where its register names no tile of the team, and waits until the tile is
ready. MLDA loads a tile register from rows of a tile, zeros beyond them, with its format and scales, and makes the banks built
from that register stale. MMA and MMA.CONV add the products of a format's chunks to one accumulator tile, MMAS the sorted-level
sums to one running-sum register, clamped to 48 bits where it held a value; an MMA that skips blocks of a format without scales is ILLOP
before its tile is looked at (R53). Each holds its tiles, acquires what made them ready (R149), and changes nothing else of the matrix state
but the reuse latch. That a word waits for its tile before its formats are checked (log 73, DESIGN CHOICE), and computes what it does when it
issues (log 38, DEDUCED), are the model's choices. -/
def Obligations.MatrixWordsLoadAndMultiply : Prop := ∀ (z : ZWord) (s : State) (key : Nat) (t : Team) (m : Matrix),
  let s₁ := s.streamNext key
  let idx := (s.uniOf key z.u1).toNat
  let idx2 := (s.uniOf key z.u2).toNat
  let k := opdNum z.a
  let d := opdNum z.d
  let F := m.tagOf k
  let row := fun n => m.rowNum k n
  let acc := fun n c => (m.accAt d n c).toNat
  let needs := fun (i : Instr) (units : List Nat) => s.inStream key t m units →
    (s.tileOf key idx = none → StreamFaults i s key .illopd) ∧
    (∀ x, s.tileOf key idx = some x → x.st ≠ .ready → StreamWaits i s key none)
  let goes := fun (i : Instr) (units : List Nat) (tm : Team) (op : MatOp) (P : Matrix → Prop) => ∃ (bad : Nat) (m' : Matrix),
    StreamIssues i s (((s₁.countPoison t.owner bad).holdTile key idx).updMatrix key (fun _ => m')) key [{ op with units }] ∧ P m' ∧
      (tm.scratchPoison = [] → bad = 0)
  let accs := fun (x : Tile) (m' : Matrix) (v : Nat → Nat → Word) =>
    m' = { m with acc := m'.acc, latch := if z.rf then some k else none, view := m.view ++ x.view } ∧
    ∀ i n c, n < 128 → c < 64 → m'.accAt i n c = if i = d then v n c else m.accAt i n c
  let skip := z.mod.getLsbD 0
  let badSkip := skip = true ∧ F ≤ 0xF ∧ hasScales F = false
  needs (.mlda z) [0] ∧ (¬badSkip → needs (.mma z) [1]) ∧ needs (.mmaConv z) [1] ∧
  -- MLDA
  (s.inStream key t m [0] → ∀ x, s.tileOf key idx = some x → x.st = .ready → x.rowb < 64 →
    let tm := t.withEarly m x.gen
    let row0 := if z.mod.getLsbD 0 then 128 else 0
    let present := min 128 (x.rows + 1 - row0)
    let J := rowScales x.fmt
    (J ≠ 0 → present ≠ 0 → tm.scratchSize < 16 * x.svp + (row0 + present) * J → StreamFaults (.mlda z) s key .bounds) ∧
    (J = 0 ∨ present = 0 ∨ 16 * x.svp + (row0 + present) * J ≤ tm.scratchSize → goes (.mlda z) [0] tm { holds := [idx] } (fun m' =>
      m' = { m with mreg := m'.mreg, mtag := m'.mtag, msc := m'.msc, psrc := m'.psrc, latch := if m.latch = some d then none else m.latch
                    view := m.view ++ x.view } ∧
      (∀ n b, n < 128 → b < 64 → Tab.getD m'.mreg 0 (8192 * d + 64 * n + b) =
        if n < present ∧ b ≤ x.rowb then (tm.tileRow x (row0 + n) (x.rowb + 1) (matBits x.fmt)).1.getD b 0 else 0) ∧
      (∀ j, j / 8192 ≠ d → Tab.getD m'.mreg 0 j = Tab.getD m.mreg 0 j) ∧
      (∀ j, m'.tagOf j = if j = d then x.fmt else m.tagOf j) ∧
      (∀ n j, n < 128 → j < J → m'.scaleAt d n j = if n < present then ((tm.matRead (16 * x.svp + (row0 + n) * J) J).1.getD j 0).toNat
        else if x.fmt = 0xD then 0x3C else 127) ∧
      ∀ b, b < 4 → Tab.getD m'.psrc 16 b = if Tab.getD m.psrc 16 b = d then 17 else Tab.getD m.psrc 16 b))) ∧
  -- MMA
  (s.inStream key t m [1] → badSkip → StreamFaults (.mma z) s key .illop) ∧
  (s.inStream key t m [1] → ∀ x, s.tileOf key idx = some x → x.st = .ready → ¬badSkip →
    let tm := t.withEarly m x.gen
    let (K, rows, bytes) := mmaShape F
    let bits := matBits F
    let line := fun r => if r < rows then leNat (tm.tileRow x r bytes bits).1 else 0
    let codeB := fun j c => if F ≤ 1 then line (2 * j + c / 32) / 2 ^ (16 * (c % 32)) % 2 ^ 16 else line j / 2 ^ (bits * c) % 2 ^ bits
    let scaleB := fun j c => if hasScales F = true ∧ j ≤ scaleIndex F (K / chunkLen F - 1) then
      ((tm.matRead (16 * x.svp + 64 * j) 64).1.getD c 0).toNat else 0
    (0xE < F ∨ F ≠ x.fmt ∨ x.rows + 1 < rows ∨ x.rowb + 1 < bytes → StreamFaults (.mma z) s key .illopd) ∧
    (F ≤ 0xE → F = x.fmt → rows ≤ x.rows + 1 → bytes ≤ x.rowb + 1 →
      ∃ omitted, goes (.mma z) [1] tm { holds := [idx], skipblk := omitted } (fun m' =>
        accs x m' (fun n c => BitVec.ofNat 32 (mmaElem F skip K (fun j => row n / 2 ^ (bits * j) % 2 ^ bits) (fun j => codeB j c)
          (fun j => m.scaleAt k n j) (fun j => scaleB j c) (acc n c)).1)))) ∧
  -- MMA.CONV
  (s.inStream key t m [1] → ∀ x, s.tileOf key idx = some x → x.st = .ready →
    let tm := t.withEarly m x.gen
    let cv := convOf (fun j => (s.uniOf key (z.u2 + j)).toNat) (F == 0xC)
    (F ≠ x.fmt ∨ (F ≠ 7 ∧ F ≠ 0xC) ∨ cv = none → StreamFaults (.mmaConv z) s key .illopd) ∧
    ∀ dsc, F = x.fmt → F = 7 ∨ F = 0xC → cv = some dsc →
      let byte := fun a => leNat (tm.matRead a 1).1
      let src := fun c j => dsc.src c (64 * z.n.toNat + j)
      let code := fun c j => match src c j with
        | .zero => 0 | .pad => dsc.pad | .at p ci => byte (64 * x.base + p * dsc.C + ci)
      let place := fun p ci => 16 * x.svp + p * dsc.C / 32 + ci / 32
      let scale := fun c j => match src c j with
        | .zero => 127 | .pad => 127 | .at p ci => byte (place p ci)
      let beyond := F = 0xC ∧ ∃ c j p ci, c < 64 ∧ dsc.masked c = false ∧ j < 64 ∧ src c j = .at p ci ∧ tm.scratchSize ≤ place p ci
      (64 * x.extent < dsc.NB * dsc.H * dsc.W * dsc.C → StreamFaults (.mmaConv z) s key .illopd) ∧
      (dsc.NB * dsc.H * dsc.W * dsc.C ≤ 64 * x.extent → (beyond → StreamFaults (.mmaConv z) s key .bounds) ∧ (¬beyond →
        goes (.mmaConv z) [1] tm { holds := [idx], convtail := 64 - (List.range 64).countP (fun c => !dsc.masked c) } (fun m' =>
          accs x m' (fun n c => if dsc.masked c then m.accAt d n c else BitVec.ofNat 32 (mmaElem F false 64
            (fun j => row n / 2 ^ (8 * j) % 256) (fun j => if j < 64 then code c j else 0) (fun j => m.scaleAt k n j)
            (fun j => if j < 2 then scale c (32 * j) else 127) (acc n c)).1))))) ∧
  -- MMAS
  (s.inStream key t m [1, 2] →
    (s.tileOf key idx = none ∨ s.tileOf key idx2 = none → StreamFaults (.mmas z) s key .illopd) ∧
    ∀ x l, s.tileOf key idx = some x → s.tileOf key idx2 = some l →
      let tm := t.withEarly m x.gen
      let tl := t.withEarly m l.gen
      let p := z.mod.toNat % 4
      let src := Tab.getD m.psrc 16 p
      let fits := x.fmt = 7 ∧ x.sve = true ∧ 127 ≤ x.rows ∧ x.rowb = 63 ∧ l.fmt = 0xF ∧ 127 ≤ l.rows ∧ 11 ≤ l.rowb ∧ F = 0xF ∧
        src ≠ 17 ∧ (src ≤ 15 → src = k)
      let table := fun n => leNat (tl.matRead (64 * l.base + 16 * l.pitch * n) 12 96).1
      let ew : Nat → Byte := fun n => BitVec.ofNat 8 (table n / 2 ^ 81)
      let ea := fun c => (tm.matRead (16 * x.svp) 64).1.getD c 0
      let held := Tab.getD m.zst false d = true
      let agree := held → (∀ n, n < 128 → Tab.getD m.zew 0 (128 * d + n) = ew n) ∧ (∀ c, c < 64 → Tab.getD m.zea 0 (64 * d + c) = ea c)
      let sum := fun n c => mmasSum (table n) (fun g => (Tab.getD (s₁.readPerm (key / 32) t.uid) 0 (512 * p + 4 * n + g)).toNat)
        (fun r => if r < 128 then asInt true 8 ((tm.matRead (64 * x.base + 16 * x.pitch * r) 64).1.getD c 0).toNat else 0)
      (x.st ≠ .ready ∨ l.st ≠ .ready → StreamWaits (.mmas z) s key none) ∧
      (x.st = .ready → l.st = .ready → ¬(fits ∧ agree) → StreamFaults (.mmas z) s key .illopd) ∧
      (x.st = .ready → l.st = .ready → fits → agree → ∃ (bad clamped : Nat) (m' : Matrix),
        StreamIssues (.mmas z) s ((((s₁.countPoison t.owner bad).holdTile key idx).holdTile key idx2).updMatrix key (fun _ => m')) key
          [{ units := [1, 2], holds := [idx, idx2], satcnt := clamped }] ∧
        m' = { m with z := m'.z, zst := m'.zst, zew := m'.zew, zea := m'.zea, view := m.view ++ x.view ++ l.view } ∧
        (∀ i n c, n < 128 → c < 64 → m'.zAt i n c = if i = d then satS 48 (if held then sum n c + m.zAt d n c else sum n c)
          else m.zAt i n c) ∧
        (∀ i, Tab.getD m'.zst false i = if i = d then true else Tab.getD m.zst false i) ∧
        (∀ n, n < 128 → Tab.getD m'.zew 0 (128 * d + n) = ew n) ∧ (∀ c, c < 64 → Tab.getD m'.zea 0 (64 * d + c) = ea c) ∧
        (∀ j, j / 128 ≠ d → Tab.getD m'.zew 0 j = Tab.getD m.zew 0 j) ∧ ∀ j, j / 64 ≠ d → Tab.getD m'.zea 0 j = Tab.getD m.zea 0 j))

/-- R249, R259 to R264: MZFLUSH folds a running-sum register into an accumulator tile, MZCLR and MZERO clear theirs, MSTORE and MCVT
write an accumulator tile into an empty tile, which drains until the word completes: each 8-byte location is written by then (R265);
the barrier, wait, fence and end words act
on the stream, the permutation words on the permutation table, and a completion takes the oldest word out of flight. That a drain waits for
its tile before its formats are checked (log 73, DESIGN CHOICE), and computes its values when it issues, its writes to come and some of them
perhaps performed before (log 38, DEDUCED), are the model's choices. -/
def Obligations.MatrixWordsDrainAndSynchronise : Prop := ∀ (z : ZWord) (s : State) (key : Nat) (t : Team) (m : Matrix),
  let s₁ := s.streamNext key
  let idx := (s.uniOf key z.u1).toNat
  let v1 := (s.uniOf key z.u1).toNat
  let v2 := (s.uniOf key z.u2).toNat
  let a := opdNum z.a
  let d := opdNum z.d
  let n := z.n.toNat
  let core := key / 32
  let bank := z.mod.toNat % 4
  let sets := fun (i : Instr) (units : List Nat) (P : Matrix → Prop) => s.inStream key t m units →
    ∃ m' : Matrix, StreamIssues i s (s₁.updMatrix key (fun _ => m')) key [{ units }] ∧ P m'
  let zeroed := fun (m' : Matrix) i => (∀ n c, n < 128 → c < 64 → m'.zAt i n c = 0) ∧ Tab.getD m'.zst false i = false
  let perm := fun (u : State) i => Tab.getD (u.core core).perm 0 i
  let keeps := fun (u : State) => u.mem = s.mem ∧ u.threads = s.threads ∧ u.groups = s.groups
  -- Running sums and accumulators
  sets (.mzflush z) [1] (fun m' =>
    (∀ i n c, n < 128 → c < 64 → m'.accAt i n c = if i = d ∧ Tab.getD m.zst false a = true then
        BitVec.ofNat 32 (flushElem (m.accAt d n c).toNat (m.zAt a n c) (Tab.getD m.zew 0 (128 * a + n)).toNat
          (Tab.getD m.zea 0 (64 * a + c)).toNat)
      else m.accAt i n c) ∧
    (if z.mod.getLsbD 0 then m' = { m with acc := m'.acc } else m' = { m with acc := m'.acc, z := m'.z, zst := m'.zst } ∧ zeroed m' a)) ∧
  sets (.mzclr z) [1] (fun m' => m' = { m with z := m'.z, zst := m'.zst } ∧ zeroed m' d ∧
    ∀ i n c, i ≠ d → n < 128 → c < 64 → m'.zAt i n c = m.zAt i n c ∧ Tab.getD m'.zst false i = Tab.getD m.zst false i) ∧
  sets (.mzero z) [1] (fun m' => m' = { m with acc := m'.acc } ∧
    ∀ i n c, n < 128 → c < 64 → m'.accAt i n c = if i = d then 0 else m.accAt i n c) ∧
  -- Drains
  (s.inStream key t m [3] →
    (s.tileOf key idx = none → StreamFaults (.mstore z) s key .illopd ∧ StreamFaults (.mcvt z) s key .illopd) ∧
    ∀ x, s.tileOf key idx = some x →
      let tm := t.withEarly m x.gen
      let writes := fun (i : Instr) (rows : List (Nat × List Byte)) (bad clamped : Nat) => StreamIssues i s
        ((s₁.countPoison t.owner bad).turnTile core idx { x with st := .draining }) key
        [{ units := [3], satcnt := clamped, drain := some (idx, z.mod.getLsbD 1)
           writes := rows.flatMap (fun r => (List.range 8).map (fun j =>
             (64 * x.base + 16 * x.pitch * r.1 + 8 * j, (r.2.drop (8 * j)).take 8))) }]
      let half := if z.mod.getLsbD 0 then 64 else 0
      let fmt := z.sub.toNat
      let scales := fun r c => if fmt = 9 ∨ fmt = 0xC then ((tm.matRead (16 * x.svp + 64 * (r / 32)) 64).1.getD c 0).toNat else 0
      let code := fun r c => (mcvtElem fmt (z.mod.getLsbD 0) ((Rm.ofCode z.rm.toNat).getD .rn) (m.accAt a r c).toNat v2 (scales r c)).1
      (x.st ≠ .empty → StreamWaits (.mstore z) s key none ∧ StreamWaits (.mcvt z) s key none) ∧
      (x.st = .empty →
        (x.rows + 1 < 256 ∨ x.rowb + 1 < 64 → StreamFaults (.mstore z) s key .illopd) ∧
        (256 ≤ x.rows + 1 → 64 ≤ x.rowb + 1 → writes (.mstore z) ((List.range 256).map (fun q => (q, (List.range 16).flatMap (fun c =>
          leBytes 4 (m.accAt a (half + q / 4) (16 * (q % 4) + c)).toNat)))) 0 0) ∧
        (x.fmt ≠ fmt ∨ x.rows + 1 < (if fmt ≤ 1 then 256 else 128) ∨ x.rowb + 1 < 64 → StreamFaults (.mcvt z) s key .illopd) ∧
        (x.fmt = fmt → (if fmt ≤ 1 then 256 else 128) ≤ x.rows + 1 → 64 ≤ x.rowb + 1 → ∃ bad clamped,
          writes (.mcvt z) (if fmt ≤ 1 then
              (List.range 256).map (fun q => (q, (List.range 32).flatMap (fun c => leBytes 2 (code (q / 2) (32 * (q % 2) + c)))))
            else (List.range 128).map (fun r => (r, (List.range 64).map (fun c => BitVec.ofNat 8 (code r c))))) bad clamped ∧
          (tm.scratchPoison = [] → bad = 0)))) ∧
  (∀ o, (∀ e ∈ m.ahead, e.1 ≠ m.widx) → m.writesLeft o = o.writes) ∧
  -- Barriers, waits, the end
  (s.inStream key t m [] →
    (t.nbars ≤ n → StreamFaults (.mbarArr z) s key .illopd ∧ StreamFaults (.mbarWait z) s key .illopd) ∧
    (n < t.nbars →
      StreamIssues (.mbarArr z) s ((s₁.completeAll key).barEvent key n (fun b => b.arrive 0 true) m.view) key [] ∧
      ((Tab.getD t.bars {} n).ph ≠ z.mod.getLsbD 0 → StreamIssues (.mbarWait z) s
        (s₁.updMatrix key (fun m => { m with view := m.view ++ (Tab.getD t.bars {} n).carried, early := [] })) key []) ∧
      ((Tab.getD t.bars {} n).ph = z.mod.getLsbD 0 → StreamWaits (.mbarWait z) s key (some n))) ∧
    (s.tileOf key idx = none → StreamFaults (.mwaitt z) s key .illopd) ∧
    (∀ x, s.tileOf key idx = some x → if x.st.code = z.sub.toNat then StreamIssues (.mwaitt z) s s₁ key []
      else StreamWaits (.mwaitt z) s key none) ∧
    StreamIssues (.mfence z) s ((s₁.completeAll key).updMatrix key (fun m => { m with early := [], fence := m.widx + 1 })) key [] ∧ ((s.completeAll key).team key).matrix = some { m with flight := [] } ∧
    exec (.mend z) s = .next (s.endStream key none) ∧
    (m.flight = [] → ∀ c, let u := s.endStream key c
      ((u.team key).matrix.map (fun x => (x.st, x.cls))) = some (if c.isSome then .faulted else .ended, c.getD .none))) ∧
  (∀ op rest g, s.inStream key t m [] → m.flight = op :: rest → s.group0 key = some g →
    ∃ u, exec (.matrixWordComplete s.cur.core) s = .next u ∧ (u.team key).matrix = some { m with flight := rest } ∧
      (u.team key).scratch = (op.writes.foldl (fun t w => t.scratchWrite w.1 w.2) (s.team key)).scratch ∧
      u.group g = { s.group g with skipblk := satInc32 (s.group g).skipblk op.skipblk, satcnt := satInc32 (s.group g).satcnt op.satcnt
                                   convtail := satInc32 (s.group g).convtail op.convtail } ∧
      (∀ i x, s.tileOf key i = some x →
        (op.holds = [i] → op.drain = none → u.tileOf key i = some { x with hold := x.hold - 1 }) ∧
        (∀ ready, op.holds = [] → op.drain = some (i, ready) → x.st = .draining →
          u.tileOf key i = some { x with st := if ready then .ready else .empty, gen := s.nextId }))) ∧
  -- Permutation words
  (s.inStream key t m [2] →
    (m.tagOf a ≠ 0xF → StreamFaults (.permb (.stream z)) s key .illopd) ∧
    (m.tagOf a = 0xF → ∃ s', StreamIssues (.permb (.stream z)) s s' key [{ units := [2] }] ∧ keeps s' ∧
      (∀ r g, r < 128 → g < 4 → perm s' (512 * bank + 4 * r + g) =
        permEntry ((List.range 32).map (fun i => m.rowNum a r / 2 ^ (4 * (32 * g + i)) % 16))) ∧
      ∀ i, i < 512 * bank ∨ 512 * bank + 512 ≤ i → perm s' i = perm s i)) ∧
  (s.inStream key t m [0] →
    (permRange v1 v2 = none → StreamFaults (.permld (.stream z)) s key .illopd ∧ StreamFaults (.permst (.stream z)) s key .illopd) ∧
    ∀ first count, permRange v1 v2 = some (first, count) →
      (t.scratchSize < v1 + 32 * count → StreamFaults (.permld (.stream z)) s key .bounds ∧ StreamFaults (.permst (.stream z)) s key .bounds) ∧
      (v1 + 32 * count ≤ t.scratchSize →
        (∃ s', StreamIssues (.permld (.stream z)) s s' key [{ units := [0] }] ∧ keeps s' ∧
          (∀ i, i < count → perm s' (first + i) = BitVec.ofNat 256 (leNat ((((t.withEarly m 0).matRead v1 (32 * count)).1.drop (32 * i)).take 32))) ∧
          ∀ i, i < first ∨ first + count ≤ i → perm s' i = perm s i) ∧
        (let bytes := (List.range count).flatMap (fun i => leBytes 32 (Tab.getD (s₁.readPerm core t.uid) 0 (first + i)).toNat)
         StreamIssues (.permst (.stream z)) s s₁ key
           [{ units := [0], writes := (List.range (bytes.length / 8)).map (fun j => (v1 + 8 * j, (bytes.drop (8 * j)).take 8)) }])))

/-! ### Events of the Orrery and of handlers -/

/-- R125, R128, R136, R137, R172, R174, R281, R304, R336: a quantum ends when its issues are used up or nothing is ready, and its lapped
threads become ready; a backoff ends with its delay; neither event touches a halted owner's threads; a group retires when its threads have
exited and nothing of it is outstanding; a notification completes its outstanding entry, found at the place that its command was issued from
or, where that group has moved, in the owner's group that holds it, and entries leave from the heads; a handler slot starts at the entry
of its oldest unclaimed record's class; a window's end counts an exhausted budget, and the fourth in a row halts its owner; and
once in an ac deficits are replenished where no owner with a positive one has a ready run. A quantum ends by QUANT as it stood at the
group's last issue (R129). That a window ends by itself as its time comes (log 46, DEDUCED), and that the halt names the depth-1 handler slot,
lane 0 and depth 0 (log 77, DESIGN CHOICE), are the model's choices. -/
def Obligations.OrreryEventsEndQuantaWaitsAndGroups : Prop := ∀ (s : State) (g k i core o d : Nat) (x : Group),
  (s.group? g = some x → s.isHalting x.owner = true → exec (.quantumEnd g) s = .next s) ∧
  (s.isHalting (s.group (k / 32)).owner = true → exec (.backoffExpire k) s = .next s) ∧
  (s.group? g = some x → s.isHalting x.owner = false → x.orbit.qact = true → x.quant ≤ x.orbit.qcnt ∨ s.readyKeys g = [] →
    ∃ t, exec (.quantumEnd g) s = .next t ∧ t = { s with groups := t.groups, threads := t.threads } ∧
      t.group g = { x with orbit := { x.orbit with qact := false, qcnt := 0 } } ∧ (∀ j, j ≠ g → t.group j = s.group j) ∧
      ∀ j, t.thread j = if j / 32 = g ∧ (s.thread j).st = .lapped then { s.thread j with st := .ready } else s.thread j) ∧
  ((s.thread k).st = .backoff → (s.thread k).bodly = 0 → s.isHalting (s.group (k / 32)).owner = false →
    exec (.backoffExpire k) s = .next (s.setThread k { s.thread k with st := .ready })) ∧
  (s.group? g = some x → (∀ l, l < 32 → (s.thread (tkey g l)).st = .exited) → (∀ op ∈ s.ops, op.uid ≠ x.uid) → x.opc = [] →
    ∃ t, exec (.groupRetire g) s = .next t ∧ t.group? g = none ∧ (∀ j, j ≠ g → t.group? j = s.group? j) ∧ t.mem = s.mem ∧
      ∀ j, t.thread j = if j / 32 = g then {} else s.thread j) ∧
  (∀ n, s.notes[i]? = some n →
    (∀ y, s.group? (gkey n.core n.gslot) = some y → y.awaits n = true → s.noteGroup n = some (gkey n.core n.gslot)) ∧
    ((∀ e ∈ s.groups, e.2.awaits n = false) → exec (.completionNotify i) s = .next { s with notes := s.notes.eraseIdx i }) ∧
    (∀ h y, s.noteGroup n = some h → s.group? h = some y → ∃ t, exec (.completionNotify i) s = .next t ∧
      t = { s with notes := s.notes.eraseIdx i, groups := t.groups, threads := t.threads } ∧
      t.group h = { y with opc := [0, 1, 2, 3].foldl (fun q c => dropHeads c q) (markDone n.cls n.q n.w y.opc) } ∧
      ∀ j, j ≠ h → t.group j = s.group j)) ∧
  (∀ slot j r pc, (s.core core).slotOf o = some slot → d = 1 ∨ d = 2 → s.group? (gkey core (509 + d - 2 * slot)) = none →
    s.isHalting o = false → (s.core core).oldest (servesRec o d) = some (j, r) → s.handlerEntry o r.cls d = some pc →
    let h := gkey core (509 + d - 2 * slot)
    ∃ t, exec (.handlerStart core o d) s = .next t ∧ t = { s with groups := t.groups, threads := t.threads, nextUid := s.nextUid + 1 } ∧
      (t.group h).owner = o ∧ (t.group h).hdepth = d ∧ (t.group h).hcls = r.cls ∧ (t.group h).team = none ∧
      (t.group h).reg 0 = BitVec.ofNat 32 r.cls.code ∧ (t.group h).reg 1 = BitVec.ofNat 32
        ((s.core core).recs.countP (fun e => servesRec o d e.2 && e.2.cls == r.cls)) ∧
      (∀ j, j ≠ h → t.group j = s.group j) ∧
      ∀ j, t.thread j = if j / 32 = h then { pc := BitVec.ofNat 64 pc, spilltop := 192 } else s.thread j) ∧
  (let c := s.core core
   let next := s.now / 120000
   let spent := fun (e : Nat × Walk) => (s.owner e.1).walkbudget ≤ e.2.used
   let closed := fun (e : Nat × Walk) => (e.1, ({ exhausted := if (s.owner e.1).walkbudget ≤ e.2.used then e.2.exhausted + 1 else 0 } : Walk))
   (next = c.window → exec (.walkWindowEnd core) s = .next s) ∧
   (next = c.window + 1 → (∀ e ∈ c.walks, ¬spent e ∨ e.2.exhausted < 3) →
     exec (.walkWindowEnd core) s = .next (s.setCore core { c with window := next, walks := c.walks.map closed })) ∧
   (c.window + 1 < next → (∀ e ∈ c.walks, ¬spent e ∨ e.2.exhausted < 3) →
     exec (.walkWindowEnd core) s = .next (s.setCore core { c with window := next, walks := c.walks.map (fun e => (e.1, {})) })) ∧
   (∀ n y z, next = c.window + 1 → c.walks = [(n, y)] → spent (n, y) → y.exhausted = 3 → Tab.find s.owners n = some z →
     z.ostat.st = .running → ∃ t, exec (.walkWindowEnd core) s = .next t ∧ t = { s with cores := t.cores, owners := t.owners } ∧
       t.owner n = { z with ostat := { st := .halting, cause := .runaway, core, gslot := handlerSlot ((c.slotOf n).getD 0) 1 }
                            haltAt := s.now })) ∧
  (let c := s.core core
   let wt := fun (e : Nat × OwnerSlot) => (max 1 (s.owner e.2.owner).wt : Int)
   let more := c.slots.map (fun e => (e.1, { e.2 with deficit := min (e.2.deficit + 256 * wt e) (512 * wt e) }))
   let waits := ∃ e ∈ c.slots, 0 < e.2.deficit ∧ s.ownerReady core e.2.owner = true
   (s.now < c.nextReplenish → exec (.defReplenish core) s = .next s) ∧
   (c.nextReplenish ≤ s.now → ∃ t, exec (.defReplenish core) s = .next t ∧ t = { s with cores := t.cores } ∧
     (∀ j, j ≠ core → t.core j = s.core j) ∧ (waits → t.core core = { c with nextReplenish := s.now + 1 }) ∧
     (¬waits → t.core core = { c with nextReplenish := s.now + 1, slots := more })))

/-! ### Copy engines -/

/-- R280 to R289: an iteration of the command that an engine serves makes the access of its kind at its place of the loop nest,
adds what its kind counts, and moves the iteration vector on or marks the payload done; a check that fails stops the queue with
its cause, and lines that the host may hold are first taken back (R235, R242). Payload writes stay pending until they are performed, in
no fixed order (R238); what a switch would have to hold waits (R348). Copy and gather move bytes, quantise writes the codes of the quotients,
reduce-add sends tagged deliveries, scrub writes the poison bits of whole lines, migrate moves a unit of 4 KiB and counts its poisoned words,
and decode writes its two regions and its word. These are the model's choices: the order of the checks, and the address of a refused migrate's
ALLOT and of a misaligned unit's ALIGN (log 36, DEDUCED); the address of an ILLOP stop, a free value (log 23, DESIGN CHOICE); how decode
reads its stream (log 30, DEDUCED); and the cause of a scrub outside HBM4E (log 88, DESIGN CHOICE). -/
def Obligations.PacketIterationsActAsTheirKindSays : Prop := ∀ (s : State) (q : Nat) (S D T : List (EngLoc × Nat)),
  let x := s.queue q
  let p := pktOf x.slot
  let iv := x.iv
  let lo := (p.part iv).1
  let n := (p.part iv).2
  let here := p.srcOff (iv.getD 1 0) iv
  let next := s.nextIv p iv
  let goes := fun (i : Instr) (kind : Nat) (u : State) (count : Nat) (word : Option Word) (bits : List Bool) =>
    p.kind = kind → exec (.copyIteration q) s = exec i s ∧ (s.switchBars u q = true → exec i s = .next s) ∧
      (s.switchBars u q = false → exec i s = .next ({ u.draw with nextId := u.nextId + 1 }.updQueue q (fun y =>
        { y with iv := next.getD y.iv, done := next.isNone, count := y.count + count, served := u.nextId + 1
                 decodeWord := if word.isSome then word else y.decodeWord, bits, before := some (x.iv, x.count, x.bits) })))
  let stops := fun (i : Instr) (kind cause addr : Nat) => p.kind = kind → exec i s = .next (s.draw.stopQueue q cause addr)
  x.st = .running → x.done = false → x.ahead = [] → s.servesNext q = true → Tab.getD s.engineReset false (engineOf q) = false →
  (s.queueOwner q).any s.isHalting = false →
  (next = if p.kind = 5 ∧ extLen (s.migration p).2.2.1 ≤ 4096 * (unitOf iv + 1) then none else bumpIv (s.ivLimits p) iv) ∧
  (p.kind = 6 → next = none) ∧
  (s.pktIllop q p = true → exec (.copyIteration q) s = .next (s.draw.stopQueue q 1 (Config.stopAddress s.draws % 2 ^ 48))) ∧
  (s.pktIllop q p = false → (iv.all (· == 0) = true → ∃ ls, s.stampPlace q p false = .ok ls) →
    -- Copy
    (∀ c a, s.srcWord q p.source (here + lo) n = .error (.stop c a) → stops (.packetCopy q) 0 c a) ∧
    (∀ lines, s.srcWord q p.source (here + lo) n = .error (.snoop lines) → p.kind = 0 →
      exec (.packetCopy q) s = .next (lines.foldl State.snoop s)) ∧
    (s.srcWord q p.source (here + lo) n = .ok S → s.engWord q p.dest (p.dstOff iv + lo) n = .ok D →
      let got := s.engRead q S
      goes (.packetCopy q) 0 (got.2.2.engPost q D got.1) got.2.1 none []) ∧
    -- Gather
    (let off := p.qp % 2 ^ 26
     (off % 4 ≠ 0 → stops (.packetGather q) 1 5 (off + 4 * iv.getD 1 0)) ∧
     (off % 4 = 0 → s.srcWord q (2 ^ 62 + off) (4 * iv.getD 1 0 : Nat) 4 = .ok T →
       let l := s.engRead q T
       l.2.2.srcWord q p.source (p.srcOff (leNat l.1) iv + lo) n = .ok S → l.2.2.engWord q p.dest (p.dstOff iv + lo) n = .ok D →
       let got := l.2.2.engRead q S
       goes (.packetGather q) 1 (got.2.2.engPost q D got.1) (l.2.1 + got.2.1) none [])) ∧
    -- Quantise
    (let fmt := p.qp / 16 % 16
     let size := if p.qp / 8 % 2 = 1 then 2 else 4
     let bits := fieldBits (deqElement fmt)
     let block := quantBlock fmt
     let e0 := lo / size
     let m := n / size
     let sides : Nat × Nat := if block = 0 then (4 * p.row iv, 4)
       else (p.row iv * (p.rowLen / size / block) + e0 / block, (m + block - 1) / block)
     (p.rowLen % size ≠ 0 ∨ p.rowLen / size % quantUnit fmt ≠ 0 →
       stops (.packetQuantise q) 2 5 ((((wordOffset p.source : Nat) + here) % 2 ^ 48).toNat)) ∧
     (p.rowLen % size = 0 → p.rowLen / size % quantUnit fmt = 0 → s.srcWord q p.source (here + lo) n = .ok S →
       s.srcWord q p.source (64 * asInt true 24 (p.qp / 256) + sides.1) sides.2 = .ok T →
       s.engWord q p.dest (p.dstOff iv + (e0 * bits / 8 : Nat)) ((m * bits + 7) / 8) = .ok D →
       let a := s.engRead q S
       let b := a.2.2.engRead q T
       let elem := fun j => (if size = 2 then Fmt.bf16 else Fmt.fp32).decode (leNat ((a.1.drop (size * j)).take size))
       let scale := fun j => quantScale fmt (if block = 0 then b.1 else (b.1.drop (j / block)).take 1)
       let out := (List.range m).map (fun j => quantElem fmt (elem j) (scale j))
       goes (.packetQuantise q) 2 (b.2.2.engPost q D (leBytes ((m * bits + 7) / 8)
         (out.foldr (fun e acc => e.1 + 2 ^ bits * acc) 0))) (a.2.1 + b.2.1 + out.countP (·.2)) none [])) ∧
    -- Reduce-add
    (∀ dpa world, s.srcWord q p.source (here + lo) n = .ok S → s.engWord q p.dest (p.dstOff iv + lo) n = .ok [(.g dpa world, n)] →
      let got := s.engRead q S
      let d : Delivery := { q, seq := p.value % 2 ^ 32, iter := p.linear iv, dpa, world, bf16 := p.qp % 2 == 1, data := got.1.take n }
      goes (.packetReduceAdd q) 3 { got.2.2 with deliveries := got.2.2.deliveries ++ deliverParts d } got.2.1 none []) ∧
    -- Scrub
    (let a : Int := (p.source % 2 ^ 44 : Nat) + here
     (a % 128 ≠ 0 ∨ p.rowLen % 128 ≠ 0 → stops (.packetScrub q) 4 5 ((a % 2 ^ 48).toNat)) ∧
     ∀ dpa world, a % 128 = 0 → p.rowLen % 128 = 0 → s.engWord q p.source (here + lo) n = .ok [(.g dpa world, n)] →
       (2 ^ 39 ≤ dpa → stops (.packetScrub q) 4 2 (((a + lo) % 2 ^ 48).toNat)) ∧
       (dpa < 2 ^ 39 →
         let bad := (List.range (n / 128)).map (fun i => (s.homeRead world (dpa + 128 * i) 128).poison.length)
         let bits := x.bits ++ bad.map (· != 0)
         let whole := if next.isNone then (bits.length + 7) / 8 else bits.length / 8
         s.engWord q p.dest (((p.row iv * (p.rowLen / 128) + 32 * iv.getD 0 0 - x.bits.length) / 8 : Nat) : Int) whole = .ok D →
           let read := s.engTouch q world dpa n
           goes (.packetScrub q) 4 (if whole = 0 then read else read.engPost q D (bitBytes whole bits)) (bad.foldl (· + ·) 0) none
             (bits.drop (8 * whole)))) ∧
    -- Migrate
    (let o := p.qp % 64
     let i := p.qp / 256 % 64
     let e := Tab.getD (s.owner o).allot 0 i
     let moved := extMoved e (p.qp / 2 ^ 16 % 4) (p.dest % 2 ^ 46)
     let bad := extV e = false ∨ p.dest % 2 ^ 16 ≠ 0 ∨ s.allotOk o (Tab.put (s.owner o).allot i moved) = false ∨ extOverlap e moved = true
     (bad → unitOf iv = 0 → stops (.packetMigrate q) 5 2 (p.dest % 2 ^ 48)) ∧
     (¬bad ∨ unitOf iv ≠ 0 → 4096 * unitOf iv < extLen e →
       let u := extDpa e / 4096 + unitOf iv
       goes (.packetMigrate q) 5 (s.moveUnit o (extWorld e) u (extDpa moved / 4096 + unitOf iv)) (if s.farDown (4096 * u) then 0
         else (List.range 512).countP (fun i => Tab.getD s.poison false (512 * u + i))) none [])) ∧
    -- Decode
    (let M := p.qp / 2 ^ 16
     s.srcWord q p.source 0 p.rowLen = .ok S → s.engWord q p.dest 0 (4 * M) = .ok D →
      let a := s.engRead q S
      let r := decodeStream a.1 M (2 ^ (p.qp / 2 % 4)) (if p.qp % 2 = 1 then 16 else 14) (BitVec.ofNat 8 (p.qp / 256))
      let word : Word := BitVec.ofNat 32 (r.1 * 2 ^ 28 + min a.2.1 0xFFF * 2 ^ 16 + r.2.1)
      let base := wordOffset p.dest
      (r.1 ≠ 0 → goes (.packetDecode q) 6 a.2.2 0 (some word) []) ∧
      (r.1 = 0 →
        s.engWord q p.dest (((base + 4 * M + 63) / 64 * 64 - base : Nat) : Int) r.2.2.2.length = .ok T →
        goes (.packetDecode q) 6 ((a.2.2.engPost q D r.2.2.1).engPost q T r.2.2.2) 0 (some word) [])))

/-- R277, R281, R285, R289, R290, R372, R373: an idle queue of a live owner starts its head command; a completed one, once its payload is
performed, its deliveries applied, its writes acknowledged (R236, R237, R239) and no team that its stamp or tile names is sealed, is stamped
with its count, and its tile, notification, event, slot and read index follow in order; a stopped queue resumes at its iteration vector or is
abandoned with the high word 0xFFFF_FFFF, and one of a halted owner halts where it would run again; a reset pauses an engine's commands, and
they go on after it; a delivery whose tag is not later than the last that its home slice has applied is dropped, and the elements of one that
is later are added, those that are not yet. These are the model's choices: that an abandoned command whose stamp address is invalid writes no
stamp, and that tags are compared for each slice modulo 2^32 (log 36, DEDUCED); the address of a poisoned head's stop, a free value (log 23,
DESIGN CHOICE). -/
def Obligations.EngineEventsRunTheQueues : Prop := ∀ (s : State) (q e i : Nat),
  let x := s.queue q
  let b := s.binding q
  let rd := s.qRd q
  let p := pktOf x.slot
  let live := Tab.getD s.engineReset false (engineOf q) = false
  let got := s.slotRead q rd
  (q < 768 → qbV b = true → x.st = .idle → rd < s.qWr q → live → qbPv b = true ∨ (s.owner (qbOwner b)).ostat.st = .running →
    s.hostLinesIn (s.slotDpa q rd) 64 = [] →
    let starts := fun (y : Queue) => if x.slot = [] then
        { y with slot := got.bytes, iv := [0, 0, 0, 0, 0], done := false, count := 0, decodeWord := none, bits := [], before := none }
      else { y with slot := got.bytes }
    (got.poison = [] → 2 ^ 63 ≤ pktNum got.bytes 0 8 → exec (.commandStart q) s = .next ((s.updQueue q starts).setQState q .running 0 0)) ∧
    (got.poison ≠ [] → let u := (s.updQueue q starts).setQState q .running 0 0
      exec (.commandStart q) s = .next (u.draw.stopQueue q 1 (Config.stopAddress u.draws % 2 ^ 48)))) ∧
  (x.st = .running → x.done = true → live →
    let s0 := s.landEngAll q
    let quiet := (s0.queue q).pend = [] ∧ (∀ d ∈ s0.deliveries, d.q ≠ q) ∧ (∀ o ∈ s0.sent, o.q = q → o.acked = true) ∧
      (∀ y ∈ s0.snoops, y.known = false ∧ y.queue ≠ some q) ∧ s0.stampSealed q p = false
    let m := if p.kind = 5 then s0.finishMigrate q p else (s0, true)
    let n := match x.decodeWord with
      | some w => w.toNat
      | none => x.count
    (¬quiet → exec (.commandComplete q) s = .next s0) ∧
    (quiet → m.2 = false → exec (.commandComplete q) s = .next m.1) ∧
    (∀ ls, quiet → m.2 = true → m.1.stampPlace q p true = .ok ls →
      let u := (m.1.engWrite q ls (leBytes 8 (min (p.value / 2 ^ 32 + n) (2 ^ 32 - 1) * 2 ^ 32 + p.value % 2 ^ 32))).knownSnoops m.1.snoops.length
      exec (.commandComplete q) s = .next (u.draw.afterStamp q p)) ∧
    (∀ c a, quiet → m.2 = true → m.1.stampPlace q p true = .error (.stop c a) →
      exec (.commandComplete q) s = .next (m.1.draw.draw.stopQueue q c a))) ∧
  (x.st = .stopped → live → s.qcbRead q 40 8 = 1 → got.poison = [] →
    let runs := ((s.qcbWrite q 40 8 0).updQueue q (fun y => { y with slot := got.clean (s.slotDpa q rd) })).setQState q .running 0 0
    let halted := (s.queueOwner q).any (fun o => (s.owner o).ostat.st == .halted) = true
    (¬halted → exec (.qcbResume q) s = .next runs) ∧ (halted → exec (.qcbResume q) s = .next (runs.setQState q .halted 0 0))) ∧
  (x.st = .stopped → live → s.qcbRead q 40 8 = 2 → s.engQuiet q = true → s.stampSealed q p = false →
    let u := s.qcbWrite q 40 8 0
    (∀ ls, u.stampPlace q p true = .ok ls → exec (.qcbAbandon q) s =
      .next (((u.engWrite q ls (leBytes 8 ((2 ^ 32 - 1) * 2 ^ 32 + p.value % 2 ^ 32))).knownSnoops u.snoops.length).draw.afterStamp q p)) ∧
    (∀ er, u.stampPlace q p true = .error er → exec (.qcbAbandon q) s = .next (u.draw.afterStamp q p))) ∧
  (s.power = .ready → e < 48 → exec (.engineReset e) s =
    .next ((s.queues.filter (fun y => engineOf y.1 == e && y.2.st == .running)).foldl (fun acc y => (acc.atBoundary y.1).setQState y.1 .paused 0 0)
      { s with engineReset := Tab.put s.engineReset e true })) ∧
  exec (.engineResetEnd e) s = .next { s with engineReset := Tab.del s.engineReset e }.resumePaused ∧
  (∀ d, s.deliveries[i]? = some d →
    let home := homeSlice d.dpa
    let beside := fun (c : Delivery) => c.q = d.q ∧ homeSlice c.dpa = home
    (∀ c ∈ s.deliveries.take i, ¬beside c) →
    let u : State := { s with deliveries := s.deliveries.eraseIdx i }
    let last := Tab.find (s.queue d.q).lastTags home
    let more := ∃ c ∈ u.deliveries, beside c ∧ c.seq = d.seq ∧ c.iter = d.iter
    (tagLater d.seq d.iter last = false → exec (.reduceAddDelivery i) s = .next u) ∧
    (tagLater d.seq d.iter last = true →
      let left := (List.range (d.data.length / (if d.bf16 then 2 else 4))).filter (fun j => !d.added.contains j)
      let sum := left.foldl (fun acc j => acc.addElem (s.queueOwner d.q) true d j) u
      let added := if s.farDown d.dpa ∨ d.cut.any (fun c => s.farDown c.2.1) then (s.queueOwner d.q).elim sum (fun o => sum.countPoison o 1) else sum
      (¬more → exec (.reduceAddDelivery i) s = .next (added.updQueue d.q (fun y =>
        { y with lastTags := Tab.put y.lastTags home (d.seq, d.iter) }))) ∧
      (more → exec (.reduceAddDelivery i) s = .next added))) ∧
  -- What the state of a queue and the stop of a command leave in the control block
  (∀ st c a, ((s.setQState q st c a).queue q).st = st ∧
    s.setQState q st c a = ((s.updQueue q (fun y => { y with st })).qcbWrite q 16 8 (st.code * 2 ^ 62 + c * 2 ^ 58 + a % 2 ^ 48)).homeWrite
      (((s.updQueue q (fun y => { y with st })).qcbWrite q 16 8 (st.code * 2 ^ 62 + c * 2 ^ 58 + a % 2 ^ 48)).queueWorld q) (qbQcb b + 24)
      (x.iv.flatMap (leBytes 2)))

/-! ### Placing teams, comets, monitors -/

/-- R300 to R303, R310 to R314: seats that can hold the teams of an eligible stage, which no other stage comes before, take them, each with
its identity, its item in scratch, its barriers at their count and its threads at the stage's entry, which acquire, those that a launch record
itself creates at system scope (R233, R242; how the model keeps that is its own, log 31, DEDUCED); a context that is ready re-enters
where its seats can hold it, in order; a stage whose input is used up completes, closing the next queue or ending its launch, whose handle
and pool space it frees and whose stamp it writes; a launch is forgotten with its last stage; and the smallest full queue of an owner
stalled for 4 µs is enlarged by 64 entries, or POOL is raised where the pool has no room. -/
def Obligations.TeamEventsPlaceCompleteAndEnlarge : Prop := ∀ (s : State) (l i id o : Nat) (seats : List Seat),
  (∀ ln, s.launch? l = some ln →
    let x := s.stageOf l i
    let q := s.stageQ l i
    let created := Tab.getD ln.created 0 i
    let others := (List.range ln.stages.length).all (fun j => j == i || Tab.getD ln.completed false j) = true
    (i < ln.stages.length → s.eligible l i = true → s.isHalting ln.owner = false → s.readyCtx ln.owner = false →
      s.outranked l i = false → (s.liveTids ln.owner).length + x.w * x.h ≤ 65535 → isRectangle x.w x.h seats = true →
      (∀ p seat, seats[p]? = some seat → s.seatOk ((x.needs ln.owner).at_ p) seat = true) →
      let taken := if x.resident then [] else (s.takeSeeds l i (x.w * x.h)).2
      let members := seats.map (fun e => teamKey e.core e.tslot)
      let count := 32 * x.grp + (if x.stream then 1 else 0)
      ∃ t, exec (.teamPlace l i seats) s = .next t ∧ t.mem = s.mem ∧
        ((t.launch? l).map (fun y => Tab.getD y.created 0 i)) = some (created + x.w * x.h) ∧
        ∀ p seat, seats[p]? = some seat →
          let key := teamKey seat.core seat.tslot
          let seed := taken.find? (fun e => e.1 % (x.w * x.h) == p)
          let number := (seed.map (·.1)).getD (created + p)
          let item := (seed.map (·.2)).getD []
          ∃ tm, t.team? key = some tm ∧ tm.owner = ln.owner ∧ tm.launch = l ∧ tm.stage = i ∧ tm.team = number ∧
            tm.pos = p ∧ tm.members = members ∧ tm.asp = ln.asp ∧ tm.scratchSize = 4096 * x.scr ∧
            tm.scratch = Memory.writeN [] 0 (if x.scr = 0 then [] else item) ∧ tm.nbars = x.bars ∧
            (∀ b, b < x.bars → Tab.getD tm.bars {} b = { exp := count, pend := count }) ∧
            (tm.matrix.map (·.mpc)) = (if x.stream then some x.mpc else none) ∧
            ∀ n slot, seat.gslots[n]? = some slot →
              let g := gkey seat.core slot
              (t.group g).owner = ln.owner ∧ (t.group g).team = some key ∧ (t.group g).gidx = n ∧ (t.group g).allot = x.regs ∧
              (∀ r, (t.group g).reg r = ln.pre.getD r 0) ∧
              ∀ lane, lane < 32 →
                let area := x.spill + BitVec.ofNat 64 ((tm.inst * x.grp * 32 + n * 32 + lane) * 4 * x.regs)
                let host := (i = 0 ∧ ln.isOpen = false) ∨ x.resident = true
                let takes : (Snoop → Bool) → List (Nat × Nat) := fun p => (s.snoops.filter p).map (fun y => (0, y.id))
                t.thread (tkey g lane) =
                  { pc := x.pc, spillbase := area, spilltop := area + BitVec.ofNat 64 (4 * x.regs)
                    sysLines := if host then s.hostLines.map (·.1) else []
                    obs := (if host then takes (fun y => y.uid == 0 && y.queue.isNone) else []) ++ takes (fun y => y.known) }) ∧
    (q.closed = true → q.len = 0 → s.stageTeams l i = [] → (x.resident = true → x.maxt ≤ created) → i < ln.stages.length →
      Tab.getD ln.completed false i = false → s.isHalting ln.owner = false → (∀ y ∈ s.snoops, y.known = false) →
      ∃ t, exec (.stageComplete l i) s = .next t ∧
        (others → t.launch? l = none) ∧
        (¬others → ((t.launch? l).map (fun y => Tab.getD y.completed false i)) = some true) ∧
        (s.lastStage l i = false → t.mem = s.mem ∧ (¬others → (t.stageQ l (i + 1)).closed = true)) ∧
        (s.lastStage l i = true →
          (¬others → ((t.launch? l).map (·.ended)) = some true) ∧
          ∃ u : State, u = { s with launches := u.launches, owners := u.owners } ∧
            t = { u.writeStamp ln.owner ln.stamp.toNat (ln.sval.toNat % 2 ^ 32) with launches := t.launches } ∧
            let held := ((ln.queues.mapIdx (fun j e => e.2.enlarged * (ln.stages.getD j {}).isz)).foldl (· + ·) 0)
            ∀ p, s.exists? p = true → u.owner p = if p = ln.owner then
              { s.owner p with poolused := (s.owner p).poolused - BitVec.ofNat 64 held } else s.owner p))) ∧
  (∀ c, Tab.find s.ctxs id = some c →
    let t0 := (c.teams.headD { team := {}, groups := [] }).team
    let x := s.stageOf t0.launch t0.stage
    exec (.restore id seats) s = exec (.teamReenter id seats) s ∧
    (s.earlierReady id = true → exec (.teamReenter id seats) s = .next s) ∧
    (s.earlierReady id = false → c.ready = true → c.evicted = false → s.isHalting c.owner = false → s.exists? c.owner = true →
      seats.length = c.teams.length → isRectangle x.w x.h seats = true →
      (c.teams.zip seats).all (fun e => s.seatOk (s.needsOf e.1) e.2) = true → s.handlersFit seats c = true → s.recsFit seats c = true →
      (∀ sv ∈ c.teams, sv.streamEnds = false) →
      ∃ t, exec (.teamReenter id seats) s = .next t ∧ Tab.find t.ctxs id = none ∧
        ∀ (p : Nat) (sv : SavedTeam) (seat : Seat), c.teams[p]? = some sv → seats[p]? = some seat →
          ∃ tm, t.team? (teamKey seat.core seat.tslot) = some tm ∧ tm = { sv.team with
            members := seats.map (fun e => teamKey e.core e.tslot), lastIssue := s.now, matrix := tm.matrix } ∧
            tm.matrix.map (fun m => { m with missing := false }) = sv.team.matrix.map (fun m => { m with missing := false }))) ∧
  (∀ since k f rest,
    let waiting := (s.ordinaryThreads o).filterMap (fun k => (s.thread k).fullQueue.map (fun f => (k, f)))
    let cost := s.enlargeCost f
    let u := s.updOwner o (fun x => { x with stalled := some s.now })
    (s.owner o).stalled = some since → sortBy (fun e => s.fullRank e.2) waiting = (k, f) :: rest → since + 4800 ≤ s.now →
    s.stalledNow o = true → s.isHalting o = false →
    ((s.owner o).poolused.toNat + cost ≤ (s.owner o).poolmax * 1024 →
      exec (.stallEnlarge o) s = .next ((u.updOwner o (fun x => { x with poolused := x.poolused + BitVec.ofNat 64 cost })).enlarge f)) ∧
    ((s.owner o).poolmax * 1024 < (s.owner o).poolused.toNat + cost → ∀ j g more,
      sortBy (fun e => e.1) (waiting.filter (fun e => e.2 == f)) = (j, g) :: more → exec (.stallEnlarge o) s =
        .next ((u.updThread j (fun t => { t with waitFor := none })).raise j
          { cls := .pool, addr := (s.thread j).pc.toNat, aux := s.poolAux f }))) ∧
  (s.isHalting o = true → (s.owner o).stalled.isSome = true → exec (.stallEnlarge o) s = .next s) ∧
  (∀ ln, s.launch? l = some ln → ((s.enlarge (.stage l i)).stageQ l i).cap = (s.stageQ l i).cap + 64) ∧
  ((s.enlarge (.copy o)).queue o).listCap = (s.queue o).listCap + 64

/-- R223, R320, R321, R358 to R360: a parked thread whose stamp has come becomes ready and acquires; a group of parked threads leaves
its slot for a park frame, and comes back from it as it was, its threads ready; a monitor's wait ends with status 1 where the line
has been written, 2 at its limit and 3 where no monitor is armed or it is lost; a recorded hit is raised at its word; an operation
abandoned delivers zero and leaves each of its threads a watchdog fault to be raised at the word, once. That a recorded hit puts the thread
back at its word, place in the clause and repetition, that hits are raised in the order of recording, and that the watchdog's fault waits to
be raised at the word, are the model's choices (log 40, DEDUCED). -/
def Obligations.WaitingThreadsWakeAndFault : Prop := ∀ (s : State) (k g frame i gslot r : Nat),
  let t := s.thread k
  let owner := (s.group (k / 32)).owner
  (t.st = .parked → s.answered owner t = true → s.isHalting owner = false →
    exec (.parkedWake k) s =
      .next (((s.setThread k (s.withSystem { t with st := .ready, watch := none })).invalidateL1 (k / 32 / 512) owner).takeKnown k)) ∧
  (t.st ≠ .parked ∨ s.answered owner t = false ∨ s.isHalting owner = true → exec (.parkedWake k) s = .next s) ∧
  (∀ x l, s.group? g = some x → s.parkFrame x.owner frame = some l → s.frameFree x.owner frame = true →
    (∀ lower, lower < frame → s.frameFree x.owner lower = false) →
    s.mayComet g = true → s.isHalting x.owner = false →
    ∃ (u : State) (c : Comet), exec (.cometForm g frame) s = .next u ∧ u.group? g = none ∧ (∀ j, j ≠ g → u.group? j = s.group? j) ∧
      u.comets = s.comets ++ [c] ∧ c.owner = x.owner ∧ c.frame = frame ∧ c.saved.group = x ∧ c.frameDpa = l.dpa ∧
      c.saved.threads = (List.range 32).map (fun j => (j, s.thread (tkey g j))) ∧ ∀ j, j / 32 = g → u.thread j = {}) ∧
  (∀ c key, s.comets[i]? = some c → s.findTeam c.teamUid = some key → s.gslotsOk (key / 32) c.owner [gslot] = true →
    s.isHalting c.owner = false → (∀ e ∈ c.saved.threads, e.2.st = .parked → s.answered c.owner e.2 = true) →
    c.saved.threads.map (·.1) = List.range 32 →
    (s.homeRead c.frameWorld c.frameDpa 8192).clean c.frameDpa = frameBytes c.drawn →
    let h := gkey (key / 32) gslot
    ∃ u, exec (.cometReenter i gslot) s = .next u ∧ u.comets = s.comets.eraseIdx i ∧
      u.group h = { c.saved.group with team := some key } ∧ (∀ j, j ≠ h → u.group j = s.group j) ∧
      (∀ j, j < 32 → let a := Tab.getD c.saved.threads {} j
        let b := if a.st = .parked then s.withSystem { a with st := .ready, watch := none } else a
        u.thread (tkey h j) = { b with obs := b.obs ++ (s.snoops.filter (·.known)).map (fun x => (0, x.id)) }) ∧
      ∀ j, j / 32 ≠ h → u.thread j = s.thread j) ∧
  (let isWait := fun (o : Op) => match o.kind with | .monwait _ => true | _ => false
   let ends := fun (j : Instr) (status : Nat) (may : Op → Bool) => ∀ o, (s.threadOps k).find? (fun o => isWait o && may o) = some o →
     o.dest = .win r → o.split = false → o.lane = k % 32 → s.findGroup o.uid = some (k / 32) → t.st ≠ .exited →
     ∃ u, exec j s = .next u ∧ (u.thread k).reg r = BitVec.ofNat 32 status ∧ (u.thread k).monitor = none ∧ (u.thread k).st ≠ .waitOp ∧
       u = { s with ops := s.ops.filter (fun p => p.id != o.id), threads := u.threads }
   (t.monitor.any Monitor.hit = true → ends (.monitorWake k) 1 (fun _ => true)) ∧
   ends (.monwaitTimeout k) (if t.monitor.isSome then 2 else 3) (fun o => o.deadline.any (· ≤ s.now)) ∧ ends (.monitorLost k) 3 (fun _ => true)) ∧
  (∀ h j, s.hits[i]? = some h → s.findGroup h.uid = some j →
    let n := tkey j h.lane
    (s.thread n).st = .ready → (∀ x ∈ s.hits.take i, x.uid ≠ h.uid ∨ x.lane ≠ h.lane) →
    ∃ u, exec (.debugHit i) s = .next u ∧ u.hits = s.hits.erase h ∧ (u.thread n).pc = h.pc ∧ (u.thread n).repix = h.repix ∧ (u.thread n).st = .waitHandler ∧
      ((u.thread n).clause.map ClausePos.left) = (h.clause.map ClausePos.left) ∧
      (u.thread n).frec.v = true ∧ (u.thread n).frec.cls = h.cls ∧ (u.thread n).frec.addr = h.addr) ∧
  (∀ o, s.op? i = some o → s.abandoned o = true →
    exec (.operationAbandon i false) s = .next (s.abandon o) ∧
    ((∀ p ∈ s.ops, o.heldBy p false = false) →
      exec (.operationAbandon i true) s = .next ({ s.abandonWrite { o with dest := .none } with hits := s.hits }.abandon o)) ∧
    (∀ h ∈ s.hits, h ∈ (s.abandon o).hits) ∧
    (∀ h ∈ (s.abandon o).hits, h ∈ s.hits ∨ (h.uid = o.uid ∧ h.lane ∈ o.lanes ∧ h.cls = .watchdog)) ∧
    (∀ l ∈ o.lanes, (∀ h ∈ s.hits, h.cls ≠ .watchdog ∨ h.uid ≠ o.uid ∨ h.lane ≠ l ∨ h.pc ≠ o.pc) →
      { uid := o.uid, lane := l, pc := o.pc, cls := .watchdog, addr := o.pc.toNat
        aux := BitVec.ofNat 32 (min (s.now - o.issuedAt) (2 ^ 32 - 1)), clause := o.clauseOf l, repix := o.repix : Hit } ∈ (s.abandon o).hits) ∧
    (s.abandon o).threads = (s.finishOp o 0).threads ∧
    (o.split = false → (s.abandon o).ops = s.ops.filter (fun p => p.id != o.id)))

/-! ### Seals, halts, owners, worlds -/

/-- R183, R184, R361, R364, R365: the driver's seal takes every whole cluster of the partition off its cores, a preemption and a
swap-out the cluster of one team; a cluster that is quiet and has room leaves as one context with its groups and threads; the device
asks for an eviction where an owner's contexts exceed SHQ and for a context's return where it is evicted and ready. SEAL.out writes
an image and marks the context evicted, SEAL.in takes it back where it is unchanged and has room, and SEAL.size gives its size; a piece
that the far tier fails is discarded or reads zero. These are the model's choices: that a team or cluster is one context (log 21, DEDUCED); the
bytes and the length of an image, and that it is unchanged where its bytes are (log 13, DESIGN CHOICE); and from when PARKTH is measured
(log 34, DEDUCED). -/
def Obligations.SealsSaveAndReturnContexts : Prop := ∀ (f : FWord) (s : State) (k core tslot key o id : Nat) (tm : Team),
  let owner := (s.group (k / 32)).owner
  let a := s.rdNat k f.a
  let b := (s.rd k f.b true).toNat
  (s.team? key = some tm →
    (tm.members = [key] → exec (.sealContext [key]) s = .next (s.sealCluster [key] { byDriver := true })) ∧
    (key = teamKey core tslot → s.isHalting tm.owner = false → exec (.preempt core tslot) s = .next (s.sealCluster tm.members {})) ∧
    (key = teamKey core tslot → s.isHalting tm.owner = false →
      (let limit := (s.owner tm.owner).parkth * 1200
       (∀ since, s.teamWaits tm = true → tm.waitSince = some since → since + limit ≤ s.now →
         (∀ m ∈ tm.members, (s.team m).lastIssue + limit ≤ s.now) →
         exec (.swapOut core tslot) s = .next (s.sealCluster tm.members { swap := true })) ∧
       (s.teamWaits tm = false ∨ tm.waitSince.all (fun since => s.now < since + limit) = true →
         exec (.swapOut core tslot) s = .next s))) ∧
    (∀ why, s.ops = [] → (∀ e ∈ s.groups, e.2.rep = none) → (∀ e ∈ s.queues, e.2.st ≠ .running) →
      (∀ m, tm.matrix = some m → m.flight = []) → s.shadowRoom (key / 32 / 24) = true →
      let u := s.sealCluster [key] why
      u.team? key = none ∧ u.mem = s.mem ∧ u.nextCtx = s.nextCtx + 1 ∧
        ∃ (c : Ctx) (sv : SavedTeam), Tab.find u.ctxs s.nextCtx = some c ∧ c.owner = tm.owner ∧ c.die = key / 32 / 24 ∧ c.evicted = false ∧
          c.swapped = why.swap ∧ c.byDriver = why.byDriver ∧ c.teams = [sv] ∧ sv.team.uid = tm.uid ∧ sv.team.scratch = tm.scratch ∧
          sv.groups.length = (s.groupsOf key).length)) ∧
  (∀ ci, Tab.find s.ctxs id = some ci →
    let c0 := s.cores.find? (fun c => (c.2.slotOf ci.owner).isSome)
    (s.ctxs.find? (fun c => c.2.owner == ci.owner && !c.2.evicted) = some (id, ci) → (s.owner ci.owner).shq < s.shused ci.owner →
      s.sealAsked ci.owner false none = false → s.isHalting ci.owner = false →
      (∀ c, c0 = some c → exec (.sealEvictRequest ci.owner) s = .next (s.sealRecord c.1 ci.owner (id % 2 ^ 24))) ∧
      (c0 = none → exec (.sealEvictRequest ci.owner) s = .next (s.raiseEvent (224 + ci.owner)))) ∧
    (ci.evicted = true → ci.ready = true → s.sealAsked ci.owner true (some (id % 2 ^ 24)) = false → s.isHalting ci.owner = false → core < 96 →
      (∀ c, c0 = some c → exec (.sealBringinRequest id core) s = .next (s.sealRecord c.1 ci.owner (2 ^ 31 + id % 2 ^ 24))) ∧
      (c0 = none → (s.ownerSlotFor core ci.owner).isSome = true → s.groupsOn core + 2 ≤ 512 →
        (s.core core).world = (s.owner ci.owner).world →
        exec (.sealBringinRequest id core) s = .next ((s.makeResident core ci.owner).sealRecord core ci.owner (2 ^ 31 + id % 2 ^ 24))) ∧
      (c0 = none → (s.ownerSlotFor core ci.owner).isSome = false ∨ 512 < s.groupsOn core + 2 →
        exec (.sealBringinRequest id core) s = .next (s.raiseEvent (224 + ci.owner))))) ∧
  (∀ nest i aux, s.recordFor o 0 .seal = some nest → (s.core core).freeRec o 0 = some i →
    let r := (Tab.find ((s.sealRecord core o aux).core core).recs i).getD {}
    r.cls = .seal ∧ r.owner = o ∧ r.nest = nest ∧ r.aux = BitVec.ofNat 32 aux ∧ r.waiters = [] ∧ r.claimed = none) ∧
  (s.lone k f.guard {} (fUses f true false false false) .handlerOnly → s.quiet k →
    (2 ^ 24 ≤ a → exec (.sealSize f) s = .next (s.raisePc k .illopd)) ∧
    (a < 2 ^ 24 → ActsOnce (.sealSize f) s s k f.d true (s.uses k f 1 2 1) {}
      (BitVec.ofNat 64 (if (s.ctxOf owner a).isSome then Config.imageSize a else 0)))) ∧
  (∀ (l : Loc) n data, (s.farDown l.dpa = false →
      s.writePiece core o l data =
        ((s.imageRequest core o l data.length).updCore core (fun c => c.l1Stores o l.dpa data)).homeWrite l.world l.dpa data ∧
      (s.readPieceOf core o l n).1 = (s.homeRead l.world l.dpa n).clean l.dpa) ∧
    (s.farDown l.dpa = true → (s.writePiece core o l data).mem = s.mem ∧ (s.readPieceOf core o l n).1 = List.replicate n 0)) ∧
  (s.lone k f.guard {} (fUses f false false true false) .handlerOnly → s.quiet k →
    let out := fun (u : State) (v : Nat) => ActsOnce (.sealOut f) s u k f.d false (u.uses k f 1 2 1) {} (BitVec.ofNat 64 v)
    let in' := fun (u : State) (v : Nat) => ActsOnce (.sealIn f) s u k f.d false (u.uses k f 1 2 1) {} (BitVec.ofNat 64 v)
    (2 ^ 24 ≤ a ∨ b % 64 ≠ 0 → exec (.sealOut f) s = .next (s.raisePc k .illopd) ∧ exec (.sealIn f) s = .next (s.raisePc k .illopd)) ∧
    (a < 2 ^ 24 → b % 64 = 0 →
      (s.ctxOf owner a = none → out s 1 ∧ in' s 1) ∧
      ∀ c, s.ctxOf owner a = some c →
        (c.evicted = true → out s 1) ∧ (c.evicted = false → in' s 1) ∧
        (c.evicted = false →
          let img := s.image a (c.evictions + 1)
          (∀ fi, s.pieces k .write b img.length = .error fi → exec (.sealOut f) s = .next (s.raise k fi)) ∧
          ∀ ps, s.pieces k .write b img.length = .ok ps →
            let u := ps.foldl (fun acc p => acc.writePiece (k / 32 / 512) owner p.1 ((img.drop p.2.1).take p.2.2)) s
            out ({ u with ctxs := Tab.put u.ctxs a { c with evicted := true, evictions := c.evictions + 1 } }.countWalk owner img.length) 0) ∧
        (c.evicted = true →
          let img := s.image a c.evictions
          (shadowBytes < s.shadowUsed c.die + c.room → in' s 3) ∧
          (s.shadowUsed c.die + c.room ≤ shadowBytes →
            (∀ fi, s.pieces k .read b img.length = .error fi → exec (.sealIn f) s = .next (s.raise k fi)) ∧
            ∀ ps, s.pieces k .read b img.length = .ok ps →
              let read := ps.foldl (fun (acc : List Byte × State) p =>
                let x := acc.2.readPieceOf (k / 32 / 512) owner p.1 p.2.2
                (acc.1 ++ x.1, x.2)) ([], s)
              let got := read.1
              let u := read.2.countWalk owner img.length
              (got = img → in' { u with ctxs := Tab.put u.ctxs a { c with evicted := false } } 0) ∧ (got ≠ img → in' u 2)))))

/-- R24, R366 to R370, R403: an owner's halt takes effect once its operations are done, and raises its event; a resume makes it
running and its halted queues idle, and threads ready whose wait has ended meanwhile; a new owner has its reserve, its reserved bits cleared, and its digest, and the first of a world a
new key; an owner's end drops everything of it and starts the sweep of its allotment, at whose end the memory swept reads
zero; and a core whose teams have left takes its new world. That the sweep of an alias range clears the elements behind it (log 85, DEDUCED),
that either service core of a die serves its cores (log 45, DEDUCED), and that an owner's count of exhausted windows outlasts a change of
world (log 77, DESIGN CHOICE), are the model's choices. -/
def Obligations.OwnersHaltResumeAppearAndGo : Prop := ∀ (s : State) (o w core : Nat) (e : BitVec 128),
  let x := s.owner o
  let mine := (s.groups.filter (fun g => g.2.owner == o)).map (·.1)
  (x.ostat.st = .halting → (∀ p ∈ s.ops, ∀ g ∈ s.groups, g.2.owner = o → p.uid ≠ g.2.uid) →
    ∃ u t : State, exec (.ownerHalt o) s = .next t ∧ t = (u.updOwner o (fun y => { y with ostat := { y.ostat with st := .halted } })).raiseEvent o ∧
      (t.owner o).ostat = { x.ostat with st := .halted } ∧ (∀ c r, r ∈ (t.core c).recs → r.2.owner ≠ o) ∧
      ((∀ y ∈ s.teams, y.2.owner ≠ o) → ∀ q, s.queueOf q o = true → (t.queue q).st ≠ .running ∧ (t.queue q).st ≠ .paused)) ∧
  (x.ostat.st = .halted → (∀ k, (s.thread k).st ≠ .waitHandler) →
    let r := s.updOwner o (fun y => { y with ostat := { y.ostat with st := .running } })
    let u := r.wakeResumed o
    let freed := fun (v : State) => ({ v with
      teams := v.teams.map (fun t => if t.2.owner = o then
        (t.1, { t.2 with matrix := t.2.matrix.map (fun m => { m with missing := false }) }) else t)
      ctxs := v.ctxs.map (fun c => if c.2.owner = o then (c.1, { c.2 with swapped := false, byDriver := false, readyAt := s.now }) else c) } : State)
    (∀ k, u.thread k = if (s.thread k).st = .waitOp ∧ (s.group (k / 32)).owner = o ∧ (s.thread k).waitFor.any (r.isFree k) = true then
      { s.thread k with st := .ready, waitFor := none } else s.thread k) ∧
    ((∀ q ∈ s.queues, q.2.st ≠ .halted) → exec (.ownerResume o) s = .next (freed u)) ∧
    (∀ q y, s.queues = [(q, y)] → y.st = .halted → s.queueOf q o = true →
      exec (.ownerResume o) s = .next (freed ((u.setQState q .idle 0 0).rebind q)))) ∧
  (let e := e &&& ~~~((3 : BitVec 128) <<< 118) &&& ~~~(0xFFFFFFFF : BitVec 128)
   s.served = true → o < 64 → w < 16 → s.exists? o = false → extV e = true → extRsv e = true → extTier e = 0 → extPopulated e = true →
    extDpa e + extLen e ≤ 2 ^ 39 → extWorld e = w → 16 ≤ extLen e / 2 ^ 16 → extLen e / 2 ^ 16 ≤ 1024 → s.unswept e = false →
    s.takenByOther o e = false → Tab.find s.sweeps o = none →
    ∃ t, exec (.ownerCreate o w e) s = .next t ∧ t = { s with owners := t.owners, worldKey := t.worldKey, nextKey := t.nextKey } ∧
      (t.owner o).world = w ∧ (t.owner o).allot = [(0, e)] ∧ (t.owner o).ostat = { st := .running } ∧
      (t.owner o).lapq = 64 ∧ (t.owner o).quant = 16 ∧ (t.owner o).poison = 0 ∧
      (t.owner o).reserveDigest = Config.sha512 (t.plainBytes w (extDpa e) (extLen e)) ∧
      (w ≠ 0 → (∀ p ∈ s.owners, p.2.world ≠ w) → t.keyOf w = s.nextKey ∧ t.nextKey = s.nextKey + 1) ∧
      (w = 0 ∨ (∃ p ∈ s.owners, p.2.world = w) → t.worldKey = s.worldKey) ∧ ∀ p, p ≠ o → t.owner p = s.owner p) ∧
  (s.exists? o = true → x.ostat.st = .halted ∨ ((∀ t ∈ s.teams, t.2.owner ≠ o) ∧ mine = []) →
    ∃ t, exec (.ownerDestroy o) s = .next t ∧ t.exists? o = false ∧ t.mem = s.mem ∧
      (∀ x ∈ t.teams, x.2.owner ≠ o) ∧ (∀ c ∈ t.ctxs, c.2.owner ≠ o) ∧ (∀ c ∈ t.comets, c.owner ≠ o) ∧ (∀ l ∈ t.launches, l.2.owner ≠ o) ∧
      (∀ g ∈ t.groups, g.2.owner ≠ o) ∧ (∀ c ∈ t.cores, (∀ r ∈ c.2.recs, r.2.owner ≠ o) ∧ (∀ l ∈ c.2.tlb, l.owner ≠ o)) ∧
      (∀ l ∈ t.l2, l ∈ s.l2 ∧ ∀ y ∈ x.extents, ¬ (extDpa y ≤ 128 * l.line ∧ 128 * l.line < extDpa y + extLen y)) ∧
      Tab.find t.sweeps o = some (x.extents.map (fun y => (extDpa y, extLen y))) ∧ ∀ p, p ≠ o → t.owner p = s.owner p) ∧
  (∀ dpa n, s.sweeps = [(o, [(dpa, n)])] → s.moved = [] →
    ∃ t, exec (.erasureEnd o) s = .next t ∧ t.sweeps = [] ∧
      (isAlias dpa = false → ∀ a, Memory.read t.mem a = if dpa ≤ a ∧ a < dpa + n then 0 else Memory.read s.mem a) ∧
      (isAlias dpa = true → ∀ key e i, s.fwin = [(key, e)] → fwV e = true → fwWorld e = 0 → i < fwLines e →
        let line := aliasBase + key / 16 * 2 ^ 40 + 128 * (fwAbase e + i)
        let size := 8 * fwElemBits e
        dpa ≤ line → line < dpa + n → ∀ j, j < size → Memory.read t.mem (fwEbase e + size * i + j) = 0)) ∧
  (s.power = .ready → s.dieServed (dieOf core) = true → core < 96 → w < 16 → (s.groups.map (·.2.uid)).Nodup → (∀ t ∈ s.teams, t.1 / 32 ≠ core) → (∀ p ∈ s.ops, ∀ g ∈ s.groups, g.1 / 512 = core → p.uid ≠ g.2.uid) →
    ∃ t, exec (.worldChange core w) s = .next t ∧ t.core core =
        { world := w, banks := (s.core core).banks, window := (s.core core).window, walks := (s.core core).walks } ∧
      (∀ g ∈ t.groups, g.1 / 512 ≠ core) ∧ t.mem = s.mem ∧ ∀ c, c ≠ core → t.core c = s.core c)

/-! ### Tables, the host and the service cores -/

/-- R22, R159, R160, R166, R167, R191, R196, R198, R274, R315, R348, R359: service cores write the tables of owners, queues, rings, ways,
windows, claims, comparators and parameters where the rule of each admits the entry, its reserved bits cleared, and leave them
alone where it does not, and none of them while every service core is in reset (R401), a binding once its queue is idle; lines of a way that changes its mask, or of a window that goes, leave L2; an
event is completed, forwarded, timed out or acknowledged where it stands, and the service core that comes too late is told that its action
is lost; a service core in reset does nothing; a device counter clears. These are the model's choices: the bounds of poolbase and poollen (log 68,
DESIGN CHOICE), that a ring entry with v = 0 is held to no refusal (log 86, DESIGN CHOICE), and that any service core that runs serves a table
that names none (log 45, DEDUCED). -/
def Obligations.ServiceCoresWriteTablesAndDeliverEvents : Prop := ∀ (s : State) (o i q v slice source : Nat) (e : BitVec 128)
    (x : BitVec 256) (c : BitVec 32) (ways : BitVec 16) (cmp : Comparator),
  -- Tables
  (let m := Tab.put (s.owner o).allot i (extMask e)
   (s.exists? o = false ∨ 64 ≤ i ∨ s.allotOk o m = false → exec (.allotMapWrite o i e) s = .next s) ∧
   (s.served = true → s.exists? o = true → i < 64 → s.allotOk o m = true → s.ops = [] → (∀ y ∈ s.queues, y.2.pend = []) → s.deliveries = [] →
     exec (.allotMapWrite o i e) s = .next (s.updOwner o (fun y => { y with allot := m })))) ∧
  (let b := e &&& ~~~((15 : BitVec 128) <<< 110) &&& ~~~(0x3FFFFFFF : BitVec 128)
   let size := (b.extractLsb' 114 5).toNat
   let holds := fun a n => if qbPv b then a + n ≤ 2 ^ 39 else (s.owner (qbOwner b)).holdsHbm a n = true
   let admits := qbV b = false ∨ (6 ≤ size ∧ size ≤ 16 ∧ holds (qbQcb b) 64 ∧ holds (qbRing b) (64 * 2 ^ size) ∧
     (qbPv b = true ∨ s.exists? (qbOwner b) = true))
   s.served = true → q < 768 →
   (admits → (s.queue q).st = .idle → ∃ t, exec (.qbindWrite q e) s = .next t ∧
     t = { s with qbind := t.qbind, qbindNew := t.qbindNew, queues := t.queues } ∧ t.binding q = b ∧ Tab.find t.qbindNew q = none ∧
     (t.queue q).st = .idle ∧ (t.queue q).slot = [] ∧ (t.queue q).list = (s.queue q).list ∧
     ∀ j, j ≠ q → t.binding j = s.binding j ∧ t.queue j = s.queue j) ∧
   (admits → (s.queue q).st ≠ .idle → exec (.qbindWrite q e) s = .next { s with qbindNew := Tab.put s.qbindNew q b }) ∧
   (∀ new, Tab.find s.qbindNew q = some new → (s.queue q).st = .idle → (s.rebind q).binding q = new) ∧
   (¬admits → exec (.qbindWrite q e) s = .next s)) ∧
  (let r := (e >>> 63) <<< 63
   let size := (r.extractLsb' 123 4).toNat
   s.served = true → s.exists? o = true → s.callsInFlight o = false →
   (srV r = false ∨ (5 ≤ size ∧ size ≤ 12 ∧ 0x140 ≤ srOff r ∧ srOff r + 64 + 128 * 2 ^ size ≤ (s.owner o).reserveLen ∧
       (srFrames r = 0 ∨ ((s.owner o).extentOf (srPark r) (8192 * srFrames r)).any (fun y => extTier y == 0) = true)) →
     exec (.sringWrite o e) s = .next (s.updOwner o (fun y => { y with sring := r }))) ∧
   (srV r = true → size < 5 ∨ 12 < size → exec (.sringWrite o e) s = .next s)) ∧
  (s.power = .ready → slice < 8 → Tab.getD s.scDown false slice = false → 0 < i → i < 16 →
    let others := ((s.umask.filter (fun y => y.1 / 16 == slice && y.1 % 16 != i)).map (·.2)).foldl (· ||| ·) 0
    let count := fun (m : BitVec 16) => (List.range 16).countP (fun j => m.getLsbD j)
    (others &&& ways = 0 → count (others ||| ways) ≤ 14 →
      ∃ t, exec (.umaskWrite slice i ways) s = .next t ∧ t = { s with umask := t.umask, l2 := t.l2 } ∧
        (let moved := Tab.getD s.umask 0 (16 * slice + i) ^^^ ways
         ∀ y, y ∈ t.l2 ↔ y ∈ s.l2 ∧ (homeSlice (128 * y.line) ≠ slice ∨ moved.getLsbD y.way = false)) ∧
        ∀ j, Tab.getD t.umask 0 j = if j = 16 * slice + i then ways else Tab.getD s.umask 0 j) ∧
    (others &&& ways ≠ 0 ∨ 14 < count (others ||| ways) → exec (.umaskWrite slice i ways) s = .next s)) ∧
  (let key := 16 * slice + i
   let w := x &&& ~~~((0x7FFFFF : BitVec 256) <<< 224) &&& ~~~((0x1FFFFFF : BitVec 256) <<< 32)
   s.power = .ready → slice < 8 → Tab.getD s.scDown false slice = false → i < 16 →
   (fwV w = true → s.windowOk key w = false → exec (.fwinWrite slice i x) s = .next s) ∧
   (fwV w = false ∨ s.windowOk key w = true → s.ops = [] → (∀ y ∈ s.queues, y.2.pend = []) → s.deliveries = [] → ∃ t, exec (.fwinWrite slice i x) s = .next t ∧
     t = { s with fwin := t.fwin, l2 := t.l2, hostLines := t.hostLines } ∧
     (let old := Tab.getD s.fwin 0 key
      (fwV old = false → t.l2 = s.l2 ∧ t.hostLines = s.hostLines) ∧
      (fwV old = true → (∀ y ∈ t.l2, inWindow key old (128 * y.line) = false) ∧
        ∀ line, inWindow key old (128 * line) = true → (Tab.find s.hostLines line).isSome = true → Tab.getD t.hostLines false line = true)) ∧
     ∀ j, Tab.getD t.fwin 0 j = if j = key then w else Tab.getD s.fwin 0 j)) ∧
  (Tab.getD s.scDown false slice = true → exec (.umaskWrite slice i ways) s = .next s ∧ exec (.fwinWrite slice i x) s = .next s) ∧
  (s.served = true → source < 512 → ∃ t, exec (.claimWrite source c) s = .next t ∧ t = { s with claims := t.claims } ∧
    ∀ j, t.claim j = if j = source then c &&& 0xF800FFFF else s.claim j) ∧
  (s.served = true → s.exists? o = true →
    (i < 4 → cmp.mask ≤ 40 → exec (.dbgWrite o i cmp) s =
      .next (s.updOwner o (fun y => { y with dbg := Tab.put y.dbg i { cmp with addr := cmp.addr % 2 ^ 45 } }))) ∧
    (4 ≤ i ∨ 40 < cmp.mask → exec (.dbgWrite o i cmp) s = .next s)) ∧
  (s.served = true →
    let sets := fun (p : Param) (f : Owner → Owner) (lo hi : Nat) =>
      (lo ≤ v → v ≤ hi → exec (.ownerParamWrite p o v) s = .next (s.updOwner o f)) ∧
      (v < lo ∨ hi < v → exec (.ownerParamWrite p o v) s = .next s)
    sets .lapq (fun y => { y with lapq := v }) 1 255 ∧ sets .quant (fun y => { y with quant := v }) 1 255 ∧
    sets .walkbudget (fun y => { y with walkbudget := v }) 256 240000 ∧ sets .parkth (fun y => { y with parkth := v }) 10 10000 ∧
    sets .wt (fun y => { y with wt := v }) 1 255 ∧ sets .poolmax (fun y => { y with poolmax := v }) 0 1048576 ∧
    sets .poolbase (fun y => { y with poolbase := v }) 0 (2 ^ 44 - 1) ∧ sets .poollen (fun y => { y with poollen := v }) 0 (2 ^ 34) ∧
    sets .otc (fun y => { y with otc := v }) 0 3 ∧ sets .shq (fun y => { y with shq := v }) 0 (512 * 2 ^ 20) ∧
    (100 ≤ v → v ≤ 100000 → exec (.ownerParamWrite .wdlim o v) s = .next { s with wdlim := 1200 * v }) ∧
    (1 ≤ v → v ≤ 10 → exec (.ownerParamWrite .ercap o v) s = .next { s with ercap := v }) ∧
    (64 ≤ v → v ≤ 4096 → exec (.ownerParamWrite .hrt o v) s = .next { s with hrt := v }) ∧
    (v ≤ 255 → exec (.ownerParamWrite .fabid o v) s = .next { s with fabid := v })) ∧
  (s.served = true → exec (.deviceCounterClear .noclaim) s = .next { s with noclaim := 0 } ∧
    exec (.deviceCounterClear .nowin) s = .next { s with nowin := 0 } ∧
    exec (.deviceCounterClear .dcorr) s = .next { s with dcorr := 0 } ∧
    exec (.deviceCounterClear .dpoison) s = .next { s with dpoison := 0 }) ∧
  (s.served = false → (∀ c p, ∀ j ∈ [Instr.allotMapWrite o i e, .qbindWrite q e, .sringWrite o e, .claimWrite source c, .dbgWrite o i cmp,
    .ownerParamWrite p o v, .deviceCounterClear .noclaim, .ownerCreate o slice e], exec j s = .next s)) ∧
  (∀ w, s.served = true → Tab.find s.fwin (16 * slice + i) = some w → ∃ t, exec (.deviceCounterClear (.wsat slice i)) s = .next t ∧
    Tab.find t.fwin (16 * slice + i) = some (w >>> 32 <<< 32) ∧ t = { s with fwin := t.fwin }) ∧
  -- Events
  (∀ ev, s.events[i]? = some ev → Tab.getD s.scDown false ev.sc = false →
    let tell := fun (u : State) (n : HostNote) => ({ u with hostNotes := u.hostNotes ++ [n] } : State)
    let now := fun (e : Event) => ({ s with events := s.events.set i e } : State)
    let host := fun (owed : Bool) => tell (now { ev with place := .withHost, owed }) (.interrupt ev.vec ev.source)
    let late := fun (owed : Bool) => tell (now { ev with late := true, owed }) (.late ev.source)
    let lost := fun (u : State) => ({ u with lost := u.lost ++ [(ev.sc, ev.source)] } : State)
    let gone : State := { s with events := s.events.eraseIdx i }
    let timer := ev.late = false ∧ ev.raisedAt + 24000 < s.now
    (ev.place = .withHost →
      exec (.hostEventAck i) s = .next (if ev.owed then now { ev with place := .done } else gone) ∧
      exec (.scEventComplete i) s = .next (lost (now { ev with owed := false })) ∧
      exec (.scEventForward i) s = .next (lost (now { ev with owed := false })) ∧ exec (.claimTimerExpire i) s = .next s) ∧
    (ev.place = .done → exec (.hostEventAck i) s = .next s ∧ exec (.scEventComplete i) s = .next (lost gone) ∧
      exec (.scEventForward i) s = .next (lost gone) ∧ exec (.claimTimerExpire i) s = .next s) ∧
    ∀ sc, ev.place = .withSc sc →
      exec (.hostEventAck i) s = .next s ∧
      (¬timer →
        exec (.claimTimerExpire i) s = .next s ∧
        (ev.h = true → exec (.scEventComplete i) s = .next (tell gone (.handled ev.source)) ∧
          exec (.scEventForward i) s = .next (host false)) ∧
        (ev.h = false → exec (.scEventComplete i) s = .next gone ∧ exec (.scEventForward i) s = .next (lost s))) ∧
      (timer →
        (ev.h = true → exec (.claimTimerExpire i) s = .next (host ev.owed) ∧ exec (.scEventComplete i) s = .next (lost (host false)) ∧
          exec (.scEventForward i) s = .next (lost (host false))) ∧
        (ev.h = false → exec (.claimTimerExpire i) s = .next (late ev.owed) ∧ exec (.scEventComplete i) s = .next (tell gone (.late ev.source)) ∧
          exec (.scEventForward i) s = .next (lost (late true))))) ∧
  (∀ ev, s.events[i]? = some ev → Tab.getD s.scDown false ev.sc = true →
    exec (.scEventComplete i) s = .next s ∧ exec (.scEventForward i) s = .next s)

/-- R190, R239 to R242, R276, R285, R316, R324 to R327: the host writes its command window and reads, writes and compares and swaps bytes of
device memory in their stored form; a back-invalidate's completion takes the line from the host; a peer's access is checked by the owner's
map and performed at the home slice, one at system scope once the host has given its copy back, and its reduce-add applies once, by its
tag; service cores read, write and compare and swap the stored form, a reserved address faulting; a release of a switch has nothing left to
change; and each record of the window is served or refused with its status, its valid bit cleared and the next slot awaited. These are the
model's choices: status 10 for a misaligned address and for a count of 0 (log 68, DESIGN CHOICE); the fault at a reserved address and the whole
line as the host's answer (log 37, DEDUCED); that a service core's read takes back the host's copy, and how a thread that has acquired at system
scope finds it (log 31, DEDUCED). -/
def Obligations.TheHostAndOtherAgentsReachMemory : Prop := ∀ (s : State) (o a n line switch source : Nat) (data new : List Byte),
  (s.power = .ready → ∃ t, exec (.hostWindowWrite a data) s = .next t ∧ t = { s with window := t.window, owners := t.owners } ∧
    (∀ p, s.exists? p = true → t.owner p = { s.owner p with winAccepted := (t.owner p).winAccepted }) ∧
    (∀ p i, s.exists? p = true → i < 1024 →
      let hdr := p * 2 ^ 16 + 64 * i + 7
      let was := Tab.find (s.owner p).winAccepted i
      Tab.find (t.owner p).winAccepted i = if was = none ∧ a ≤ hdr ∧ hdr < a + data.length ∧ hdr < 2 ^ 22 ∧ 128 ≤ (data.getD (hdr - a) 0).toNat then
        some ((List.range 64).map (fun m => Tab.getD t.window 0 (p * 2 ^ 16 + 64 * i + m))) else was) ∧
    ∀ j, Tab.getD t.window 0 j = if a ≤ j ∧ j < a + data.length ∧ j < 2 ^ 22 ∧ s.exists? (j / 2 ^ 16) = true then
      data.getD (j - a) 0 else Tab.getD s.window 0 j) ∧
  (s.power = .ready →
    (isReserved a = true → exec (.hostMemRead a) s = .fault (.reservedAddress a)) ∧
    (isReserved a = false → ∃ t, exec (.hostMemRead a) s = .next t ∧ (Tab.find t.hostLines (a / 128)).isSome = true ∧
      t.replies = s.replies ++ [{ agent := .host, dpa := a / 128 * 128, data := s.hostLine a }] ∧ t.threads = s.threads ∧ t.mem = s.mem) ∧
    (data ≠ [] →
      (isReserved a = true ∨ isReserved (a + data.length - 1) = true →
        ∀ old, exec (.hostMemWrite a { data, expected := old }) s = .fault (.reservedAddress a)) ∧
      (isReserved a = false → isReserved (a + data.length - 1) = false → a / 128 = (a + data.length - 1) / 128 →
        let stored := (s.touchOut a data.length).hostWrites a data
        let got := ((s.hostLine a).drop (a % 128)).take data.length
        exec (.hostMemWrite a { data }) s = .next stored ∧
        (∃ t, exec (.hostMemWrite a { data, expected := some got }) s = .next t ∧ t.mem = stored.mem ∧
          t.replies = s.replies ++ [{ agent := .host, dpa := a, data := got }]) ∧
        ∀ old, old ≠ got → ∃ t, exec (.hostMemWrite a { data, expected := some old }) s = .next t ∧ t.mem = s.mem ∧
          t.replies = s.replies ++ [{ agent := .host, dpa := a, data := got }]))) ∧
  (Tab.getD s.hostLines false line = true → (∀ y ∈ s.queues, y.2.list = []) →
    ∃ t, exec (.backInvalidateComplete line) s = .next t ∧ t = { s with
      hostLines := Tab.del s.hostLines line
      snoops := (s.snoops.map (fun x => { x with lines := x.lines.filter (· != line) })).filter (fun x => !x.lines.isEmpty)
      threads := t.threads, cores := t.cores } ∧
      (∀ k, t.thread k = { s.thread k with sysLines := (s.thread k).sysLines.filter (· != line) }) ∧
      (∀ c, t.core c = { s.core c with l1 := (t.core c).l1 }) ∧
      ∀ k, line ∈ (s.thread k).sysLines → ∀ l ∈ (t.core (k / 32 / 512)).l1, l.line ≠ line) ∧
  (Tab.getD s.hostLines false line = false → exec (.backInvalidateComplete line) s = .next s) ∧
  exec (.switchReleaseAck switch source) s = .next s ∧
  -- Peers
  (s.power = .ready → s.fabid ≠ 0 → 0 < n →
    let run := fun (acc : PeerAccess) => exec (.peerAccess source { owner := o, access := acc }) s
    ((s.owner o).mapAA (s.owner o).world a n = none → ∀ sys, run (.read a n sys) = .next s) ∧
    ∀ l, (s.owner o).mapAA (s.owner o).world a n = some l →
      let held := s.hostLinesIn l.dpa n
      let u := if s.farDown l.dpa then s.countPoison o 1 else s.touch l.world l.dpa n
      let got := if s.farDown l.dpa then List.replicate n 0 else (s.homeRead l.world l.dpa n).clean l.dpa
      let reply := fun (u : State) =>
        ({ u with replies := u.replies ++ [{ agent := .peer source, dpa := l.dpa, data := got }] } : State)
      (∀ sys, sys = false ∨ held = [] → run (.read a n sys) = .next (reply u)) ∧
      (held ≠ [] → run (.read a n true) = .next (held.foldl State.snoop s)) ∧
      (data.length = n →
        run (.write a data) = .next (if s.farDown l.dpa then u else u.homeWrite l.world l.dpa data) ∧
        (held = [] → isAlias l.dpa = false → s.farDown l.dpa = false → new.length = n →
          run (.cas a data new) = .next (reply (if got = data then u.homeWrite l.world l.dpa new else u))) ∧
        (held ≠ [] → run (.cas a data new) = .next (held.foldl State.snoop s)) ∧
        ∀ queue seq iter bf16,
          let key := source * 1024 + queue
          (tagLater seq iter (Tab.find s.peerTags key) = false → run (.reduceAdd queue seq iter bf16 a data) = .next s) ∧
          (tagLater seq iter (Tab.find s.peerTags key) = true → run (.reduceAdd queue seq iter bf16 a data) =
            .next ({ s with peerTags := Tab.put s.peerTags key (seq, iter) }.addDelivery (some o) false
              { q := queue, seq, iter, dpa := l.dpa, world := l.world, bf16, data })))) ∧
  -- Service cores
  (s.power = .ready → source < 8 → Tab.getD s.scDown false source = false → 0 < n →
    let run := fun (acc : PeerAccess) => exec (.serviceCoreAccess source acc) s
    let got := s.storedBytes a n
    let held := s.hostLinesIn a n
    let u := s.touchOut a n
    let reply := fun (u : State) => ({ u with replies := u.replies ++ [{ agent := .sc source, dpa := a, data := got }] } : State)
    (isReserved a = true ∨ isReserved (a + n - 1) = true → ∀ sys, run (.read a n sys) = .fault (.reservedAddress a)) ∧
    (isReserved a = false → isReserved (a + n - 1) = false →
      (held = [] → ∀ sys, run (.read a n sys) = .next (reply u)) ∧
      (held ≠ [] → ∀ sys, run (.read a n sys) = .next (held.foldl State.snoop s)) ∧
      (data.length = n →
        run (.write a data) = .next (u.hostStore a data) ∧
        (held = [] → isAlias a = false → new.length = n →
          run (.cas a data new) = .next (reply (if got = data then u.hostStore a new else u)))))) ∧
  (s.power = .ready → s.exists? o = true → (∀ y ∈ s.snoops, y.known = false) →
    let r := s.hostRec o
    let bad := r.malformed (s.owner o).winSeq.toNat = true
    let done := fun (u : State) (status pushed : Nat) => u.finishRec o r status pushed
    r.valid = true →
    (r.kind = 0 ∨ 3 ≤ r.kind → bad → exec (.hostLaunchRecord o) s = .next (done s 10 0)) ∧
    (r.kind = 0 → ¬bad → s.hostLines = [] →
      let u := s.acceptLaunch o r.arg0 (r.header / 2 ^ 57 % 4)
      exec (.hostLaunchRecord o) s = .next (done u.1 u.2 0)) ∧
    (r.kind = 1 →
      let z := fun l => s.itemSize l 0
      let pushed := (s.owner o).winPushed
      let count := r.arg0 / 2 ^ 16 % 2 ^ 16
      let place := fun l j => (s.owner o).mapAA (s.owner o).world (r.arg1 + j * z l) (z l)
      (bad → exec (.hostItemsRecord o) s = .next (done s 10 0)) ∧
      (¬bad → s.openLaunch o (r.arg0 % 256) = none → exec (.hostItemsRecord o) s = .next (done s 8 pushed)) ∧
      ∀ l, ¬bad → s.openLaunch o (r.arg0 % 256) = some l →
        ((∃ j, j < count ∧ place l j = none) → exec (.hostItemsRecord o) s = .next (done s 11 pushed)) ∧
        ((∀ j, j < count → (place l j).isSome = true) → ∀ loc, place l pushed = some loc → s.hostLines = [] →
          let lost := s.farDown loc.dpa
          let g : Got := if lost then { bytes := List.replicate (z l) 0 } else s.homeRead loc.world loc.dpa (z l)
          let sq := s.stageQ l 0
          let u := (((s.ownerTouch (some o) loc.world loc.dpa (z l)).setStageQ l 0 { sq with items := sq.items ++ [(sq.next, g.clean loc.dpa)], next := sq.next + 1 }).countPoison o
            (if lost then 1 else g.poison.length)).updOwner o (fun y => { y with winPushed := pushed + 1 })
          (sq.closed = true → exec (.hostItemsRecord o) s = .next (done s 9 pushed)) ∧
          (sq.closed = false → sq.full = true → exec (.hostItemsRecord o) s = .next s) ∧
          (sq.closed = false → sq.full = false → exec (.hostItemsRecord o) s =
            .next (if pushed + 1 = count then done u 0 count else u)))) ∧
    (r.kind = 2 →
      (bad → exec (.hostCloseRecord o) s = .next (done s 10 0)) ∧
      (¬bad → s.openLaunch o (r.arg0 % 256) = none → exec (.hostCloseRecord o) s = .next (done s 8 0)) ∧
      ∀ l, ¬bad → s.openLaunch o (r.arg0 % 256) = some l →
        let sq := s.stageQ l 0
        exec (.hostCloseRecord o) s = .next (done (if sq.closed then s else s.setStageQ l 0 { sq with closed := true }) 0 0)))

/-! ### The package -/

/-- R11, R198 to R202, R371, R372, R398 to R404: link replays are counted and retrain their link, which comes up within 1 ms or goes
down; expanders and the host link raise their events; a channel, while the service core of its stack runs, runs at the slower of the rate asked for and the rate that its
die's temperature allows; owners with half of a hammered row's activations are limited until its refresh; power comes up with every
table at its reset value where the image is accepted, the host seeing configuration space without its ready bit until the links are trained,
and a trip or loss takes it; and unit resets leave everything else. These are the model's choices: which links and ports train (log 70, DESIGN
CHOICE), that flash and the rollback counter outlast a loss of power (log 41, DEDUCED), that a retraining that comes late is refused and that
either service core of a die serves its reports (log 45, DEDUCED). -/
def Obligations.PackageEventsKeepLinksRatesAndPower : Prop := ∀ (s : State) (l o p c row die celsius sc core : Nat) (r : DataRate)
    (counts : List (Nat × Nat)) (image : Firmware) (who : Option Nat) (nonce : BitVec 256),
  let x := s.link l
  let ms := 1200000
  -- Links
  (l < 16 → x.st = .up →
    (let recent := (x.recent ++ [s.now]).filter (fun t => decide (s.now < t + ms))
     exec (.linkReplay l o) s = .next ((s.setLink l { x with
       replays := x.replays + 1, recent := recent.drop (recent.length - 63), due := x.due || decide (64 ≤ recent.length) }).updOwner o
         (fun y => { y with linkretry := satInc64 y.linkretry 1 }))) ∧
    (x.due = true → exec (.linkRetrain l) s =
      .next ((s.setLink l { x with st := .retraining, since := s.now, recent := [], due := false }).raiseEvent (384 + l))) ∧
    (x.due = false → exec (.linkRetrain l) s = .next s)) ∧
  (x.st = .retraining →
    (s.now < x.since + ms → exec (.linkRetrained l) s = .next (s.setLink l { x with st := .up }) ∧ exec (.linkDown l) s = .next s) ∧
    (x.since + ms ≤ s.now → exec (.linkRetrained l) s = .next s ∧
      exec (.linkDown l) s = .next ((s.setLink l { x with st := .down }).raiseEvent (384 + l)))) ∧
  (s.power = .ready → p < 2 → Tab.getD s.portsDown false p = false →
    exec (.expanderDown p) s = .next ({ s with portsDown := Tab.put s.portsDown p true }.raiseEvent (416 + p))) ∧
  (s.power = .ready → exec .hostLinkRetrain s = .next (s.raiseEvent 418)) ∧
  -- Rates and rows
  (s.scRuns (c / 32) = false → exec (.hbmRateSwitch c r) s = .next s) ∧
  (s.power = .ready → c < 256 → s.scRuns (c / 32) = true → ∃ t, exec (.hbmRateSwitch c r) s = .next t ∧ t = { s with rates := t.rates, wantRates := Tab.put s.wantRates c r } ∧
    ∀ j, Tab.getD t.rates .g128 j = if j = c then rateOf (max (rateStep r) (Tab.getD s.dieHot 0 (c / 64))) else Tab.getD s.rates .g128 j) ∧
  (let step := if 102 ≤ celsius then 2 else if 95 ≤ celsius then 1 else 0
   let now := Tab.getD s.dieHot 0 die
   let sets := fun (i : Instr) (cool : Tab Nat) (k : Nat) => ∃ t, exec i s = .next t ∧
     t = { s with rates := t.rates, dieHot := Tab.put s.dieHot die k, coolSince := cool } ∧
     ∀ j, Tab.getD t.rates .g128 j = if j / 64 = die ∧ s.scRuns (j / 32) = true then rateOf (max (rateStep (Tab.getD s.wantRates .g128 j)) k)
       else Tab.getD s.rates .g128 j
   s.power = .ready → die < 4 → s.scRuns (2 * die) = true ∨ s.scRuns (2 * die + 1) = true →
     (now < step → sets (.thermalStepDown die celsius) (Tab.del s.coolSince die) step) ∧
     (step ≤ now → exec (.thermalStepDown die celsius) s =
       .next (if 90 ≤ celsius then { s with coolSince := Tab.del s.coolSince die } else s)) ∧
     (90 ≤ celsius → exec (.thermalStepUp die celsius) s = .next { s with coolSince := Tab.del s.coolSince die }) ∧
     (celsius < 90 →
       (Tab.find s.coolSince die = none → exec (.thermalStepUp die celsius) s =
         .next { s with coolSince := Tab.put s.coolSince die s.now }) ∧
       ∀ since, Tab.find s.coolSince die = some since →
         (s.now < since + 10 * ms ∨ now = 0 → exec (.thermalStepUp die celsius) s = .next s) ∧
         (since + 10 * ms ≤ s.now → now ≠ 0 →
           sets (.thermalStepUp die celsius) (Tab.put s.coolSince die s.now) (now - 1)))) ∧
  (let total := (counts.map (·.2)).sum
   (Tab.getD s.rows [] row = counts → s.hrt ≤ total → ∃ t, exec (.rowHammerLimit row counts) s = .next t ∧ t = { s with limits := t.limits } ∧
     ∀ e, e ∈ t.limits ↔ e ∈ s.limits ∨ (e.2 = row ∧ ∃ n, (e.1, n) ∈ counts ∧ total ≤ 2 * n)) ∧
   (Tab.getD s.rows [] row ≠ counts ∨ total < s.hrt → exec (.rowHammerLimit row counts) s = .next s)) ∧
  (exec (.rowRefresh row) s = .next { s with
    rows := Tab.del s.rows row, limits := s.limits.filter (fun e => e.2 != row), lastActs := s.lastActs.filter (fun e => e.2.1 != row) }) ∧
  (s.power = .ready → c < 256 → exec (.hbmChannelReset c) s = .next (s.raiseEvent (400 + c / 32))) ∧
  exec .tc0ShareWindow s = .next { s with tc0Window := s.now / 1200 } ∧
  -- Power
  (s.power = .off →
    (s.accepts s.flash = true → ∃ t, exec .powerGood s = .next t ∧ t.power = .training ∧ t.mem = [] ∧ t.owners = [] ∧ t.teams = [] ∧
      t.groups = [] ∧ t.threads = [] ∧ t.cores = [] ∧ t.clock = 0 ∧ t.flash = s.flash ∧ t.rollback = max s.rollback s.flash.version ∧
      t.configSpace.map (·.ready) = some false) ∧
    (s.accepts s.flash = false → ∃ t, exec .powerGood s = .next t ∧ t.power = .recovery ∧ t.mem = [] ∧ t.flash = s.flash)) ∧
  (∀ rest, s.tape = .bringUp :: rest → s.power = .training → s.claims = [] → ∃ t, step s = .next t ∧ t.power = .ready ∧ t.mem = s.mem ∧
      (∀ j, j < 16 → (t.link j).st = (if Config.linkTrains j then .up else .down) ∧
        (Config.linkTrains j = false → HostNote.logged (384 + j) ∈ t.hostNotes)) ∧
      (∀ j, j < 2 → Tab.getD t.portsDown false j = !Config.portTrains j ∧
        (Config.portTrains j = false → HostNote.logged (416 + j) ∈ t.hostNotes)) ∧
      t.configSpace.map (·.ready) = some true) ∧
  (s.power ≠ .off → exec .powerGood s = .next s) ∧
  (∃ t, exec .powerLoss s = .next t ∧ t.power = .off ∧ t.mem = [] ∧ t.flash = s.flash ∧ t.rollback = s.rollback) ∧
  (die < 8 → 110 ≤ celsius → exec (.thermalTrip die celsius) s = exec .powerLoss s) ∧
  (celsius < 110 → exec (.thermalTrip die celsius) s = .next s) ∧
  (s.power = .recovery → exec (.recoveryWindowWrite image) s = .next { s with flash := image }) ∧
  (s.power ≠ .recovery → exec (.recoveryWindowWrite image) s = .next s) ∧
  -- Units and reports
  (sc < 8 → s.power = .ready →
    (s.accepts s.flash = true → ∃ u : State, u = { s with scDown := Tab.del s.scDown sc, rates := u.rates } ∧
      exec (.serviceCoreReset sc) s = .next (u.raiseEvent (408 + sc)) ∧
      ∀ j, Tab.getD u.rates .g128 j = if j / 32 = sc then rateOf (max (rateStep (Tab.getD s.wantRates .g128 j)) (Tab.getD s.dieHot 0 (j / 64)))
        else Tab.getD s.rates .g128 j) ∧
    (s.accepts s.flash = false →
      exec (.serviceCoreReset sc) s = .next ({ s with scDown := Tab.put s.scDown sc true }.raiseEvent (408 + sc)))) ∧
  (s.served = true → exec (.attestReport who nonce) s = .next { s with reports := s.reports ++
    [{ body := s.reportBody who nonce, sig := Config.identitySign (Config.sha512 (s.reportBody who nonce)) }] }) ∧
  (let since := (s.core core).readySince
   (since.any (fun a => a + 12000000 ≤ s.now) = false → exec (.coreWatchdog core) s = .next s) ∧
   (since.any (fun a => a + 12000000 ≤ s.now) = true → s.ops = [] →
    (∀ e ∈ s.teams, e.1 / 32 ≠ core ∨ e.2.matrix = none) → (∀ e ∈ s.groups, e.1 / 512 = core → e.2.rep = none) →
    (∀ q ∈ s.queues, q.2.st ≠ .running ∧ q.2.st ≠ .paused) →
    ∃ t, exec (.coreWatchdog core) s = .next t ∧ (t.core core).l1 = [] ∧ (t.core core).code = [] ∧ (t.core core).readySince = none ∧
      t.mem = s.mem ∧ t.groups = s.groups ∧ ∀ k, t.thread k =
        if k / 32 / 512 = core ∧ (Tab.find s.threads k).isSome then s.sealThread (s.group (k / 32)).uid (k % 32) (s.thread k)
        else s.thread k))

/-! ### Decoding, the step, the whole machine -/

/-- R25, R27, R36, R41, R48, R131, R205, R247: a few words, laid out field by field from the encoding tables, decode to the
instruction that they stand for; a word with a nonzero bit in 3:0, and one with a reserved opcode, decode to none. -/
def Obligations.SampleWordsDecodeToTheirInstructions : Prop :=
  decodeTableWord 64 0x001050693FC00000 = some (.iadd
    { guard := ⟨false, 2⟩, d := .w 5, a := .w 3, b := .s 4, c := .zero, lu := ⟨true, false, false⟩, ty := .s32, sc := 0, sub := 0, mod := 0 }) ∧
  decodeTableWord 64 0x81220B0045C918C0 = some (.pair
    { op := .iadd, pq := 1, d := 4, a := 5, lu := true, pty := .s32, m6 := 0 }
    { op := .fmul, pq := 7, d := 9, a := 6, lu := false, pty := .f32, m6 := 0 }) ∧
  decodeTableWord 64 0xC013191400000000 = some (.clause { wait := 9, seta := some 1, setb := some 2, len := 5 }) ∧
  decodeTableWord 64 0x4038208242040420 = some (.ldg
    { guard := ⟨false, 7⟩, r := .w 2, base := .w 4, index := .w 9, disp := 4, lu := ⟨false, false, false⟩, ty := .b32, sc := 0, sub := 4, mod := 2 }) ∧
  decodeTableWord 64 0x3817FFFFFF8000C0 = some (.bra { guard := ⟨false, 2⟩, sub := 0, off := 0x3FFFC }) ∧
  decodeTableWord 64 0x60B82CA400000000 = some (.mma
    { d := .acc 2, a := .m 5, u1 := 4, u2 := 0, rf := false, n := 0, rm := 0, sub := 0, mod := 0 }) ∧
  decodeTableWord 64 0x783FF081BF850000 = some (.tlbw
    { guard := ⟨false, 7⟩, d := .zero, a := .w 4, b := .w 6, c := .zero, lu := ⟨false, false, false⟩, ty := .b64, sc := 0, sub := 0, mod := 0 }) ∧
  decodeTableWord 64 0x001050693FC00001 = none ∧ decodeTableWord 64 0x6FBFFFFFFF800000 = none

/-- A well-formed instruction of a program decodes from its own words, bytes lowest first, and no byte is left: the decoder drops
no bit of an encoding. -/
def Obligations.EncodedInstructionsDecodeToThemselves : Prop := ∀ i : Instr, wellFormed i = true → encode i ≠ [] →
  decode (inStream i) (wordBytes (encode i)) = some (i, [])

/-- R25, R54, R95, R126, R132, R202, R245: what a step does. The head of the tape names the choice. Where it lets a group issue that may,
and that no recorded hit concerns, the words at the PC of its perihelion run are fetched. A clause header needs no grant; another word is
issued where no deeper handler group of the owner comes before it, where it waits for no flag, and where the other group of the pipe
requests nothing or loses the contest. The step is then the meaning of the instruction that the words decode to, for that run, followed by
the end of the issue; for a core's sequencer likewise. An event is its meaning; a choice may let ac pass, or correct an error of the
arrays or poison a word (R202). A word that no core holds is read from memory, lowest byte first. That the tape, and beyond it a free
value, makes the choices is the model's (log 2, DESIGN CHOICE); so are the other group of the pipe, and when a head is eligible and which of
two is granted (log 26, DEDUCED), and that a fetched word is remembered until something drops it (log 28, DEDUCED). -/
def Obligations.AStepRunsTheInstructionThatItsWordsDecodeTo : Prop := ∀ (s : State) (rest : List Choice),
  let s' : State := { s with tape := rest }
  (∀ core gslot x, s.tape = .issue core gslot :: rest →
    let g := gkey core gslot
    let s0 := ((s'.walkWindowEnd core).replenish core).wakeRing x.owner
    let run := s0.nextRun g
    s'.group? g = some x → x.rep = none → s0.groupIssues g = true → run ≠ [] → s0.hits = [] →
    ∀ s1 w next i n, s0.fetchInstr g (s0.thread (run.headD 0)).pc.toNat = .ok (s1, w, next) → decodeWords false w next = some (i, n) →
      let len := if isPrefix w then 16 else 8
      let runs := fun (v : State) => step s = after (exec i (v.begin g run len (takesSlot i) (countsOrbit i)))
        (State.finishIssue g (run.map (· % 32)))
      let m := pipeMate g
      let u := s1.markEligible m
      let v := u.markEligible g
      (isHeader i = true → runs s1) ∧
      (isHeader i = false → s0.longWaits run w next = true → step s = .next s0) ∧
      (isHeader i = false → s0.longWaits run w next = false →
        (s1.outrun g = true → step s = .next s1) ∧
        (s1.outrun g = false →
          ((u.group m).eligible = none → runs (u.recordGrant g)) ∧
          ((u.group m).eligible ≠ none →
            (v.granted g m = true → runs ((v.recordGrant g).updGroup m (fun y => { y with lost := y.lost + 1 }))) ∧
            (v.granted g m = false → step s = .next v))))) ∧
  (∀ core key t m l i n, s.tape = .sequence core :: rest → s'.sequencer core = some (key, t, m) → m.missing = false → m.st ≠ .ended →
    m.st ≠ .faulted → s'.ownerIssues t.owner = true →
    s'.translate core t.owner (some t.asp.toNat) .execute m.mpc.toNat 8 = .ok l →
    decodeWords true (s'.fetchAt core t.owner l).2 0 = some (i, n) →
    step s = exec i { (s'.fetchAt core t.owner l).1 with cur := { core } }) ∧
  (∀ i, s.tape = .event i :: rest → encode i = [] → (∀ core gslot, i ≠ .repRepetition core gslot) → step s = exec i s') ∧
  (s.tape = [] → step s = act (Config.choice s.draws) s.draw) ∧
  (∀ ac, s.tape = .tick ac :: rest → ∃ t, step s = .next t ∧ t.clock = s.clock + BitVec.ofNat 64 ac ∧ t.mem = s.mem) ∧
  (∀ site o, s.tape = .error site true (some o) :: rest → s.power = .ready →
    (isTransfer site = false → step s = .next (s'.updOwner o (fun x => { x with corr := satInc64 x.corr 1 }))) ∧
    (isTransfer site = true → step s = .next (s'.updOwner o (fun x => { x with linkretry := satInc64 x.linkretry 1 })))) ∧
  (∀ w o, s.tape = .error (.memory w) false (some o) :: rest → s.power = .ready →
    ∃ t, step s = .next t ∧ t = { s' with poison := t.poison } ∧ Tab.getD t.poison false w = true ∧
      ∀ v, v ≠ w → Tab.getD t.poison false v = Tab.getD s.poison false v) ∧
  ∀ (core owner : Nat) (l : Loc), l.world = 0 → isAlias l.dpa = false → s.farDown l.dpa = false → s.moved = [] → s.poison = [] → s.ops = [] →
    (∀ c ∈ (s.core core).code, c.owner = owner → c.dpa ≠ l.dpa) →
    (s.fetchAt core owner l).2 = wordOf (Memory.readN s.mem l.dpa 8) ∧ (s.fetchAt core owner l).1.mem = s.mem

/-- R19, R146, R366, R400: what reset leaves: device memory is in its canonical form and zero, every core's banks 0 to 9 are
scratch, 10 to 23 cache and none FIFO, no tile descriptor is defined, no entry, record or group exists, and every owner is absent. -/
def Obligations.ResetMeetsTheInvariantAndTheSpecsValues : Prop :=
  State.reset.Inv ∧ (∀ a, Memory.read State.reset.mem a = 0) ∧
  (∀ c b, b < 24 → (b < 10 → (State.reset.core c).banks.getD b .fifo = .scratch) ∧
    (10 ≤ b → (State.reset.core c).banks.getD b .fifo = .cache)) ∧
  (∀ c i, (Tab.getD (State.reset.core c).tiles {} i).v = false) ∧ (∀ c, (State.reset.core c).tlb = [] ∧ (State.reset.core c).recs = []) ∧
  (∀ g, State.reset.group? g = none) ∧ ∀ o, (State.reset.owner o).ostat.st = .absent

/-- Every step that answers a next state keeps device memory in its canonical form (addresses strictly rising, no zero byte
listed), from every state that has it. -/
def Obligations.EveryStepKeepsMemoryCanonical : Prop := ∀ s t : State, s.Inv → step s = .next t → t.Inv
end

