-- ==== Sys2Proof/Laws/Table.lean ====
section
/-! SUPPORT. The laws of tables and of memory: read after write, and that every write keeps the canonical form. -/

namespace Sys2Proof.Machine

variable {α : Type}

theorem Tab.find_put (t : Tab α) (k j : Nat) (v : α) :
    Tab.find (Tab.put t k v) j = if j = k then some v else Tab.find t j := by
  induction t with
  | nil => by_cases h : j = k <;> simp [Tab.put, Tab.find, h]
  | cons e t ih =>
    obtain ⟨i, u⟩ := e
    unfold Tab.put
    split
    · by_cases h : j = k <;> simp [Tab.find, h]
    · split
      · rename_i h1 h2; subst h2; by_cases h : j = k <;> simp [Tab.find, h]
      · rename_i h1; simp only [Tab.find, ih]; split
        · simp_all; exact fun h => absurd h.symm h1
        · rfl

@[simp] theorem Tab.find_put_self (t : Tab α) (k : Nat) (v : α) : Tab.find (Tab.put t k v) k = some v := by
  simp [Tab.find_put]

theorem Tab.find_put_ne (t : Tab α) {k j : Nat} (v : α) (h : j ≠ k) : Tab.find (Tab.put t k v) j = Tab.find t j := by
  simp [Tab.find_put, h]

theorem Tab.find_del (t : Tab α) (k j : Nat) : Tab.find (Tab.del t k) j = if j = k then none else Tab.find t j := by
  induction t with
  | nil => simp [Tab.del, Tab.find]
  | cons e t ih =>
    obtain ⟨i, u⟩ := e
    unfold Tab.del
    split
    · simp only [ih, Tab.find]; split <;> simp_all
    · rename_i h1; simp only [ih, Tab.find]; split
      · simp_all; exact fun h => absurd h.symm h1
      · rfl

theorem Tab.getD_put (t : Tab α) (d : α) (k j : Nat) (v : α) :
    Tab.getD (Tab.put t k v) d j = if j = k then v else Tab.getD t d j := by
  simp only [Tab.getD, Tab.find_put]; split <;> rfl

@[simp] theorem Tab.getD_put_self (t : Tab α) (d : α) (k : Nat) (v : α) : Tab.getD (Tab.put t k v) d k = v := by
  simp [Tab.getD_put]

theorem Tab.getD_put_ne (t : Tab α) (d : α) {k j : Nat} (v : α) (h : j ≠ k) :
    Tab.getD (Tab.put t k v) d j = Tab.getD t d j := by simp [Tab.getD_put, h]

theorem Tab.getD_del (t : Tab α) (d : α) (k j : Nat) :
    Tab.getD (Tab.del t k) d j = if j = k then d else Tab.getD t d j := by
  simp only [Tab.getD, Tab.find_del]; split <;> rfl

theorem Tab.getD_setD [DecidableEq α] (t : Tab α) (d : α) (k j : Nat) (v : α) :
    Tab.getD (Tab.setD t d k v) d j = if j = k then v else Tab.getD t d j := by
  unfold Tab.setD
  split
  · rename_i h; subst h; rw [Tab.getD_del]
  · rw [Tab.getD_put]

@[simp] theorem Tab.getD_setD_self [DecidableEq α] (t : Tab α) (d : α) (k : Nat) (v : α) :
    Tab.getD (Tab.setD t d k v) d k = v := by simp [Tab.getD_setD]

theorem Tab.getD_setD_ne [DecidableEq α] (t : Tab α) (d : α) {k j : Nat} (v : α) (h : j ≠ k) :
    Tab.getD (Tab.setD t d k v) d j = Tab.getD t d j := by simp [Tab.getD_setD, h]

theorem Tab.find_upd (t : Tab α) (k j : Nat) (f : α → α) :
    Tab.find (Tab.upd t k f) j = if j = k then (Tab.find t k).map f else Tab.find t j := by
  unfold Tab.upd
  split
  · rename_i v h; rw [Tab.find_put]; split <;> simp_all
  · rename_i h; split <;> simp_all

/-! ### The canonical form -/

theorem Tab.sortedFrom_mono (t : Tab α) {m n : Nat} (h : m ≤ n) (ht : Tab.sortedFrom n t = true) :
    Tab.sortedFrom m t = true := by
  cases t with
  | nil => rfl
  | cons e t => simp only [Tab.sortedFrom, Bool.and_eq_true, decide_eq_true_eq] at *; exact ⟨by omega, ht.2⟩

theorem Tab.sortedFrom_put (t : Tab α) (k : Nat) (v : α) :
    ∀ n, n ≤ k → Tab.sortedFrom n t = true → Tab.sortedFrom n (Tab.put t k v) = true := by
  induction t with
  | nil => intro n hn _; simp [Tab.put, Tab.sortedFrom, hn]
  | cons e t ih =>
    intro n hn ht
    simp only [Tab.sortedFrom, Bool.and_eq_true, decide_eq_true_eq] at ht
    unfold Tab.put
    split
    · simp only [Tab.sortedFrom, Bool.and_eq_true, decide_eq_true_eq]; exact ⟨hn, by omega, ht.2⟩
    · split
      · rename_i _ h; subst h; simp only [Tab.sortedFrom, Bool.and_eq_true, decide_eq_true_eq]; exact ht
      · simp only [Tab.sortedFrom, Bool.and_eq_true, decide_eq_true_eq]
        exact ⟨ht.1, ih _ (by omega) ht.2⟩

theorem Tab.sortedFrom_del (t : Tab α) (k : Nat) :
    ∀ n, Tab.sortedFrom n t = true → Tab.sortedFrom n (Tab.del t k) = true := by
  induction t with
  | nil => intro n h; exact h
  | cons e t ih =>
    intro n ht
    simp only [Tab.sortedFrom, Bool.and_eq_true, decide_eq_true_eq] at ht
    unfold Tab.del
    split
    · exact Tab.sortedFrom_mono _ (by omega) (ih _ ht.2)
    · simp only [Tab.sortedFrom, Bool.and_eq_true, decide_eq_true_eq]; exact ⟨ht.1, ih _ ht.2⟩

theorem Tab.sortedFrom_filter (t : Tab α) (p : Nat × α → Bool) :
    ∀ n, Tab.sortedFrom n t = true → Tab.sortedFrom n (t.filter p) = true := by
  induction t with
  | nil => intro n h; exact h
  | cons e t ih =>
    intro n ht
    simp only [Tab.sortedFrom, Bool.and_eq_true, decide_eq_true_eq] at ht
    rw [List.filter_cons]
    split
    · simp only [Tab.sortedFrom, Bool.and_eq_true, decide_eq_true_eq]; exact ⟨ht.1, ih _ ht.2⟩
    · exact Tab.sortedFrom_mono _ (by omega) (ih _ ht.2)

theorem Tab.mem_put (t : Tab α) (k : Nat) (v : α) {e : Nat × α} (h : e ∈ Tab.put t k v) : e = (k, v) ∨ e ∈ t := by
  induction t with
  | nil => simpa [Tab.put] using h
  | cons x t ih => unfold Tab.put at h; split at h <;> (try split at h) <;> simp_all <;> tauto

theorem Tab.mem_del (t : Tab α) (k : Nat) {e : Nat × α} (h : e ∈ Tab.del t k) : e ∈ t := by
  induction t with
  | nil => exact h
  | cons x t ih => unfold Tab.del at h; split at h <;> simp_all <;> tauto

/-! ### Memory -/

theorem Memory.wf_nil : Memory.wf [] = true := rfl

theorem Memory.wf_filter (m : Memory) (p : Host.Cell → Bool) (h : m.wf = true) : Memory.wf (m.filter p) = true := by
  simp only [Memory.wf, Bool.and_eq_true, List.all_eq_true] at *
  exact ⟨Tab.sortedFrom_filter _ _ _ h.1, fun x hx => h.2 x (List.mem_filter.mp hx).1⟩

theorem Memory.wf_write (m : Memory) (a : Nat) (b : Byte) (h : m.wf = true) : (m.write a b).wf = true := by
  simp only [Memory.wf, Bool.and_eq_true, List.all_eq_true] at *
  unfold Memory.write Tab.setD
  split
  · exact ⟨Tab.sortedFrom_del _ _ _ h.1, fun x hx => h.2 x (Tab.mem_del _ _ hx)⟩
  · rename_i hb
    refine ⟨Tab.sortedFrom_put _ _ _ _ (Nat.zero_le _) h.1, fun x hx => ?_⟩
    rcases Tab.mem_put _ _ _ hx with rfl | hx
    · simpa using hb
    · exact h.2 x hx

theorem Memory.wf_writeN (bs : List Byte) : ∀ (m : Memory) (a : Nat), m.wf = true → (m.writeN a bs).wf = true := by
  induction bs with
  | nil => intro m a h; exact h
  | cons b bs ih => intro m a h; exact ih _ _ (Memory.wf_write m a b h)

@[simp] theorem Memory.read_write (m : Memory) (a : Nat) (b : Byte) : (m.write a b).read a = b := Tab.getD_setD_self ..

theorem Memory.read_write_ne (m : Memory) {a c : Nat} (b : Byte) (h : c ≠ a) : (m.write a b).read c = m.read c :=
  Tab.getD_setD_ne _ _ _ h

theorem Memory.read_writeN (bs : List Byte) : ∀ (m : Memory) (a c : Nat),
    (m.writeN a bs).read c = if h : a ≤ c ∧ c - a < bs.length then bs[c - a]'h.2 else m.read c := by
  induction bs with
  | nil => intro m a c; simp [Memory.writeN]
  | cons b bs ih =>
    intro m a c
    rw [Memory.writeN, ih]
    by_cases h1 : c = a
    · subst h1; simp
    · by_cases h2 : a < c ∧ c - (a + 1) < bs.length
      · obtain ⟨h2, h3⟩ := h2
        rw [dif_pos ⟨by omega, h3⟩, dif_pos ⟨by omega, by simp only [List.length_cons]; omega⟩]
        have : c - a = (c - (a + 1)) + 1 := by omega
        simp only [this, List.getElem_cons_succ]
      · rw [dif_neg (by omega), dif_neg (by simp only [List.length_cons]; omega), Memory.read_write_ne _ _ h1]

end Sys2Proof.Machine
end

