-- ==== Sys2Proof/Laws/State.lean ====
section
/-! SUPPORT. What each update of the state leaves as it is, field by field, and what the accessors read after it. -/

namespace Sys2Proof.Machine

variable (s : State)

@[simp] theorem State.setThread_power (k : Nat) (t : Thread) : (s.setThread k t).power = s.power := rfl
@[simp] theorem State.setThread_clock (k : Nat) (t : Thread) : (s.setThread k t).clock = s.clock := rfl
@[simp] theorem State.setThread_tape (k : Nat) (t : Thread) : (s.setThread k t).tape = s.tape := rfl
@[simp] theorem State.setThread_draws (k : Nat) (t : Thread) : (s.setThread k t).draws = s.draws := rfl
@[simp] theorem State.setThread_cur (k : Nat) (t : Thread) : (s.setThread k t).cur = s.cur := rfl
@[simp] theorem State.setThread_mem (k : Nat) (t : Thread) : (s.setThread k t).mem = s.mem := rfl
@[simp] theorem State.setThread_poison (k : Nat) (t : Thread) : (s.setThread k t).poison = s.poison := rfl
@[simp] theorem State.setThread_cores (k : Nat) (t : Thread) : (s.setThread k t).cores = s.cores := rfl
@[simp] theorem State.setThread_teams (k : Nat) (t : Thread) : (s.setThread k t).teams = s.teams := rfl
@[simp] theorem State.setThread_groups (k : Nat) (t : Thread) : (s.setThread k t).groups = s.groups := rfl
@[simp] theorem State.setThread_ops (k : Nat) (t : Thread) : (s.setThread k t).ops = s.ops := rfl
@[simp] theorem State.setThread_views (k : Nat) (t : Thread) : (s.setThread k t).views = s.views := rfl
@[simp] theorem State.setThread_snoops (k : Nat) (t : Thread) : (s.setThread k t).snoops = s.snoops := rfl
@[simp] theorem State.setThread_l2 (k : Nat) (t : Thread) : (s.setThread k t).l2 = s.l2 := rfl
@[simp] theorem State.setThread_nextId (k : Nat) (t : Thread) : (s.setThread k t).nextId = s.nextId := rfl
@[simp] theorem State.setThread_nextUid (k : Nat) (t : Thread) : (s.setThread k t).nextUid = s.nextUid := rfl
@[simp] theorem State.setThread_hits (k : Nat) (t : Thread) : (s.setThread k t).hits = s.hits := rfl
@[simp] theorem State.setThread_owners (k : Nat) (t : Thread) : (s.setThread k t).owners = s.owners := rfl
@[simp] theorem State.setThread_claims (k : Nat) (t : Thread) : (s.setThread k t).claims = s.claims := rfl
@[simp] theorem State.setThread_events (k : Nat) (t : Thread) : (s.setThread k t).events = s.events := rfl
@[simp] theorem State.setThread_hostNotes (k : Nat) (t : Thread) : (s.setThread k t).hostNotes = s.hostNotes := rfl
@[simp] theorem State.setThread_lost (k : Nat) (t : Thread) : (s.setThread k t).lost = s.lost := rfl
@[simp] theorem State.setThread_noclaim (k : Nat) (t : Thread) : (s.setThread k t).noclaim = s.noclaim := rfl
@[simp] theorem State.setThread_nowin (k : Nat) (t : Thread) : (s.setThread k t).nowin = s.nowin := rfl
@[simp] theorem State.setThread_dcorr (k : Nat) (t : Thread) : (s.setThread k t).dcorr = s.dcorr := rfl
@[simp] theorem State.setThread_dpoison (k : Nat) (t : Thread) : (s.setThread k t).dpoison = s.dpoison := rfl
@[simp] theorem State.setThread_umask (k : Nat) (t : Thread) : (s.setThread k t).umask = s.umask := rfl
@[simp] theorem State.setThread_fwin (k : Nat) (t : Thread) : (s.setThread k t).fwin = s.fwin := rfl
@[simp] theorem State.setThread_moved (k : Nat) (t : Thread) : (s.setThread k t).moved = s.moved := rfl
@[simp] theorem State.setThread_rates (k : Nat) (t : Thread) : (s.setThread k t).rates = s.rates := rfl
@[simp] theorem State.setThread_wantRates (k : Nat) (t : Thread) : (s.setThread k t).wantRates = s.wantRates := rfl
@[simp] theorem State.setThread_rows (k : Nat) (t : Thread) : (s.setThread k t).rows = s.rows := rfl
@[simp] theorem State.setThread_limits (k : Nat) (t : Thread) : (s.setThread k t).limits = s.limits := rfl
@[simp] theorem State.setThread_lastActs (k : Nat) (t : Thread) : (s.setThread k t).lastActs = s.lastActs := rfl
@[simp] theorem State.setThread_qbind (k : Nat) (t : Thread) : (s.setThread k t).qbind = s.qbind := rfl
@[simp] theorem State.setThread_qbindNew (k : Nat) (t : Thread) : (s.setThread k t).qbindNew = s.qbindNew := rfl
@[simp] theorem State.setThread_queues (k : Nat) (t : Thread) : (s.setThread k t).queues = s.queues := rfl
@[simp] theorem State.setThread_engineReset (k : Nat) (t : Thread) : (s.setThread k t).engineReset = s.engineReset := rfl
@[simp] theorem State.setThread_deliveries (k : Nat) (t : Thread) : (s.setThread k t).deliveries = s.deliveries := rfl
@[simp] theorem State.setThread_peerTags (k : Nat) (t : Thread) : (s.setThread k t).peerTags = s.peerTags := rfl
@[simp] theorem State.setThread_notes (k : Nat) (t : Thread) : (s.setThread k t).notes = s.notes := rfl
@[simp] theorem State.setThread_launches (k : Nat) (t : Thread) : (s.setThread k t).launches = s.launches := rfl
@[simp] theorem State.setThread_nextLaunch (k : Nat) (t : Thread) : (s.setThread k t).nextLaunch = s.nextLaunch := rfl
@[simp] theorem State.setThread_ctxs (k : Nat) (t : Thread) : (s.setThread k t).ctxs = s.ctxs := rfl
@[simp] theorem State.setThread_nextCtx (k : Nat) (t : Thread) : (s.setThread k t).nextCtx = s.nextCtx := rfl
@[simp] theorem State.setThread_comets (k : Nat) (t : Thread) : (s.setThread k t).comets = s.comets := rfl
@[simp] theorem State.setThread_window (k : Nat) (t : Thread) : (s.setThread k t).window = s.window := rfl
@[simp] theorem State.setThread_hostLines (k : Nat) (t : Thread) : (s.setThread k t).hostLines = s.hostLines := rfl
@[simp] theorem State.setThread_sent (k : Nat) (t : Thread) : (s.setThread k t).sent = s.sent := rfl
@[simp] theorem State.setThread_replies (k : Nat) (t : Thread) : (s.setThread k t).replies = s.replies := rfl
@[simp] theorem State.setThread_links (k : Nat) (t : Thread) : (s.setThread k t).links = s.links := rfl
@[simp] theorem State.setThread_portsDown (k : Nat) (t : Thread) : (s.setThread k t).portsDown = s.portsDown := rfl
@[simp] theorem State.setThread_portFails (k : Nat) (t : Thread) : (s.setThread k t).portFails = s.portFails := rfl
@[simp] theorem State.setThread_fabid (k : Nat) (t : Thread) : (s.setThread k t).fabid = s.fabid := rfl
@[simp] theorem State.setThread_wdlim (k : Nat) (t : Thread) : (s.setThread k t).wdlim = s.wdlim := rfl
@[simp] theorem State.setThread_ercap (k : Nat) (t : Thread) : (s.setThread k t).ercap = s.ercap := rfl
@[simp] theorem State.setThread_hrt (k : Nat) (t : Thread) : (s.setThread k t).hrt = s.hrt := rfl
@[simp] theorem State.setThread_worldKey (k : Nat) (t : Thread) : (s.setThread k t).worldKey = s.worldKey := rfl
@[simp] theorem State.setThread_nextKey (k : Nat) (t : Thread) : (s.setThread k t).nextKey = s.nextKey := rfl
@[simp] theorem State.setThread_imageKey (k : Nat) (t : Thread) : (s.setThread k t).imageKey = s.imageKey := rfl
@[simp] theorem State.setThread_sweeps (k : Nat) (t : Thread) : (s.setThread k t).sweeps = s.sweeps := rfl
@[simp] theorem State.setThread_scDown (k : Nat) (t : Thread) : (s.setThread k t).scDown = s.scDown := rfl
@[simp] theorem State.setThread_dieHot (k : Nat) (t : Thread) : (s.setThread k t).dieHot = s.dieHot := rfl
@[simp] theorem State.setThread_coolSince (k : Nat) (t : Thread) : (s.setThread k t).coolSince = s.coolSince := rfl
@[simp] theorem State.setThread_tc0Window (k : Nat) (t : Thread) : (s.setThread k t).tc0Window = s.tc0Window := rfl
@[simp] theorem State.setThread_flash (k : Nat) (t : Thread) : (s.setThread k t).flash = s.flash := rfl
@[simp] theorem State.setThread_rollback (k : Nat) (t : Thread) : (s.setThread k t).rollback = s.rollback := rfl
@[simp] theorem State.setThread_reports (k : Nat) (t : Thread) : (s.setThread k t).reports = s.reports := rfl

@[simp] theorem State.setGroup_power (k : Nat) (x : Group) : (s.setGroup k x).power = s.power := rfl
@[simp] theorem State.setGroup_clock (k : Nat) (x : Group) : (s.setGroup k x).clock = s.clock := rfl
@[simp] theorem State.setGroup_tape (k : Nat) (x : Group) : (s.setGroup k x).tape = s.tape := rfl
@[simp] theorem State.setGroup_draws (k : Nat) (x : Group) : (s.setGroup k x).draws = s.draws := rfl
@[simp] theorem State.setGroup_cur (k : Nat) (x : Group) : (s.setGroup k x).cur = s.cur := rfl
@[simp] theorem State.setGroup_mem (k : Nat) (x : Group) : (s.setGroup k x).mem = s.mem := rfl
@[simp] theorem State.setGroup_poison (k : Nat) (x : Group) : (s.setGroup k x).poison = s.poison := rfl
@[simp] theorem State.setGroup_cores (k : Nat) (x : Group) : (s.setGroup k x).cores = s.cores := rfl
@[simp] theorem State.setGroup_teams (k : Nat) (x : Group) : (s.setGroup k x).teams = s.teams := rfl
@[simp] theorem State.setGroup_threads (k : Nat) (x : Group) : (s.setGroup k x).threads = s.threads := rfl
@[simp] theorem State.setGroup_ops (k : Nat) (x : Group) : (s.setGroup k x).ops = s.ops := rfl
@[simp] theorem State.setGroup_views (k : Nat) (x : Group) : (s.setGroup k x).views = s.views := rfl
@[simp] theorem State.setGroup_snoops (k : Nat) (x : Group) : (s.setGroup k x).snoops = s.snoops := rfl
@[simp] theorem State.setGroup_l2 (k : Nat) (x : Group) : (s.setGroup k x).l2 = s.l2 := rfl
@[simp] theorem State.setGroup_nextId (k : Nat) (x : Group) : (s.setGroup k x).nextId = s.nextId := rfl
@[simp] theorem State.setGroup_nextUid (k : Nat) (x : Group) : (s.setGroup k x).nextUid = s.nextUid := rfl
@[simp] theorem State.setGroup_hits (k : Nat) (x : Group) : (s.setGroup k x).hits = s.hits := rfl
@[simp] theorem State.setGroup_owners (k : Nat) (x : Group) : (s.setGroup k x).owners = s.owners := rfl
@[simp] theorem State.setGroup_claims (k : Nat) (x : Group) : (s.setGroup k x).claims = s.claims := rfl
@[simp] theorem State.setGroup_events (k : Nat) (x : Group) : (s.setGroup k x).events = s.events := rfl
@[simp] theorem State.setGroup_hostNotes (k : Nat) (x : Group) : (s.setGroup k x).hostNotes = s.hostNotes := rfl
@[simp] theorem State.setGroup_lost (k : Nat) (x : Group) : (s.setGroup k x).lost = s.lost := rfl
@[simp] theorem State.setGroup_noclaim (k : Nat) (x : Group) : (s.setGroup k x).noclaim = s.noclaim := rfl
@[simp] theorem State.setGroup_nowin (k : Nat) (x : Group) : (s.setGroup k x).nowin = s.nowin := rfl
@[simp] theorem State.setGroup_dcorr (k : Nat) (x : Group) : (s.setGroup k x).dcorr = s.dcorr := rfl
@[simp] theorem State.setGroup_dpoison (k : Nat) (x : Group) : (s.setGroup k x).dpoison = s.dpoison := rfl
@[simp] theorem State.setGroup_umask (k : Nat) (x : Group) : (s.setGroup k x).umask = s.umask := rfl
@[simp] theorem State.setGroup_fwin (k : Nat) (x : Group) : (s.setGroup k x).fwin = s.fwin := rfl
@[simp] theorem State.setGroup_moved (k : Nat) (x : Group) : (s.setGroup k x).moved = s.moved := rfl
@[simp] theorem State.setGroup_rates (k : Nat) (x : Group) : (s.setGroup k x).rates = s.rates := rfl
@[simp] theorem State.setGroup_wantRates (k : Nat) (x : Group) : (s.setGroup k x).wantRates = s.wantRates := rfl
@[simp] theorem State.setGroup_rows (k : Nat) (x : Group) : (s.setGroup k x).rows = s.rows := rfl
@[simp] theorem State.setGroup_limits (k : Nat) (x : Group) : (s.setGroup k x).limits = s.limits := rfl
@[simp] theorem State.setGroup_lastActs (k : Nat) (x : Group) : (s.setGroup k x).lastActs = s.lastActs := rfl
@[simp] theorem State.setGroup_qbind (k : Nat) (x : Group) : (s.setGroup k x).qbind = s.qbind := rfl
@[simp] theorem State.setGroup_qbindNew (k : Nat) (x : Group) : (s.setGroup k x).qbindNew = s.qbindNew := rfl
@[simp] theorem State.setGroup_queues (k : Nat) (x : Group) : (s.setGroup k x).queues = s.queues := rfl
@[simp] theorem State.setGroup_engineReset (k : Nat) (x : Group) : (s.setGroup k x).engineReset = s.engineReset := rfl
@[simp] theorem State.setGroup_deliveries (k : Nat) (x : Group) : (s.setGroup k x).deliveries = s.deliveries := rfl
@[simp] theorem State.setGroup_peerTags (k : Nat) (x : Group) : (s.setGroup k x).peerTags = s.peerTags := rfl
@[simp] theorem State.setGroup_notes (k : Nat) (x : Group) : (s.setGroup k x).notes = s.notes := rfl
@[simp] theorem State.setGroup_launches (k : Nat) (x : Group) : (s.setGroup k x).launches = s.launches := rfl
@[simp] theorem State.setGroup_nextLaunch (k : Nat) (x : Group) : (s.setGroup k x).nextLaunch = s.nextLaunch := rfl
@[simp] theorem State.setGroup_ctxs (k : Nat) (x : Group) : (s.setGroup k x).ctxs = s.ctxs := rfl
@[simp] theorem State.setGroup_nextCtx (k : Nat) (x : Group) : (s.setGroup k x).nextCtx = s.nextCtx := rfl
@[simp] theorem State.setGroup_comets (k : Nat) (x : Group) : (s.setGroup k x).comets = s.comets := rfl
@[simp] theorem State.setGroup_window (k : Nat) (x : Group) : (s.setGroup k x).window = s.window := rfl
@[simp] theorem State.setGroup_hostLines (k : Nat) (x : Group) : (s.setGroup k x).hostLines = s.hostLines := rfl
@[simp] theorem State.setGroup_sent (k : Nat) (x : Group) : (s.setGroup k x).sent = s.sent := rfl
@[simp] theorem State.setGroup_replies (k : Nat) (x : Group) : (s.setGroup k x).replies = s.replies := rfl
@[simp] theorem State.setGroup_links (k : Nat) (x : Group) : (s.setGroup k x).links = s.links := rfl
@[simp] theorem State.setGroup_portsDown (k : Nat) (x : Group) : (s.setGroup k x).portsDown = s.portsDown := rfl
@[simp] theorem State.setGroup_portFails (k : Nat) (x : Group) : (s.setGroup k x).portFails = s.portFails := rfl
@[simp] theorem State.setGroup_fabid (k : Nat) (x : Group) : (s.setGroup k x).fabid = s.fabid := rfl
@[simp] theorem State.setGroup_wdlim (k : Nat) (x : Group) : (s.setGroup k x).wdlim = s.wdlim := rfl
@[simp] theorem State.setGroup_ercap (k : Nat) (x : Group) : (s.setGroup k x).ercap = s.ercap := rfl
@[simp] theorem State.setGroup_hrt (k : Nat) (x : Group) : (s.setGroup k x).hrt = s.hrt := rfl
@[simp] theorem State.setGroup_worldKey (k : Nat) (x : Group) : (s.setGroup k x).worldKey = s.worldKey := rfl
@[simp] theorem State.setGroup_nextKey (k : Nat) (x : Group) : (s.setGroup k x).nextKey = s.nextKey := rfl
@[simp] theorem State.setGroup_imageKey (k : Nat) (x : Group) : (s.setGroup k x).imageKey = s.imageKey := rfl
@[simp] theorem State.setGroup_sweeps (k : Nat) (x : Group) : (s.setGroup k x).sweeps = s.sweeps := rfl
@[simp] theorem State.setGroup_scDown (k : Nat) (x : Group) : (s.setGroup k x).scDown = s.scDown := rfl
@[simp] theorem State.setGroup_dieHot (k : Nat) (x : Group) : (s.setGroup k x).dieHot = s.dieHot := rfl
@[simp] theorem State.setGroup_coolSince (k : Nat) (x : Group) : (s.setGroup k x).coolSince = s.coolSince := rfl
@[simp] theorem State.setGroup_tc0Window (k : Nat) (x : Group) : (s.setGroup k x).tc0Window = s.tc0Window := rfl
@[simp] theorem State.setGroup_flash (k : Nat) (x : Group) : (s.setGroup k x).flash = s.flash := rfl
@[simp] theorem State.setGroup_rollback (k : Nat) (x : Group) : (s.setGroup k x).rollback = s.rollback := rfl
@[simp] theorem State.setGroup_reports (k : Nat) (x : Group) : (s.setGroup k x).reports = s.reports := rfl

@[simp] theorem State.setCore_power (k : Nat) (x : Core) : (s.setCore k x).power = s.power := rfl
@[simp] theorem State.setCore_clock (k : Nat) (x : Core) : (s.setCore k x).clock = s.clock := rfl
@[simp] theorem State.setCore_tape (k : Nat) (x : Core) : (s.setCore k x).tape = s.tape := rfl
@[simp] theorem State.setCore_draws (k : Nat) (x : Core) : (s.setCore k x).draws = s.draws := rfl
@[simp] theorem State.setCore_cur (k : Nat) (x : Core) : (s.setCore k x).cur = s.cur := rfl
@[simp] theorem State.setCore_mem (k : Nat) (x : Core) : (s.setCore k x).mem = s.mem := rfl
@[simp] theorem State.setCore_poison (k : Nat) (x : Core) : (s.setCore k x).poison = s.poison := rfl
@[simp] theorem State.setCore_teams (k : Nat) (x : Core) : (s.setCore k x).teams = s.teams := rfl
@[simp] theorem State.setCore_groups (k : Nat) (x : Core) : (s.setCore k x).groups = s.groups := rfl
@[simp] theorem State.setCore_threads (k : Nat) (x : Core) : (s.setCore k x).threads = s.threads := rfl
@[simp] theorem State.setCore_ops (k : Nat) (x : Core) : (s.setCore k x).ops = s.ops := rfl
@[simp] theorem State.setCore_views (k : Nat) (x : Core) : (s.setCore k x).views = s.views := rfl
@[simp] theorem State.setCore_snoops (k : Nat) (x : Core) : (s.setCore k x).snoops = s.snoops := rfl
@[simp] theorem State.setCore_l2 (k : Nat) (x : Core) : (s.setCore k x).l2 = s.l2 := rfl
@[simp] theorem State.setCore_nextId (k : Nat) (x : Core) : (s.setCore k x).nextId = s.nextId := rfl
@[simp] theorem State.setCore_nextUid (k : Nat) (x : Core) : (s.setCore k x).nextUid = s.nextUid := rfl
@[simp] theorem State.setCore_hits (k : Nat) (x : Core) : (s.setCore k x).hits = s.hits := rfl
@[simp] theorem State.setCore_owners (k : Nat) (x : Core) : (s.setCore k x).owners = s.owners := rfl
@[simp] theorem State.setCore_claims (k : Nat) (x : Core) : (s.setCore k x).claims = s.claims := rfl
@[simp] theorem State.setCore_events (k : Nat) (x : Core) : (s.setCore k x).events = s.events := rfl
@[simp] theorem State.setCore_hostNotes (k : Nat) (x : Core) : (s.setCore k x).hostNotes = s.hostNotes := rfl
@[simp] theorem State.setCore_lost (k : Nat) (x : Core) : (s.setCore k x).lost = s.lost := rfl
@[simp] theorem State.setCore_noclaim (k : Nat) (x : Core) : (s.setCore k x).noclaim = s.noclaim := rfl
@[simp] theorem State.setCore_nowin (k : Nat) (x : Core) : (s.setCore k x).nowin = s.nowin := rfl
@[simp] theorem State.setCore_dcorr (k : Nat) (x : Core) : (s.setCore k x).dcorr = s.dcorr := rfl
@[simp] theorem State.setCore_dpoison (k : Nat) (x : Core) : (s.setCore k x).dpoison = s.dpoison := rfl
@[simp] theorem State.setCore_umask (k : Nat) (x : Core) : (s.setCore k x).umask = s.umask := rfl
@[simp] theorem State.setCore_fwin (k : Nat) (x : Core) : (s.setCore k x).fwin = s.fwin := rfl
@[simp] theorem State.setCore_moved (k : Nat) (x : Core) : (s.setCore k x).moved = s.moved := rfl
@[simp] theorem State.setCore_rates (k : Nat) (x : Core) : (s.setCore k x).rates = s.rates := rfl
@[simp] theorem State.setCore_wantRates (k : Nat) (x : Core) : (s.setCore k x).wantRates = s.wantRates := rfl
@[simp] theorem State.setCore_rows (k : Nat) (x : Core) : (s.setCore k x).rows = s.rows := rfl
@[simp] theorem State.setCore_limits (k : Nat) (x : Core) : (s.setCore k x).limits = s.limits := rfl
@[simp] theorem State.setCore_lastActs (k : Nat) (x : Core) : (s.setCore k x).lastActs = s.lastActs := rfl
@[simp] theorem State.setCore_qbind (k : Nat) (x : Core) : (s.setCore k x).qbind = s.qbind := rfl
@[simp] theorem State.setCore_qbindNew (k : Nat) (x : Core) : (s.setCore k x).qbindNew = s.qbindNew := rfl
@[simp] theorem State.setCore_queues (k : Nat) (x : Core) : (s.setCore k x).queues = s.queues := rfl
@[simp] theorem State.setCore_engineReset (k : Nat) (x : Core) : (s.setCore k x).engineReset = s.engineReset := rfl
@[simp] theorem State.setCore_deliveries (k : Nat) (x : Core) : (s.setCore k x).deliveries = s.deliveries := rfl
@[simp] theorem State.setCore_peerTags (k : Nat) (x : Core) : (s.setCore k x).peerTags = s.peerTags := rfl
@[simp] theorem State.setCore_notes (k : Nat) (x : Core) : (s.setCore k x).notes = s.notes := rfl
@[simp] theorem State.setCore_launches (k : Nat) (x : Core) : (s.setCore k x).launches = s.launches := rfl
@[simp] theorem State.setCore_nextLaunch (k : Nat) (x : Core) : (s.setCore k x).nextLaunch = s.nextLaunch := rfl
@[simp] theorem State.setCore_ctxs (k : Nat) (x : Core) : (s.setCore k x).ctxs = s.ctxs := rfl
@[simp] theorem State.setCore_nextCtx (k : Nat) (x : Core) : (s.setCore k x).nextCtx = s.nextCtx := rfl
@[simp] theorem State.setCore_comets (k : Nat) (x : Core) : (s.setCore k x).comets = s.comets := rfl
@[simp] theorem State.setCore_window (k : Nat) (x : Core) : (s.setCore k x).window = s.window := rfl
@[simp] theorem State.setCore_hostLines (k : Nat) (x : Core) : (s.setCore k x).hostLines = s.hostLines := rfl
@[simp] theorem State.setCore_sent (k : Nat) (x : Core) : (s.setCore k x).sent = s.sent := rfl
@[simp] theorem State.setCore_replies (k : Nat) (x : Core) : (s.setCore k x).replies = s.replies := rfl
@[simp] theorem State.setCore_links (k : Nat) (x : Core) : (s.setCore k x).links = s.links := rfl
@[simp] theorem State.setCore_portsDown (k : Nat) (x : Core) : (s.setCore k x).portsDown = s.portsDown := rfl
@[simp] theorem State.setCore_portFails (k : Nat) (x : Core) : (s.setCore k x).portFails = s.portFails := rfl
@[simp] theorem State.setCore_fabid (k : Nat) (x : Core) : (s.setCore k x).fabid = s.fabid := rfl
@[simp] theorem State.setCore_wdlim (k : Nat) (x : Core) : (s.setCore k x).wdlim = s.wdlim := rfl
@[simp] theorem State.setCore_ercap (k : Nat) (x : Core) : (s.setCore k x).ercap = s.ercap := rfl
@[simp] theorem State.setCore_hrt (k : Nat) (x : Core) : (s.setCore k x).hrt = s.hrt := rfl
@[simp] theorem State.setCore_worldKey (k : Nat) (x : Core) : (s.setCore k x).worldKey = s.worldKey := rfl
@[simp] theorem State.setCore_nextKey (k : Nat) (x : Core) : (s.setCore k x).nextKey = s.nextKey := rfl
@[simp] theorem State.setCore_imageKey (k : Nat) (x : Core) : (s.setCore k x).imageKey = s.imageKey := rfl
@[simp] theorem State.setCore_sweeps (k : Nat) (x : Core) : (s.setCore k x).sweeps = s.sweeps := rfl
@[simp] theorem State.setCore_scDown (k : Nat) (x : Core) : (s.setCore k x).scDown = s.scDown := rfl
@[simp] theorem State.setCore_dieHot (k : Nat) (x : Core) : (s.setCore k x).dieHot = s.dieHot := rfl
@[simp] theorem State.setCore_coolSince (k : Nat) (x : Core) : (s.setCore k x).coolSince = s.coolSince := rfl
@[simp] theorem State.setCore_tc0Window (k : Nat) (x : Core) : (s.setCore k x).tc0Window = s.tc0Window := rfl
@[simp] theorem State.setCore_flash (k : Nat) (x : Core) : (s.setCore k x).flash = s.flash := rfl
@[simp] theorem State.setCore_rollback (k : Nat) (x : Core) : (s.setCore k x).rollback = s.rollback := rfl
@[simp] theorem State.setCore_reports (k : Nat) (x : Core) : (s.setCore k x).reports = s.reports := rfl

@[simp] theorem State.setTeam_power (k : Nat) (x : Team) : (s.setTeam k x).power = s.power := rfl
@[simp] theorem State.setTeam_clock (k : Nat) (x : Team) : (s.setTeam k x).clock = s.clock := rfl
@[simp] theorem State.setTeam_tape (k : Nat) (x : Team) : (s.setTeam k x).tape = s.tape := rfl
@[simp] theorem State.setTeam_draws (k : Nat) (x : Team) : (s.setTeam k x).draws = s.draws := rfl
@[simp] theorem State.setTeam_cur (k : Nat) (x : Team) : (s.setTeam k x).cur = s.cur := rfl
@[simp] theorem State.setTeam_mem (k : Nat) (x : Team) : (s.setTeam k x).mem = s.mem := rfl
@[simp] theorem State.setTeam_poison (k : Nat) (x : Team) : (s.setTeam k x).poison = s.poison := rfl
@[simp] theorem State.setTeam_cores (k : Nat) (x : Team) : (s.setTeam k x).cores = s.cores := rfl
@[simp] theorem State.setTeam_groups (k : Nat) (x : Team) : (s.setTeam k x).groups = s.groups := rfl
@[simp] theorem State.setTeam_threads (k : Nat) (x : Team) : (s.setTeam k x).threads = s.threads := rfl
@[simp] theorem State.setTeam_ops (k : Nat) (x : Team) : (s.setTeam k x).ops = s.ops := rfl
@[simp] theorem State.setTeam_views (k : Nat) (x : Team) : (s.setTeam k x).views = s.views := rfl
@[simp] theorem State.setTeam_snoops (k : Nat) (x : Team) : (s.setTeam k x).snoops = s.snoops := rfl
@[simp] theorem State.setTeam_l2 (k : Nat) (x : Team) : (s.setTeam k x).l2 = s.l2 := rfl
@[simp] theorem State.setTeam_nextId (k : Nat) (x : Team) : (s.setTeam k x).nextId = s.nextId := rfl
@[simp] theorem State.setTeam_nextUid (k : Nat) (x : Team) : (s.setTeam k x).nextUid = s.nextUid := rfl
@[simp] theorem State.setTeam_hits (k : Nat) (x : Team) : (s.setTeam k x).hits = s.hits := rfl
@[simp] theorem State.setTeam_owners (k : Nat) (x : Team) : (s.setTeam k x).owners = s.owners := rfl
@[simp] theorem State.setTeam_claims (k : Nat) (x : Team) : (s.setTeam k x).claims = s.claims := rfl
@[simp] theorem State.setTeam_events (k : Nat) (x : Team) : (s.setTeam k x).events = s.events := rfl
@[simp] theorem State.setTeam_hostNotes (k : Nat) (x : Team) : (s.setTeam k x).hostNotes = s.hostNotes := rfl
@[simp] theorem State.setTeam_lost (k : Nat) (x : Team) : (s.setTeam k x).lost = s.lost := rfl
@[simp] theorem State.setTeam_noclaim (k : Nat) (x : Team) : (s.setTeam k x).noclaim = s.noclaim := rfl
@[simp] theorem State.setTeam_nowin (k : Nat) (x : Team) : (s.setTeam k x).nowin = s.nowin := rfl
@[simp] theorem State.setTeam_dcorr (k : Nat) (x : Team) : (s.setTeam k x).dcorr = s.dcorr := rfl
@[simp] theorem State.setTeam_dpoison (k : Nat) (x : Team) : (s.setTeam k x).dpoison = s.dpoison := rfl
@[simp] theorem State.setTeam_umask (k : Nat) (x : Team) : (s.setTeam k x).umask = s.umask := rfl
@[simp] theorem State.setTeam_fwin (k : Nat) (x : Team) : (s.setTeam k x).fwin = s.fwin := rfl
@[simp] theorem State.setTeam_moved (k : Nat) (x : Team) : (s.setTeam k x).moved = s.moved := rfl
@[simp] theorem State.setTeam_rates (k : Nat) (x : Team) : (s.setTeam k x).rates = s.rates := rfl
@[simp] theorem State.setTeam_wantRates (k : Nat) (x : Team) : (s.setTeam k x).wantRates = s.wantRates := rfl
@[simp] theorem State.setTeam_rows (k : Nat) (x : Team) : (s.setTeam k x).rows = s.rows := rfl
@[simp] theorem State.setTeam_limits (k : Nat) (x : Team) : (s.setTeam k x).limits = s.limits := rfl
@[simp] theorem State.setTeam_lastActs (k : Nat) (x : Team) : (s.setTeam k x).lastActs = s.lastActs := rfl
@[simp] theorem State.setTeam_qbind (k : Nat) (x : Team) : (s.setTeam k x).qbind = s.qbind := rfl
@[simp] theorem State.setTeam_qbindNew (k : Nat) (x : Team) : (s.setTeam k x).qbindNew = s.qbindNew := rfl
@[simp] theorem State.setTeam_queues (k : Nat) (x : Team) : (s.setTeam k x).queues = s.queues := rfl
@[simp] theorem State.setTeam_engineReset (k : Nat) (x : Team) : (s.setTeam k x).engineReset = s.engineReset := rfl
@[simp] theorem State.setTeam_deliveries (k : Nat) (x : Team) : (s.setTeam k x).deliveries = s.deliveries := rfl
@[simp] theorem State.setTeam_peerTags (k : Nat) (x : Team) : (s.setTeam k x).peerTags = s.peerTags := rfl
@[simp] theorem State.setTeam_notes (k : Nat) (x : Team) : (s.setTeam k x).notes = s.notes := rfl
@[simp] theorem State.setTeam_launches (k : Nat) (x : Team) : (s.setTeam k x).launches = s.launches := rfl
@[simp] theorem State.setTeam_nextLaunch (k : Nat) (x : Team) : (s.setTeam k x).nextLaunch = s.nextLaunch := rfl
@[simp] theorem State.setTeam_ctxs (k : Nat) (x : Team) : (s.setTeam k x).ctxs = s.ctxs := rfl
@[simp] theorem State.setTeam_nextCtx (k : Nat) (x : Team) : (s.setTeam k x).nextCtx = s.nextCtx := rfl
@[simp] theorem State.setTeam_comets (k : Nat) (x : Team) : (s.setTeam k x).comets = s.comets := rfl
@[simp] theorem State.setTeam_window (k : Nat) (x : Team) : (s.setTeam k x).window = s.window := rfl
@[simp] theorem State.setTeam_hostLines (k : Nat) (x : Team) : (s.setTeam k x).hostLines = s.hostLines := rfl
@[simp] theorem State.setTeam_sent (k : Nat) (x : Team) : (s.setTeam k x).sent = s.sent := rfl
@[simp] theorem State.setTeam_replies (k : Nat) (x : Team) : (s.setTeam k x).replies = s.replies := rfl
@[simp] theorem State.setTeam_links (k : Nat) (x : Team) : (s.setTeam k x).links = s.links := rfl
@[simp] theorem State.setTeam_portsDown (k : Nat) (x : Team) : (s.setTeam k x).portsDown = s.portsDown := rfl
@[simp] theorem State.setTeam_portFails (k : Nat) (x : Team) : (s.setTeam k x).portFails = s.portFails := rfl
@[simp] theorem State.setTeam_fabid (k : Nat) (x : Team) : (s.setTeam k x).fabid = s.fabid := rfl
@[simp] theorem State.setTeam_wdlim (k : Nat) (x : Team) : (s.setTeam k x).wdlim = s.wdlim := rfl
@[simp] theorem State.setTeam_ercap (k : Nat) (x : Team) : (s.setTeam k x).ercap = s.ercap := rfl
@[simp] theorem State.setTeam_hrt (k : Nat) (x : Team) : (s.setTeam k x).hrt = s.hrt := rfl
@[simp] theorem State.setTeam_worldKey (k : Nat) (x : Team) : (s.setTeam k x).worldKey = s.worldKey := rfl
@[simp] theorem State.setTeam_nextKey (k : Nat) (x : Team) : (s.setTeam k x).nextKey = s.nextKey := rfl
@[simp] theorem State.setTeam_imageKey (k : Nat) (x : Team) : (s.setTeam k x).imageKey = s.imageKey := rfl
@[simp] theorem State.setTeam_sweeps (k : Nat) (x : Team) : (s.setTeam k x).sweeps = s.sweeps := rfl
@[simp] theorem State.setTeam_scDown (k : Nat) (x : Team) : (s.setTeam k x).scDown = s.scDown := rfl
@[simp] theorem State.setTeam_dieHot (k : Nat) (x : Team) : (s.setTeam k x).dieHot = s.dieHot := rfl
@[simp] theorem State.setTeam_coolSince (k : Nat) (x : Team) : (s.setTeam k x).coolSince = s.coolSince := rfl
@[simp] theorem State.setTeam_tc0Window (k : Nat) (x : Team) : (s.setTeam k x).tc0Window = s.tc0Window := rfl
@[simp] theorem State.setTeam_flash (k : Nat) (x : Team) : (s.setTeam k x).flash = s.flash := rfl
@[simp] theorem State.setTeam_rollback (k : Nat) (x : Team) : (s.setTeam k x).rollback = s.rollback := rfl
@[simp] theorem State.setTeam_reports (k : Nat) (x : Team) : (s.setTeam k x).reports = s.reports := rfl

@[simp] theorem State.setOwner_power (k : Nat) (x : Owner) : (s.setOwner k x).power = s.power := rfl
@[simp] theorem State.setOwner_clock (k : Nat) (x : Owner) : (s.setOwner k x).clock = s.clock := rfl
@[simp] theorem State.setOwner_tape (k : Nat) (x : Owner) : (s.setOwner k x).tape = s.tape := rfl
@[simp] theorem State.setOwner_draws (k : Nat) (x : Owner) : (s.setOwner k x).draws = s.draws := rfl
@[simp] theorem State.setOwner_cur (k : Nat) (x : Owner) : (s.setOwner k x).cur = s.cur := rfl
@[simp] theorem State.setOwner_mem (k : Nat) (x : Owner) : (s.setOwner k x).mem = s.mem := rfl
@[simp] theorem State.setOwner_poison (k : Nat) (x : Owner) : (s.setOwner k x).poison = s.poison := rfl
@[simp] theorem State.setOwner_cores (k : Nat) (x : Owner) : (s.setOwner k x).cores = s.cores := rfl
@[simp] theorem State.setOwner_teams (k : Nat) (x : Owner) : (s.setOwner k x).teams = s.teams := rfl
@[simp] theorem State.setOwner_groups (k : Nat) (x : Owner) : (s.setOwner k x).groups = s.groups := rfl
@[simp] theorem State.setOwner_threads (k : Nat) (x : Owner) : (s.setOwner k x).threads = s.threads := rfl
@[simp] theorem State.setOwner_ops (k : Nat) (x : Owner) : (s.setOwner k x).ops = s.ops := rfl
@[simp] theorem State.setOwner_views (k : Nat) (x : Owner) : (s.setOwner k x).views = s.views := rfl
@[simp] theorem State.setOwner_snoops (k : Nat) (x : Owner) : (s.setOwner k x).snoops = s.snoops := rfl
@[simp] theorem State.setOwner_l2 (k : Nat) (x : Owner) : (s.setOwner k x).l2 = s.l2 := rfl
@[simp] theorem State.setOwner_nextId (k : Nat) (x : Owner) : (s.setOwner k x).nextId = s.nextId := rfl
@[simp] theorem State.setOwner_nextUid (k : Nat) (x : Owner) : (s.setOwner k x).nextUid = s.nextUid := rfl
@[simp] theorem State.setOwner_hits (k : Nat) (x : Owner) : (s.setOwner k x).hits = s.hits := rfl
@[simp] theorem State.setOwner_claims (k : Nat) (x : Owner) : (s.setOwner k x).claims = s.claims := rfl
@[simp] theorem State.setOwner_events (k : Nat) (x : Owner) : (s.setOwner k x).events = s.events := rfl
@[simp] theorem State.setOwner_hostNotes (k : Nat) (x : Owner) : (s.setOwner k x).hostNotes = s.hostNotes := rfl
@[simp] theorem State.setOwner_lost (k : Nat) (x : Owner) : (s.setOwner k x).lost = s.lost := rfl
@[simp] theorem State.setOwner_noclaim (k : Nat) (x : Owner) : (s.setOwner k x).noclaim = s.noclaim := rfl
@[simp] theorem State.setOwner_nowin (k : Nat) (x : Owner) : (s.setOwner k x).nowin = s.nowin := rfl
@[simp] theorem State.setOwner_dcorr (k : Nat) (x : Owner) : (s.setOwner k x).dcorr = s.dcorr := rfl
@[simp] theorem State.setOwner_dpoison (k : Nat) (x : Owner) : (s.setOwner k x).dpoison = s.dpoison := rfl
@[simp] theorem State.setOwner_umask (k : Nat) (x : Owner) : (s.setOwner k x).umask = s.umask := rfl
@[simp] theorem State.setOwner_fwin (k : Nat) (x : Owner) : (s.setOwner k x).fwin = s.fwin := rfl
@[simp] theorem State.setOwner_moved (k : Nat) (x : Owner) : (s.setOwner k x).moved = s.moved := rfl
@[simp] theorem State.setOwner_rates (k : Nat) (x : Owner) : (s.setOwner k x).rates = s.rates := rfl
@[simp] theorem State.setOwner_wantRates (k : Nat) (x : Owner) : (s.setOwner k x).wantRates = s.wantRates := rfl
@[simp] theorem State.setOwner_rows (k : Nat) (x : Owner) : (s.setOwner k x).rows = s.rows := rfl
@[simp] theorem State.setOwner_limits (k : Nat) (x : Owner) : (s.setOwner k x).limits = s.limits := rfl
@[simp] theorem State.setOwner_lastActs (k : Nat) (x : Owner) : (s.setOwner k x).lastActs = s.lastActs := rfl
@[simp] theorem State.setOwner_qbind (k : Nat) (x : Owner) : (s.setOwner k x).qbind = s.qbind := rfl
@[simp] theorem State.setOwner_qbindNew (k : Nat) (x : Owner) : (s.setOwner k x).qbindNew = s.qbindNew := rfl
@[simp] theorem State.setOwner_queues (k : Nat) (x : Owner) : (s.setOwner k x).queues = s.queues := rfl
@[simp] theorem State.setOwner_engineReset (k : Nat) (x : Owner) : (s.setOwner k x).engineReset = s.engineReset := rfl
@[simp] theorem State.setOwner_deliveries (k : Nat) (x : Owner) : (s.setOwner k x).deliveries = s.deliveries := rfl
@[simp] theorem State.setOwner_peerTags (k : Nat) (x : Owner) : (s.setOwner k x).peerTags = s.peerTags := rfl
@[simp] theorem State.setOwner_notes (k : Nat) (x : Owner) : (s.setOwner k x).notes = s.notes := rfl
@[simp] theorem State.setOwner_launches (k : Nat) (x : Owner) : (s.setOwner k x).launches = s.launches := rfl
@[simp] theorem State.setOwner_nextLaunch (k : Nat) (x : Owner) : (s.setOwner k x).nextLaunch = s.nextLaunch := rfl
@[simp] theorem State.setOwner_ctxs (k : Nat) (x : Owner) : (s.setOwner k x).ctxs = s.ctxs := rfl
@[simp] theorem State.setOwner_nextCtx (k : Nat) (x : Owner) : (s.setOwner k x).nextCtx = s.nextCtx := rfl
@[simp] theorem State.setOwner_comets (k : Nat) (x : Owner) : (s.setOwner k x).comets = s.comets := rfl
@[simp] theorem State.setOwner_window (k : Nat) (x : Owner) : (s.setOwner k x).window = s.window := rfl
@[simp] theorem State.setOwner_hostLines (k : Nat) (x : Owner) : (s.setOwner k x).hostLines = s.hostLines := rfl
@[simp] theorem State.setOwner_sent (k : Nat) (x : Owner) : (s.setOwner k x).sent = s.sent := rfl
@[simp] theorem State.setOwner_replies (k : Nat) (x : Owner) : (s.setOwner k x).replies = s.replies := rfl
@[simp] theorem State.setOwner_links (k : Nat) (x : Owner) : (s.setOwner k x).links = s.links := rfl
@[simp] theorem State.setOwner_portsDown (k : Nat) (x : Owner) : (s.setOwner k x).portsDown = s.portsDown := rfl
@[simp] theorem State.setOwner_portFails (k : Nat) (x : Owner) : (s.setOwner k x).portFails = s.portFails := rfl
@[simp] theorem State.setOwner_fabid (k : Nat) (x : Owner) : (s.setOwner k x).fabid = s.fabid := rfl
@[simp] theorem State.setOwner_wdlim (k : Nat) (x : Owner) : (s.setOwner k x).wdlim = s.wdlim := rfl
@[simp] theorem State.setOwner_ercap (k : Nat) (x : Owner) : (s.setOwner k x).ercap = s.ercap := rfl
@[simp] theorem State.setOwner_hrt (k : Nat) (x : Owner) : (s.setOwner k x).hrt = s.hrt := rfl
@[simp] theorem State.setOwner_worldKey (k : Nat) (x : Owner) : (s.setOwner k x).worldKey = s.worldKey := rfl
@[simp] theorem State.setOwner_nextKey (k : Nat) (x : Owner) : (s.setOwner k x).nextKey = s.nextKey := rfl
@[simp] theorem State.setOwner_imageKey (k : Nat) (x : Owner) : (s.setOwner k x).imageKey = s.imageKey := rfl
@[simp] theorem State.setOwner_sweeps (k : Nat) (x : Owner) : (s.setOwner k x).sweeps = s.sweeps := rfl
@[simp] theorem State.setOwner_scDown (k : Nat) (x : Owner) : (s.setOwner k x).scDown = s.scDown := rfl
@[simp] theorem State.setOwner_dieHot (k : Nat) (x : Owner) : (s.setOwner k x).dieHot = s.dieHot := rfl
@[simp] theorem State.setOwner_coolSince (k : Nat) (x : Owner) : (s.setOwner k x).coolSince = s.coolSince := rfl
@[simp] theorem State.setOwner_tc0Window (k : Nat) (x : Owner) : (s.setOwner k x).tc0Window = s.tc0Window := rfl
@[simp] theorem State.setOwner_flash (k : Nat) (x : Owner) : (s.setOwner k x).flash = s.flash := rfl
@[simp] theorem State.setOwner_rollback (k : Nat) (x : Owner) : (s.setOwner k x).rollback = s.rollback := rfl
@[simp] theorem State.setOwner_reports (k : Nat) (x : Owner) : (s.setOwner k x).reports = s.reports := rfl

@[simp] theorem State.updTeam_power (k : Nat) (f : Team → Team) : (s.updTeam k f).power = s.power := rfl
@[simp] theorem State.updTeam_clock (k : Nat) (f : Team → Team) : (s.updTeam k f).clock = s.clock := rfl
@[simp] theorem State.updTeam_tape (k : Nat) (f : Team → Team) : (s.updTeam k f).tape = s.tape := rfl
@[simp] theorem State.updTeam_draws (k : Nat) (f : Team → Team) : (s.updTeam k f).draws = s.draws := rfl
@[simp] theorem State.updTeam_cur (k : Nat) (f : Team → Team) : (s.updTeam k f).cur = s.cur := rfl
@[simp] theorem State.updTeam_mem (k : Nat) (f : Team → Team) : (s.updTeam k f).mem = s.mem := rfl
@[simp] theorem State.updTeam_poison (k : Nat) (f : Team → Team) : (s.updTeam k f).poison = s.poison := rfl
@[simp] theorem State.updTeam_cores (k : Nat) (f : Team → Team) : (s.updTeam k f).cores = s.cores := rfl
@[simp] theorem State.updTeam_groups (k : Nat) (f : Team → Team) : (s.updTeam k f).groups = s.groups := rfl
@[simp] theorem State.updTeam_threads (k : Nat) (f : Team → Team) : (s.updTeam k f).threads = s.threads := rfl
@[simp] theorem State.updTeam_ops (k : Nat) (f : Team → Team) : (s.updTeam k f).ops = s.ops := rfl
@[simp] theorem State.updTeam_views (k : Nat) (f : Team → Team) : (s.updTeam k f).views = s.views := rfl
@[simp] theorem State.updTeam_snoops (k : Nat) (f : Team → Team) : (s.updTeam k f).snoops = s.snoops := rfl
@[simp] theorem State.updTeam_l2 (k : Nat) (f : Team → Team) : (s.updTeam k f).l2 = s.l2 := rfl
@[simp] theorem State.updTeam_nextId (k : Nat) (f : Team → Team) : (s.updTeam k f).nextId = s.nextId := rfl
@[simp] theorem State.updTeam_nextUid (k : Nat) (f : Team → Team) : (s.updTeam k f).nextUid = s.nextUid := rfl
@[simp] theorem State.updTeam_hits (k : Nat) (f : Team → Team) : (s.updTeam k f).hits = s.hits := rfl
@[simp] theorem State.updTeam_owners (k : Nat) (f : Team → Team) : (s.updTeam k f).owners = s.owners := rfl
@[simp] theorem State.updTeam_claims (k : Nat) (f : Team → Team) : (s.updTeam k f).claims = s.claims := rfl
@[simp] theorem State.updTeam_events (k : Nat) (f : Team → Team) : (s.updTeam k f).events = s.events := rfl
@[simp] theorem State.updTeam_hostNotes (k : Nat) (f : Team → Team) : (s.updTeam k f).hostNotes = s.hostNotes := rfl
@[simp] theorem State.updTeam_lost (k : Nat) (f : Team → Team) : (s.updTeam k f).lost = s.lost := rfl
@[simp] theorem State.updTeam_noclaim (k : Nat) (f : Team → Team) : (s.updTeam k f).noclaim = s.noclaim := rfl
@[simp] theorem State.updTeam_nowin (k : Nat) (f : Team → Team) : (s.updTeam k f).nowin = s.nowin := rfl
@[simp] theorem State.updTeam_dcorr (k : Nat) (f : Team → Team) : (s.updTeam k f).dcorr = s.dcorr := rfl
@[simp] theorem State.updTeam_dpoison (k : Nat) (f : Team → Team) : (s.updTeam k f).dpoison = s.dpoison := rfl
@[simp] theorem State.updTeam_umask (k : Nat) (f : Team → Team) : (s.updTeam k f).umask = s.umask := rfl
@[simp] theorem State.updTeam_fwin (k : Nat) (f : Team → Team) : (s.updTeam k f).fwin = s.fwin := rfl
@[simp] theorem State.updTeam_moved (k : Nat) (f : Team → Team) : (s.updTeam k f).moved = s.moved := rfl
@[simp] theorem State.updTeam_rates (k : Nat) (f : Team → Team) : (s.updTeam k f).rates = s.rates := rfl
@[simp] theorem State.updTeam_wantRates (k : Nat) (f : Team → Team) : (s.updTeam k f).wantRates = s.wantRates := rfl
@[simp] theorem State.updTeam_rows (k : Nat) (f : Team → Team) : (s.updTeam k f).rows = s.rows := rfl
@[simp] theorem State.updTeam_limits (k : Nat) (f : Team → Team) : (s.updTeam k f).limits = s.limits := rfl
@[simp] theorem State.updTeam_lastActs (k : Nat) (f : Team → Team) : (s.updTeam k f).lastActs = s.lastActs := rfl
@[simp] theorem State.updTeam_qbind (k : Nat) (f : Team → Team) : (s.updTeam k f).qbind = s.qbind := rfl
@[simp] theorem State.updTeam_qbindNew (k : Nat) (f : Team → Team) : (s.updTeam k f).qbindNew = s.qbindNew := rfl
@[simp] theorem State.updTeam_queues (k : Nat) (f : Team → Team) : (s.updTeam k f).queues = s.queues := rfl
@[simp] theorem State.updTeam_engineReset (k : Nat) (f : Team → Team) : (s.updTeam k f).engineReset = s.engineReset := rfl
@[simp] theorem State.updTeam_deliveries (k : Nat) (f : Team → Team) : (s.updTeam k f).deliveries = s.deliveries := rfl
@[simp] theorem State.updTeam_peerTags (k : Nat) (f : Team → Team) : (s.updTeam k f).peerTags = s.peerTags := rfl
@[simp] theorem State.updTeam_notes (k : Nat) (f : Team → Team) : (s.updTeam k f).notes = s.notes := rfl
@[simp] theorem State.updTeam_launches (k : Nat) (f : Team → Team) : (s.updTeam k f).launches = s.launches := rfl
@[simp] theorem State.updTeam_nextLaunch (k : Nat) (f : Team → Team) : (s.updTeam k f).nextLaunch = s.nextLaunch := rfl
@[simp] theorem State.updTeam_ctxs (k : Nat) (f : Team → Team) : (s.updTeam k f).ctxs = s.ctxs := rfl
@[simp] theorem State.updTeam_nextCtx (k : Nat) (f : Team → Team) : (s.updTeam k f).nextCtx = s.nextCtx := rfl
@[simp] theorem State.updTeam_comets (k : Nat) (f : Team → Team) : (s.updTeam k f).comets = s.comets := rfl
@[simp] theorem State.updTeam_window (k : Nat) (f : Team → Team) : (s.updTeam k f).window = s.window := rfl
@[simp] theorem State.updTeam_hostLines (k : Nat) (f : Team → Team) : (s.updTeam k f).hostLines = s.hostLines := rfl
@[simp] theorem State.updTeam_sent (k : Nat) (f : Team → Team) : (s.updTeam k f).sent = s.sent := rfl
@[simp] theorem State.updTeam_replies (k : Nat) (f : Team → Team) : (s.updTeam k f).replies = s.replies := rfl
@[simp] theorem State.updTeam_links (k : Nat) (f : Team → Team) : (s.updTeam k f).links = s.links := rfl
@[simp] theorem State.updTeam_portsDown (k : Nat) (f : Team → Team) : (s.updTeam k f).portsDown = s.portsDown := rfl
@[simp] theorem State.updTeam_portFails (k : Nat) (f : Team → Team) : (s.updTeam k f).portFails = s.portFails := rfl
@[simp] theorem State.updTeam_fabid (k : Nat) (f : Team → Team) : (s.updTeam k f).fabid = s.fabid := rfl
@[simp] theorem State.updTeam_wdlim (k : Nat) (f : Team → Team) : (s.updTeam k f).wdlim = s.wdlim := rfl
@[simp] theorem State.updTeam_ercap (k : Nat) (f : Team → Team) : (s.updTeam k f).ercap = s.ercap := rfl
@[simp] theorem State.updTeam_hrt (k : Nat) (f : Team → Team) : (s.updTeam k f).hrt = s.hrt := rfl
@[simp] theorem State.updTeam_worldKey (k : Nat) (f : Team → Team) : (s.updTeam k f).worldKey = s.worldKey := rfl
@[simp] theorem State.updTeam_nextKey (k : Nat) (f : Team → Team) : (s.updTeam k f).nextKey = s.nextKey := rfl
@[simp] theorem State.updTeam_imageKey (k : Nat) (f : Team → Team) : (s.updTeam k f).imageKey = s.imageKey := rfl
@[simp] theorem State.updTeam_sweeps (k : Nat) (f : Team → Team) : (s.updTeam k f).sweeps = s.sweeps := rfl
@[simp] theorem State.updTeam_scDown (k : Nat) (f : Team → Team) : (s.updTeam k f).scDown = s.scDown := rfl
@[simp] theorem State.updTeam_dieHot (k : Nat) (f : Team → Team) : (s.updTeam k f).dieHot = s.dieHot := rfl
@[simp] theorem State.updTeam_coolSince (k : Nat) (f : Team → Team) : (s.updTeam k f).coolSince = s.coolSince := rfl
@[simp] theorem State.updTeam_tc0Window (k : Nat) (f : Team → Team) : (s.updTeam k f).tc0Window = s.tc0Window := rfl
@[simp] theorem State.updTeam_flash (k : Nat) (f : Team → Team) : (s.updTeam k f).flash = s.flash := rfl
@[simp] theorem State.updTeam_rollback (k : Nat) (f : Team → Team) : (s.updTeam k f).rollback = s.rollback := rfl
@[simp] theorem State.updTeam_reports (k : Nat) (f : Team → Team) : (s.updTeam k f).reports = s.reports := rfl

@[simp] theorem State.updOwner_power (k : Nat) (f : Owner → Owner) : (s.updOwner k f).power = s.power := rfl
@[simp] theorem State.updOwner_clock (k : Nat) (f : Owner → Owner) : (s.updOwner k f).clock = s.clock := rfl
@[simp] theorem State.updOwner_tape (k : Nat) (f : Owner → Owner) : (s.updOwner k f).tape = s.tape := rfl
@[simp] theorem State.updOwner_draws (k : Nat) (f : Owner → Owner) : (s.updOwner k f).draws = s.draws := rfl
@[simp] theorem State.updOwner_cur (k : Nat) (f : Owner → Owner) : (s.updOwner k f).cur = s.cur := rfl
@[simp] theorem State.updOwner_mem (k : Nat) (f : Owner → Owner) : (s.updOwner k f).mem = s.mem := rfl
@[simp] theorem State.updOwner_poison (k : Nat) (f : Owner → Owner) : (s.updOwner k f).poison = s.poison := rfl
@[simp] theorem State.updOwner_cores (k : Nat) (f : Owner → Owner) : (s.updOwner k f).cores = s.cores := rfl
@[simp] theorem State.updOwner_teams (k : Nat) (f : Owner → Owner) : (s.updOwner k f).teams = s.teams := rfl
@[simp] theorem State.updOwner_groups (k : Nat) (f : Owner → Owner) : (s.updOwner k f).groups = s.groups := rfl
@[simp] theorem State.updOwner_threads (k : Nat) (f : Owner → Owner) : (s.updOwner k f).threads = s.threads := rfl
@[simp] theorem State.updOwner_ops (k : Nat) (f : Owner → Owner) : (s.updOwner k f).ops = s.ops := rfl
@[simp] theorem State.updOwner_views (k : Nat) (f : Owner → Owner) : (s.updOwner k f).views = s.views := rfl
@[simp] theorem State.updOwner_snoops (k : Nat) (f : Owner → Owner) : (s.updOwner k f).snoops = s.snoops := rfl
@[simp] theorem State.updOwner_l2 (k : Nat) (f : Owner → Owner) : (s.updOwner k f).l2 = s.l2 := rfl
@[simp] theorem State.updOwner_nextId (k : Nat) (f : Owner → Owner) : (s.updOwner k f).nextId = s.nextId := rfl
@[simp] theorem State.updOwner_nextUid (k : Nat) (f : Owner → Owner) : (s.updOwner k f).nextUid = s.nextUid := rfl
@[simp] theorem State.updOwner_hits (k : Nat) (f : Owner → Owner) : (s.updOwner k f).hits = s.hits := rfl
@[simp] theorem State.updOwner_claims (k : Nat) (f : Owner → Owner) : (s.updOwner k f).claims = s.claims := rfl
@[simp] theorem State.updOwner_events (k : Nat) (f : Owner → Owner) : (s.updOwner k f).events = s.events := rfl
@[simp] theorem State.updOwner_hostNotes (k : Nat) (f : Owner → Owner) : (s.updOwner k f).hostNotes = s.hostNotes := rfl
@[simp] theorem State.updOwner_lost (k : Nat) (f : Owner → Owner) : (s.updOwner k f).lost = s.lost := rfl
@[simp] theorem State.updOwner_noclaim (k : Nat) (f : Owner → Owner) : (s.updOwner k f).noclaim = s.noclaim := rfl
@[simp] theorem State.updOwner_nowin (k : Nat) (f : Owner → Owner) : (s.updOwner k f).nowin = s.nowin := rfl
@[simp] theorem State.updOwner_dcorr (k : Nat) (f : Owner → Owner) : (s.updOwner k f).dcorr = s.dcorr := rfl
@[simp] theorem State.updOwner_dpoison (k : Nat) (f : Owner → Owner) : (s.updOwner k f).dpoison = s.dpoison := rfl
@[simp] theorem State.updOwner_umask (k : Nat) (f : Owner → Owner) : (s.updOwner k f).umask = s.umask := rfl
@[simp] theorem State.updOwner_fwin (k : Nat) (f : Owner → Owner) : (s.updOwner k f).fwin = s.fwin := rfl
@[simp] theorem State.updOwner_moved (k : Nat) (f : Owner → Owner) : (s.updOwner k f).moved = s.moved := rfl
@[simp] theorem State.updOwner_rates (k : Nat) (f : Owner → Owner) : (s.updOwner k f).rates = s.rates := rfl
@[simp] theorem State.updOwner_wantRates (k : Nat) (f : Owner → Owner) : (s.updOwner k f).wantRates = s.wantRates := rfl
@[simp] theorem State.updOwner_rows (k : Nat) (f : Owner → Owner) : (s.updOwner k f).rows = s.rows := rfl
@[simp] theorem State.updOwner_limits (k : Nat) (f : Owner → Owner) : (s.updOwner k f).limits = s.limits := rfl
@[simp] theorem State.updOwner_lastActs (k : Nat) (f : Owner → Owner) : (s.updOwner k f).lastActs = s.lastActs := rfl
@[simp] theorem State.updOwner_qbind (k : Nat) (f : Owner → Owner) : (s.updOwner k f).qbind = s.qbind := rfl
@[simp] theorem State.updOwner_qbindNew (k : Nat) (f : Owner → Owner) : (s.updOwner k f).qbindNew = s.qbindNew := rfl
@[simp] theorem State.updOwner_queues (k : Nat) (f : Owner → Owner) : (s.updOwner k f).queues = s.queues := rfl
@[simp] theorem State.updOwner_engineReset (k : Nat) (f : Owner → Owner) : (s.updOwner k f).engineReset = s.engineReset := rfl
@[simp] theorem State.updOwner_deliveries (k : Nat) (f : Owner → Owner) : (s.updOwner k f).deliveries = s.deliveries := rfl
@[simp] theorem State.updOwner_peerTags (k : Nat) (f : Owner → Owner) : (s.updOwner k f).peerTags = s.peerTags := rfl
@[simp] theorem State.updOwner_notes (k : Nat) (f : Owner → Owner) : (s.updOwner k f).notes = s.notes := rfl
@[simp] theorem State.updOwner_launches (k : Nat) (f : Owner → Owner) : (s.updOwner k f).launches = s.launches := rfl
@[simp] theorem State.updOwner_nextLaunch (k : Nat) (f : Owner → Owner) : (s.updOwner k f).nextLaunch = s.nextLaunch := rfl
@[simp] theorem State.updOwner_ctxs (k : Nat) (f : Owner → Owner) : (s.updOwner k f).ctxs = s.ctxs := rfl
@[simp] theorem State.updOwner_nextCtx (k : Nat) (f : Owner → Owner) : (s.updOwner k f).nextCtx = s.nextCtx := rfl
@[simp] theorem State.updOwner_comets (k : Nat) (f : Owner → Owner) : (s.updOwner k f).comets = s.comets := rfl
@[simp] theorem State.updOwner_window (k : Nat) (f : Owner → Owner) : (s.updOwner k f).window = s.window := rfl
@[simp] theorem State.updOwner_hostLines (k : Nat) (f : Owner → Owner) : (s.updOwner k f).hostLines = s.hostLines := rfl
@[simp] theorem State.updOwner_sent (k : Nat) (f : Owner → Owner) : (s.updOwner k f).sent = s.sent := rfl
@[simp] theorem State.updOwner_replies (k : Nat) (f : Owner → Owner) : (s.updOwner k f).replies = s.replies := rfl
@[simp] theorem State.updOwner_links (k : Nat) (f : Owner → Owner) : (s.updOwner k f).links = s.links := rfl
@[simp] theorem State.updOwner_portsDown (k : Nat) (f : Owner → Owner) : (s.updOwner k f).portsDown = s.portsDown := rfl
@[simp] theorem State.updOwner_portFails (k : Nat) (f : Owner → Owner) : (s.updOwner k f).portFails = s.portFails := rfl
@[simp] theorem State.updOwner_fabid (k : Nat) (f : Owner → Owner) : (s.updOwner k f).fabid = s.fabid := rfl
@[simp] theorem State.updOwner_wdlim (k : Nat) (f : Owner → Owner) : (s.updOwner k f).wdlim = s.wdlim := rfl
@[simp] theorem State.updOwner_ercap (k : Nat) (f : Owner → Owner) : (s.updOwner k f).ercap = s.ercap := rfl
@[simp] theorem State.updOwner_hrt (k : Nat) (f : Owner → Owner) : (s.updOwner k f).hrt = s.hrt := rfl
@[simp] theorem State.updOwner_worldKey (k : Nat) (f : Owner → Owner) : (s.updOwner k f).worldKey = s.worldKey := rfl
@[simp] theorem State.updOwner_nextKey (k : Nat) (f : Owner → Owner) : (s.updOwner k f).nextKey = s.nextKey := rfl
@[simp] theorem State.updOwner_imageKey (k : Nat) (f : Owner → Owner) : (s.updOwner k f).imageKey = s.imageKey := rfl
@[simp] theorem State.updOwner_sweeps (k : Nat) (f : Owner → Owner) : (s.updOwner k f).sweeps = s.sweeps := rfl
@[simp] theorem State.updOwner_scDown (k : Nat) (f : Owner → Owner) : (s.updOwner k f).scDown = s.scDown := rfl
@[simp] theorem State.updOwner_dieHot (k : Nat) (f : Owner → Owner) : (s.updOwner k f).dieHot = s.dieHot := rfl
@[simp] theorem State.updOwner_coolSince (k : Nat) (f : Owner → Owner) : (s.updOwner k f).coolSince = s.coolSince := rfl
@[simp] theorem State.updOwner_tc0Window (k : Nat) (f : Owner → Owner) : (s.updOwner k f).tc0Window = s.tc0Window := rfl
@[simp] theorem State.updOwner_flash (k : Nat) (f : Owner → Owner) : (s.updOwner k f).flash = s.flash := rfl
@[simp] theorem State.updOwner_rollback (k : Nat) (f : Owner → Owner) : (s.updOwner k f).rollback = s.rollback := rfl
@[simp] theorem State.updOwner_reports (k : Nat) (f : Owner → Owner) : (s.updOwner k f).reports = s.reports := rfl

@[simp] theorem State.draw_power : (s.draw).power = s.power := rfl
@[simp] theorem State.draw_clock : (s.draw).clock = s.clock := rfl
@[simp] theorem State.draw_tape : (s.draw).tape = s.tape := rfl
@[simp] theorem State.draw_cur : (s.draw).cur = s.cur := rfl
@[simp] theorem State.draw_mem : (s.draw).mem = s.mem := rfl
@[simp] theorem State.draw_poison : (s.draw).poison = s.poison := rfl
@[simp] theorem State.draw_cores : (s.draw).cores = s.cores := rfl
@[simp] theorem State.draw_teams : (s.draw).teams = s.teams := rfl
@[simp] theorem State.draw_groups : (s.draw).groups = s.groups := rfl
@[simp] theorem State.draw_threads : (s.draw).threads = s.threads := rfl
@[simp] theorem State.draw_ops : (s.draw).ops = s.ops := rfl
@[simp] theorem State.draw_views : (s.draw).views = s.views := rfl
@[simp] theorem State.draw_snoops : (s.draw).snoops = s.snoops := rfl
@[simp] theorem State.draw_l2 : (s.draw).l2 = s.l2 := rfl
@[simp] theorem State.draw_nextId : (s.draw).nextId = s.nextId := rfl
@[simp] theorem State.draw_nextUid : (s.draw).nextUid = s.nextUid := rfl
@[simp] theorem State.draw_hits : (s.draw).hits = s.hits := rfl
@[simp] theorem State.draw_owners : (s.draw).owners = s.owners := rfl
@[simp] theorem State.draw_claims : (s.draw).claims = s.claims := rfl
@[simp] theorem State.draw_events : (s.draw).events = s.events := rfl
@[simp] theorem State.draw_hostNotes : (s.draw).hostNotes = s.hostNotes := rfl
@[simp] theorem State.draw_lost : (s.draw).lost = s.lost := rfl
@[simp] theorem State.draw_noclaim : (s.draw).noclaim = s.noclaim := rfl
@[simp] theorem State.draw_nowin : (s.draw).nowin = s.nowin := rfl
@[simp] theorem State.draw_dcorr : (s.draw).dcorr = s.dcorr := rfl
@[simp] theorem State.draw_dpoison : (s.draw).dpoison = s.dpoison := rfl
@[simp] theorem State.draw_umask : (s.draw).umask = s.umask := rfl
@[simp] theorem State.draw_fwin : (s.draw).fwin = s.fwin := rfl
@[simp] theorem State.draw_moved : (s.draw).moved = s.moved := rfl
@[simp] theorem State.draw_rates : (s.draw).rates = s.rates := rfl
@[simp] theorem State.draw_wantRates : (s.draw).wantRates = s.wantRates := rfl
@[simp] theorem State.draw_rows : (s.draw).rows = s.rows := rfl
@[simp] theorem State.draw_limits : (s.draw).limits = s.limits := rfl
@[simp] theorem State.draw_lastActs : (s.draw).lastActs = s.lastActs := rfl
@[simp] theorem State.draw_qbind : (s.draw).qbind = s.qbind := rfl
@[simp] theorem State.draw_qbindNew : (s.draw).qbindNew = s.qbindNew := rfl
@[simp] theorem State.draw_queues : (s.draw).queues = s.queues := rfl
@[simp] theorem State.draw_engineReset : (s.draw).engineReset = s.engineReset := rfl
@[simp] theorem State.draw_deliveries : (s.draw).deliveries = s.deliveries := rfl
@[simp] theorem State.draw_peerTags : (s.draw).peerTags = s.peerTags := rfl
@[simp] theorem State.draw_notes : (s.draw).notes = s.notes := rfl
@[simp] theorem State.draw_launches : (s.draw).launches = s.launches := rfl
@[simp] theorem State.draw_nextLaunch : (s.draw).nextLaunch = s.nextLaunch := rfl
@[simp] theorem State.draw_ctxs : (s.draw).ctxs = s.ctxs := rfl
@[simp] theorem State.draw_nextCtx : (s.draw).nextCtx = s.nextCtx := rfl
@[simp] theorem State.draw_comets : (s.draw).comets = s.comets := rfl
@[simp] theorem State.draw_window : (s.draw).window = s.window := rfl
@[simp] theorem State.draw_hostLines : (s.draw).hostLines = s.hostLines := rfl
@[simp] theorem State.draw_sent : (s.draw).sent = s.sent := rfl
@[simp] theorem State.draw_replies : (s.draw).replies = s.replies := rfl
@[simp] theorem State.draw_links : (s.draw).links = s.links := rfl
@[simp] theorem State.draw_portsDown : (s.draw).portsDown = s.portsDown := rfl
@[simp] theorem State.draw_portFails : (s.draw).portFails = s.portFails := rfl
@[simp] theorem State.draw_fabid : (s.draw).fabid = s.fabid := rfl
@[simp] theorem State.draw_wdlim : (s.draw).wdlim = s.wdlim := rfl
@[simp] theorem State.draw_ercap : (s.draw).ercap = s.ercap := rfl
@[simp] theorem State.draw_hrt : (s.draw).hrt = s.hrt := rfl
@[simp] theorem State.draw_worldKey : (s.draw).worldKey = s.worldKey := rfl
@[simp] theorem State.draw_nextKey : (s.draw).nextKey = s.nextKey := rfl
@[simp] theorem State.draw_imageKey : (s.draw).imageKey = s.imageKey := rfl
@[simp] theorem State.draw_sweeps : (s.draw).sweeps = s.sweeps := rfl
@[simp] theorem State.draw_scDown : (s.draw).scDown = s.scDown := rfl
@[simp] theorem State.draw_dieHot : (s.draw).dieHot = s.dieHot := rfl
@[simp] theorem State.draw_coolSince : (s.draw).coolSince = s.coolSince := rfl
@[simp] theorem State.draw_tc0Window : (s.draw).tc0Window = s.tc0Window := rfl
@[simp] theorem State.draw_flash : (s.draw).flash = s.flash := rfl
@[simp] theorem State.draw_rollback : (s.draw).rollback = s.rollback := rfl
@[simp] theorem State.draw_reports : (s.draw).reports = s.reports := rfl

/-! ### Accessors -/

theorem State.thread_setThread (k j : Nat) (t : Thread) : (s.setThread k t).thread j = if j = k then t else s.thread j :=
  Tab.getD_put ..
@[simp] theorem State.thread_setThread_self (k : Nat) (t : Thread) : (s.setThread k t).thread k = t := Tab.getD_put_self ..
theorem State.thread_setThread_ne {k j : Nat} (t : Thread) (h : j ≠ k) : (s.setThread k t).thread j = s.thread j :=
  Tab.getD_put_ne _ _ _ h
theorem State.group_setGroup (k j : Nat) (x : Group) : (s.setGroup k x).group j = if j = k then x else s.group j :=
  Tab.getD_put ..
@[simp] theorem State.group_setGroup_self (k : Nat) (x : Group) : (s.setGroup k x).group k = x := Tab.getD_put_self ..
theorem State.core_setCore (k j : Nat) (x : Core) : (s.setCore k x).core j = if j = k then x else s.core j := Tab.getD_put ..
@[simp] theorem State.core_setCore_self (k : Nat) (x : Core) : (s.setCore k x).core k = x := Tab.getD_put_self ..
theorem State.team_setTeam (k j : Nat) (x : Team) : (s.setTeam k x).team j = if j = k then x else s.team j := Tab.getD_put ..
@[simp] theorem State.team_setTeam_self (k : Nat) (x : Team) : (s.setTeam k x).team k = x := Tab.getD_put_self ..
theorem State.owner_setOwner (k j : Nat) (x : Owner) : (s.setOwner k x).owner j = if j = k then x else s.owner j :=
  Tab.getD_put ..
@[simp] theorem State.owner_setOwner_self (k : Nat) (x : Owner) : (s.setOwner k x).owner k = x := Tab.getD_put_self ..

@[simp] theorem State.updThread_eq (k : Nat) (f : Thread → Thread) : s.updThread k f = s.setThread k (f (s.thread k)) := rfl
@[simp] theorem State.updGroup_eq (k : Nat) (f : Group → Group) : s.updGroup k f = s.setGroup k (f (s.group k)) := rfl
@[simp] theorem State.updCore_eq (k : Nat) (f : Core → Core) : s.updCore k f = s.setCore k (f (s.core k)) := rfl


@[simp] theorem State.group_setThread (k : Nat) (t : Thread) (j : Nat) : (s.setThread k t).group j = s.group j := rfl
@[simp] theorem State.core_setThread (k : Nat) (t : Thread) (j : Nat) : (s.setThread k t).core j = s.core j := rfl
@[simp] theorem State.team_setThread (k : Nat) (t : Thread) (j : Nat) : (s.setThread k t).team j = s.team j := rfl
@[simp] theorem State.owner_setThread (k : Nat) (t : Thread) (j : Nat) : (s.setThread k t).owner j = s.owner j := rfl
@[simp] theorem State.thread_setGroup (k : Nat) (x : Group) (j : Nat) : (s.setGroup k x).thread j = s.thread j := rfl
@[simp] theorem State.core_setGroup (k : Nat) (x : Group) (j : Nat) : (s.setGroup k x).core j = s.core j := rfl
@[simp] theorem State.team_setGroup (k : Nat) (x : Group) (j : Nat) : (s.setGroup k x).team j = s.team j := rfl
@[simp] theorem State.owner_setGroup (k : Nat) (x : Group) (j : Nat) : (s.setGroup k x).owner j = s.owner j := rfl
@[simp] theorem State.group_setCore (k : Nat) (x : Core) (j : Nat) : (s.setCore k x).group j = s.group j := rfl
@[simp] theorem State.thread_setCore (k : Nat) (x : Core) (j : Nat) : (s.setCore k x).thread j = s.thread j := rfl
@[simp] theorem State.team_setCore (k : Nat) (x : Core) (j : Nat) : (s.setCore k x).team j = s.team j := rfl
@[simp] theorem State.owner_setCore (k : Nat) (x : Core) (j : Nat) : (s.setCore k x).owner j = s.owner j := rfl
@[simp] theorem State.group_setTeam (k : Nat) (x : Team) (j : Nat) : (s.setTeam k x).group j = s.group j := rfl
@[simp] theorem State.thread_setTeam (k : Nat) (x : Team) (j : Nat) : (s.setTeam k x).thread j = s.thread j := rfl
@[simp] theorem State.core_setTeam (k : Nat) (x : Team) (j : Nat) : (s.setTeam k x).core j = s.core j := rfl
@[simp] theorem State.owner_setTeam (k : Nat) (x : Team) (j : Nat) : (s.setTeam k x).owner j = s.owner j := rfl
@[simp] theorem State.group_setOwner (k : Nat) (x : Owner) (j : Nat) : (s.setOwner k x).group j = s.group j := rfl
@[simp] theorem State.thread_setOwner (k : Nat) (x : Owner) (j : Nat) : (s.setOwner k x).thread j = s.thread j := rfl
@[simp] theorem State.core_setOwner (k : Nat) (x : Owner) (j : Nat) : (s.setOwner k x).core j = s.core j := rfl
@[simp] theorem State.team_setOwner (k : Nat) (x : Owner) (j : Nat) : (s.setOwner k x).team j = s.team j := rfl
@[simp] theorem State.group_updTeam (k : Nat) (f : Team → Team) (j : Nat) : (s.updTeam k f).group j = s.group j := rfl
@[simp] theorem State.thread_updTeam (k : Nat) (f : Team → Team) (j : Nat) : (s.updTeam k f).thread j = s.thread j := rfl
@[simp] theorem State.core_updTeam (k : Nat) (f : Team → Team) (j : Nat) : (s.updTeam k f).core j = s.core j := rfl
@[simp] theorem State.owner_updTeam (k : Nat) (f : Team → Team) (j : Nat) : (s.updTeam k f).owner j = s.owner j := rfl
@[simp] theorem State.group_updOwner (k : Nat) (f : Owner → Owner) (j : Nat) : (s.updOwner k f).group j = s.group j := rfl
@[simp] theorem State.thread_updOwner (k : Nat) (f : Owner → Owner) (j : Nat) : (s.updOwner k f).thread j = s.thread j := rfl
@[simp] theorem State.core_updOwner (k : Nat) (f : Owner → Owner) (j : Nat) : (s.updOwner k f).core j = s.core j := rfl
@[simp] theorem State.team_updOwner (k : Nat) (f : Owner → Owner) (j : Nat) : (s.updOwner k f).team j = s.team j := rfl
@[simp] theorem State.group_draw (j : Nat) : (s.draw).group j = s.group j := rfl
@[simp] theorem State.thread_draw (j : Nat) : (s.draw).thread j = s.thread j := rfl
@[simp] theorem State.core_draw (j : Nat) : (s.draw).core j = s.core j := rfl
@[simp] theorem State.team_draw (j : Nat) : (s.draw).team j = s.team j := rfl
@[simp] theorem State.owner_draw (j : Nat) : (s.draw).owner j = s.owner j := rfl

/-- An owner that exists after a change. -/
theorem State.owner_updOwner (k j : Nat) (f : Owner → Owner) (h : (Tab.find s.owners k).isSome) :
    (s.updOwner k f).owner j = if j = k then f (s.owner k) else s.owner j := by
  obtain ⟨x, hx⟩ := Option.isSome_iff_exists.mp h
  simp only [State.owner, State.updOwner, Tab.getD, Tab.find_upd, hx]
  split <;> simp

/-- A team of an occupied slot after a change. -/
theorem State.team_updTeam (k j : Nat) (f : Team → Team) (h : (Tab.find s.teams k).isSome) :
    (s.updTeam k f).team j = if j = k then f (s.team k) else s.team j := by
  obtain ⟨x, hx⟩ := Option.isSome_iff_exists.mp h
  simp only [State.team, State.updTeam, Tab.getD, Tab.find_upd, hx]
  split <;> simp

end Sys2Proof.Machine
end

