-- ==== Sys2Proof/Laws/Run.lean ====
section
/-! SUPPORT. What the operations that every word shares do to the threads of a run: entry, the freeing of rows, the writing of
results, and the moving past a word; and the one law of every word that computes. -/

namespace Sys2Proof.Machine

/-! ### Keys -/

theorem tkey_lane {g l : Nat} (h : l < 32) : tkey g l % 32 = l := by simp only [tkey]; omega
theorem tkey_group {g l : Nat} (h : l < 32) : tkey g l / 32 = g := by simp only [tkey]; omega

theorem State.curKeys_nodup {s : State} (h : s.runOk) : s.curKeys.Nodup := by
  refine h.1.map ?_
  intro a b hab
  simpa [tkey] using hab

theorem State.curKeys_group {s : State} (h : s.runOk) {k : Nat} (hk : k ∈ s.curKeys) : k / 32 = s.curG := by
  obtain ⟨l, hl, rfl⟩ := List.mem_map.mp hk
  exact tkey_group (h.2 l hl)

theorem State.actives_sub {s : State} {g : Guard} {k : Nat} (h : k ∈ s.actives g) : k ∈ s.curKeys := (List.mem_filter.mp h).1

/-! ### Steps that change one thread -/

/-- A step from `s` to `t` that changes thread k only, as P says. -/
structure OnThread (s t : State) (k : Nat) (P : Thread → Thread → Prop) : Prop where
  rest : t = { s with threads := t.threads }
  other : ∀ j, j ≠ k → t.thread j = s.thread j
  this : P (s.thread k) (t.thread k)

/-- A step that changes some threads only, each as P says. -/
structure OnThreads (s t : State) (ks : List Nat) (P : Nat → Thread → Thread → Prop) : Prop where
  rest : t = { s with threads := t.threads }
  other : ∀ j, j ∉ ks → t.thread j = s.thread j
  this : ∀ k ∈ ks, P k (s.thread k) (t.thread k)

theorem OnThreads.refl_nil (s : State) (P : Nat → Thread → Thread → Prop) : OnThreads s s [] P :=
  ⟨rfl, fun _ _ => rfl, fun _ h => absurd h (List.not_mem_nil)⟩

/-- A fold over distinct threads, each step of which changes its own. -/
theorem onThreads_fold {s : State} {step : State → Nat → State} {P : Nat → Thread → Thread → Prop} :
    ∀ (ks : List Nat) (a : State), a = { s with threads := a.threads } → ks.Nodup →
      (∀ b k, b = { s with threads := b.threads } → k ∈ ks → OnThread b (step b k) k (P k)) →
      OnThreads a (ks.foldl step a) ks P := by
  intro ks
  induction ks with
  | nil => intro a _ _ _; exact OnThreads.refl_nil a P
  | cons k ks ih =>
    intro a ha nd h
    have h0 := h a k ha (List.mem_cons_self ..)
    obtain ⟨hk, nd⟩ := List.nodup_cons.mp nd
    have ha' : step a k = { s with threads := (step a k).threads } := by rw [h0.rest, ha]
    have h1 := ih (step a k) ha' nd (fun b j hb hj => h b j hb (List.mem_cons_of_mem _ hj))
    refine ⟨?_, fun j hj => ?_, fun j hj => ?_⟩
    · rw [List.foldl_cons, h1.rest, h0.rest]
    · rw [List.mem_cons, not_or] at hj
      rw [List.foldl_cons, h1.other j hj.2, h0.other j hj.1]
    · rcases List.mem_cons.mp hj with rfl | hj
      · rw [List.foldl_cons, h1.other _ hk]; exact h0.this
      · have hne : j ≠ k := fun e => hk (e ▸ hj)
        have := h1.this j hj
        rw [h0.other j hne] at this
        exact this

theorem OnThread.upd (s : State) (k : Nat) (f : Thread → Thread) {P : Thread → Thread → Prop} (h : P (s.thread k) (f (s.thread k))) :
    OnThread s (s.updThread k f) k P := by
  refine ⟨rfl, fun j hj => State.thread_setThread_ne s _ hj, ?_⟩
  rw [State.updThread_eq, State.thread_setThread_self]; exact h

/-- Threads moved past the issuing word. -/
theorem State.advance_spec (s : State) (site : Site) {ks : List Nat} (nd : ks.Nodup) :
    OnThreads s (s.advance site ks) ks (fun _ a b => b = a.pass site s.cur.inRep s.cur.len) :=
  onThreads_fold (s := s) ks s rfl nd (fun b k hb _ => by rw [hb]; exact OnThread.upd _ _ _ rfl)

/-- The fields that a computing word may change in a thread. -/
def sameBut (a b : Thread) : Prop := b = { a with regs := b.regs, preds := b.preds }

theorem Thread.reg_setReg (t : Thread) (i j : Nat) (v : Word) : (t.setReg i v).reg j = if j = i then v else t.reg j :=
  Tab.getD_setD ..
theorem Thread.reg_freeReg (t : Thread) (i j : Nat) : (t.freeReg i).reg j = if j = i then 0 else t.reg j := Tab.getD_del ..

theorem Thread.pass_regs (t : Thread) (site : Site) (r : Bool) (n : Nat) : (t.pass site r n).regs = t.regs := by
  unfold Thread.pass Thread.passWords
  repeat' split
  all_goals rfl

theorem Thread.pass_eq (t : Thread) (site : Site) (r : Bool) (n : Nat) :
    t.pass site r n = { t with pc := (t.pass site r n).pc, clause := (t.pass site r n).clause, repix := (t.pass site r n).repix } := by
  unfold Thread.pass Thread.passWords
  repeat' split
  all_goals rfl

/-- What freeing rows does to a thread. -/
def freesRows (rows : List Nat) (a b : Thread) : Prop :=
  b = { a with regs := b.regs } ∧ ∀ r, r ∉ rows → b.reg r = a.reg r

theorem freesRows_refl (rows : List Nat) (a : Thread) : freesRows rows a a := ⟨rfl, fun _ _ => rfl⟩

theorem freesRows_trans {r1 r2 : List Nat} {a b c : Thread} (h1 : freesRows r1 a b) (h2 : freesRows r2 b c) :
    freesRows (r1 ++ r2) a c := by
  refine ⟨?_, fun r hr => ?_⟩
  · rw [h2.1, h1.1]
  · rw [List.mem_append, not_or] at hr; rw [h2.2 r hr.2, h1.2 r hr.1]

/-- One source's rows freed. -/
theorem State.freeOpd_spec (s : State) (k : Nat) (o : Opd) (n : Nat) (lu : Bool) :
    OnThread s (s.freeOpd k o n lu) k (freesRows (if lu then s.rowsOf k o n else [])) := by
  unfold State.freeOpd
  split
  · rename_i i
    simp only [State.rowsOf, if_true]
    generalize (s.thread k).winbase = wb
    have key : ∀ (js : List Nat) (a : State),
        OnThread a (js.foldl (fun acc j =>
          if s.pendingDest k (wb + i + j) then acc else acc.updThread k (fun t => t.freeReg (wb + i + j))) a) k
          (freesRows (js.map (fun j => wb + i + j))) := by
      intro js
      induction js with
      | nil => intro a; exact ⟨rfl, fun _ _ => rfl, freesRows_refl _ _⟩
      | cons j js ih =>
        intro a
        rw [List.foldl_cons]
        have h0 : OnThread a (if s.pendingDest k (wb + i + j) then a else a.updThread k (fun t => t.freeReg (wb + i + j))) k
            (freesRows [wb + i + j]) := by
          split
          · exact ⟨rfl, fun _ _ => rfl, freesRows_refl _ _⟩
          · refine OnThread.upd _ _ _ ⟨rfl, fun r hr => ?_⟩
            rw [Thread.reg_freeReg, if_neg]; simpa using hr
        have h1 := ih (if s.pendingDest k (wb + i + j) then a else a.updThread k (fun t => t.freeReg (wb + i + j)))
        refine ⟨?_, fun m hm => ?_, ?_⟩
        · rw [h1.rest, h0.rest]
        · rw [h1.other m hm, h0.other m hm]
        · exact freesRows_trans h0.this h1.this
    exact key _ s
  · exact ⟨rfl, fun _ _ => rfl, freesRows_refl _ _⟩

theorem OnThread.trans {s t u : State} {k : Nat} {P Q R : Thread → Thread → Prop} (h1 : OnThread s t k P) (h2 : OnThread t u k Q)
    (h : ∀ a b c, P a b → Q b c → R a c) : OnThread s u k R :=
  ⟨by rw [h2.rest, h1.rest], fun j hj => by rw [h2.other j hj, h1.other j hj], h _ _ _ h1.this h2.this⟩

theorem State.rowsOf_congr {s t : State} {k : Nat} (h : (t.thread k).winbase = (s.thread k).winbase) (o : Opd) (n : Nat) :
    t.rowsOf k o n = s.rowsOf k o n := by cases o <;> simp [State.rowsOf, h]

theorem freesRows_winbase {rows : List Nat} {a b : Thread} (h : freesRows rows a b) : b.winbase = a.winbase := by rw [h.1]

/-- The rows of the three sources of a register word freed. -/
theorem State.freeLu_spec (s : State) (k : Nat) (f : FWord) (na nb nc : Nat) :
    OnThread s (s.freeLu k f na nb nc) k (freesRows (s.lastUses k f na nb nc)) := by
  have ha := s.freeOpd_spec k f.a na f.lu.a
  have hb := (s.freeOpd k f.a na f.lu.a).freeOpd_spec k f.b nb f.lu.b
  have hc := ((s.freeOpd k f.a na f.lu.a).freeOpd k f.b nb f.lu.b).freeOpd_spec k f.c nc f.lu.c
  have wa := freesRows_winbase ha.this
  have wb := (freesRows_winbase hb.this).trans wa
  rw [State.rowsOf_congr wa] at hb
  rw [State.rowsOf_congr wb] at hc
  exact (ha.trans hb (fun _ _ _ => freesRows_trans)).trans hc (fun _ _ _ => freesRows_trans)

/-! ### Results -/

/-- The rows of a window destination in one thread. -/
def Thread.destRows (a : Thread) (d : Opd) (n : Nat) : List Nat :=
  match d with
  | .w i => (List.range n).map (fun j => a.winbase + i + j)
  | _ => []

theorem State.rowsOf_eq (s : State) (k : Nat) (d : Opd) (n : Nat) : s.rowsOf k d n = (s.thread k).destRows d n := by
  cases d <;> rfl

/-- What writing a result does to a thread. -/
structure WritesTo (d : Opd) (dw : Bool) (v : BitVec 64) (a b : Thread) : Prop where
  same : b = { a with regs := b.regs, preds := b.preds }
  win : ∀ i, d = .w i → if dw then b.pair (a.winbase + i) = v else b.reg (a.winbase + i) = v.setWidth 32
  pred : ∀ i, d = .q i → i.val = 7 ∨ b.pred i = v.getLsbD 0
  rows : ∀ r, r ∉ a.destRows d (regs dw) → b.reg r = a.reg r
  preds : ∀ q : Fin 8, d ≠ .q q → b.pred q = a.pred q

theorem Thread.setReg_eq (t : Thread) (i : Nat) (v : Word) : t.setReg i v = { t with regs := (t.setReg i v).regs } := rfl

theorem pair_halves (v : BitVec 64) : (((v >>> 32).setWidth 32 : Word) ++ (v.setWidth 32 : Word) : BitVec 64) = v := by
  apply BitVec.eq_of_getLsbD_eq
  intro i hi
  rw [BitVec.getLsbD_append]
  by_cases h : i < 32
  · simp [h]
  · have : 32 + (i - 32) = i := by omega
    have h2 : i - 32 < 32 := by omega
    simp [h, h2, this]

theorem Thread.pair_setPair (t : Thread) (i : Nat) (v : BitVec 64) : (t.setPair i v).pair i = v := by
  simp only [Thread.pair, Thread.setPair, Thread.reg_setReg, if_true]
  rw [if_neg (by omega)]
  exact pair_halves v

theorem Thread.pred_setPred (t : Thread) (q : Fin 8) (b : Bool) (r : Fin 8) :
    (t.setPred q b).pred r = if r = q then (r.val == 7 || b) else t.pred r := by
  obtain ⟨q, hq⟩ := q
  obtain ⟨r, hr⟩ := r
  simp only [Thread.setPred, Thread.pred, Fin.mk.injEq]
  by_cases h7 : 7 ≤ q
  · have : q = 7 := by omega
    subst this
    simp only [h7, if_true]
    split <;> simp_all
  · simp only [h7, if_false]
    by_cases h : r = q
    · subst h
      have : r ≠ 7 := by omega
      cases b <;> simp [this] <;> omega
    · simp only [h, if_false]
      by_cases hr7 : r = 7
      · simp [hr7]
      · have hr7' : r < 7 := by omega
        rcases (show r < q ∨ r - q ≠ 0 by omega) with h1 | h1
        · cases b <;> simp [hr7', h1]
        · have h2 : ¬r - q = 0 := h1
          cases b <;> simp [hr7', h2]

theorem State.wr_spec (s : State) (k : Nat) (d : Opd) (dw : Bool) (v : BitVec 64) (hd : isUni d = false) :
    OnThread s (s.wr k d dw v) k (WritesTo d dw v) := by
  unfold State.wr
  split
  · rename_i i
    refine OnThread.upd _ _ _ ⟨?_, ?_, ?_, ?_, ?_⟩
    · split <;> rfl
    · intro j hj
      injection hj with hj; subst hj
      cases dw
      · simp [Thread.reg_setReg]
      · simp only [if_true]; exact Thread.pair_setPair _ _ _
    · intro j hj; cases hj
    · intro r hr
      cases dw
      · simp [Thread.destRows, regs] at hr
        simp [Thread.reg_setReg, hr]
      · simp [Thread.destRows, regs, List.range_succ] at hr
        simp [Thread.setPair, Thread.reg_setReg, hr]
    · intro q _; split <;> rfl
  · simp [isUni] at hd
  · rename_i i
    refine OnThread.upd _ _ _ ⟨?_, ?_, ?_, ?_, ?_⟩
    · unfold Thread.setPred; split <;> rfl
    · intro j hj; cases hj
    · intro j hj
      injection hj with hj; subst hj
      rw [Thread.pred_setPred, if_pos rfl]
      by_cases h : i.val = 7 <;> simp [h]
    · intro r _; unfold Thread.setPred; split <;> rfl
    · intro q hq
      rw [Thread.pred_setPred, if_neg]
      rintro rfl; exact hq rfl
  all_goals
    refine ⟨rfl, fun _ _ => rfl, ⟨rfl, ?_, ?_, fun _ _ => rfl, fun _ _ => rfl⟩⟩
    · intro j hj; cases hj
    · intro j hj; cases hj

theorem Group.reg_setReg (g : Group) (i j : Nat) (v : Word) : (g.setReg i v).reg j = if j = i then v else g.reg j :=
  Tab.getD_setD ..

theorem Group.pair_setPair (g : Group) (i : Nat) (v : BitVec 64) : (g.setPair i v).pair i = v := by
  simp only [Group.pair, Group.setPair, Group.reg_setReg, if_true]
  rw [if_neg (by omega)]
  exact pair_halves v

theorem low32 (v : BitVec 64) : ((v.setWidth 32).setWidth 64 : BitVec 64) &&& 0xFFFFFFFF = v &&& 0xFFFFFFFF := by
  apply BitVec.eq_of_getLsbD_eq
  intro j hj
  have h : ∀ j < 64, (0xFFFFFFFF : BitVec 64).getLsbD j = decide (j < 32) := by decide
  rw [BitVec.getLsbD_and, BitVec.getLsbD_and, h j hj]
  by_cases h : j < 32 <;> simp [h, hj]

/-- What a thread's destination holds, read from the thread. -/
theorem State.holds_of_thread {t : State} {k : Nat} {d : Opd} {dw : Bool} {v : BitVec 64} {a : Thread}
    (hu : isUni d = false) (hw : (t.thread k).winbase = a.winbase)
    (h1 : ∀ i, d = .w i → if dw then (t.thread k).pair (a.winbase + i) = v else (t.thread k).reg (a.winbase + i) = v.setWidth 32)
    (h2 : ∀ i, d = .q i → i.val = 7 ∨ (t.thread k).pred i = v.getLsbD 0) : t.holds k d dw v := by
  unfold State.holds
  split
  · rename_i i
    have := h1 i rfl
    cases dw
    · simp only [State.rd, hw, Bool.false_eq_true, if_false] at this ⊢
      rw [this]
      exact low32 v
    · simp only [State.rd, hw, if_true] at this ⊢
      exact this
  · simp [isUni] at hu
  · rename_i i
    rcases h2 i rfl with h | h
    · exact .inl h
    · right
      simp only [State.rdPred, State.rd, Bool.false_eq_true, if_false, boolVal]
      rw [h]; cases v.getLsbD 0 <;> rfl
  all_goals trivial

/-! ### Entry -/

/-- The entry of a word whose active threads all pass the checks: the others have moved on. -/
theorem State.enterIf_clean {s : State} {active : Nat → Bool} {site : Site} {uses : List Use} {dr : DepthRule}
    (h : ∀ k ∈ s.curKeys, active k = true → s.passes k site uses dr = true) :
    s.enterIf active site uses dr =
      ⟨s.advance site.off (s.curKeys.filter (fun k => !active k)), s.curKeys.filter active⟩ := by
  have h1 : ∀ k ∈ s.curKeys.filter active, s.passes k site uses dr = true :=
    fun k hk => h k (List.mem_filter.mp hk).1 (List.mem_filter.mp hk).2
  simp only [State.passes, Bool.and_eq_true] at h1
  unfold State.enterIf
  have e1 : (s.curKeys.filter active).filter (fun k => !dr.ok (s.group s.curG).hdepth ||
      !(s.cur.inRep || placeOk site s.cur.words (s.thread k).clause)) = [] := by
    rw [List.filter_eq_nil_iff]; intro k hk; have := h1 k hk; simp [this]
  have e2 : (s.curKeys.filter active).filter (fun k => !(!dr.ok (s.group s.curG).hdepth ||
      !(s.cur.inRep || placeOk site s.cur.words (s.thread k).clause)) &&
        !(uses.all (fun u => u.ok (s.thread k).winbase (s.group s.curG).allot))) = [] := by
    rw [List.filter_eq_nil_iff]; intro k hk; have := h1 k hk; simp [this.2]
  have e3 : (s.curKeys.filter active).filter (fun k => !(!dr.ok (s.group s.curG).hdepth ||
      !(s.cur.inRep || placeOk site s.cur.words (s.thread k).clause)) &&
        !!(uses.all (fun u => u.ok (s.thread k).winbase (s.group s.curG).allot))) = s.curKeys.filter active := by
    rw [List.filter_eq_self]; intro k hk
    obtain ⟨⟨a, b⟩, c⟩ := h1 k hk
    rw [a, b, c]; rfl
  simp only [e1, e2, e3, List.foldl_nil]

/-- A word that is no control-flow word is passed alike by every thread of its run. -/
theorem Site.off_default : Site.off {} = {} := rfl

theorem State.enter_clean {s : State} {g : Guard} {site : Site} {uses : List Use} {dr : DepthRule}
    (h : s.clean (s.actives g) site uses dr) :
    s.enter g site uses dr = ⟨s.advance site.off (s.curKeys.filter (fun k => !s.active g k)), s.actives g⟩ :=
  State.enterIf_clean (fun k hk ha => h.2 k (List.mem_filter.mpr ⟨hk, ha⟩))

/-- A run of one thread enters as it is. -/
theorem State.enter_lone {s : State} {k : Nat} {g : Guard} {site : Site} {uses : List Use} {dr : DepthRule}
    (h : s.lone k g site uses dr) : s.enter g site uses dr = ⟨s, [k]⟩ := by
  have hk : s.curKeys = [k] := by
    simp only [State.curKeys, h.1, List.map_cons, List.map_nil, tkey, ← h.2.1, List.cons.injEq, and_true]; omega
  unfold State.enter
  rw [State.enterIf_clean (by simpa [hk] using fun _ => h.2.2.2)]
  simp [hk, h.2.2.1, State.advance]

theorem State.lone_curKeys {s : State} {k : Nat} {g : Guard} {site : Site} {uses : List Use} {dr : DepthRule}
    (h : s.lone k g site uses dr) : s.curKeys = [k] := by
  simp only [State.curKeys, h.1, List.map_cons, List.map_nil, tkey, ← h.2.1, List.cons.injEq, and_true]; omega

/-! ### The law of computing words -/

/-- The rows that last-use bits free in one thread. -/
def Thread.luRows (a : Thread) (f : FWord) (na nb nc : Nat) : List Nat :=
  (if f.lu.a then a.destRows f.a na else []) ++ (if f.lu.b then a.destRows f.b nb else []) ++
    (if f.lu.c then a.destRows f.c nc else [])

theorem State.lastUses_eq (s : State) (k : Nat) (f : FWord) (na nb nc : Nat) :
    s.lastUses k f na nb nc = (s.thread k).luRows f na nb nc := by
  simp only [State.lastUses, Thread.luRows, State.rowsOf_eq]

/-- The rows of a word's sources freed for distinct threads. -/
theorem State.freeAll_spec (s : State) {ks : List Nat} (nd : ks.Nodup) (f : FWord) (na nb nc : Nat) :
    OnThreads s (ks.foldl (fun acc k => acc.freeLu k f na nb nc) s) ks (fun _ a b => freesRows (a.luRows f na nb nc) a b) :=
  onThreads_fold (s := s) ks s rfl nd (fun b k _ _ => by
    have := b.freeLu_spec k f na nb nc
    rw [State.lastUses_eq] at this
    exact ⟨this.rest, this.other, this.this⟩)

/-- Results written to a destination that is no uniform register, for distinct threads. -/
theorem State.writeAll_spec (s : State) {ks : List Nat} (nd : ks.Nodup) {d : Opd} (hd : isUni d = false) (dw : Bool)
    (val : Nat → BitVec 64) :
    OnThreads s (s.writeAll d dw ks val) ks (fun k a b => WritesTo d dw (val k) a b) := by
  unfold State.writeAll
  rw [hd, if_neg (by simp)]
  exact onThreads_fold (s := s) ks s rfl nd (fun b k _ _ => b.wr_spec k d dw (val k) hd)

/-- A thread after its rows are freed, its result written and its word passed. -/
structure Done (d : Opd) (dw : Bool) (v : BitVec 64) (freed : List Nat) (site : Site) (r : Bool) (n : Nat) (a b : Thread) : Prop where
  win : ∀ i, d = .w i → if dw then b.pair (a.winbase + i) = v else b.reg (a.winbase + i) = v.setWidth 32
  pred : ∀ i, d = .q i → i.val = 7 ∨ b.pred i = v.getLsbD 0
  rows : ∀ x, x ∉ a.destRows d (regs dw) → x ∉ freed → b.reg x = a.reg x
  preds : ∀ q : Fin 8, d ≠ .q q → b.pred q = a.pred q
  moved : b.pc = (a.pass site r n).pc ∧ b.clause = (a.pass site r n).clause ∧ b.repix = (a.pass site r n).repix
  same : b = { a with regs := b.regs, preds := b.preds, pc := b.pc, clause := b.clause, repix := b.repix }

theorem pass_congr {a b : Thread} (h : b = { a with regs := b.regs, preds := b.preds }) (site : Site) (r : Bool) (n : Nat) :
    (b.pass site r n).pc = (a.pass site r n).pc ∧ (b.pass site r n).clause = (a.pass site r n).clause ∧
      (b.pass site r n).repix = (a.pass site r n).repix := by
  rw [h]
  unfold Thread.pass Thread.passWords
  cases r
  · simp only [Bool.false_eq_true, if_false]
    cases a.clause
    · exact ⟨rfl, rfl, rfl⟩
    · dsimp only; split <;> exact ⟨rfl, rfl, rfl⟩
  · exact ⟨rfl, rfl, rfl⟩

theorem Done.of_steps {d : Opd} {dw : Bool} {v : BitVec 64} {freed : List Nat} {site : Site} {r : Bool} {n : Nat} {a b c : Thread}
    (h1 : freesRows freed a b) (h2 : WritesTo d dw v b c) : Done d dw v freed site r n a (c.pass site r n) := by
  have hw : b.winbase = a.winbase := freesRows_winbase h1
  have hreg (x : Nat) : (c.pass site r n).reg x = c.reg x := by simp only [Thread.reg, Thread.pass_regs]
  have hpair (x : Nat) : (c.pass site r n).pair x = c.pair x := by simp only [Thread.pair, hreg]
  have hpass := Thread.pass_eq c site r n
  have hpred (q : Fin 8) : (c.pass site r n).pred q = c.pred q := by rw [hpass]; rfl
  have hsame : c = { a with regs := c.regs, preds := c.preds } := by rw [h2.same, h1.1]
  have hdest : b.destRows d (regs dw) = a.destRows d (regs dw) := by cases d <;> simp [Thread.destRows, hw]
  refine ⟨fun i hi => ?_, fun i hi => ?_, fun x hx hf => ?_, fun q hq => ?_, pass_congr hsame site r n, ?_⟩
  · have := h2.win i hi; rw [hw] at this; simpa only [hreg, hpair] using this
  · rw [hpred]; exact h2.pred i hi
  · rw [hreg, h2.rows x (by rw [hdest]; exact hx), h1.2 x hf]
  · rw [hpred, h2.preds q hq, h1.1]
    rfl
  · obtain ⟨rg, pr, rfl⟩ : ∃ rg pr, c = { a with regs := rg, preds := pr } := ⟨_, _, hsame⟩
    rw [hpass]

/-- A thread that writes nothing of its own. -/
theorem WritesTo.none {d : Opd} (dw : Bool) (v : BitVec 64) (hd : isUni d = true) (a : Thread) : WritesTo d dw v a a := by
  cases d <;> simp [isUni] at hd
  exact ⟨rfl, fun j h => (by cases h), fun j h => (by cases h), fun _ _ => rfl, fun _ _ => rfl⟩

/-- What the threads of a run are after a computing word. -/
structure RunDone (s t : State) (ks : List Nat) (d : Opd) (dw : Bool) (val : Nat → BitVec 64) (freed : Nat → List Nat) (site : Site) :
    Prop where
  on : ∀ k ∈ ks, Done d dw (val k) (freed k) site s.cur.inRep s.cur.len (s.thread k) (t.thread k)
  off : ∀ k ∈ s.curKeys, k ∉ ks → t.thread k = (s.thread k).pass site.off s.cur.inRep s.cur.len
  out : ∀ k, k ∉ s.curKeys → t.thread k = s.thread k

theorem Computed.of_runDone {s t : State} {ks : List Nat} {d : Opd} {dw : Bool} {val : Nat → BitVec 64} {freed : Nat → List Nat}
    {site : Site} (h : RunDone s t ks d dw (fun k => val (if isUni d then ks.headD 0 else k)) freed site)
    (hres : ∀ k ∈ ks, isUni d = true → t.holds k d dw (val (ks.headD 0)))
    (huni : ∀ g r, (g = s.curG → ks ≠ [] → r ∉ uniRows d (regs dw)) → (t.group g).reg r = (s.group g).reg r)
    (hgrp : ∀ g, t.group g = { s.group g with uni := (t.group g).uni })
    (hrest : t = { s with threads := t.threads, groups := t.groups }) :
    Computed s t ks d dw freed site val := by
  refine ⟨fun k hk => ?_, fun k hk => ?_, fun k r hr => ?_, fun k q hq => ?_, huni, fun k => ?_, hgrp, hrest⟩
  · cases hd : isUni d
    · have := h.on k hk
      rw [hd] at this
      exact State.holds_of_thread hd (by rw [this.same]) this.win this.pred
    · exact hres k hk hd
  · by_cases hin : k ∈ ks
    · rw [if_pos hin]; exact (h.on k hin).moved
    · rw [if_neg hin]
      have := h.off k hk hin
      exact ⟨by rw [this], by rw [this], by rw [this]⟩
  · by_cases hin : k ∈ ks
    · obtain ⟨h1, h2⟩ := hr hin
      exact (h.on k hin).rows r (by rw [← State.rowsOf_eq]; exact h1) h2
    · by_cases hc : k ∈ s.curKeys
      · rw [h.off k hc hin]; simp only [Thread.reg, Thread.pass_regs]
      · rw [h.out k hc]
  · by_cases hin : k ∈ ks
    · exact (h.on k hin).preds q (hq hin)
    · by_cases hc : k ∈ s.curKeys
      · rw [h.off k hc hin, Thread.pass_eq]; rfl
      · rw [h.out k hc]
  · split
    · rename_i hc
      by_cases hin : k ∈ ks
      · exact (h.on k hin).same
      · rw [h.off k hc hin, Thread.pass_eq]
    · rename_i hc; exact h.out k hc

/-- THE LAW OF COMPUTING WORDS: where every active thread passes the checks of R53, each destination holds its result, every
thread of the run moves on, and nothing else changes. The values are those that the word reads before it writes anything. -/
theorem State.computeRun_spec {s : State} {f : FWord} {dw aw bw cw : Bool} {val : State → List Nat → Nat → BitVec 64}
    (h : s.clean (s.actives f.guard) {} (fUses f dw aw bw cw)) :
    Computed s (s.computeRun f dw aw bw cw val) (s.actives f.guard) f.d dw
      (fun k => s.lastUses k f (regs aw) (regs bw) (regs cw)) {}
      (val (s.advance {} (s.curKeys.filter (fun k => !s.active f.guard k))) (s.actives f.guard)) := by
  have nd : s.curKeys.Nodup := State.curKeys_nodup h.1
  unfold State.computeRun
  rw [State.enter_clean h, Site.off_default]
  dsimp only
  have ndk : (s.actives f.guard).Nodup := nd.filter _
  have ndo : (s.curKeys.filter (fun k => !s.active f.guard k)).Nodup := nd.filter _
  have A1 := s.advance_spec {} ndo
  revert A1
  generalize hv : val (s.advance {} (s.curKeys.filter (fun k => !s.active f.guard k))) (s.actives f.guard) = v
  clear hv
  generalize s.advance {} (s.curKeys.filter (fun k => !s.active f.guard k)) = s1
  intro A1
  have A2 := s1.freeAll_spec ndk f (regs aw) (regs bw) (regs cw)
  revert A2
  generalize (s.actives f.guard).foldl (fun acc k => acc.freeLu k f (regs aw) (regs bw) (regs cw)) s1 = s2
  intro A2
  have hoff : ∀ k ∈ s.actives f.guard, k ∉ s.curKeys.filter (fun k => !s.active f.guard k) := by
    intro k hk hk'
    have h1 := (List.mem_filter.mp hk).2
    have h2 := (List.mem_filter.mp hk').2
    rw [h1] at h2; exact absurd h2 (by decide)
  have e12 : ∀ k ∈ s.actives f.guard, freesRows (s.lastUses k f (regs aw) (regs bw) (regs cw)) (s.thread k) (s2.thread k) := by
    intro k hk
    have h1 := A2.this k hk
    rw [A1.other k (hoff k hk)] at h1
    rw [State.lastUses_eq]; exact h1
  have r2 : s2 = { s with threads := s2.threads } := by rw [A2.rest, A1.rest]
  have c2 : s2.cur = s.cur := by rw [r2]
  -- The threads that the word does not act for.
  have off2 : ∀ k ∈ s.curKeys, k ∉ s.actives f.guard → s2.thread k = (s.thread k).pass {} s.cur.inRep s.cur.len := by
    intro k hk hin
    rw [A2.other k hin]
    refine A1.this k (List.mem_filter.mpr ⟨hk, ?_⟩)
    have : ¬s.active f.guard k = true := fun ha => hin (List.mem_filter.mpr ⟨hk, ha⟩)
    simpa using this
  have out2 : ∀ k, k ∉ s.curKeys → s2.thread k = s.thread k := by
    intro k hk
    rw [A2.other k (fun hin => hk (State.actives_sub hin)), A1.other k (fun hin => hk (List.mem_filter.mp hin).1)]
  cases hd : isUni f.d
  · -- A destination of each thread.
    have A3 := s2.writeAll_spec ndk hd dw v
    revert A3
    generalize s2.writeAll f.d dw (s.actives f.guard) v = s3
    intro A3
    have A4 := s3.advance_spec {} ndk
    have c3 : s3.cur = s.cur := by rw [A3.rest, c2]
    rw [c3] at A4
    have rest : s3.advance {} (s.actives f.guard) =
        { s with threads := (s3.advance {} (s.actives f.guard)).threads } := by rw [A4.rest, A3.rest, r2]
    generalize s3.advance {} (s.actives f.guard) = t at A4 rest
    refine Computed.of_runDone ⟨fun k hk => ?_, fun k hk hin => ?_, fun k hk => ?_⟩ ?_ ?_ ?_ ?_
    · rw [A4.this k hk]
      simp only [hd, Bool.false_eq_true, if_false]
      exact Done.of_steps (e12 k hk) (A3.this k hk)
    · rw [A4.other k hin, A3.other k hin, off2 k hk hin]; rfl
    · have hin : k ∉ s.actives f.guard := fun hin => hk (State.actives_sub hin)
      rw [A4.other k hin, A3.other k hin, out2 k hk]
    · intro k _ hu; rw [hd] at hu; cases hu
    · intro g r _; rw [rest]; rfl
    · intro g; rw [rest]; rfl
    · rw [rest]
  · -- One uniform destination.
    obtain ⟨i, hi⟩ : ∃ i, f.d = .s i := by cases hfd : f.d <;> simp [hfd, isUni] at hd; exact ⟨_, rfl⟩
    cases hks : s.actives f.guard with
    | nil =>
      have A4 := s2.advance_spec {} (ks := []) List.nodup_nil
      have rest : s2.advance {} [] = { s with threads := (s2.advance {} []).threads } := by rw [A4.rest, r2]
      have e3 : s2.writeAll f.d dw [] v = s2 := by unfold State.writeAll; rw [hd]; rfl
      rw [e3]
      generalize s2.advance {} [] = t at A4 rest
      refine Computed.of_runDone ⟨fun k hk => absurd hk List.not_mem_nil, fun k hk hin => ?_, fun k hk => ?_⟩ ?_ ?_ ?_ ?_
      · rw [A4.other k hin, off2 k hk (by rw [hks]; exact hin)]; rfl
      · rw [A4.other k List.not_mem_nil, out2 k hk]
      · intro k hk; exact absurd hk List.not_mem_nil
      · intro g r _; rw [rest]; rfl
      · intro g; rw [rest]; rfl
      · rw [rest]
    | cons k0 ks =>
      rw [hks] at ndk e12 off2
      have hk0 : k0 / 32 = s.curG := State.curKeys_group h.1 (State.actives_sub (by rw [hks]; exact List.mem_cons_self ..))
      have hg2 : s2.group s.curG = s.group s.curG := by rw [r2]; rfl
      have e3 : s2.writeAll f.d dw (k0 :: ks) v =
          s2.setGroup s.curG (if dw then (s.group s.curG).setPair i (v k0) else (s.group s.curG).setReg i ((v k0).setWidth 32)) := by
        unfold State.writeAll
        rw [hd, if_pos rfl]
        simp only [hi, State.wr, hk0, State.updGroup_eq, hg2]
      rw [e3]
      generalize hG : (if dw then (s.group s.curG).setPair i (v k0) else (s.group s.curG).setReg i ((v k0).setWidth 32)) = G
      have A4 := (s2.setGroup s.curG G).advance_spec {} ndk
      rw [State.setGroup_cur, c2] at A4
      have rest : (s2.setGroup s.curG G).advance {} (k0 :: ks) =
          { s with threads := ((s2.setGroup s.curG G).advance {} (k0 :: ks)).threads, groups := (s.setGroup s.curG G).groups } := by
        have key : ∀ th, { s2.setGroup s.curG G with threads := th } =
            { s with threads := th, groups := (s.setGroup s.curG G).groups } := by intro th; rw [r2]; rfl
        exact A4.rest.trans (key _)
      generalize (s2.setGroup s.curG G).advance {} (k0 :: ks) = t at A4 rest
      have hgroup : ∀ g, t.group g = if g = s.curG then G else s.group g := by
        intro g; rw [rest]; exact State.group_setGroup s s.curG g G
      refine Computed.of_runDone ⟨fun k hk => ?_, fun k hk hin => ?_, fun k hk => ?_⟩ ?_ ?_ ?_ ?_
      · rw [A4.this k hk]
        exact Done.of_steps (e12 k hk) (WritesTo.none dw _ hd _)
      · rw [A4.other k hin, State.thread_setGroup, off2 k hk hin]; rfl
      · have hin : k ∉ k0 :: ks := fun hin => hk (State.actives_sub (by rw [hks]; exact hin))
        rw [A4.other k hin, State.thread_setGroup, out2 k hk]
      · intro k hk _
        have hkg : k / 32 = s.curG := State.curKeys_group h.1 (State.actives_sub (by rw [hks]; exact hk))
        simp only [State.holds, hi, List.headD_cons, State.rd, hkg, hgroup, if_true, ← hG]
        cases dw
        · simp only [Bool.false_eq_true, if_false, Group.reg_setReg, if_true]; exact low32 _
        · simp only [if_true, Group.pair_setPair]
      · intro g r hr
        rw [hgroup]
        split
        · rename_i hg
          subst hg
          have := hr rfl (by simp)
          rw [hi] at this
          rw [← hG]
          cases dw
          · simp [uniRows, regs] at this
            simp [Group.reg_setReg, this]
          · simp [uniRows, regs, List.range_succ] at this
            simp [Group.setPair, Group.reg_setReg, this]
        · rfl
      · intro g
        rw [hgroup]
        split
        · rename_i hg; subst hg; rw [← hG]; cases dw <;> rfl
        · rfl
      · have hg := congrArg (fun x : State => x.groups) rest
        dsimp only at hg
        rw [hg]; exact rest

theorem Computed.congr {s t : State} {ks : List Nat} {d : Opd} {dw : Bool} {freed : Nat → List Nat} {site : Site}
    {v w : Nat → BitVec 64} (h : Computed s t ks d dw freed site v) (e : ∀ k ∈ ks, v k = w k) :
    Computed s t ks d dw freed site w :=
  { h with
    result := fun k hk => by
      have := h.result k hk
      rw [e] at this
      · exact this
      · split
        · cases ks with
          | nil => exact absurd hk List.not_mem_nil
          | cons a as => exact List.mem_cons_self ..
        · exact hk }

/-- The state in which a word reads its operands: the run's inactive threads have moved on. -/
def State.entryState (s : State) (g : Guard) : State := s.advance {} (s.curKeys.filter (fun k => !s.active g k))

theorem State.entryState_thread {s : State} (h : s.runOk) (g : Guard) {k : Nat} (hk : k ∈ s.actives g) :
    (s.entryState g).thread k = s.thread k := by
  refine (s.advance_spec {} ((State.curKeys_nodup h).filter _)).other k (fun hk' => ?_)
  have h1 := (List.mem_filter.mp hk).2
  have h2 := (List.mem_filter.mp hk').2
  rw [h1] at h2; exact absurd h2 (by decide)

theorem State.entryState_eq (s : State) (h : s.runOk) (g : Guard) :
    s.entryState g = { s with threads := (s.entryState g).threads } :=
  (s.advance_spec {} ((State.curKeys_nodup h).filter _)).rest

/-- Active threads read the same operands before and after the others have moved on. -/
theorem State.entryState_rd {s : State} (h : s.runOk) (g : Guard) {k : Nat} (hk : k ∈ s.actives g) (o : Opd) (w : Bool) :
    (s.entryState g).rd k o w = s.rd k o w := by
  have ht := State.entryState_thread h g hk
  have he := s.entryState_eq h g
  have hg : (s.entryState g).group (k / 32) = s.group (k / 32) := by rw [he]; rfl
  unfold State.rd
  rw [ht, hg]
  cases o with
  | sr r =>
    have : (s.entryState g).special k r = s.special k r := by
      unfold State.special
      rw [ht, hg, he]
      cases r <;> rfl
    simp only [this]
  | _ => rfl

/-- The same law for a word whose value reads its own operands, as `Gives` states it. -/
theorem Gives.of_compute {i : Instr} {s : State} {f : FWord} {dw aw bw cw : Bool} {val : State → Nat → BitVec 64}
    {v : Nat → BitVec 64} (hi : exec i s = .next (s.compute f dw aw bw cw val))
    (hv : s.runOk → ∀ k ∈ s.actives f.guard, val (s.entryState f.guard) k = v k) : Gives i s f dw aw bw cw v := by
  intro h
  refine ⟨_, hi, ?_⟩
  exact (State.computeRun_spec h).congr (hv h.1)

/-- The same law for a word whose value reads the whole run. -/
theorem Gives.of_computeRun {i : Instr} {s : State} {f : FWord} {dw aw bw cw : Bool} {val : State → List Nat → Nat → BitVec 64}
    {v : Nat → BitVec 64} (hi : exec i s = .next (s.computeRun f dw aw bw cw val))
    (hv : s.runOk → ∀ k ∈ s.actives f.guard, val (s.entryState f.guard) (s.actives f.guard) k = v k) :
    Gives i s f dw aw bw cw v := by
  intro h
  refine ⟨_, hi, ?_⟩
  exact (State.computeRun_spec h).congr (hv h.1)

theorem State.entryState_rdNat {s : State} (h : s.runOk) (g : Guard) {k : Nat} (hk : k ∈ s.actives g) (o : Opd) :
    (s.entryState g).rdNat k o = s.rdNat k o := by unfold State.rdNat; rw [State.entryState_rd h g hk]

theorem State.entryState_rdPred {s : State} (h : s.runOk) (g : Guard) {k : Nat} (hk : k ∈ s.actives g) (o : Opd) :
    (s.entryState g).rdPred k o = s.rdPred k o := by unfold State.rdPred; rw [State.entryState_rd h g hk]

/-- The law for an immediate word. -/
theorem GivesI.of_computeImm {i : Instr} {s : State} {f : IWord} {dw aw : Bool} {val : State → Nat → BitVec 64}
    {v : Nat → BitVec 64} (hi : exec i s = .next (s.computeImm f dw aw val))
    (hv : s.runOk → ∀ k ∈ s.actives f.guard, val (s.entryState f.guard) k = v k) : GivesI i s f dw aw v :=
  Gives.of_compute (f := asF f) hi hv

end Sys2Proof.Machine
end

