-- ==== Sys2Proof/Laws/Issue.lean ====
section
/-! SUPPORT. What issuing an operation does: the one law of words that leave an operation of a lone thread behind. -/

namespace Sys2Proof.Machine

/-- The j-th operation that a lone thread's word issues, before the word's own fields. -/
def State.newOp (s : State) (k : Nat) (dest : Dest) (kind : OpKind) (j : Nat) : Op :=
  { id := s.nextId + j, uid := (s.group (k / 32)).uid, lane := k % 32, core := k / 32 / 512, owner := (s.group (k / 32)).owner, kind, dest,
    flag := (s.thread k).nextFlag, lanes := [k % 32], clauses := [(k % 32, (s.thread k).place)], repix := (s.thread k).repix, pc := (s.thread k).pc, issuedAt := s.now,
    charged := (s.group (k / 32)).hdepth != 0, inRep := s.cur.inRep }

theorem State.newOp_isOf (s : State) (k : Nat) (dest : Dest) (kind : OpKind) (j : Nat) : (s.newOp k dest kind j).IsOf s k j :=
  ⟨rfl, rfl, ⟨rfl, rfl⟩, rfl, rfl, rfl, rfl⟩

theorem Op.IsOf.of_eq {o p : Op} {s : State} {k j : Nat} (h : p.IsOf s k j) (e1 : o.id = p.id) (e2 : o.uid = p.uid) (e3 : o.lane = p.lane)
    (e4 : o.lanes = p.lanes) (e5 : o.owner = p.owner) (e6 : o.core = p.core) (e7 : o.flag = p.flag) (e8 : o.pc = p.pc) : o.IsOf s k j :=
  ⟨e1.trans h.id, e2.trans h.uid, ⟨e3.trans h.lane.1, e4.trans h.lane.2⟩, e5.trans h.owner, e6.trans h.core, e7.trans h.flag,
    e8.trans h.pc⟩

theorem Op.atPlace_isAt (o : Op) (p : Place) : (o.atPlace p).isAt p := by cases p <;> simp [Op.atPlace, Op.isAt]

/-! ### What issuing operations makes of their thread -/

@[simp] theorem Thread.after_nil (t : Thread) (r : Bool) : t.after [] r = t := by
  obtain ⟨⟩ := t
  simp only [Thread.after, List.any_nil, Bool.false_and, Bool.false_eq_true, if_false, List.filterMap_nil, List.map_nil, List.append_nil]
  congr 1
  · rename_i c _ _ _ _ _ _ _ _ _ _ _ _ _ _ _ _ _; cases c <;> rfl
  · split <;> rfl

theorem Thread.after_nextFlag (t : Thread) (os : List Op) (r : Bool) : (t.after os r).nextFlag = t.nextFlag := by
  unfold Thread.nextFlag Thread.after
  cases t.clause <;> rfl

theorem Thread.after_regs (t : Thread) (os : List Op) (r : Bool) (rg : Tab Word) :
    Thread.after { t with regs := rg } os r = { t.after os r with regs := rg } := rfl

theorem Thread.setFlag_setFlag (t : Thread) (f : Nat) : ((t.setFlag f true).setFlag f true).flags = (t.setFlag f true).flags := by
  simp only [Thread.setFlag, if_true, BitVec.or_assoc, BitVec.or_self]

theorem Thread.after_snoc (t : Thread) (os : List Op) (o : Op) (r : Bool) : (t.after os r).after [o] r = t.after (os ++ [o]) r := by
  have hf := t.after_nextFlag os r
  have e1 : ((t.after os r).after [o] r).flags = (t.after (os ++ [o]) r).flags := by
    unfold Thread.after at hf ⊢
    dsimp only at hf ⊢
    rw [hf]
    cases hn : t.nextFlag with
    | none => rfl
    | some f =>
      simp only [List.any_append, List.any_cons, List.any_nil, Bool.or_false]
      cases h1 : os.any Op.isLong <;> cases h2 : o.isLong <;> simp [Thread.setFlag, BitVec.or_assoc]
  have e2 : ((t.after os r).after [o] r).st = (t.after (os ++ [o]) r).st := by
    unfold Thread.after at hf ⊢
    dsimp only at hf ⊢
    rw [hf]
    simp only [List.any_append, List.any_cons, List.any_nil, Bool.or_false]
    cases h1 : os.any Op.isLong <;> cases h2 : o.isLong <;> cases t.nextFlag <;> cases r <;> rfl
  have e3 : ((t.after os r).after [o] r).clause = (t.after (os ++ [o]) r).clause := by
    simp only [Thread.after, List.filterMap_append, List.map_append]
    cases t.clause <;> simp
  have e4 : ((t.after os r).after [o] r).flagDests = (t.after (os ++ [o]) r).flagDests := by
    simp only [Thread.after, List.filterMap_append, List.append_assoc]
  have key : ∀ a b : Thread, a = { t with flags := a.flags, st := a.st, flagDests := a.flagDests, clause := a.clause } →
      b = { t with flags := b.flags, st := b.st, flagDests := b.flagDests, clause := b.clause } →
      a.flags = b.flags → a.st = b.st → a.clause = b.clause → a.flagDests = b.flagDests → a = b := by
    intro a b ha hb h1 h2 h3 h4
    rw [ha, hb, h1, h2, h3, h4]
  exact key _ _ rfl rfl e1 e2 e3 e4

/-- What a hold changes in a thread. -/
def Thread.held (t : Thread) (inRep : Bool) : Thread :=
  match t.nextFlag with
  | some f => t.setFlag f true
  | none => if inRep then t else { t with st := .waitOp }

theorem Thread.after_one (t : Thread) (o : Op) (r : Bool) :
    t.after [o] r = if o.isLong then (t.noteDest o).held r else t.noteDest o := by
  have hn : t.noteDest o = { t with flagDests := t.flagDests ++ [o].filterMap Op.noted
                                    clause := t.clause.map (fun c => { c with dests := c.dests ++ ([o].filterMap Op.noted).map (·.2) }) } := by
    obtain ⟨_, _, _, _, _, _, _, _, _, _, _, c⟩ := t
    unfold Thread.noteDest
    cases hf : o.flag with
    | none => cases c <;> simp [Op.noted, hf]
    | some fl => cases hd : o.dest <;> cases c <;> simp [Op.noted, hf, hd]
  rw [hn]
  have hf : Thread.nextFlag { t with
      flagDests := t.flagDests ++ [o].filterMap Op.noted
      clause := t.clause.map (fun c => { c with dests := c.dests ++ ([o].filterMap Op.noted).map (·.2) }) } = t.nextFlag := by
    unfold Thread.nextFlag; cases t.clause <;> rfl
  unfold Thread.held Thread.after
  dsimp only
  rw [hf]
  simp only [List.any_cons, List.any_nil, Bool.or_false]
  cases o.isLong <;> cases t.nextFlag <;> cases r <;> rfl

/-- One operation issued for a lone thread. -/
theorem State.startOp_lone (s : State) (k : Nat) (dest : Dest) (kind : OpKind) (f : Op → Op) :
    let o := f (s.newOp k dest kind 0)
    let u := s.startOp k [k] dest kind f
    u = { s with threads := u.threads, ops := s.ops ++ [o], nextId := s.nextId + 1 } ∧ (∀ j, j ≠ k → u.thread j = s.thread j) ∧
      u.thread k = (s.thread k).after [o] s.cur.inRep := by
  intro o u
  have hl : ([k].filter (· != k)).map (fun j => (j % 32, (s.thread j).nextFlag)) = [] := by simp
  have hu : u = (let s1 := { s with ops := s.ops ++ [o], nextId := s.nextId + 1 }
       let s2 := s1.setThread k ((s1.thread k).noteDest o)
       if o.isLong then s2.setThread k ((s2.thread k).held s2.cur.inRep) else s2) := by
    simp only [u, o, State.startOp, hl]; rfl
  rw [hu, Thread.after_one]
  clear hu hl
  clear_value o
  dsimp only
  split
  · refine ⟨rfl, fun j hj => ?_, ?_⟩
    · rw [State.thread_setThread_ne _ _ hj, State.thread_setThread_ne _ _ hj]; rfl
    · rw [State.thread_setThread_self, State.thread_setThread_self]; rfl
  · refine ⟨rfl, fun j hj => ?_, ?_⟩
    · rw [State.thread_setThread_ne _ _ hj]; rfl
    · rw [State.thread_setThread_self]; rfl

/-- The operation in a state that differs in what issuing changes only. -/
theorem State.newOp_congr {s t : State} {k n : Nat} {rg : Tab Word} {os : List Op} {r : Bool} (hg : t.groups = s.groups) (hc : t.cur = s.cur)
    (hn : t.now = s.now) (hi : t.nextId = s.nextId + n) (ht : t.thread k = { (s.thread k).after os r with regs := rg })
    (dest : Dest) (kind : OpKind) (j : Nat) : t.newOp k dest kind j = s.newOp k dest kind (n + j) := by
  have hf : (t.thread k).nextFlag = (s.thread k).nextFlag := by rw [ht]; exact Thread.after_nextFlag (s.thread k) os r
  have hp : (t.thread k).pc = (s.thread k).pc := by rw [ht]; rfl
  have hx : (t.thread k).repix = (s.thread k).repix := by rw [ht]; rfl
  have hl : (t.thread k).place = (s.thread k).place := by
    rw [ht]; unfold Thread.place Thread.after; dsimp only; cases (s.thread k).clause <;> rfl
  have hgr : ∀ i, t.group i = s.group i := fun i => by unfold State.group; rw [hg]
  unfold State.newOp
  rw [hf, hp, hl, hx, hgr, hc, hn, hi, Nat.add_assoc]

/-- Operations issued one after another for a lone thread, rows of which are freed before or after, and the thread moved on. -/
theorem Issued.of_startOps {s s1 : State} {k : Nat} {rows late : List Nat} {site : Site} (n : Nat) (h : OnThread s s1 k (freesRows rows))
    (free : State → State) (hfree : ∀ u : State, (u.thread k).winbase = (s.thread k).winbase → OnThread u (free u) k (freesRows late))
    (step : State → Nat → State) (op : Nat → Op)
    (hs : ∀ (a : State) (j : Nat), a.groups = s.groups → a.cur = s.cur → a.now = s.now → a.nextId = s.nextId + j →
      (∃ rg os, a.thread k = { (s.thread k).after os s.cur.inRep with regs := rg }) →
      ∃ dest kind f, step a j = a.startOp k [k] dest kind f ∧ op j = f (s.newOp k dest kind j))
    (hm : ∀ j, j < n → (op j).IsOf s k j) :
    Issued s ((free ((List.range n).foldl step s1)).advance site [k]) k site ((List.range n).map op) (rows ++ late) := by
  have main : ∀ n, let u := (List.range n).foldl step s1
      u = { s with threads := u.threads, ops := s.ops ++ (List.range n).map op, nextId := s.nextId + n } ∧
      (∀ j, j ≠ k → u.thread j = s.thread j) ∧
      u.thread k = { (s.thread k).after ((List.range n).map op) s.cur.inRep with regs := (s1.thread k).regs } := by
    intro n
    induction n with
    | zero =>
      refine ⟨?_, h.other, ?_⟩
      · have := h.rest
        simpa using this
      · have := h.this.1
        simpa using this
    | succ n ih =>
      obtain ⟨e1, e2, e3⟩ := ih
      rw [List.range_succ, List.foldl_append, List.map_append]
      simp only [List.foldl_cons, List.foldl_nil, List.map_cons, List.map_nil]
      revert e1 e2 e3
      generalize (List.range n).foldl step s1 = a
      generalize (List.range n).map op = os
      intro e1 e2 e3
      have hg : a.groups = s.groups := by rw [e1]
      have hc : a.cur = s.cur := by rw [e1]
      have hn : a.now = s.now := by rw [e1]; rfl
      have hi : a.nextId = s.nextId + n := by rw [e1]
      obtain ⟨dest, kind, f, hst, hop⟩ := hs a n hg hc hn hi ⟨_, _, e3⟩
      rw [hst]
      obtain ⟨a1, a2, a3⟩ := a.startOp_lone k dest kind f
      rw [State.newOp_congr hg hc hn hi e3 dest kind 0, Nat.add_zero, ← hop] at a1 a3
      refine ⟨?_, fun j hj => (a2 j hj).trans (e2 j hj), ?_⟩
      · refine a1.trans ?_
        rw [show a.ops = s.ops ++ os by rw [e1], hi]
        have : ∀ th (ops : List Op) i, { a with threads := th, ops := ops, nextId := i } = { s with threads := th, ops := ops, nextId := i } := by
          intro th ops i; rw [e1]
        rw [List.append_assoc, Nat.add_assoc]
        exact this _ _ _
      · rw [a3, e3, hc, Thread.after_regs, Thread.after_snoc]
  obtain ⟨d1, d2, d3⟩ := main n
  revert d1 d2 d3
  generalize (List.range n).foldl step s1 = a
  intro d1 d2 d3
  have hv := hfree a (by rw [d3]; rfl)
  revert hv
  generalize free a = u
  intro hv
  have e1 : u = { s with threads := u.threads, ops := s.ops ++ (List.range n).map op, nextId := s.nextId + n } := by
    refine hv.rest.trans ?_
    have : ∀ th, { a with threads := th } = { s with threads := th, ops := s.ops ++ (List.range n).map op, nextId := s.nextId + n } := by
      intro th; rw [d1]
    exact this _
  have e2 : ∀ j, j ≠ k → u.thread j = s.thread j := fun j hj => (hv.other j hj).trans (d2 j hj)
  have e3 : u.thread k = { (s.thread k).after ((List.range n).map op) s.cur.inRep with regs := (u.thread k).regs } := by
    have h1 := hv.this.1
    rw [d3] at h1
    exact h1
  have erow : ∀ r, r ∉ rows ++ late → (u.thread k).reg r = (s.thread k).reg r := by
    intro r hr
    rw [List.mem_append, not_or] at hr
    refine (hv.this.2 r hr.2).trans (Eq.trans ?_ (h.this.2 r hr.1))
    rw [d3]; rfl
  obtain ⟨rg, e3⟩ : ∃ rg, u.thread k = { (s.thread k).after ((List.range n).map op) s.cur.inRep with regs := rg } := ⟨_, e3⟩
  have hadv : u.advance site [k] = u.setThread k ((u.thread k).pass site s.cur.inRep s.cur.len) := by
    simp only [State.advance, List.foldl_cons, List.foldl_nil, State.updThread_eq, show u.cur = s.cur by rw [e1]]
  have hp : ∀ (t : Thread) (rg : Tab Word), Thread.pass { t with regs := rg } site s.cur.inRep s.cur.len =
      { t.pass site s.cur.inRep s.cur.len with regs := rg } := by
    intro t rg
    unfold Thread.pass Thread.passWords
    cases s.cur.inRep
    · simp only [Bool.false_eq_true, if_false]
      cases t.clause
      · rfl
      · dsimp only; split <;> rfl
    · rfl
  rw [hadv]
  refine ⟨fun j o hj => ?_, ?_, fun r hr => ?_, fun j hj => ?_, ?_⟩
  · rw [List.getElem?_map] at hj
    obtain ⟨i, hi, rfl⟩ := Option.map_eq_some_iff.mp hj
    obtain ⟨hjn, rfl⟩ := List.getElem?_eq_some_iff.mp hi
    rw [List.getElem_range]
    exact hm j (by simpa using hjn)
  · rw [State.thread_setThread_self, e3, hp]
  · rw [State.thread_setThread_self, ← erow r hr, e3, hp]; rfl
  · rw [State.thread_setThread_ne _ _ hj, e2 j hj]
  · have : ∀ th, { u with threads := th } = { s with threads := th, ops := s.ops ++ (List.range n).map op, nextId := s.nextId + n } := by
      intro th; rw [e1]
    have h2 := this (u.setThread k ((u.thread k).pass site s.cur.inRep s.cur.len)).threads
    rw [List.length_map, List.length_range]
    exact h2

/-- The words of a vector access, issued one after another. -/
theorem Issued.of_words {s s1 : State} {k : Nat} {rows : List Nat} {site : Site} {n : Nat} {dest : State → Nat → Dest} {kind : Nat → OpKind}
    {f : Nat → Op → Op} {late : List Nat} (h : OnThread s s1 k (freesRows rows)) (free : State → State)
    (hfree : ∀ u : State, (u.thread k).winbase = (s.thread k).winbase → OnThread u (free u) k (freesRows late)) (d : Nat → Dest)
    (hd : ∀ (a : State) (j : Nat), (a.thread k).winbase = (s.thread k).winbase → dest a j = d j)
    (hm : ∀ j, (f j (s.newOp k (d j) (kind j) j)).IsOf s k j) :
    Issued s ((free ((List.range n).foldl (fun acc j => acc.startOp k [k] (dest acc j) (kind j) (f j)) s1)).advance site [k]) k site
      ((List.range n).map (fun j => f j (s.newOp k (d j) (kind j) j))) (rows ++ late) :=
  Issued.of_startOps n h free hfree _ _
    (fun a j _ _ _ _ hr => ⟨d j, kind j, f j, by
      obtain ⟨rg, os, hr⟩ := hr
      rw [hd a j (by rw [hr]; rfl)], rfl⟩) (fun j _ => hm j)

/-- An operation issued for a lone thread and the thread moved on. -/
theorem Issued.of_startOp {s s1 : State} {k : Nat} {rows late : List Nat} {site : Site} {dest : Dest} {kind : OpKind} {f : Op → Op}
    (h : OnThread s s1 k (freesRows rows)) (free : State → State)
    (hfree : ∀ u : State, (u.thread k).winbase = (s.thread k).winbase → OnThread u (free u) k (freesRows late))
    (hm : (f (s.newOp k dest kind 0)).IsOf s k 0) :
    Issued s ((free (s1.startOp k [k] dest kind f)).advance site [k]) k site [f (s.newOp k dest kind 0)] (rows ++ late) := by
  exact Issued.of_startOps (site := site) 1 h free hfree (fun a _ => a.startOp k [k] dest kind f) (fun j => f (s.newOp k dest kind j))
    (fun a j _ _ _ _ _ => ⟨dest, kind, f, rfl, rfl⟩) (fun j hj => by
      obtain rfl : j = 0 := Nat.lt_one_iff.mp hj
      exact hm)

/-- A long-latency word's entry for a lone thread whose flag is free. -/
theorem State.enterLong_lone {s : State} {k : Nat} {g : Guard} {uses : List Use} {dr : DepthRule}
    (h : s.lone k g { long := true } uses dr) (hf : s.flagFree k) : s.enterLong g uses dr = ⟨s, [k]⟩ := by
  unfold State.enterLong
  rw [State.enter_lone h]
  rcases hf with hr | hb
  · rw [if_pos hr]
  · cases hr : s.cur.inRep <;> simp [hb]

/-- The rows of a memory form's sources freed. -/
theorem State.freeMem_spec (s : State) (k : Nat) (f : MWord) (sp : SpaceCode) (n : Nat) :
    OnThread s (s.freeMem k f sp n) k (freesRows (s.memLastUses k f sp n)) := by
  have ha := s.freeOpd_spec k f.base (regs (baseWide sp)) f.lu.a
  have hb := (s.freeOpd k f.base (regs (baseWide sp)) f.lu.a).freeOpd_spec k f.index 1 f.lu.b
  have hc := ((s.freeOpd k f.base (regs (baseWide sp)) f.lu.a).freeOpd k f.index 1 f.lu.b).freeOpd_spec k f.r n f.lu.c
  have wa := freesRows_winbase ha.this
  have wb := (freesRows_winbase hb.this).trans wa
  rw [State.rowsOf_congr wa] at hb
  rw [State.rowsOf_congr wb] at hc
  exact (ha.trans hb (fun _ _ _ => freesRows_trans)).trans hc (fun _ _ _ => freesRows_trans)

/-- Nothing changed. -/
theorem OnThread.refl (s : State) (k : Nat) : OnThread s s k (freesRows []) := ⟨rfl, fun _ _ => rfl, freesRows_refl _ _⟩

/-- The rows of a register word's sources freed in a state whose thread has the same window. -/
theorem State.freeLu_late {s : State} (k : Nat) (f : FWord) (na nb nc : Nat) (u : State) (h : (u.thread k).winbase = (s.thread k).winbase) :
    OnThread u (u.freeLu k f na nb nc) k (freesRows (s.lastUses k f na nb nc)) := by
  have := u.freeLu_spec k f na nb nc
  unfold State.lastUses at *
  rwa [State.rowsOf_congr h, State.rowsOf_congr h, State.rowsOf_congr h] at this

/-- The same for a memory form. -/
theorem State.freeMem_late {s : State} (k : Nat) (f : MWord) (sp : SpaceCode) (n : Nat) (u : State)
    (h : (u.thread k).winbase = (s.thread k).winbase) : OnThread u (u.freeMem k f sp n) k (freesRows (s.memLastUses k f sp n)) := by
  have := u.freeMem_spec k f sp n
  unfold State.memLastUses at *
  rwa [State.rowsOf_congr h, State.rowsOf_congr h, State.rowsOf_congr h] at this

/-- Freeing rows does not change where a result goes. -/
theorem State.destOf_congr {s t : State} {k : Nat} {rows : List Nat} (h : OnThread s t k (freesRows rows)) (d : Opd) :
    t.destOf k d = s.destOf k d := by cases d <;> simp [State.destOf, freesRows_winbase h.this]

/-- What a .far load or an atomic drops from L1 at issue changes no thread and nothing that an issue reads. -/
theorem State.dropFar_congr {s s1 : State} {k : Nat} {P : Thread → Thread → Prop} (h : OnThread s s1 k P) (p : Place) (c : CacheOp) (n : Nat) :
    OnThread (s.dropFar k p c n) (s1.dropFar k p c n) k P := by
  obtain ⟨th, rfl⟩ : ∃ th, s1 = { s with threads := th } := ⟨_, h.rest⟩
  cases p with
  | l uid off => exact h
  | g loc =>
    cases c
    · exact h
    · exact ⟨rfl, fun j hj => h.other j hj, h.this⟩
    · exact h

theorem State.dropAtomic_congr {s s1 : State} {k : Nat} {P : Thread → Thread → Prop} (h : OnThread s s1 k P) (p : Place) :
    OnThread (s.dropAtomic k p) (s1.dropAtomic k p) k P := by
  obtain ⟨th, rfl⟩ : ∃ th, s1 = { s with threads := th } := ⟨_, h.rest⟩
  cases p with
  | l uid off => exact h
  | g loc => exact ⟨rfl, fun j hj => h.other j hj, h.this⟩

@[simp] theorem State.dropFar_thread (s : State) (k : Nat) (p : Place) (c : CacheOp) (n j : Nat) :
    (s.dropFar k p c n).thread j = s.thread j := by cases p <;> cases c <;> rfl
@[simp] theorem State.dropFar_cur (s : State) (k : Nat) (p : Place) (c : CacheOp) (n : Nat) : (s.dropFar k p c n).cur = s.cur := by
  cases p <;> cases c <;> rfl
@[simp] theorem State.dropAtomic_thread (s : State) (k : Nat) (p : Place) (j : Nat) : (s.dropAtomic k p).thread j = s.thread j := by
  cases p <;> rfl

theorem State.destOf_same {s t : State} {k : Nat} (h : (t.thread k).winbase = (s.thread k).winbase) (d : Opd) :
    t.destOf k d = s.destOf k d := by cases d <;> simp [State.destOf, h]

/-- A lone thread's special function: one operation that carries its result. -/
theorem State.computeLong_lone {s : State} {k : Nat} {f : FWord} {g : BitVec 64 → BitVec 64}
    (h : s.lone k f.guard { long := true } (fUses f false false false false)) (hf : s.flagFree k) :
    ∃ o, Issued s (s.computeLong f g) k { long := true } [o] (s.lastUses k f 1 1 1) ∧ o.dest = s.destOf k f.d ∧
      o.kind = .value (g (s.rd k f.a false)) 1 := by
  refine ⟨s.newOp k (s.destOf k f.d) (.value (g (s.rd k f.a false)) 1) 0, ?_, rfl, rfl⟩
  unfold State.computeLong
  rw [State.enterLong_lone h hf]
  simp only [List.map_cons, List.map_nil, List.foldl_cons, List.foldl_nil]
  exact Issued.of_startOp (f := id) (OnThread.refl s k) (fun u => u.freeLu k f 1 1 1) (State.freeLu_late k f 1 1 1) (s.newOp_isOf k _ _ 0)

/-- A lone thread's load whose check passes: a load of each 8-byte word, or of the whole where it is smaller, and nothing else. -/
theorem State.loadWord_lone {s : State} {k : Nat} {f : MWord} {sp : SpaceCode} {dbg vec : Bool} {p : Place}
    (h : s.lone k f.guard { long := true } (memUses f sp (sizeRegs (memSize f)) true)) (hf : s.flagFree k)
    (hc : s.checkAccess k sp .read (s.memAddr k f sp (memSize f)) (memSize f) (memSize f) = .ok p) :
    ∃ os, Issued (s.dropFar k p (memCache f) (memSize f)) (s.loadWord f sp dbg vec) k { long := true } os (s.memLastUses k f sp 0) ∧
      os.length = memSize f / min (memSize f) 8 ∧
      ∀ j (o : Op), os[j]? = some o → o.isAt (p.word j) ∧ o.dest = (s.destOf k f.r).word j ∧
        ∃ grain, o.kind = .load (min (memSize f) 8) (decide (f.sub.toNat % 8 = 1 ∨ f.sub.toNat % 8 = 3)) (memCache f) grain := by
  unfold State.loadWord
  dsimp only
  rw [State.enterLong_lone h hf]
  simp only [State.checkAll, List.map_cons, List.map_nil, hc, passed, List.filterMap_cons, List.filterMap_nil, List.foldl_cons, List.foldl_nil, State.raiseFailed]
  refine ⟨_, Issued.of_words (OnThread.refl _ k) (fun u => u.freeMem k f sp 0)
    (fun u hw => State.freeMem_late k f sp 0 u (hw.trans (by rw [State.dropFar_thread]))) (fun j => (s.destOf k f.r).word j) (fun a j hw => ?_) (fun j => ?_), ?_, fun j o hj => ?_⟩
  · rw [State.destOf_same (s := s) (hw.trans (by rw [State.dropFar_thread]))]
  · cases p <;> exact (State.newOp_isOf _ k .none (.value 0 0) j).of_eq rfl rfl rfl rfl rfl rfl rfl rfl
  · rw [List.length_map, List.length_range]
  · rw [List.getElem?_map] at hj
    obtain ⟨i, hi, rfl⟩ := Option.map_eq_some_iff.mp hj
    obtain ⟨_, rfl⟩ := List.getElem?_eq_some_iff.mp hi
    rw [List.getElem_range]
    refine ⟨?_, ?_, ?_⟩
    · cases p <;> simp [Op.atPlace, Op.isAt, Op.ordered, Place.word]
    · cases p <;> rfl
    · cases p <;> exact ⟨_, rfl⟩

/-- A lone thread's store whose check passes: a store of each 8-byte word, or of the whole where it is smaller, and nothing else. -/
theorem State.storeWord_lone {s : State} {k : Nat} {f : MWord} {sp : SpaceCode} {dbg vec : Bool} {p : Place}
    (h : s.lone k f.guard {} (memUses f sp (sizeRegs (memSize f)) false))
    (hc : s.checkAccess k sp .write (s.memAddr k f sp (memSize f)) (memSize f) (memSize f) = .ok p) :
    ∃ os, Issued s (s.storeWord f sp dbg vec) k {} os (s.memLastUses k f sp (sizeRegs (memSize f))) ∧
      os.length = memSize f / min (memSize f) 8 ∧
      ∀ j (o : Op), os[j]? = some o → o.isAt (p.word j) ∧ o.dest = .none ∧
        o.kind = .store (((s.storeData k f.r (memSize f)).drop (8 * j)).take 8) (memCache f == .once) := by
  have h1 := s.freeMem_spec k f sp (sizeRegs (memSize f))
  rw [← List.append_nil (s.memLastUses k f sp (sizeRegs (memSize f)))]
  unfold State.storeWord
  dsimp only
  rw [State.enter_lone h]
  simp only [State.checkAll, List.map_cons, List.map_nil, hc, passed, List.filterMap_cons, List.filterMap_nil, List.foldl_cons, List.foldl_nil, State.raiseFailed]
  refine ⟨_, Issued.of_words h1 id (fun u _ => OnThread.refl u k) (fun _ => .none) (fun _ _ _ => rfl) (fun j => ?_), ?_, fun j o hj => ?_⟩
  · cases p <;> exact (State.newOp_isOf _ k .none (.value 0 0) j).of_eq rfl rfl rfl rfl rfl rfl rfl rfl
  · rw [List.length_map, List.length_range]
  · rw [List.getElem?_map] at hj
    obtain ⟨i, hi, rfl⟩ := Option.map_eq_some_iff.mp hj
    obtain ⟨_, rfl⟩ := List.getElem?_eq_some_iff.mp hi
    rw [List.getElem_range]
    refine ⟨?_, ?_, ?_⟩
    · cases p <;> simp [Op.atPlace, Op.isAt, Op.ordered, Place.word]
    · cases p <;> rfl
    · cases p <;> rfl

/-- A lone thread's atomic whose check passes: one operation at the checked place, and nothing else but its line in L1. -/
theorem State.atomWord_lone {s : State} {k : Nat} {f : FWord} {sp : SpaceCode} {posted cas dbg : Bool} {p : Place}
    (h : s.lone k f.guard { long := !posted } (fUses f (wide f.ty) (baseWide sp) (wide f.ty) (wide f.ty))) (hf : posted = true ∨ s.flagFree k)
    (hc : s.checkAccess k sp .atomic (s.rd k f.a (baseWide sp)).toNat (tyBits f.ty / 8) (tyBits f.ty / 8) = .ok p) :
    ∃ o, Issued (s.dropAtomic k p) (s.atomWord f sp posted cas dbg) k { long := !posted } [o]
        (s.lastUses k f (regs (baseWide sp)) (regs (wide f.ty)) (regs (wide f.ty))) ∧
      o.isAt p ∧ o.dest = s.destOf k f.d ∧ o.scope = f.sc.toNat ∧ o.acq = f.mod.getLsbD 0 ∧
      o.kind = .atomic (if cas then .cas else atomOpOf f.sub.toNat) f.ty (s.rd k f.b (wide f.ty)) (s.rd k f.c (wide f.ty)) posted := by
  have he : (if posted then s.enter f.guard {} (fUses f (wide f.ty) (baseWide sp) (wide f.ty) (wide f.ty))
      else s.enterLong f.guard (fUses f (wide f.ty) (baseWide sp) (wide f.ty) (wide f.ty))) = ⟨s, [k]⟩ := by
    cases posted
    · exact State.enterLong_lone h (hf.resolve_left (by simp))
    · exact State.enter_lone h
  unfold State.atomWord
  dsimp only
  rw [he]
  simp only [State.checkAll, List.map_cons, List.map_nil, hc, passed, List.filterMap_cons, List.filterMap_nil, List.foldl_cons, List.foldl_nil, State.raiseFailed]
  refine ⟨_, Issued.of_startOp (OnThread.refl _ k) (fun u => u.freeLu k f (regs (baseWide sp)) (regs (wide f.ty)) (regs (wide f.ty)))
    (fun u hw => State.freeLu_late k f _ _ _ u (hw.trans (by rw [State.dropAtomic_thread]))) ?_, ?_, ?_, ?_, ?_, ?_⟩
  · cases p <;> exact (State.newOp_isOf _ k .none (.value 0 0) 0).of_eq rfl rfl rfl rfl rfl rfl rfl rfl
  · cases p <;> simp [Op.atPlace, Op.isAt, Op.ordered]
  · cases p <;> rfl
  · cases p <;> rfl
  · cases p <;> rfl
  · cases p <;> cases cas <;> rfl

end Sys2Proof.Machine
end

