-- ==== Sys2Proof/Laws/Memory.lean ====
section
/-! SUPPORT. What a read of device memory gives where nothing stands between the address and its byte, and that every write at the
home slice keeps memory in its canonical form. -/

namespace Sys2Proof.Machine

theorem mapIdx_id {α : Type} (l : List α) : l.mapIdx (fun _ b => b) = l := by
  apply List.ext_getElem <;> simp

/-- Bytes without poison are received as they are. -/
theorem Got.clean_of_no_poison (g : Got) (base : Nat) (h : g.poison = []) : g.clean base = g.bytes := by
  simp [Got.clean, h, mapIdx_id]

/-- Outside the alias ranges, with no unit moved and no word poisoned, a read in world 0 gives the bytes of memory. -/
theorem State.homeRead_plain (s : State) (dpa n : Nat) (ha : isAlias dpa = false) (hm : s.moved = []) (hp : s.poison = []) :
    s.homeRead 0 dpa n = { bytes := Memory.readN s.mem dpa n } := by
  have place : ∀ a, s.place a = a := fun a => by simp [State.place, hm, Tab.find]
  simp [State.homeRead, ha, State.rawRead, place, State.plainByte, Memory.readN, hp, Tab.getD, Tab.find]

/-- A read of what has just been written. -/
theorem Memory.readN_writeN (m : Memory) (a : Nat) (bs : List Byte) : Memory.readN (Memory.writeN m a bs) a bs.length = bs := by
  apply List.ext_getElem
  · simp [Memory.readN]
  · intro i h1 h2
    simp [Memory.readN, Memory.read_writeN, h2]

theorem State.storeByte_inv (s : State) (world dpa : Nat) (v : Byte) (h : s.Inv) : (s.storeByte world dpa v).Inv := by
  unfold State.Inv at *
  unfold State.storeByte
  split
  · exact Memory.wf_write _ _ _ h
  · exact Memory.wf_writeN _ _ _ h

/-- A fold of steps that each keep a property keeps it. -/
theorem foldl_keeps {α β : Type} {P : α → Prop} {f : α → β → α} (step : ∀ a b, P a → P (f a b)) (l : List β) :
    ∀ a, P a → P (l.foldl f a) := by
  induction l with
  | nil => exact fun _ h => h
  | cons b l ih => exact fun a h => ih _ (step a b h)

theorem State.hitMonitors_mem (s : State) (line : Nat) : (s.hitMonitors line).mem = s.mem := rfl

theorem State.snoop_mem (s : State) (line : Nat) : (s.snoop line).mem = s.mem := by unfold State.snoop; split <;> rfl

theorem State.snoopWrite_mem (s : State) (line dpa n : Nat) : (s.snoopWrite line dpa n).mem = s.mem := by
  unfold State.snoopWrite; split <;> rfl

theorem State.dropAlias_mem (s : State) (line dpa n : Nat) : (s.dropAlias line dpa n).mem = s.mem := by
  unfold State.dropAlias; rw [State.snoopWrite_mem]

/-- A write in progress is seen by the monitors, the host and the alias lines without any change of memory. -/
theorem State.seenAt_inv (s : State) (line dpa n : Nat) (h : s.Inv) : ((s.hitMonitors line).snoopWrite line dpa n).Inv := by
  unfold State.Inv at *; rw [State.snoopWrite_mem, State.hitMonitors_mem]; exact h

theorem State.rawWrite_inv (s : State) (world dpa : Nat) (data : List Byte) (h : s.Inv) : (s.rawWrite world dpa data).Inv := by
  unfold State.rawWrite
  refine foldl_keeps (P := State.Inv) (fun a l ha => ?_) _ _ ?_
  · unfold State.Inv at *; rw [State.dropAlias_mem]; exact ha
  · refine foldl_keeps (P := State.Inv) (fun a l ha => State.seenAt_inv a l _ _ ha) _ _ ?_
    exact foldl_keeps (P := State.Inv) (fun a i ha => State.storeByte_inv _ _ _ _ ha) (List.range data.length) s h

theorem State.fwWrite_inv (s : State) (key : Nat) (x : BitVec 256) (k word : Nat) (h : s.Inv) : (s.fwWrite key x k word).Inv := by
  unfold State.fwWrite
  dsimp only
  split <;> split <;> first | exact h | exact State.rawWrite_inv _ _ _ _ h

/-- A write through alias lines, in plaintext. -/
theorem State.aliasWrite_inv (s : State) (dpa : Nat) (data : List Byte) (h : s.Inv) : (s.aliasWrite dpa data).Inv := by
  unfold State.aliasWrite
  refine foldl_keeps (P := State.Inv) (fun a l ha => ?_) _ _ (foldl_keeps (P := State.Inv) (fun a j ha => ?_) _ _ h)
  · split
    · exact State.seenAt_inv a l _ _ ha
    · exact ha
  · dsimp only; split
    · exact ha
    · exact State.fwWrite_inv _ _ _ _ _ ha

/-- A write performed at the home slice, through a window or not. -/
theorem State.homeWrite_inv (s : State) (world dpa : Nat) (data : List Byte) (h : s.Inv) : (s.homeWrite world dpa data).Inv := by
  unfold State.homeWrite State.aliasWriteSealed
  dsimp only
  split
  · split <;> exact State.aliasWrite_inv _ _ _ h
  · exact State.rawWrite_inv _ _ _ _ h

/-- Counting an activation changes the counts of rows, the limits and a performance counter, and nothing else (R201, R349). -/
theorem State.countActivation_frame (s : State) (owner : Nat) (core : Option Nat) (row : Nat) (there : Bool) :
    let t := s.countActivation owner core row there
    t = { s with cores := t.cores, rows := t.rows, limits := t.limits, lastActs := t.lastActs } := by
  unfold State.countActivation
  cases core
  · rfl
  · dsimp only; split <;> rfl

theorem State.activate_frame (s : State) (owner : Nat) (core : Option Nat) (dpa n : Nat) :
    let t := s.activate owner core dpa n
    t = { s with cores := t.cores, rows := t.rows, limits := t.limits, lastActs := t.lastActs } := by
  dsimp only [State.activate]
  split
  · rfl
  · exact State.countActivation_frame ..

/-- What a thread's releases make known changes the back-invalidates on their way alone (R242). -/
theorem State.expose_frame (s : State) (k : Nat) : s.expose k = { s with snoops := (s.expose k).snoops } := by
  unfold State.expose; split <;> rfl

end Sys2Proof.Machine
end

