-- ==== Sys2Proof/Laws/Once.lean ====
section
/-! SUPPORT. The law of words that act once, and of every word that gives one thread a result beside an effect of its own. -/

namespace Sys2Proof.Machine

/-- A result written for a lone thread whose rows have been freed, and the thread moved on. -/
theorem Computed.once {s s2 : State} {k : Nat} {d : Opd} {dw : Bool} {v : BitVec 64} {freed : List Nat} {site : Site}
    (hk : s.curKeys = [k]) (hg : k / 32 = s.curG) (h : OnThread s s2 k (freesRows freed)) :
    Computed s ((s2.writeAll d dw [k] (fun _ => v)).advance site [k]) [k] d dw (fun _ => freed) site (fun _ => v) := by
  have nd : [k].Nodup := List.nodup_singleton k
  have r2 : s2 = { s with threads := s2.threads } := h.rest
  have c2 : s2.cur = s.cur := by rw [r2]
  have off : ∀ j ∈ s.curKeys, j ∉ [k] → ∀ t : State, t.thread j = (s.thread j).pass site.off s.cur.inRep s.cur.len := by
    intro j hj hn; rw [hk] at hj; exact absurd hj hn
  cases hd : isUni d
  · have A3 := s2.writeAll_spec nd hd dw (fun _ => v)
    revert A3
    generalize s2.writeAll d dw [k] (fun _ => v) = s3
    intro A3
    have A4 := s3.advance_spec site nd
    have c3 : s3.cur = s.cur := by rw [A3.rest, c2]
    rw [c3] at A4
    have rest : s3.advance site [k] = { s with threads := (s3.advance site [k]).threads } := by rw [A4.rest, A3.rest, r2]
    generalize s3.advance site [k] = t at A4 rest
    refine Computed.of_runDone ⟨fun j hj => ?_, fun j hj hn => off j hj hn t, fun j hj => ?_⟩ ?_ ?_ ?_ ?_
    · obtain rfl : j = k := by simpa using hj
      rw [A4.this j hj]
      exact Done.of_steps h.this (A3.this j hj)
    · rw [hk] at hj
      rw [A4.other j hj, A3.other j hj, h.other j (by simpa using hj)]
    · intro j _ hu; rw [hd] at hu; cases hu
    · intro g r _; rw [rest]; rfl
    · intro g; rw [rest]; rfl
    · rw [rest]
  · obtain ⟨i, hi⟩ : ∃ i, d = .s i := by cases hfd : d <;> simp [hfd, isUni] at hd; exact ⟨_, rfl⟩
    subst hi
    have hg2 : s2.group s.curG = s.group s.curG := by rw [r2]; rfl
    have e3 : s2.writeAll (.s i) dw [k] (fun _ => v) =
        s2.setGroup s.curG (if dw then (s.group s.curG).setPair i v else (s.group s.curG).setReg i (v.setWidth 32)) := by
      simp only [State.writeAll, hd, if_true, State.wr, hg, State.updGroup_eq, hg2]
    rw [e3]
    generalize hG : (if dw then (s.group s.curG).setPair i v else (s.group s.curG).setReg i (v.setWidth 32)) = G
    have A4 := (s2.setGroup s.curG G).advance_spec site nd
    rw [State.setGroup_cur, c2] at A4
    have rest : (s2.setGroup s.curG G).advance site [k] =
        { s with threads := ((s2.setGroup s.curG G).advance site [k]).threads, groups := (s.setGroup s.curG G).groups } := by
      have key : ∀ th, { s2.setGroup s.curG G with threads := th } =
          { s with threads := th, groups := (s.setGroup s.curG G).groups } := by intro th; rw [r2]; rfl
      exact A4.rest.trans (key _)
    generalize (s2.setGroup s.curG G).advance site [k] = t at A4 rest
    have hgroup : ∀ g, t.group g = if g = s.curG then G else s.group g := by
      intro g; rw [rest]; exact State.group_setGroup s s.curG g G
    refine Computed.of_runDone ⟨fun j hj => ?_, fun j hj hn => off j hj hn t, fun j hj => ?_⟩ ?_ ?_ ?_ ?_
    · obtain rfl : j = k := by simpa using hj
      rw [A4.this j hj]
      exact Done.of_steps h.this (WritesTo.none dw _ hd _)
    · rw [hk] at hj
      rw [A4.other j hj, State.thread_setGroup, h.other j (by simpa using hj)]
    · intro j hj _
      obtain rfl : j = k := by simpa using hj
      simp only [State.holds, State.rd, hg, hgroup, if_true, ← hG]
      cases dw
      · simp only [Bool.false_eq_true, if_false, Group.reg_setReg, if_true]; exact low32 _
      · simp only [if_true, Group.pair_setPair]
    · intro g r hr
      rw [hgroup]
      split
      · rename_i hg
        subst hg
        have := hr rfl (by simp)
        rw [← hG]
        cases dw
        · simp [uniRows, regs] at this
          simp [Group.reg_setReg, this]
        · simp [uniRows, regs, List.range_succ] at this
          simp [Group.setPair, Group.reg_setReg, this]
      · rfl
    · intro g
      rw [hgroup]
      split
      · rename_i hg; subst hg; rw [← hG]; cases dw <;> rfl
      · rfl
    · have hg := congrArg (fun x : State => x.groups) rest
      dsimp only at hg
      rw [hg]; exact rest

theorem State.writeAll_one (s : State) (d : Opd) (dw : Bool) (k : Nat) (v : Nat → BitVec 64) : s.writeAll d dw [k] v = s.wr k d dw (v k) := by
  unfold State.writeAll; split <;> rfl

theorem OnThread.refl_frees (s : State) (k : Nat) : OnThread s s k (freesRows []) := ⟨rfl, fun _ _ => rfl, freesRows_refl _ _⟩

/-- A word without a destination, its rows freed. -/
theorem Computed.zero {s s2 : State} {k : Nat} {freed : List Nat} {site : Site} {v : BitVec 64}
    (hk : s.curKeys = [k]) (hg : k / 32 = s.curG) (h : OnThread s s2 k (freesRows freed)) :
    Computed s (s2.advance site [k]) [k] .zero false (fun _ => freed) site (fun _ => v) := by
  have := Computed.once (d := .zero) (dw := false) (v := v) (site := site) hk hg h
  rwa [State.writeAll_one] at this

/-- A quiet thread has observed no store that is still to be performed. -/
theorem State.observedIds_quiet {s : State} {k : Nat} (h : s.quiet k) (below : Nat) : s.observedIds k below = [] := by
  obtain ⟨-, h2, h3, -⟩ := h
  simp [State.observedIds, h2, h3]

/-- Nothing of a quiet thread holds a release back. -/
theorem State.drainAll_quiet {s : State} {k : Nat} (scope : Nat) (h : s.quiet k) : s.drainAll [k] scope = (s, [k]) := by
  have ho := State.observedIds_quiet h
  obtain ⟨h1, -, -, h3⟩ := h
  have hd : s.drain k scope = s := by
    unfold State.drain
    simp [h1, ho, sortBy]
  have hr : s.released k scope = true := by
    unfold State.released
    simp [h1, ho, State.snoopHeld, h3]
  have he : s.expose k = s := by
    unfold State.expose
    simp [h3]
  simp [State.drainAll, hd, hr, he]

/-- A quiet thread's release is done. -/
theorem State.released_quiet {s : State} {k : Nat} (scope : Nat) (h : s.quiet k) : s.released k scope = true := by
  have ho := State.observedIds_quiet h
  obtain ⟨h1, -, -, h3⟩ := h
  unfold State.released
  simp [h1, ho, State.snoopHeld, h3]

/-- What the fences of a thread that is ready for an access hold back is done. -/
theorem State.fences_ready {s : State} {k : Nat} (h : (s.thread k).rels = [] ∨ s.quiet k) :
    s.drainFences k = s ∧ s.fencesDone k = true := by
  rcases h with h | h
  · simp [State.drainFences, State.fencesDone, h]
  · have ho := State.observedIds_quiet h
    obtain ⟨h1, -, -, h3⟩ := h
    refine ⟨?_, ?_⟩
    · unfold State.drainFences
      generalize (s.thread k).rels = ws
      have : ∀ w : Nat × Nat, (sortBy id (((s.threadOps k).filter (fun o => o.id < w.1)).map Op.id ++ (if w.2 ≤ 2 then [] else s.observedIds k w.1))).foldl
          (fun acc i => acc.push i w.2) s = s := by
        intro w; simp [h1, ho, sortBy]
      induction ws with
      | nil => rfl
      | cons w ws ih => rw [List.foldl_cons, this w]; exact ih
    · unfold State.fencesDone
      simp only [h1, ho, List.all_nil, List.all_eq_true, Bool.true_and, Bool.and_eq_true, Bool.or_eq_true, decide_eq_true_eq]
      intro w _
      refine ⟨Or.inr trivial, Or.inr ?_⟩
      simp [State.snoopHeld, h3]

theorem State.drainOrdered_ready {s : State} {k : Nat} (h : s.accessReady k) : s.drainOrdered k = s := by
  unfold State.drainOrdered
  rw [List.filter_eq_nil_iff.mpr (fun o ho => by simp [h.1 o ho])]
  exact (State.fences_ready h.2).1

theorem State.accessFree_ready {s : State} {k : Nat} (h : s.accessReady k) : s.accessFree k = true := by
  unfold State.accessFree
  rw [(State.fences_ready h.2).2, Bool.true_and, List.all_eq_true]
  intro o ho; simp [h.1 o ho]

/-- What a word that acts once for a lone thread waits for is done. -/
def State.readyFor (s : State) (k : Nat) : Prior → Prop
  | .nothing => True
  | .table => s.accessReady k
  | .scratch => s.scratchReady k
  | .release _ => s.quiet k

/-- A word of a ready lone thread acts at once. -/
theorem State.prepare_ready {s : State} {k : Nat} {b : Prior} (h : s.readyFor k b) : s.prepare [k] b = s ∧ s.prepared [k] b = true := by
  cases b with
  | nothing => exact ⟨rfl, rfl⟩
  | table =>
    refine ⟨State.drainOrdered_ready h, ?_⟩
    simpa [State.prepared] using State.accessFree_ready h
  | scratch =>
    have hd := State.drainOrdered_ready h.1
    refine ⟨?_, ?_⟩
    · simp only [State.prepare, State.drainScratch, List.foldl_cons, List.foldl_nil, hd]
      rw [List.filter_eq_nil_iff.mpr (fun o ho => ?_)]
      · rfl
      · have := h.2 o ho
        cases hm : o.isMem
        · simp
        · simp [this hm]
    · simp only [State.prepared, State.scratchQuiet, List.all_cons, List.all_nil, Bool.and_true, State.accessFree_ready h.1, Bool.true_and,
        List.all_eq_true]
      intro o ho
      have := h.2 o ho
      cases hm : o.isMem
      · simp
      · simp [this hm]
  | release scope =>
    have h1 := State.drainAll_quiet scope h
    refine ⟨by simp only [State.prepare, h1], ?_⟩
    simpa [State.prepared] using State.released_quiet scope h

/-- A word that acts once, for a lone thread: its fault is raised, or its result is written and the thread moves on. -/
theorem State.onceWord_lone {s : State} {f : FWord} {uses : List Use} {dr : DepthRule} {b : Prior} {dw : Bool} {k : Nat}
    {act : State → Nat → Except FaultInfo (State × BitVec 64)} (h : s.lone k f.guard {} uses dr) (hb : s.readyFor k b) :
    s.onceWord f uses dr b dw act = match act s k with
      | .error fi => s.raise k fi
      | .ok r => (r.1.writeAll f.d dw [k] (fun _ => r.2)).advance {} [k] := by
  unfold State.onceWord
  rw [State.enter_lone h]
  simp only [State.prepare_ready hb]
  rfl

theorem State.threadOps_entry {s : State} (h : s.runOk) (g : Guard) (k : Nat) : (s.entryState g).threadOps k = s.threadOps k := by
  rw [s.entryState_eq h g]; rfl

/-- A thread that is ready stays so while the inactive threads of its run move on. -/
theorem State.accessReady_entry {s : State} (h : s.runOk) (g : Guard) {k : Nat} (hk : k ∈ s.actives g) (hr : s.accessReady k) :
    (s.entryState g).accessReady k := by
  have ht := State.entryState_thread h g hk
  have ho := State.threadOps_entry h g k
  have hl : (s.entryState g).snoops = s.snoops := by rw [s.entryState_eq h g]
  unfold State.accessReady State.quiet
  rw [ht, ho, hl]
  exact hr

/-- The law of words that read a table. -/
theorem Reads.of_readTable {i : Instr} {s : State} {f : FWord} {dw : Bool} {val : State → Nat → BitVec 64} {v : Nat → BitVec 64}
    (hi : exec i s = .next (s.readTable f dw val)) (hv : s.runOk → ∀ k ∈ s.actives f.guard, val (s.entryState f.guard) k = v k) :
    Reads i s f dw v := by
  intro hr h
  have hrun := h.1
  have main : ∀ ks : List Nat, (∀ k ∈ ks, k ∈ s.actives f.guard) →
      (s.entryState f.guard).prepare ks .table = s.entryState f.guard ∧ (s.entryState f.guard).prepared ks .table = true := by
    intro ks hks
    have one : ∀ k ∈ ks, (s.entryState f.guard).accessReady k := fun k hk => State.accessReady_entry hrun _ (hks k hk) (hr k (hks k hk))
    refine ⟨?_, ?_⟩
    · clear hks
      induction ks with
      | nil => rfl
      | cons k ks ih =>
        have h1 := State.drainOrdered_ready (one k (List.mem_cons_self ..))
        simp only [State.prepare, List.foldl_cons, h1]
        exact ih (fun j hj => one j (List.mem_cons_of_mem _ hj))
    · simp only [State.prepared, List.all_eq_true]
      exact fun k hk => State.accessFree_ready (one k hk)
  have m := main (s.actives f.guard) (fun _ h => h)
  have he : s.readTable f dw val = s.computeRun f dw false false false (fun st _ => val st) := by
    unfold State.readTable State.computeRun
    rw [State.enter_clean h, Site.off_default]
    dsimp only
    have e : s.advance {} (s.curKeys.filter (fun k => !s.active f.guard k)) = s.entryState f.guard := rfl
    rw [e, m.1, m.2]
    rfl
  refine ⟨_, hi, ?_⟩
  rw [he]
  exact (State.computeRun_spec h).congr (hv hrun)

end Sys2Proof.Machine
end

