-- ==== Sys2Proof/Laws/Ordering.lean ====
section
/-! SUPPORT. What the bookkeeping of the memory model changes: acquires and observations change threads only, releases the views or the
operations, back-invalidates the list of those on their way, and none of them a byte of memory. -/

namespace Sys2Proof.Machine

variable (s : State)

/-- A fold of steps each of which changes threads only changes threads only. -/
theorem foldl_threads {α : Type} (f : State → α → State) (hf : ∀ t a, ∃ x, f t a = { t with threads := x }) (l : List α) (s : State) :
    ∃ x, l.foldl f s = { s with threads := x } := by
  induction l generalizing s with
  | nil => exact ⟨_, rfl⟩
  | cons a l ih =>
    obtain ⟨x, hx⟩ := hf s a
    obtain ⟨y, hy⟩ := ih (f s a)
    exact ⟨y, by rw [List.foldl_cons, hy, hx]⟩

/-- An acquire changes its thread only (R230, R231). -/
theorem State.acquire_threads (k : Nat) (ids : List Nat) : s.acquire k ids = { s with threads := (s.acquire k ids).threads } := by
  unfold State.acquire; split <;> rfl

/-- So does one from a release that the model does not follow (R233). -/
theorem State.takeKnown_threads (k : Nat) : s.takeKnown k = { s with threads := (s.takeKnown k).threads } := s.acquire_threads k _

/-- An acquire at system scope changes the threads of its operation only (R242). -/
theorem State.acquireSystem_threads (o : Op) : s.acquireSystem o = { s with threads := (s.acquireSystem o).threads } := by
  unfold State.acquireSystem
  split
  · rfl
  · obtain ⟨x, hx⟩ := foldl_threads (fun (acc : State) k =>
      if (o.acq && o.scope == 6) || (s.thread k).acqFences.any (fun f => f.2 == 6 && o.id < f.1) then acc.updThread k s.withSystem else acc)
      (fun t k => by split <;> exact ⟨_, rfl⟩) (s.opKeys o) s
    rw [hx]

/-- A release leaves views and nothing else (R230). -/
theorem State.publish_views (o : Op) : s.publish o = { s with views := (s.publish o).views } := by
  unfold State.publish
  dsimp only
  split <;> split <;> rfl

/-- A write performed ends views and nothing else (R230). -/
theorem State.overwrite_views (o : Op) : s.overwrite o = { s with views := (s.overwrite o).views } := by
  unfold State.overwrite; split <;> rfl

/-- A group that leaves its core fixes what its pending releases wait for, and changes nothing else (R230, R231, R320). -/
theorem State.pinReleases_ops (g : Nat) : s.pinReleases g = { s with ops := (s.pinReleases g).ops } := rfl

/-- To say whose writes the latest back-invalidates are of changes only their list (R237, R242, R360). -/
theorem State.ownSnoops_snoops (o : Op) (n : Nat) : s.ownSnoops o n = { s with snoops := (s.ownSnoops o n).snoops } := by
  unfold State.ownSnoops; split <;> rfl
theorem State.queueSnoops_snoops (q n : Nat) : s.queueSnoops q n = { s with snoops := (s.queueSnoops q n).snoops } := by
  unfold State.queueSnoops; split <;> rfl
theorem State.knownSnoops_snoops (n : Nat) : s.knownSnoops n = { s with snoops := (s.knownSnoops n).snoops } := by
  unfold State.knownSnoops; split <;> rfl
theorem State.expose_snoops (k : Nat) : s.expose k = { s with snoops := (s.expose k).snoops } := by
  unfold State.expose; split <;> rfl

@[simp] theorem State.acquire_mem (k : Nat) (ids : List Nat) : (s.acquire k ids).mem = s.mem := by rw [State.acquire_threads]
@[simp] theorem State.takeKnown_mem (k : Nat) : (s.takeKnown k).mem = s.mem := by rw [State.takeKnown_threads]
@[simp] theorem State.acquireSystem_mem (o : Op) : (s.acquireSystem o).mem = s.mem := by rw [State.acquireSystem_threads]
@[simp] theorem State.publish_mem (o : Op) : (s.publish o).mem = s.mem := by rw [State.publish_views]
@[simp] theorem State.overwrite_mem (o : Op) : (s.overwrite o).mem = s.mem := by rw [State.overwrite_views]
@[simp] theorem State.pinReleases_mem (g : Nat) : (s.pinReleases g).mem = s.mem := rfl
@[simp] theorem State.ownSnoops_mem (o : Op) (n : Nat) : (s.ownSnoops o n).mem = s.mem := by rw [State.ownSnoops_snoops]
@[simp] theorem State.queueSnoops_mem (q n : Nat) : (s.queueSnoops q n).mem = s.mem := by rw [State.queueSnoops_snoops]
@[simp] theorem State.knownSnoops_mem (n : Nat) : (s.knownSnoops n).mem = s.mem := by rw [State.knownSnoops_snoops]
@[simp] theorem State.expose_mem (k : Nat) : (s.expose k).mem = s.mem := by rw [State.expose_snoops]

end Sys2Proof.Machine
end

