-- ==== Sys2Proof/Laws/PerInstr.lean ====
section
/-! SUPPORT. For every instruction: its words in memory are at most two, as a prefix and its word are (R25, R48). -/

namespace Sys2Proof.Laws.AtMostTwoWords

/-- An instruction has at most two words. -/
def Statement (i : Instr) : Prop := (encode i).length ≤ 2

theorem packI_length (op : BitVec 8) (f : IWord) : (packI op f).length ≤ 2 := by
  unfold packI
  split <;> simp

theorem iadd : ∀ a0, Statement (.iadd a0) := fun _ => Nat.le_of_ble_eq_true rfl
theorem iaddi : ∀ a0, Statement (.iaddi a0) := fun _ => packI_length _ _
theorem isub : ∀ a0, Statement (.isub a0) := fun _ => Nat.le_of_ble_eq_true rfl
theorem irsbi : ∀ a0, Statement (.irsbi a0) := fun _ => packI_length _ _
theorem imul : ∀ a0, Statement (.imul a0) := fun _ => Nat.le_of_ble_eq_true rfl
theorem imuli : ∀ a0, Statement (.imuli a0) := fun _ => packI_length _ _
theorem imulhi : ∀ a0, Statement (.imulhi a0) := fun _ => Nat.le_of_ble_eq_true rfl
theorem imad : ∀ a0, Statement (.imad a0) := fun _ => Nat.le_of_ble_eq_true rfl
theorem imadw : ∀ a0, Statement (.imadw a0) := fun _ => Nat.le_of_ble_eq_true rfl
theorem imin : ∀ a0, Statement (.imin a0) := fun _ => Nat.le_of_ble_eq_true rfl
theorem imax : ∀ a0, Statement (.imax a0) := fun _ => Nat.le_of_ble_eq_true rfl
theorem iabs : ∀ a0, Statement (.iabs a0) := fun _ => Nat.le_of_ble_eq_true rfl
theorem iadds : ∀ a0, Statement (.iadds a0) := fun _ => Nat.le_of_ble_eq_true rfl
theorem isubs : ∀ a0, Statement (.isubs a0) := fun _ => Nat.le_of_ble_eq_true rfl
theorem lea : ∀ a0, Statement (.lea a0) := fun _ => Nat.le_of_ble_eq_true rfl
theorem leai : ∀ a0, Statement (.leai a0) := fun _ => packI_length _ _
theorem and : ∀ a0, Statement (.and a0) := fun _ => Nat.le_of_ble_eq_true rfl
theorem andi : ∀ a0, Statement (.andi a0) := fun _ => packI_length _ _
theorem or : ∀ a0, Statement (.or a0) := fun _ => Nat.le_of_ble_eq_true rfl
theorem ori : ∀ a0, Statement (.ori a0) := fun _ => packI_length _ _
theorem xor : ∀ a0, Statement (.xor a0) := fun _ => Nat.le_of_ble_eq_true rfl
theorem xori : ∀ a0, Statement (.xori a0) := fun _ => packI_length _ _
theorem not : ∀ a0, Statement (.not a0) := fun _ => Nat.le_of_ble_eq_true rfl
theorem shl : ∀ a0, Statement (.shl a0) := fun _ => Nat.le_of_ble_eq_true rfl
theorem shli : ∀ a0, Statement (.shli a0) := fun _ => packI_length _ _
theorem shr : ∀ a0, Statement (.shr a0) := fun _ => Nat.le_of_ble_eq_true rfl
theorem shri : ∀ a0, Statement (.shri a0) := fun _ => packI_length _ _
theorem dsh : ∀ a0, Statement (.dsh a0) := fun _ => Nat.le_of_ble_eq_true rfl
theorem bfe : ∀ a0, Statement (.bfe a0) := fun _ => Nat.le_of_ble_eq_true rfl
theorem bfi : ∀ a0, Statement (.bfi a0) := fun _ => Nat.le_of_ble_eq_true rfl
theorem popc : ∀ a0, Statement (.popc a0) := fun _ => Nat.le_of_ble_eq_true rfl
theorem clz : ∀ a0, Statement (.clz a0) := fun _ => Nat.le_of_ble_eq_true rfl
theorem icmp : ∀ a0, Statement (.icmp a0) := fun _ => Nat.le_of_ble_eq_true rfl
theorem icmpi : ∀ a0, Statement (.icmpi a0) := fun _ => packI_length _ _
theorem fcmp : ∀ a0, Statement (.fcmp a0) := fun _ => Nat.le_of_ble_eq_true rfl
theorem plog : ∀ a0, Statement (.plog a0) := fun _ => Nat.le_of_ble_eq_true rfl
theorem sel : ∀ a0, Statement (.sel a0) := fun _ => Nat.le_of_ble_eq_true rfl
theorem seli : ∀ a0, Statement (.seli a0) := fun _ => packI_length _ _
theorem mov : ∀ a0, Statement (.mov a0) := fun _ => Nat.le_of_ble_eq_true rfl
theorem movi : ∀ a0, Statement (.movi a0) := fun _ => packI_length _ _
theorem movu : ∀ a0, Statement (.movu a0) := fun _ => Nat.le_of_ble_eq_true rfl
theorem vote : ∀ a0, Statement (.vote a0) := fun _ => Nat.le_of_ble_eq_true rfl
theorem ballot : ∀ a0, Statement (.ballot a0) := fun _ => Nat.le_of_ble_eq_true rfl
theorem matchT : ∀ a0, Statement (.matchT a0) := fun _ => Nat.le_of_ble_eq_true rfl
theorem prmt : ∀ a0, Statement (.prmt a0) := fun _ => Nat.le_of_ble_eq_true rfl
theorem brev : ∀ a0, Statement (.brev a0) := fun _ => Nat.le_of_ble_eq_true rfl
theorem fadd : ∀ a0, Statement (.fadd a0) := fun _ => Nat.le_of_ble_eq_true rfl
theorem fsub : ∀ a0, Statement (.fsub a0) := fun _ => Nat.le_of_ble_eq_true rfl
theorem fmul : ∀ a0, Statement (.fmul a0) := fun _ => Nat.le_of_ble_eq_true rfl
theorem ffma : ∀ a0, Statement (.ffma a0) := fun _ => Nat.le_of_ble_eq_true rfl
theorem fmin : ∀ a0, Statement (.fmin a0) := fun _ => Nat.le_of_ble_eq_true rfl
theorem fmax : ∀ a0, Statement (.fmax a0) := fun _ => Nat.le_of_ble_eq_true rfl
theorem fclamp : ∀ a0, Statement (.fclamp a0) := fun _ => Nat.le_of_ble_eq_true rfl
theorem frcp : ∀ a0, Statement (.frcp a0) := fun _ => Nat.le_of_ble_eq_true rfl
theorem frsq : ∀ a0, Statement (.frsq a0) := fun _ => Nat.le_of_ble_eq_true rfl
theorem fex2 : ∀ a0, Statement (.fex2 a0) := fun _ => Nat.le_of_ble_eq_true rfl
theorem flg2 : ∀ a0, Statement (.flg2 a0) := fun _ => Nat.le_of_ble_eq_true rfl
theorem fsin : ∀ a0, Statement (.fsin a0) := fun _ => Nat.le_of_ble_eq_true rfl
theorem fcos : ∀ a0, Statement (.fcos a0) := fun _ => Nat.le_of_ble_eq_true rfl
theorem fround : ∀ a0, Statement (.fround a0) := fun _ => Nat.le_of_ble_eq_true rfl
theorem fabs : ∀ a0, Statement (.fabs a0) := fun _ => Nat.le_of_ble_eq_true rfl
theorem fneg : ∀ a0, Statement (.fneg a0) := fun _ => Nat.le_of_ble_eq_true rfl
theorem hadd : ∀ a0, Statement (.hadd a0) := fun _ => Nat.le_of_ble_eq_true rfl
theorem hsub : ∀ a0, Statement (.hsub a0) := fun _ => Nat.le_of_ble_eq_true rfl
theorem hmul : ∀ a0, Statement (.hmul a0) := fun _ => Nat.le_of_ble_eq_true rfl
theorem hfma : ∀ a0, Statement (.hfma a0) := fun _ => Nat.le_of_ble_eq_true rfl
theorem hmin : ∀ a0, Statement (.hmin a0) := fun _ => Nat.le_of_ble_eq_true rfl
theorem hmax : ∀ a0, Statement (.hmax a0) := fun _ => Nat.le_of_ble_eq_true rfl
theorem habs : ∀ a0, Statement (.habs a0) := fun _ => Nat.le_of_ble_eq_true rfl
theorem hneg : ∀ a0, Statement (.hneg a0) := fun _ => Nat.le_of_ble_eq_true rfl
theorem hdot2 : ∀ a0, Statement (.hdot2 a0) := fun _ => Nat.le_of_ble_eq_true rfl
theorem lmul : ∀ a0, Statement (.lmul a0) := fun _ => Nat.le_of_ble_eq_true rfl
theorem ladd : ∀ a0, Statement (.ladd a0) := fun _ => Nat.le_of_ble_eq_true rfl
theorem cvt : ∀ a0, Statement (.cvt a0) := fun _ => Nat.le_of_ble_eq_true rfl
theorem cvtl : ∀ a0, Statement (.cvtl a0) := fun _ => Nat.le_of_ble_eq_true rfl
theorem cvtn : ∀ a0, Statement (.cvtn a0) := fun _ => Nat.le_of_ble_eq_true rfl
theorem cvtw : ∀ a0, Statement (.cvtw a0) := fun _ => Nat.le_of_ble_eq_true rfl
theorem deq : ∀ a0, Statement (.deq a0) := fun _ => Nat.le_of_ble_eq_true rfl
theorem bdotDb4 : ∀ a0, Statement (.bdotDb4 a0) := fun _ => Nat.le_of_ble_eq_true rfl
theorem bdotMxfp4 : ∀ a0, Statement (.bdotMxfp4 a0) := fun _ => Nat.le_of_ble_eq_true rfl
theorem bdotTsc : ∀ a0, Statement (.bdotTsc a0) := fun _ => Nat.le_of_ble_eq_true rfl
theorem qblk : ∀ a0, Statement (.qblk a0) := fun _ => Nat.le_of_ble_eq_true rfl
theorem shfl : ∀ a0, Statement (.shfl a0) := fun _ => Nat.le_of_ble_eq_true rfl
theorem shflx : ∀ a0, Statement (.shflx a0) := fun _ => Nat.le_of_ble_eq_true rfl
theorem xbar : ∀ a0, Statement (.xbar a0) := fun _ => Nat.le_of_ble_eq_true rfl
theorem scan : ∀ a0, Statement (.scan a0) := fun _ => Nat.le_of_ble_eq_true rfl
theorem scanseg : ∀ a0, Statement (.scanseg a0) := fun _ => Nat.le_of_ble_eq_true rfl
theorem reduce : ∀ a0, Statement (.reduce a0) := fun _ => Nat.le_of_ble_eq_true rfl
theorem reduceu : ∀ a0, Statement (.reduceu a0) := fun _ => Nat.le_of_ble_eq_true rfl
theorem xpipe : ∀ a0, Statement (.xpipe a0) := fun _ => Nat.le_of_ble_eq_true rfl
theorem bcast : ∀ a0, Statement (.bcast a0) := fun _ => Nat.le_of_ble_eq_true rfl
theorem bra : ∀ a0, Statement (.bra a0) := fun _ => Nat.le_of_ble_eq_true rfl
theorem braU : ∀ a0, Statement (.braU a0) := fun _ => Nat.le_of_ble_eq_true rfl
theorem brx : ∀ a0, Statement (.brx a0) := fun _ => Nat.le_of_ble_eq_true rfl
theorem brxU : ∀ a0, Statement (.brxU a0) := fun _ => Nat.le_of_ble_eq_true rfl
theorem call : ∀ a0, Statement (.call a0) := fun _ => Nat.le_of_ble_eq_true rfl
theorem callx : ∀ a0, Statement (.callx a0) := fun _ => Nat.le_of_ble_eq_true rfl
theorem ret : ∀ a0, Statement (.ret a0) := fun _ => Nat.le_of_ble_eq_true rfl
theorem exit : ∀ a0, Statement (.exit a0) := fun _ => Nat.le_of_ble_eq_true rfl
theorem backoff : ∀ a0, Statement (.backoff a0) := fun _ => Nat.le_of_ble_eq_true rfl
theorem yield : ∀ a0, Statement (.yield a0) := fun _ => Nat.le_of_ble_eq_true rfl
theorem syncg : ∀ a0, Statement (.syncg a0) := fun _ => Nat.le_of_ble_eq_true rfl
theorem trap : ∀ a0, Statement (.trap a0) := fun _ => Nat.le_of_ble_eq_true rfl
theorem bkpt : ∀ a0, Statement (.bkpt a0) := fun _ => Nat.le_of_ble_eq_true rfl
theorem nop : ∀ a0, Statement (.nop a0) := fun _ => Nat.le_of_ble_eq_true rfl
theorem ldg : ∀ a0, Statement (.ldg a0) := fun _ => Nat.le_of_ble_eq_true rfl
theorem ldl : ∀ a0, Statement (.ldl a0) := fun _ => Nat.le_of_ble_eq_true rfl
theorem ldx : ∀ a0, Statement (.ldx a0) := fun _ => Nat.le_of_ble_eq_true rfl
theorem ldu : ∀ a0, Statement (.ldu a0) := fun _ => Nat.le_of_ble_eq_true rfl
theorem ldv : ∀ a0, Statement (.ldv a0) := fun _ => Nat.le_of_ble_eq_true rfl
theorem ldvq : ∀ a0, Statement (.ldvq a0) := fun _ => Nat.le_of_ble_eq_true rfl
theorem prefg : ∀ a0, Statement (.prefg a0) := fun _ => Nat.le_of_ble_eq_true rfl
theorem stg : ∀ a0, Statement (.stg a0) := fun _ => Nat.le_of_ble_eq_true rfl
theorem stl : ∀ a0, Statement (.stl a0) := fun _ => Nat.le_of_ble_eq_true rfl
theorem stx : ∀ a0, Statement (.stx a0) := fun _ => Nat.le_of_ble_eq_true rfl
theorem stv : ∀ a0, Statement (.stv a0) := fun _ => Nat.le_of_ble_eq_true rfl
theorem atomg : ∀ a0, Statement (.atomg a0) := fun _ => Nat.le_of_ble_eq_true rfl
theorem atoml : ∀ a0, Statement (.atoml a0) := fun _ => Nat.le_of_ble_eq_true rfl
theorem atomx : ∀ a0, Statement (.atomx a0) := fun _ => Nat.le_of_ble_eq_true rfl
theorem redg : ∀ a0, Statement (.redg a0) := fun _ => Nat.le_of_ble_eq_true rfl
theorem redx : ∀ a0, Statement (.redx a0) := fun _ => Nat.le_of_ble_eq_true rfl
theorem casg : ∀ a0, Statement (.casg a0) := fun _ => Nat.le_of_ble_eq_true rfl
theorem casl : ∀ a0, Statement (.casl a0) := fun _ => Nat.le_of_ble_eq_true rfl
theorem casx : ∀ a0, Statement (.casx a0) := fun _ => Nat.le_of_ble_eq_true rfl
theorem fenceFull : ∀ a0, Statement (.fenceFull a0) := fun _ => Nat.le_of_ble_eq_true rfl
theorem fenceAcq : ∀ a0, Statement (.fenceAcq a0) := fun _ => Nat.le_of_ble_eq_true rfl
theorem fenceRel : ∀ a0, Statement (.fenceRel a0) := fun _ => Nat.le_of_ble_eq_true rfl
theorem cinvL1 : ∀ a0, Statement (.cinvL1 a0) := fun _ => Nat.le_of_ble_eq_true rfl
theorem cinvLine : ∀ a0, Statement (.cinvLine a0) := fun _ => Nat.le_of_ble_eq_true rfl
theorem cinvCode : ∀ a0, Statement (.cinvCode a0) := fun _ => Nat.le_of_ble_eq_true rfl
theorem monarm : ∀ a0, Statement (.monarm a0) := fun _ => Nat.le_of_ble_eq_true rfl
theorem monwait : ∀ a0, Statement (.monwait a0) := fun _ => Nat.le_of_ble_eq_true rfl
theorem tiledef : ∀ a0, Statement (.tiledef a0) := fun _ => Nat.le_of_ble_eq_true rfl
theorem tilefree : ∀ a0, Statement (.tilefree a0) := fun _ => Nat.le_of_ble_eq_true rfl
theorem tilest : ∀ a0, Statement (.tilest a0) := fun _ => Nat.le_of_ble_eq_true rfl
theorem tilesetFill : ∀ a0, Statement (.tilesetFill a0) := fun _ => Nat.le_of_ble_eq_true rfl
theorem tilesetReady : ∀ a0, Statement (.tilesetReady a0) := fun _ => Nat.le_of_ble_eq_true rfl
theorem tilesetDrain : ∀ a0, Statement (.tilesetDrain a0) := fun _ => Nat.le_of_ble_eq_true rfl
theorem tilesetEmpty : ∀ a0, Statement (.tilesetEmpty a0) := fun _ => Nat.le_of_ble_eq_true rfl
theorem tilesetRearm : ∀ a0, Statement (.tilesetRearm a0) := fun _ => Nat.le_of_ble_eq_true rfl
theorem permb : ∀ a0, Statement (.permb a0) := fun _ => Nat.le_of_ble_eq_true rfl
theorem permld : ∀ a0, Statement (.permld a0) := fun _ => Nat.le_of_ble_eq_true rfl
theorem permst : ∀ a0, Statement (.permst a0) := fun _ => Nat.le_of_ble_eq_true rfl
theorem patld : ∀ a0, Statement (.patld a0) := fun _ => Nat.le_of_ble_eq_true rfl
theorem patrd : ∀ a0, Statement (.patrd a0) := fun _ => Nat.le_of_ble_eq_true rfl
theorem cbld : ∀ a0, Statement (.cbld a0) := fun _ => Nat.le_of_ble_eq_true rfl
theorem lscfg : ∀ a0, Statement (.lscfg a0) := fun _ => Nat.le_of_ble_eq_true rfl
theorem lsst : ∀ a0, Statement (.lsst a0) := fun _ => Nat.le_of_ble_eq_true rfl
theorem mlda : ∀ a0, Statement (.mlda a0) := fun _ => Nat.le_of_ble_eq_true rfl
theorem mma : ∀ a0, Statement (.mma a0) := fun _ => Nat.le_of_ble_eq_true rfl
theorem mmaConv : ∀ a0, Statement (.mmaConv a0) := fun _ => Nat.le_of_ble_eq_true rfl
theorem mmas : ∀ a0, Statement (.mmas a0) := fun _ => Nat.le_of_ble_eq_true rfl
theorem mzflush : ∀ a0, Statement (.mzflush a0) := fun _ => Nat.le_of_ble_eq_true rfl
theorem mzclr : ∀ a0, Statement (.mzclr a0) := fun _ => Nat.le_of_ble_eq_true rfl
theorem mcvt : ∀ a0, Statement (.mcvt a0) := fun _ => Nat.le_of_ble_eq_true rfl
theorem mstore : ∀ a0, Statement (.mstore a0) := fun _ => Nat.le_of_ble_eq_true rfl
theorem mzero : ∀ a0, Statement (.mzero a0) := fun _ => Nat.le_of_ble_eq_true rfl
theorem mbarArr : ∀ a0, Statement (.mbarArr a0) := fun _ => Nat.le_of_ble_eq_true rfl
theorem mbarWait : ∀ a0, Statement (.mbarWait a0) := fun _ => Nat.le_of_ble_eq_true rfl
theorem mwaitt : ∀ a0, Statement (.mwaitt a0) := fun _ => Nat.le_of_ble_eq_true rfl
theorem mfence : ∀ a0, Statement (.mfence a0) := fun _ => Nat.le_of_ble_eq_true rfl
theorem mend : ∀ a0, Statement (.mend a0) := fun _ => Nat.le_of_ble_eq_true rfl
theorem cpyq : ∀ a0, Statement (.cpyq a0) := fun _ => Nat.le_of_ble_eq_true rfl
theorem qstat : ∀ a0, Statement (.qstat a0) := fun _ => Nat.le_of_ble_eq_true rfl
theorem pushq : ∀ a0, Statement (.pushq a0) := fun _ => Nat.le_of_ble_eq_true rfl
theorem popq : ∀ a0, Statement (.popq a0) := fun _ => Nat.le_of_ble_eq_true rfl
theorem qcloseOut : ∀ a0, Statement (.qcloseOut a0) := fun _ => Nat.le_of_ble_eq_true rfl
theorem qcloseLaunch : ∀ a0, Statement (.qcloseLaunch a0) := fun _ => Nat.le_of_ble_eq_true rfl
theorem launch : ∀ a0, Statement (.launch a0) := fun _ => Nat.le_of_ble_eq_true rfl
theorem launchU : ∀ a0, Statement (.launchU a0) := fun _ => Nat.le_of_ble_eq_true rfl
theorem svcS : ∀ a0, Statement (.svcS a0) := fun _ => Nat.le_of_ble_eq_true rfl
theorem svcP : ∀ a0, Statement (.svcP a0) := fun _ => Nat.le_of_ble_eq_true rfl
theorem barinit : ∀ a0, Statement (.barinit a0) := fun _ => Nat.le_of_ble_eq_true rfl
theorem bararrArr : ∀ a0, Statement (.bararrArr a0) := fun _ => Nat.le_of_ble_eq_true rfl
theorem bararrTx : ∀ a0, Statement (.bararrTx a0) := fun _ => Nat.le_of_ble_eq_true rfl
theorem bararrCpl : ∀ a0, Statement (.bararrCpl a0) := fun _ => Nat.le_of_ble_eq_true rfl
theorem barwait : ∀ a0, Statement (.barwait a0) := fun _ => Nat.le_of_ble_eq_true rfl
theorem bartestPh : ∀ a0, Statement (.bartestPh a0) := fun _ => Nat.le_of_ble_eq_true rfl
theorem bartestSt : ∀ a0, Statement (.bartestSt a0) := fun _ => Nat.le_of_ble_eq_true rfl
theorem cbarinit : ∀ a0, Statement (.cbarinit a0) := fun _ => Nat.le_of_ble_eq_true rfl
theorem cbararr : ∀ a0, Statement (.cbararr a0) := fun _ => Nat.le_of_ble_eq_true rfl
theorem cbarwait : ∀ a0, Statement (.cbarwait a0) := fun _ => Nat.le_of_ble_eq_true rfl
theorem waitc : ∀ a0, Statement (.waitc a0) := fun _ => Nat.le_of_ble_eq_true rfl
theorem rdcnt : ∀ a0, Statement (.rdcnt a0) := fun _ => Nat.le_of_ble_eq_true rfl
theorem clrcnt : ∀ a0, Statement (.clrcnt a0) := fun _ => Nat.le_of_ble_eq_true rfl
theorem tlbw : ∀ a0, Statement (.tlbw a0) := fun _ => Nat.le_of_ble_eq_true rfl
theorem tlbinv : ∀ a0, Statement (.tlbinv a0) := fun _ => Nat.le_of_ble_eq_true rfl
theorem walkrd : ∀ a0, Statement (.walkrd a0) := fun _ => Nat.le_of_ble_eq_true rfl
theorem tretRetry : ∀ a0, Statement (.tretRetry a0) := fun _ => Nat.le_of_ble_eq_true rfl
theorem tretExit : ∀ a0, Statement (.tretExit a0) := fun _ => Nat.le_of_ble_eq_true rfl
theorem fpop : ∀ a0, Statement (.fpop a0) := fun _ => Nat.le_of_ble_eq_true rfl
theorem fpush : ∀ a0, Statement (.fpush a0) := fun _ => Nat.le_of_ble_eq_true rfl
theorem ownhalt : ∀ a0, Statement (.ownhalt a0) := fun _ => Nat.le_of_ble_eq_true rfl
theorem sealOut : ∀ a0, Statement (.sealOut a0) := fun _ => Nat.le_of_ble_eq_true rfl
theorem sealIn : ∀ a0, Statement (.sealIn a0) := fun _ => Nat.le_of_ble_eq_true rfl
theorem sealSize : ∀ a0, Statement (.sealSize a0) := fun _ => Nat.le_of_ble_eq_true rfl
theorem clause : ∀ a0, Statement (.clause a0) := fun _ => Nat.le_of_ble_eq_true rfl
theorem rep : ∀ a0 a1, Statement (.rep a0 a1) := fun _ _ => Nat.le_of_ble_eq_true rfl
theorem repRepetition : ∀ a0 a1, Statement (.repRepetition a0 a1) := fun _ _ => Nat.le_of_ble_eq_true rfl
theorem pair : ∀ a0 a1, Statement (.pair a0 a1) := fun _ _ => Nat.le_of_ble_eq_true rfl
theorem longLatencyComplete : ∀ a0, Statement (.longLatencyComplete a0) := fun _ => Nat.le_of_ble_eq_true rfl
theorem quantumEnd : ∀ a0, Statement (.quantumEnd a0) := fun _ => Nat.le_of_ble_eq_true rfl
theorem backoffExpire : ∀ a0, Statement (.backoffExpire a0) := fun _ => Nat.le_of_ble_eq_true rfl
theorem groupRetire : ∀ a0, Statement (.groupRetire a0) := fun _ => Nat.le_of_ble_eq_true rfl
theorem completionNotify : ∀ a0, Statement (.completionNotify a0) := fun _ => Nat.le_of_ble_eq_true rfl
theorem handlerStart : ∀ a0 a1 a2, Statement (.handlerStart a0 a1 a2) := fun _ _ _ => Nat.le_of_ble_eq_true rfl
theorem walkWindowEnd : ∀ a0, Statement (.walkWindowEnd a0) := fun _ => Nat.le_of_ble_eq_true rfl
theorem swapOut : ∀ a0 a1, Statement (.swapOut a0 a1) := fun _ _ => Nat.le_of_ble_eq_true rfl
theorem defReplenish : ∀ a0, Statement (.defReplenish a0) := fun _ => Nat.le_of_ble_eq_true rfl
theorem teamPlace : ∀ a0 a1 a2, Statement (.teamPlace a0 a1 a2) := fun _ _ _ => Nat.le_of_ble_eq_true rfl
theorem teamReenter : ∀ a0 a1, Statement (.teamReenter a0 a1) := fun _ _ => Nat.le_of_ble_eq_true rfl
theorem stageComplete : ∀ a0 a1, Statement (.stageComplete a0 a1) := fun _ _ => Nat.le_of_ble_eq_true rfl
theorem stallEnlarge : ∀ a0, Statement (.stallEnlarge a0) := fun _ => Nat.le_of_ble_eq_true rfl
theorem commandStart : ∀ a0, Statement (.commandStart a0) := fun _ => Nat.le_of_ble_eq_true rfl
theorem packetCopy : ∀ a0, Statement (.packetCopy a0) := fun _ => Nat.le_of_ble_eq_true rfl
theorem packetGather : ∀ a0, Statement (.packetGather a0) := fun _ => Nat.le_of_ble_eq_true rfl
theorem packetQuantise : ∀ a0, Statement (.packetQuantise a0) := fun _ => Nat.le_of_ble_eq_true rfl
theorem packetReduceAdd : ∀ a0, Statement (.packetReduceAdd a0) := fun _ => Nat.le_of_ble_eq_true rfl
theorem packetScrub : ∀ a0, Statement (.packetScrub a0) := fun _ => Nat.le_of_ble_eq_true rfl
theorem packetMigrate : ∀ a0, Statement (.packetMigrate a0) := fun _ => Nat.le_of_ble_eq_true rfl
theorem packetDecode : ∀ a0, Statement (.packetDecode a0) := fun _ => Nat.le_of_ble_eq_true rfl
theorem copyIteration : ∀ a0, Statement (.copyIteration a0) := fun _ => Nat.le_of_ble_eq_true rfl
theorem commandComplete : ∀ a0, Statement (.commandComplete a0) := fun _ => Nat.le_of_ble_eq_true rfl
theorem reduceAddDelivery : ∀ a0, Statement (.reduceAddDelivery a0) := fun _ => Nat.le_of_ble_eq_true rfl
theorem qcbResume : ∀ a0, Statement (.qcbResume a0) := fun _ => Nat.le_of_ble_eq_true rfl
theorem qcbAbandon : ∀ a0, Statement (.qcbAbandon a0) := fun _ => Nat.le_of_ble_eq_true rfl
theorem engineReset : ∀ a0, Statement (.engineReset a0) := fun _ => Nat.le_of_ble_eq_true rfl
theorem engineResetEnd : ∀ a0, Statement (.engineResetEnd a0) := fun _ => Nat.le_of_ble_eq_true rfl
theorem parkedWake : ∀ a0, Statement (.parkedWake a0) := fun _ => Nat.le_of_ble_eq_true rfl
theorem cometForm : ∀ a0 a1, Statement (.cometForm a0 a1) := fun _ _ => Nat.le_of_ble_eq_true rfl
theorem cometReenter : ∀ a0 a1, Statement (.cometReenter a0 a1) := fun _ _ => Nat.le_of_ble_eq_true rfl
theorem monitorWake : ∀ a0, Statement (.monitorWake a0) := fun _ => Nat.le_of_ble_eq_true rfl
theorem monwaitTimeout : ∀ a0, Statement (.monwaitTimeout a0) := fun _ => Nat.le_of_ble_eq_true rfl
theorem monitorLost : ∀ a0, Statement (.monitorLost a0) := fun _ => Nat.le_of_ble_eq_true rfl
theorem debugHit : ∀ a0, Statement (.debugHit a0) := fun _ => Nat.le_of_ble_eq_true rfl
theorem operationAbandon : ∀ a0 a1, Statement (.operationAbandon a0 a1) := fun _ _ => Nat.le_of_ble_eq_true rfl
theorem sealContext : ∀ a0, Statement (.sealContext a0) := fun _ => Nat.le_of_ble_eq_true rfl
theorem restore : ∀ a0 a1, Statement (.restore a0 a1) := fun _ _ => Nat.le_of_ble_eq_true rfl
theorem preempt : ∀ a0 a1, Statement (.preempt a0 a1) := fun _ _ => Nat.le_of_ble_eq_true rfl
theorem sealEvictRequest : ∀ a0, Statement (.sealEvictRequest a0) := fun _ => Nat.le_of_ble_eq_true rfl
theorem sealBringinRequest : ∀ a0 a1, Statement (.sealBringinRequest a0 a1) := fun _ _ => Nat.le_of_ble_eq_true rfl
theorem ownerHalt : ∀ a0, Statement (.ownerHalt a0) := fun _ => Nat.le_of_ble_eq_true rfl
theorem driverHalt : ∀ a0, Statement (.driverHalt a0) := fun _ => Nat.le_of_ble_eq_true rfl
theorem ownerResume : ∀ a0, Statement (.ownerResume a0) := fun _ => Nat.le_of_ble_eq_true rfl
theorem ownerCreate : ∀ a0 a1 a2, Statement (.ownerCreate a0 a1 a2) := fun _ _ _ => Nat.le_of_ble_eq_true rfl
theorem ownerDestroy : ∀ a0, Statement (.ownerDestroy a0) := fun _ => Nat.le_of_ble_eq_true rfl
theorem erasureEnd : ∀ a0, Statement (.erasureEnd a0) := fun _ => Nat.le_of_ble_eq_true rfl
theorem worldChange : ∀ a0 a1, Statement (.worldChange a0 a1) := fun _ _ => Nat.le_of_ble_eq_true rfl
theorem allotMapWrite : ∀ a0 a1 a2, Statement (.allotMapWrite a0 a1 a2) := fun _ _ _ => Nat.le_of_ble_eq_true rfl
theorem qbindWrite : ∀ a0 a1, Statement (.qbindWrite a0 a1) := fun _ _ => Nat.le_of_ble_eq_true rfl
theorem sringWrite : ∀ a0 a1, Statement (.sringWrite a0 a1) := fun _ _ => Nat.le_of_ble_eq_true rfl
theorem umaskWrite : ∀ a0 a1 a2, Statement (.umaskWrite a0 a1 a2) := fun _ _ _ => Nat.le_of_ble_eq_true rfl
theorem fwinWrite : ∀ a0 a1 a2, Statement (.fwinWrite a0 a1 a2) := fun _ _ _ => Nat.le_of_ble_eq_true rfl
theorem claimWrite : ∀ a0 a1, Statement (.claimWrite a0 a1) := fun _ _ => Nat.le_of_ble_eq_true rfl
theorem dbgWrite : ∀ a0 a1 a2, Statement (.dbgWrite a0 a1 a2) := fun _ _ _ => Nat.le_of_ble_eq_true rfl
theorem ownerParamWrite : ∀ a0 a1 a2, Statement (.ownerParamWrite a0 a1 a2) := fun _ _ _ => Nat.le_of_ble_eq_true rfl
theorem deviceCounterClear : ∀ a0, Statement (.deviceCounterClear a0) := fun _ => Nat.le_of_ble_eq_true rfl
theorem attestReport : ∀ a0 a1, Statement (.attestReport a0 a1) := fun _ _ => Nat.le_of_ble_eq_true rfl
theorem scEventComplete : ∀ a0, Statement (.scEventComplete a0) := fun _ => Nat.le_of_ble_eq_true rfl
theorem scEventForward : ∀ a0, Statement (.scEventForward a0) := fun _ => Nat.le_of_ble_eq_true rfl
theorem claimTimerExpire : ∀ a0, Statement (.claimTimerExpire a0) := fun _ => Nat.le_of_ble_eq_true rfl
theorem hostEventAck : ∀ a0, Statement (.hostEventAck a0) := fun _ => Nat.le_of_ble_eq_true rfl
theorem hostWindowWrite : ∀ a0 a1, Statement (.hostWindowWrite a0 a1) := fun _ _ => Nat.le_of_ble_eq_true rfl
theorem hostLaunchRecord : ∀ a0, Statement (.hostLaunchRecord a0) := fun _ => Nat.le_of_ble_eq_true rfl
theorem hostItemsRecord : ∀ a0, Statement (.hostItemsRecord a0) := fun _ => Nat.le_of_ble_eq_true rfl
theorem hostCloseRecord : ∀ a0, Statement (.hostCloseRecord a0) := fun _ => Nat.le_of_ble_eq_true rfl
theorem hostMemRead : ∀ a0, Statement (.hostMemRead a0) := fun _ => Nat.le_of_ble_eq_true rfl
theorem hostMemWrite : ∀ a0 a1, Statement (.hostMemWrite a0 a1) := fun _ _ => Nat.le_of_ble_eq_true rfl
theorem backInvalidateComplete : ∀ a0, Statement (.backInvalidateComplete a0) := fun _ => Nat.le_of_ble_eq_true rfl
theorem peerAccess : ∀ a0 a1, Statement (.peerAccess a0 a1) := fun _ _ => Nat.le_of_ble_eq_true rfl
theorem switchReleaseAck : ∀ a0 a1, Statement (.switchReleaseAck a0 a1) := fun _ _ => Nat.le_of_ble_eq_true rfl
theorem linkReplay : ∀ a0 a1, Statement (.linkReplay a0 a1) := fun _ _ => Nat.le_of_ble_eq_true rfl
theorem linkRetrain : ∀ a0, Statement (.linkRetrain a0) := fun _ => Nat.le_of_ble_eq_true rfl
theorem linkDown : ∀ a0, Statement (.linkDown a0) := fun _ => Nat.le_of_ble_eq_true rfl
theorem expanderDown : ∀ a0, Statement (.expanderDown a0) := fun _ => Nat.le_of_ble_eq_true rfl
theorem hostLinkRetrain : Statement (.hostLinkRetrain) := Nat.le_of_ble_eq_true rfl
theorem hbmRateSwitch : ∀ a0 a1, Statement (.hbmRateSwitch a0 a1) := fun _ _ => Nat.le_of_ble_eq_true rfl
theorem rowHammerLimit : ∀ a0 a1, Statement (.rowHammerLimit a0 a1) := fun _ _ => Nat.le_of_ble_eq_true rfl
theorem rowRefresh : ∀ a0, Statement (.rowRefresh a0) := fun _ => Nat.le_of_ble_eq_true rfl
theorem hbmChannelReset : ∀ a0, Statement (.hbmChannelReset a0) := fun _ => Nat.le_of_ble_eq_true rfl
theorem serviceCoreReset : ∀ a0, Statement (.serviceCoreReset a0) := fun _ => Nat.le_of_ble_eq_true rfl
theorem coreWatchdog : ∀ a0, Statement (.coreWatchdog a0) := fun _ => Nat.le_of_ble_eq_true rfl
theorem tc0ShareWindow : Statement (.tc0ShareWindow) := Nat.le_of_ble_eq_true rfl
theorem thermalStepDown : ∀ a0 a1, Statement (.thermalStepDown a0 a1) := fun _ _ => Nat.le_of_ble_eq_true rfl
theorem thermalStepUp : ∀ a0 a1, Statement (.thermalStepUp a0 a1) := fun _ _ => Nat.le_of_ble_eq_true rfl
theorem thermalTrip : ∀ a0 a1, Statement (.thermalTrip a0 a1) := fun _ _ => Nat.le_of_ble_eq_true rfl
theorem powerGood : Statement (.powerGood) := Nat.le_of_ble_eq_true rfl
theorem powerLoss : Statement (.powerLoss) := Nat.le_of_ble_eq_true rfl
theorem matrixWordComplete : ∀ a0, Statement (.matrixWordComplete a0) := fun _ => Nat.le_of_ble_eq_true rfl
theorem storePerformed : ∀ a0, Statement (.storePerformed a0) := fun _ => Nat.le_of_ble_eq_true rfl
theorem serviceCoreAccess : ∀ a0 a1, Statement (.serviceCoreAccess a0 a1) := fun _ _ => Nat.le_of_ble_eq_true rfl
theorem linkRetrained : ∀ a0, Statement (.linkRetrained a0) := fun _ => Nat.le_of_ble_eq_true rfl
theorem recoveryWindowWrite : ∀ a0, Statement (.recoveryWindowWrite a0) := fun _ => Nat.le_of_ble_eq_true rfl

end Sys2Proof.Laws.AtMostTwoWords
end

