-- ==== Sys2Proof/Tests/Slice0.lean ====
section
/-! SUPPORT. Small tests: words that decode as the spec's layouts say, ill-formed terms that are refused, single steps with results
worked out from the spec, and for every statement that has hypotheses a state and operands that meet them. -/

set_option Elab.async false

namespace Sys2Proof.Tests

open Sys2Proof Sys2Proof.Machine

/-! ### Decoding: words written out field by field from the layouts of R27, R28, R36, R41, R131, R205 and R247 -/

/-- R29's worked example: (q2) iadd.s32 w5, w3~, s4. -/
theorem test_decode_iadd_worked_example : decodeTableWord 64 0x001050693FC00000 = some (.iadd { guard := ⟨false, 2⟩, d := .w 5, a := .w 3, b := .s 4, c := .zero, lu := ⟨true, false, false⟩, ty := .s32, sc := 0, sub := 0, mod := 0 }) := by decide +kernel

/-- (!q1) iaddi.s32 w9, w8, -2: imm[17:4] in 36:23, imm[3:0] in 7:4. -/
theorem test_decode_addi : decodeTableWord 64 0x00C8911FFF8000E0 = some (.iaddi { guard := ⟨true, 1⟩, d := .w 9, a := .w 8, lua := false, ty := .s32, sub := 0, imm := 0x3FFFE, ext := none }) := by decide +kernel

/-- Logic: bfe.s32 w1, w2, w3. -/
theorem test_decode_bfe : decodeTableWord 64 0x0E381040FF800000 = some (.bfe { guard := ⟨false, 7⟩, d := .w 1, a := .w 2, b := .w 3, c := .zero, lu := ⟨false, false, false⟩, ty := .s32, sc := 0, sub := 0, mod := 0 }) := by decide +kernel

/-- Compare: icmp with d = q2, c = q1, sub 2, mod 1. -/
theorem test_decode_icmp : decodeTableWord 64 0x103C2061A0800210 = some (.icmp { guard := ⟨false, 7⟩, d := .q 2, a := .w 3, b := .w 6, c := .q 1, lu := ⟨false, false, false⟩, ty := .s32, sc := 0, sub := 2, mod := 1 }) := by decide +kernel

/-- Float: ffma.f32.rz w8, w2~, s5, w8. -/
theorem test_decode_ffma : decodeTableWord 64 0x19B8804944482000 = some (.ffma { guard := ⟨false, 7⟩, d := .w 8, a := .w 2, b := .s 5, c := .w 8, lu := ⟨true, false, false⟩, ty := .f32, sc := 1, sub := 0, mod := 0 }) := by decide +kernel

/-- Exchange: shfl.b32 w1, w2, w3, w4. -/
theorem test_decode_shfl : decodeTableWord 64 0x30381040C2040000 = some (.shfl { guard := ⟨false, 7⟩, d := .w 1, a := .w 2, b := .w 3, c := .w 4, lu := ⟨false, false, false⟩, ty := .b32, sc := 0, sub := 0, mod := 0 }) := by decide +kernel

/-- Control: (q2) bra with offset -4 words. -/
theorem test_decode_branch_back : decodeTableWord 64 0x3817FFFFFF8000C0 = some (.bra { guard := ⟨false, 2⟩, sub := 0, off := 0x3FFFC }) := by decide +kernel

/-- Memory: ldg.b32 w2, [w4 + w9 << 2 + 4]: displacement in c. -/
theorem test_decode_ldg : decodeTableWord 64 0x4038208242040420 = some (.ldg { guard := ⟨false, 7⟩, r := .w 2, base := .w 4, index := .w 9, disp := 4, lu := ⟨false, false, false⟩, ty := .b32, sc := 0, sub := 4, mod := 2 }) := by decide +kernel

/-- Memory: stl.rel.team w5~ with its data in c, its displacement in d. -/
theorem test_decode_stl : decodeTableWord 64 0x48B82460829444A0 = some (.stl { guard := ⟨false, 7⟩, r := .w 5, base := .s 3, index := .w 2, disp := 2, lu := ⟨false, false, true⟩, ty := .b32, sc := 2, sub := 4, mod := 0xA }) := by decide +kernel

/-- Atomics: atomg.add.s32 at package scope. -/
theorem test_decode_atomg : decodeTableWord 64 0x50382081BF80A000 = some (.atomg { guard := ⟨false, 7⟩, d := .w 2, a := .w 4, b := .w 6, c := .zero, lu := ⟨false, false, false⟩, ty := .s32, sc := 5, sub := 0, mod := 0 }) := by decide +kernel

/-- Tables: tiledef s4, zero, s6, s8. -/
theorem test_decode_tiledef : decodeTableWord 64 0x583A4FE994040000 = some (.tiledef { guard := ⟨false, 7⟩, d := .s 4, a := .zero, b := .s 6, c := .s 8, lu := ⟨false, false, false⟩, ty := .b32, sc := 0, sub := 0, mod := 0 }) := by decide +kernel

/-- Matrix: mma a2, m5, s4. -/
theorem test_decode_mma : decodeTableWord 64 0x60B82CA400000000 = some (.mma { d := .acc 2, a := .m 5, u1 := 4, u2 := 0, rf := false, n := 0, rm := 0, sub := 0, mod := 0 }) := by decide +kernel

/-- Copy queues: cpyq s2, s5, s16. -/
theorem test_decode_cpyq : decodeTableWord 64 0x683A24AC3F840000 = some (.cpyq { guard := ⟨false, 7⟩, d := .s 2, a := .s 5, b := .s 16, c := .zero, lu := ⟨false, false, false⟩, ty := .b32, sc := 0, sub := 0, mod := 0 }) := by decide +kernel

/-- Barriers: bararr.tx w3, s4, s5. -/
theorem test_decode_bararr_tx : decodeTableWord 64 0x70B834897F840100 = some (.bararrTx { guard := ⟨false, 7⟩, d := .w 3, a := .s 4, b := .s 5, c := .zero, lu := ⟨false, false, false⟩, ty := .b32, sc := 0, sub := 1, mod := 0 }) := by decide +kernel

/-- Handlers: tlbw w4, w6. -/
theorem test_decode_tlbw : decodeTableWord 64 0x783FF081BF850000 = some (.tlbw { guard := ⟨false, 7⟩, d := .zero, a := .w 4, b := .w 6, c := .zero, lu := ⟨false, false, false⟩, ty := .b64, sc := 0, sub := 0, mod := 0 }) := by decide +kernel

/-- Seals: seal.in w2, w4, w6. -/
theorem test_decode_seal_in : decodeTableWord 64 0x7BB82081BF850100 = some (.sealIn { guard := ⟨false, 7⟩, d := .w 2, a := .w 4, b := .w 6, c := .zero, lu := ⟨false, false, false⟩, ty := .b64, sc := 0, sub := 1, mod := 0 }) := by decide +kernel

/-- Clauses: wait 0x009, set flags 1 and 2, five words. -/
theorem test_decode_clause_header : decodeTableWord 64 0xC013191400000000 = some (.clause { wait := 9, seta := some 1, setb := some 2, len := 5 }) := by decide +kernel

/-- Pairs: (q1) iadd in half 1, fmul.f32 in half 0. -/
theorem test_decode_pair : decodeTableWord 64 0x81220B0045C918C0 = some (.pair { op := .iadd, pq := 1, d := 4, a := 5, lu := true, pty := .s32, m6 := 0 }
      { op := .fmul, pq := 7, d := 9, a := 6, lu := false, pty := .f32, m6 := 0 }) := by decide +kernel

/-- A REP of count 3 with strides 2, 0, 2, 2 before bdot.db4 (R48, R49). -/
theorem test_decode_rep : decodeTableWord 128 0x2AB8A20584080010E00E280000000000 =
    some (.rep { count := 3, sd := 2, sa := 0, sb := 2, sc := 2 } 0x2AB8A20584080010) := by decide +kernel

/-- An IMMX prefix before movi.b64 w4: the immediate is the extension and then 18 bits (R51). -/
theorem test_decode_immx : (decodeTableWord 128 0x13B84FE000050050E400000000012345).map (fun i => match i with | .movi f => (immValue f).toNat | _ => 0) =
    some 0x48D140005 := by decide +kernel

/-- Bits 3:0 must be zero (R27), and 0xDF is a reserved opcode (R55). -/
theorem test_decode_reserved : decodeTableWord 64 0x001050693FC00001 = none ∧ decodeTableWord 64 0x6FBFFFFFFF800000 = none := by decide +kernel

/-! ### Ill-formed terms -/

/-- A register word without operands. -/
def word0 : FWord :=
  { guard := ⟨false, 7⟩, d := .zero, a := .zero, b := .zero, c := .zero, lu := ⟨false, false, false⟩, ty := .s32, sc := 0, sub := 0, mod := 0 }

/-- A register word with three operands. -/
def word3 : FWord := { word0 with d := .w 2, a := .w 4, b := .w 6 }

/-- A memory form that loads 4 bytes into w2 from the pair at w4. -/
def mem0 : MWord :=
  { guard := ⟨false, 7⟩, r := .w 2, base := .w 4, index := .zero, disp := 0, lu := ⟨false, false, false⟩, ty := .b32, sc := 0, sub := 4, mod := 0 }

/-- A matrix word without operands. -/
def zword0 : ZWord := { d := .none, a := .none, u1 := 0, u2 := 0, rf := false, n := 0, rm := 0, sub := 0, mod := 0 }

theorem test_wellFormed_accepts : wellFormed (.iadd word3) = true ∧ wellFormed (.ldg mem0) = true ∧
    wellFormed (.mma { zword0 with d := .acc 1, a := .m 2, u1 := 4 }) = true := by decide

/-- An unused operand field that is not zero (R29). -/
theorem test_illFormed_unused_operand : wellFormed (.iadd { word3 with c := .w 1 }) = false := by decide

/-- A type that the instruction does not accept (R33). -/
theorem test_illFormed_type : wellFormed (.iadd { word3 with ty := .f32 }) = false := by decide

/-- A last-use bit on an operand that names no window register (R35). -/
theorem test_illFormed_last_use : wellFormed (.iadd { word3 with a := .s 4, lu := ⟨true, false, false⟩ }) = false := by decide

/-- sc, sub or mod beyond the values that the definition lists (R34, R35). -/
theorem test_illFormed_fields : wellFormed (.iadd { word3 with sc := 1 }) = false ∧ wellFormed (.iadd { word3 with sub := 1 }) = false ∧
    wellFormed (.iadd { word3 with mod := 1 }) = false := by decide

/-- A window destination where a uniform one is asked for, and a uniform d with a window source (R92). -/
theorem test_illFormed_uniform : wellFormed (.reduceu { word3 with b := .zero }) = false ∧ wellFormed (.iadd { word3 with d := .s 2 }) = false := by
  decide

/-- Another instruction's sub (R342). -/
theorem test_illFormed_sub_of_another : wellFormed (.bararrArr { word0 with ty := .b32, d := .w 3, a := .s 4, sub := 1 }) = false := by decide

/-- An immediate form with the last-use bit of a uniform register (R35). -/
theorem test_illFormed_immediate : wellFormed
    (.iaddi { guard := ⟨false, 7⟩, d := .w 1, a := .s 2, lua := true, ty := .s32, sub := 0, imm := 0, ext := none }) = false := by decide

/-- A branch with a sub, and a memory form with a reserved size (R131, R205). -/
theorem test_illFormed_offset_and_size : wellFormed (.bra { guard := ⟨false, 7⟩, sub := 1, off := 0 }) = false ∧
    wellFormed (.ldg { mem0 with sub := 31 }) = false := by decide

/-- A matrix word whose operands are of the wrong kind (R247). -/
theorem test_illFormed_matrix : wellFormed (.mma zword0) = false := by decide

/-- A pair whose halves write the same bank (R39). -/
theorem test_illFormed_pair : wellFormed (.pair { op := .iadd, pq := 7, d := 4, a := 5, lu := false, pty := .s32, m6 := 0 }
    { op := .iadd, pq := 7, d := 8, a := 6, lu := false, pty := .s32, m6 := 0 }) = false := by decide

/-- A REP before a control-flow word (R49, R131); with count 0 its word is not examined (R52). -/
theorem test_illFormed_rep : wellFormed (.rep { count := 1, sd := 0, sa := 0, sb := 0, sc := 0 } 0x3BBFFFFFFF800000) = false ∧
    wellFormed (.rep { count := 0, sd := 0, sa := 0, sb := 0, sc := 0 } 0x3BBFFFFFFF800000) = true := by decide +kernel

/-! ### Single steps -/

/-- The state after a step, where it answers one. -/
def ran (s : State) : State :=
  match step s with
  | .next t => t
  | .fault _ => s
  | .refused _ => s

/-- A word where the next step fetches it, thread 0 having some registers. -/
def placed (w : Nat) (rows : List (Nat × Word)) : State :=
  (State.reset.withFetchWord 64 w).updThread 0 (fun t => rows.foldl (fun a r => a.setReg r.1 r.2) t)

/-- iadd.s32 w2, w4, w6 wraps modulo 2^32, and PC rises by 8 (R97, R98). -/
theorem test_step_iadd_wraps : let t := (ran (placed 0x00382081BF800000 [(4, 0xFFFFFFFF), (6, 3)])).thread 0
    t.reg 2 = 2 ∧ t.pc = 0xFFF000001008 ∧ t.reg 4 = 0xFFFFFFFF := by decide +kernel

/-- The sources are read before the destination is written: iadd.s32 w2, w2, w2 (R7). -/
theorem test_step_iadd_same_register : ((ran (placed 0x00382040BF800000 [(2, 5)])).thread 0).reg 2 = 10 := by decide +kernel

/-- The manual's example of bfe.s32: a = 0x0F00 and b = 0x0408 give 0xFFFF_FFFF (R99). -/
theorem test_step_bfe_example : ((ran (placed 0x0E381040FF800000 [(2, 0xF00), (3, 0x408)])).thread 0).reg 1 = 0xFFFFFFFF := by
  decide +kernel

/-- movi.b32 w2, -2: the 18-bit immediate is sign-extended (R28). -/
theorem test_step_movi : ((ran (placed 0x13B82FFFFF8400E0 [])).thread 0).reg 2 = 0xFFFFFFFE := by decide +kernel

/-- fadd.f32: 1.0 + 1.0 is 2.0 (R105). -/
theorem test_step_fadd : ((ran (placed 0x18382081BF880000 [(4, 0x3F800000), (6, 0x3F800000)])).thread 0).reg 2 = 0x40000000 := by
  decide +kernel

/-- icmp.eq.and.s32 q1, w4, w6, q7: a truth value in a predicate (R100). -/
theorem test_step_icmp : ((ran (placed 0x103C1081A3800000 [(4, 7), (6, 7)])).thread 0).pred 1 = true := by decide +kernel

/-- movu s2, w4 writes the group's uniform register (R92, R101). -/
theorem test_step_movu : ((ran (placed 0x143A209FFF840000 [(4, 9)])).group 0).reg 2 = 9 := by decide +kernel

/-- A branch two words ahead (R131). -/
theorem test_step_bra : ((ran (placed 0x383FFFE000000020 [])).thread 0).pc = 0xFFF000001010 := by decide +kernel

/-- EXIT ends its thread, which keeps PC (R136). -/
theorem test_step_exit : let t := (ran (placed 0x3BBFFFFFFF800000 [])).thread 0
    t.st = .exited ∧ t.pc = 0xFFF000001000 := by decide +kernel

/-- TRAP 5 where no handler entry is valid: the thread waits with the class SVC, and the owner halts with RECURSE (R140, R175). -/
theorem test_step_trap_without_handler : let t := ran (placed 0x3DBFFFE000000050 [])
    (t.thread 0).st = .waitHandler ∧ (t.owner 0).ostat.st = .halting ∧ (t.owner 0).ostat.cause = .recurse ∧
      (t.owner 0).ostat.cls = .svc ∧ (t.owner 0).ostat.code = 5 := by decide +kernel

/-- A reserved opcode is ILLOP (R52, R55). -/
theorem test_step_illegal_word : ((ran (placed 0x6FBFFFFFFF800000 [])).owner 0).ostat.cls = .illop := by decide +kernel

/-- stg.b32 [w4], w6 is posted, with the bytes of w6 lowest first; no byte of memory has changed yet (R214). -/
theorem test_step_stg : let t := ran (placed 0x4838009FC3040400 [(4, 0x00002000), (5, 0xFFF0), (6, 0x04030201)])
    t.ops.map (fun o => (o.addr, o.kind)) = [(0x102000, .store [1, 2, 3, 4] false)] ∧ Memory.read t.mem 0x102000 = 0 := by decide +kernel

/-- fpop w2 in a handler whose owner's pool is not valid gives 0xFFFF_FFFF and counts 12 walk bytes (R181). -/
theorem test_step_fpop_empty : let t := ran (placed 0x7A382FFFFF840000 [])
    (t.thread (tkey 510 0)).reg 2 = 0xFFFFFFFF ∧ (t.owner 0).walkbytes = 12 := by decide +kernel

/-- MEND ends the stream (R251). -/
theorem test_step_mend : ((ran (placed 0x66BFFFE000000000 [])).team 0).matrix.map (·.st) = some .ended := by decide +kernel

/-! ### States that meet the statements' hypotheses -/

/-- Core 0 with one team of owner 0: group 0 has the ready threads 0 and 1, which run; thread 0 has the address of the reserve's
page 2 in w4 and w5. An extent of 1 MiB lies at AA 0; a
read-only page at 0x10000 has frame 0, and one at 0x20000 a frame beyond the extent. -/
def lab : State :=
  { State.reset with
    cur := { lanes := [0], len := 8 }, nextUid := 3
    owners := [(0, { ostat := { st := .running }, allot := [(0, bootReserve), (1, 2 ^ 127 + 32 * 2 ^ 88 + 16 * 2 ^ 32)] })]
    cores := [(0, { slots := [(0, { owner := 0 })]
                    tlb := [⟨0, 2 ^ 115 + 2 ^ 114 + 2 ^ 111 + 2 ^ 16, none⟩, ⟨0, 2 ^ 115 + 2 ^ 114 + 2 ^ 111 + 2 ^ 68 + 2 ^ 17, none⟩] })]
    groups := [(0, { uid := 1, team := some 0, allot := 64 })]
    teams := [(0, { uid := 2, members := [0], scratchSize := 4096, nbars := 4 })]
    threads := [(0, { pc := bootPc, regs := [(4, 0x2000), (5, 0xFFF0), (7, 3)] }), (1, { pc := bootPc })] }

/-- Both threads run. -/
def lab2 : State := { lab with cur := { lanes := [0, 1], len := 8 } }

/-- A register word on window registers passes the checks for both threads, whatever its widths. -/
def BothPass : Prop := ∀ dw aw bw cw : Bool, lab2.clean (lab2.actives word3.guard) {} (fUses { word3 with c := .w 8 } dw aw bw cw) ∧
    lab2.actives word3.guard = [0, 1]

theorem both_pass : BothPass := by unfold BothPass State.clean State.runOk; decide +kernel

theorem one_passes : ∀ dw aw bw cw long : Bool, lab.lone 0 word3.guard { long } (fUses { word3 with c := .w 8 } dw aw bw cw) := by
  unfold State.lone; decide +kernel

/-- An immediate word on a window register. -/
def imm1 (ty : Ty) : IWord :=
  { guard := word0.guard, d := .w 2, a := .w 4, lua := false, ty, sub := 0, imm := 3, ext := none }

theorem witness_IntegerWordsGiveTheirResults : BothPass := both_pass
theorem witness_LogicWordsGiveTheirResults : BothPass := both_pass
theorem witness_CompareAndMoveWordsGiveTheirResults : BothPass := both_pass
/-- Words of every row are well-formed. -/
theorem witness_IntegerWordsGiveTheirResults_types :
    (∀ i ∈ [Instr.iadd { word3 with ty := .s32 }, .isub { word3 with ty := .s64 }, .imin { word3 with ty := .n16x2 }, .imax { word3 with ty := .n8x4 },
      .iaddi (imm1 .s32), .irsbi (imm1 .n8x4), .imul { word3 with ty := .n64 }, .imulhi { word3 with ty := .s32 },
      .imad { word3 with ty := .s32, c := .w 8 }, .imuli (imm1 .s64), .imadw { word3 with ty := .n32, c := .w 8 },
      .lea { word3 with ty := .s32, mod := 15 }, .iabs { word3 with ty := .s8x4, b := .zero }, .iadds { word3 with ty := .n8x4 },
      .isubs { word3 with ty := .s32 }, .leai (imm1 .b64)], wellFormed i = true) := by decide +kernel

/-- The same on 32 bits without a sign. -/
def wordB : FWord := { word3 with ty := .b32 }

theorem witness_LogicWordsGiveTheirResults_types :
    (∀ i ∈ [Instr.and wordB, .or wordB, .xor wordB, .not { wordB with b := .zero }, .shl wordB, .bfi { wordB with c := .w 8 },
      .popc { wordB with b := .zero }, .clz { wordB with b := .zero }, .brev { wordB with b := .zero }, .andi (imm1 .b32), .ori (imm1 .b64),
      .xori (imm1 .b32), .shli { imm1 .b32 with imm := 31 }, .shri { imm1 .s64 with imm := 63 }, .shr { wordB with ty := .s32 },
      .bfe { wordB with ty := .n64 }, .dsh { wordB with c := .w 8, sub := 1 }, .prmt { wordB with c := .w 8 }], wellFormed i = true) ∧
    wellFormed (.shli { imm1 .b32 with imm := 32 }) = false := by decide +kernel

theorem witness_CompareAndMoveWordsGiveTheirResults_types :
    (∀ i ∈ [Instr.sel { wordB with c := .q 1 }, .seli { imm1 .b32 with sub := 15 }, .mov { wordB with b := .zero }, .movi { imm1 .b64 with a := .zero },
      .movu { wordB with d := .s 1, b := .zero }], wellFormed i = true) ∧
    wellFormed (.movu { wordB with b := .zero }) = false := by decide +kernel

theorem witness_VotesReadTheActiveThreadsOfTheRun : BothPass := both_pass
theorem witness_FloatWordsGiveTheirResults : BothPass := both_pass
theorem witness_ConversionWordsGiveTheirResults : BothPass := both_pass
theorem witness_BlockDotsGiveTheirSumsAndCountOmittedBlocks : BothPass := both_pass
theorem witness_ExchangeWordsReadTheActiveThreadsOfTheRun : BothPass := both_pass

theorem witness_LongLatencyWordsIssueTheirOperation : (∀ dw aw bw cw : Bool,
    lab.lone 0 word3.guard { long := true } (fUses { word3 with c := .w 8 } dw aw bw cw)) ∧ lab.flagFree 0 :=
  ⟨fun dw aw bw cw => one_passes dw aw bw cw true, .inr (by decide +kernel)⟩

/-- The load of mem0 by thread 0 passes its check in the reserve, and in scratch at offset 0x2000 - 0x1000. -/
theorem witness_LoadsIssueOneCheckedAccess :
    (∀ sp : SpaceCode, lab.lone 0 mem0.guard { long := true } (memUses mem0 sp 1 true)) ∧ lab.flagFree 0 ∧
    lab.checkAccess 0 .g .read (lab.memAddr 0 mem0 .g 4) 4 4 = .ok (.g { dpa := 0x102000, world := 0, tier := 0 }) ∧
    lab.checkAccess 0 .l .read (lab.memAddr 0 { mem0 with base := .w 7, disp := 1 } .l 1) 1 1 = .ok (.l 2 4) := by
  unfold State.flagFree
  refine ⟨fun sp => ?_, .inr (by decide +kernel), by decide +kernel, by decide +kernel⟩
  cases sp <;> (unfold State.lone; decide +kernel)

theorem witness_StoresAndAtomicsIssueOneCheckedAccess :
    (∀ sp : SpaceCode, lab.lone 0 mem0.guard {} (memUses mem0 sp 1 false)) ∧
    lab.checkAccess 0 .g .write (lab.memAddr 0 mem0 .g 4) 4 4 = .ok (.g { dpa := 0x102000, world := 0, tier := 0 }) ∧
    lab.checkAccess 0 .g .atomic (lab.rd 0 word3.a true).toNat 4 4 = .ok (.g { dpa := 0x102000, world := 0, tier := 0 }) := by
  refine ⟨fun sp => ?_, by decide +kernel, by decide +kernel⟩
  cases sp <;> (unfold State.lone; decide +kernel)

/-- An address that misses, one that is misaligned, and one that lies beyond the scratch fail. -/
theorem witness_FailedAccessChecksRaiseTheirFault :
    lab.checkAccess 0 .g .read 0x1000 4 4 = .error { cls := .xmiss, acc := .read, addr := 0x1000 } ∧
    lab.checkAccess 0 .g .write 0x1002 4 4 = .error { cls := .illopd, addr := bootPc.toNat } ∧
    lab.checkAccess 0 .l .atomic 4096 4 4 = .error { cls := .bounds, addr := bootPc.toNat } := by decide +kernel

theorem witness_AddressChecksFollowTheirOrder : 0 < 4 ∧ (6 : Int) % 4 ≠ 0 ∧ (-4 : Int) % 4 = 0 ∧ (-4 : Int) < 0 ∧ (4092 : Int) % 4 = 0 ∧
    (4092 : Int) < 2 ^ 32 ∧ ((lab.group (0 / 32)).team.bind lab.team?).isSome = true := by decide +kernel

theorem witness_TranslationDecidesByWindowEntryAndAllotment :
    let hit := fun a => (lab.core 0).tlb.find? (fun e => e.owner == 0 && tlbMatches e.bits none a)
    2 ^ 48 ≤ 2 ^ 48 ∧ reserveBase < 2 ^ 48 ∧ (lab.owner 0).mapReserve 0x1000 4 = some { dpa := 0x101000, world := 0, tier := 0 } ∧
    (lab.owner 0).mapReserve (2 ^ 20) 4 = none ∧ 0x30000 < reserveBase ∧ hit 0x30000 = none ∧
    (hit 0x10000).map (fun e => (tlbAdmits e.bits .write, tlbAdmits e.bits .read, tlbFrame e.bits)) = some (false, true, 0) ∧
    (lab.owner 0).mapAA 0 0 4 = some { dpa := 0x200000, world := 0, tier := 0 } ∧
    (hit 0x20000).map (fun e => tlbFrame e.bits) = some 16 ∧ (lab.owner 0).mapAA 0 0x100000 4 = none := by decide +kernel

/-- A posted store of two bytes by thread 0 to the reserve's page 2. -/
def aStore : Op := { id := 0, uid := 1, lane := 0, core := 0, owner := 0, addr := 0x102000, kind := .store [1, 2] false, lanes := [0] }

/-- A load, an atomic and a special function of thread 0, later than it. -/
def aLoad : Op := { aStore with id := 1, kind := .load 4 false .far (0, 0), dest := .win 2, flag := some 3, lanes := [0] }
def anAtomic : Op := { aStore with id := 1, scope := 5, kind := .atomic .add .s32 1 0 false, dest := .win 2 }

theorem witness_PerformedStoresWriteTheirBytes :
    let s : State := { lab with ops := [aStore] }
    let l : Op := { aStore with space := .l 2, addr := 8 }
    s.op? 0 = some aStore ∧ s.mayPerform aStore = true ∧ s.abandoned aStore = false ∧ isAlias 0x102000 = false ∧ aStore.dest = .none ∧
    aStore.split = false ∧ s.fails aStore = false ∧ s.moved = [] ∧ s.findTeam 2 = some 0 ∧ ({ lab with ops := [l] } : State).op? 0 = some l ∧
    ({ lab with ops := [l] } : State).mayPerform l = true ∧ ({ lab with ops := [l] } : State).abandoned l = false := by decide +kernel

theorem witness_CompletedOperationsDeliverTheirResults :
    let s : State := { lab with ops := [aLoad] }
    let v : Op := { aLoad with kind := .value 5 1 }
    s.op? 1 = some aLoad ∧ s.findGroup 1 = some 0 ∧ (s.thread (tkey 0 0)).st ≠ .exited ∧ s.mayPerform aLoad = true ∧ aLoad.split = false ∧
    s.abandoned aLoad = false ∧ s.fails aLoad = false ∧ s.poison = [] ∧ s.storeQueue 0 = [] ∧ s.ownStores aLoad false = [] ∧
    (s.group 0).rep = none ∧ (∀ p ∈ s.ops, p.id ≠ 1 → p.flagFor 0 ≠ some 3) ∧ ({ lab with ops := [v] } : State).op? 1 = some v ∧
    ({ lab with ops := [v] } : State).mayPerform v = true := by decide +kernel

theorem witness_PerformedAtomicsReplaceTheWord :
    let s : State := { lab with ops := [anAtomic] }
    let p : Op := { anAtomic with kind := .atomic .add .s32 1 0 true }
    s.op? 1 = some anAtomic ∧ 3 ≤ anAtomic.scope ∧ isAlias anAtomic.addr = false ∧ s.fails anAtomic = false ∧ s.mayPerform anAtomic = true ∧
    s.abandoned anAtomic = false ∧ s.findGroup 1 = some 0 ∧ ({ lab with ops := [p] } : State).mayPerform p = true := by decide +kernel

/-- Each of the four reasons to wait: a store at the same location that a release names, an acquiring atomic, and a load before a fence. -/
theorem witness_EarlierAccessesHoldLaterOnesBack :
    let late : Op := { aStore with id := 3, waits := [(1, 3)], waitLoads := 3 }
    let acq : Op := { anAtomic with acq := true }
    let load : Op := { aLoad with id := 2 }
    let s : State := { lab with ops := [aStore, acq, load, late] }
    s.op? 3 = some late ∧ (∀ p ∈ [aStore, acq, load], p ∈ s.ops ∧ p.id < 3 ∧ late.sameThread p = true ∧ p.isMem = true) ∧
    late.isMem = true ∧ s.abandoned late = false ∧ s.hostHolds late = false ∧ late.meets aStore = true ∧ late.isLoad = false ∧
    aStore.id < 1 ∧ load.isLoad = true ∧ load.id < late.waitLoads := by decide +kernel

theorem witness_FencesMarkTheirThread : lab.lone 0 word0.guard {} [] ∧ lab.findGroup aLoad.uid = some 0 ∧ aLoad.lanes = [0] ∧
    (((ran (placed 0x543FFFFFFF84C000 [])).thread 0).invMarks ≠ []) ∧
    ((lab.updThread 0 (fun t => { t with invMarks := [1] })).thread 0).invMarks.any (· ≤ aLoad.id) = true := by
  unfold State.lone; decide +kernel

/-- CINV and PREFG of the reserve's page 2, which translates, and of an address that does not; MONARM on both; and a fence whose line
the host has not yet given back. -/
theorem witness_CacheControlAndMonarmActOnTheirLines :
    let g := { mem0 with r := .zero }
    let at' := fun (s : State) => (s.memAddr 0 g .g 128 % 2 ^ 64).toNat / 128 * 128
    let miss : State := lab.updThread 0 (fun t => t.setPair 4 0x30000)
    let held : State := { lab.updThread 0 (fun t => { t with rels := [(1, 6)] }) with hostLines := [(5, true)], snoops := [{ uid := 1, lines := [5], known := false }] }
    lab.lone 0 g.guard {} (memUses g .g 1 false) ∧ lab.translateFor 0 .read (at' lab) 128 = .ok { dpa := 0x102000, world := 0, tier := 0 } ∧
    lab.lineAt 0 (at' lab) = some (0x102000 / 128) ∧ miss.lineAt 0 (at' miss) = none ∧ (lab.thread 0).rels = [] ∧
    (held.drainFences 0).fencesDone 0 = false ∧ held.lone 0 word0.guard {} [] ∧
    lab.farDown 0x102000 = false ∧ (miss.translateFor 0 .read (at' miss) 1).toOption = none ∧
    lab.checkAccess 0 .g .read (lab.memAddr 0 g .g 8) 8 8 = .ok (.g { dpa := 0x102000, world := 0, tier := 0 }) ∧
    (miss.checkAccess 0 .g .read (miss.memAddr 0 g .g 8) 8 8).toOption = none := by unfold State.lone; decide +kernel

theorem witness_BranchesSetThePc : lab.lone 0 ⟨false, 7⟩ ctrl [] ∧ lab.lone 0 word3.guard ctrl (fUses word3 false true false false) ∧
    (lab.thread 0).pc < (lab.thread 0).pc + 16 := by unfold State.lone; decide +kernel

/-- A call by 8 rows needs no spill; at the end of the allotment of 64 rows, one by 24 rows goes beyond it; and DEPTH 255. -/
theorem witness_CallsOpenAWindow :
    let deep : State := lab.updThread 0 (fun t => { t with depth := 255 })
    let high : State := lab.updThread 0 (fun t => { t with winbase := 40, rlo := 16 })
    lab.lone 0 ⟨false, 7⟩ ctrl [] ∧ deep.lone 0 ⟨false, 7⟩ ctrl [] ∧ high.lone 0 ⟨false, 7⟩ ctrl [] ∧
    min (0 + 8 * 1 + 32) 64 ≤ 0 + 48 ∧ 0 + 8 * 1 + 8 ≤ 64 ∧ (lab.thread 0).depth ≠ 255 ∧ (deep.thread 0).depth = 255 ∧
    min (40 + 8 * 3 + 32) 64 ≤ 16 + 48 ∧ 64 < 40 + 8 * 3 + 8 := by unfold State.lone; decide +kernel

/-- DEPTH 0; a window at 8 whose link has code 1; and one whose link has code 0. -/
theorem witness_ReturnsAndExitsEndTheCallOrTheThread :
    let call := fun (code : BitVec 64) => lab.updThread 0 (fun t => { t.setPair 6 (0x1000 + code) with winbase := 8, depth := 1 })
    lab.lone 0 word0.guard ctrl [] ∧ (lab.thread 0).depth = 0 ∧ (call 1).lone 0 word0.guard ctrl [] ∧ (call 0).lone 0 word0.guard ctrl [] ∧
    ((call 1).thread 0).depth ≠ 0 ∧ (call 1).slotsBusy 0 (8 - 24) 0 = false ∧ ((call 1).thread 0).pair 6 = 0x1001 ∧
    ((call 0).thread 0).pair 6 = 0x1000 := by unfold State.lone; decide +kernel

/-- A SYNCG that thread 1 has not reached, and one that it has. -/
theorem witness_WaitingTrappingAndIdleWordsActOnTheirThread :
    let met : State := lab.updThread 1 (fun t => { t with st := .atSync })
    let others := fun (s : State) => (groupKeys 0).filter (fun j => decide (j ≠ 0) && (s.thread j).st != .exited)
    let alone : State := (List.range 30).foldl (fun a l => a.updThread (l + 2) (fun t => { t with st := .exited })) met
    lab.lone 0 word0.guard ctrl [] ∧ lab.threadOps 0 = [] ∧ (∃ j ∈ others lab, (lab.thread j).st ≠ .atSync) ∧
    alone.lone 0 word0.guard ctrl [] ∧ others alone = [1] ∧ (∀ j ∈ others alone, (alone.thread j).st = .atSync) := by
  unfold State.lone; decide +kernel

theorem witness_ClauseHeadersAdmitThreadsWhoseFlagsAreClear :
    let h : HWord := { wait := 8, seta := some 1, setb := none, len := 2 }
    let busy : State := lab2.updThread 1 (fun t => { t with flags := 8 })
    let inside : State := lab.updThread 0 (fun t => { t with clause := some { left := 1, seta := none, setb := none } })
    lab2.runOk ∧ busy.runOk ∧ inside.runOk ∧ badHeader h = false ∧ badHeader { h with len := 0 } = true ∧
    (∀ k ∈ busy.curKeys, (busy.thread k).clause = none) ∧ (busy.thread 1).flags &&& h.wait ≠ 0 ∧
    (∀ k ∈ inside.curKeys, (inside.thread k).clause.isSome = true) := by unfold State.runOk; decide +kernel

/-- iadd w4, w5 beside fmul w9, w6; and a half whose predicate q1 is 0. -/
theorem witness_PairsReadBothHalvesBeforeWriting :
    let h1 : Half := { op := .iadd, pq := 7, d := 4, a := 5, lu := true, pty := .s32, m6 := 0 }
    let h0 : Half := { op := .fmul, pq := 7, d := 9, a := 6, lu := false, pty := .f32, m6 := 0 }
    lab.cur.lanes = [0 % 32] ∧ lab.active (halfGuard h1) 0 = true ∧ lab.active (halfGuard { h0 with pq := 1 }) 0 = false ∧
    lab.passes 0 {} (halfUses h1 ++ halfUses h0) .any = true ∧ halfOpd h0.d ≠ halfOpd h1.d := by decide +kernel

/-- iadd w2, w4, w6 with stride 1 on d, in its first and in its last repetition of two; and a REP of count 0. -/
theorem witness_RepRunsItsWordOncePerRepetition :
    let p : RepPrefix := { count := 2, sd := 1, sa := 0, sb := 0, sc := 0 }
    let body : DWord := 0x00382081BF800000
    let c : RepCtx := { lanes := [0], prefixed := p, body, key := 0 }
    let at' := fun (i : BitVec 8) => (lab.updGroup 0 (fun g => { g with rep := some c })).updThread 0 (fun t => { t with repix := i })
    let s2 := fun i => ({ ((at' i).updGroup 0 (fun x => { x with rep := some c })).charge 0 1 with cur := { lanes := [0], len := 16, inRep := true } } : State)
    let f := fun (i : BitVec 8) => { word3 with d := if i = 0 then .w 2 else .w 3 }
    let ok := fun (i : BitVec 8) => (match repWord (.iadd (f i)) (s2 i) with
      | .next t => (t.thread 0).st == .ready && (t.thread 0).repix.toNat == i.toNat + 1
      | _ => false) = true
    ((at' 0).group 0).rep = some c ∧ ((at' 0).thread 0).st = .ready ∧
    decodeF false none (bumpBody p body 0) = some (.iadd (f 0)) ∧ decodeF false none (bumpBody p body 1) = some (.iadd (f 1)) ∧ ok 0 ∧ ok 1 ∧
    (∀ i ∈ [0, 1], (s2 i).lone 0 (f i).guard {} (fUses (f i) false false false false)) ∧
    (let st : State := { lab with cur := { lanes := [0], len := 16 } }
     st.cur.inRep = false ∧ placeOk {} 2 (st.thread 0).clause = true ∧ 0 = st.curG ∧ p.count ≠ 0 ∧ st.active (rawOf body).guard 0 = true ∧
     (depthOp (rawOf body).op.toNat).ok (st.group 0).hdepth = true ∧ placeOk (siteOp (rawOf body).op.toNat) 2 (st.thread 0).clause = true ∧
     longOp (rawOf body).op.toNat = false ∧ (st.thread 0).repix = 0 ∧ repBounds p body (st.thread 0).winbase (st.group 0).allot = true) := by
  unfold State.lone; decide +kernel

/-- A handler of depth 1 for XMISS and one of depth 2 for PROT; handler groups of depth 1 and 2 beside the team's group. -/
def labH : State :=
  { lab with
    mem := Memory.writeN (Memory.writeN [] 0x100020 (leBytes 8 0xFFF000001000)) 0x1000A8 (leBytes 8 0xFFF000001000)
    groups := lab.groups ++ [(509, { uid := 9, hdepth := 2, allot := 64 }), (510, { uid := 8, hdepth := 1, allot := 64 })]
    threads := lab.threads ++ [(16320, { pc := bootPc, regs := [(4, 0x2000), (5, 0xFFF0)] })] }

theorem witness_RaisedFaultsWaitOnAMissRecord :
    labH.isHalting 0 = false ∧ (labH.group 0).hdepth ≤ 1 ∧ (labH.handlerEntry 0 .xmiss 1).isSome = true ∧
    (labH.handlerEntry 0 .prot 1).isSome = false ∧ (labH.handlerEntry 0 .prot 2).isSome = true ∧ (labH.core 0).recs = [] ∧
    (labH.core 0).freeRec 0 0 = some 0 ∧ (labH.group 510).hdepth ≤ 1 ∧ (labH.core 0).freeRec 0 1 = some 56 := by decide +kernel

theorem witness_FaultsWithoutAHandlerHaltTheOwner :
    (Tab.find labH.owners 0).map (·.ostat.st) = some .running ∧ 2 ≤ (labH.group 509).hdepth ∧ (labH.group 510).hdepth = 1 ∧
    labH.handlerEntry 0 .svc 1 = none ∧ labH.handlerEntry 0 .svc 2 = none ∧
    ({ labH with owners := [(0, {})] } : State).owners.map (·.2.ostat.st) = [.absent] := by decide +kernel

/-- A tile of 4 rows of 64 bytes at scratch 0, its words, and states where every descriptor is taken or the first is. -/
def aTile : Tile := { v := true, st := .ready, team := 0, fmt := 0xF, rows := 3, rowb := 63, pitch := 4, base := 0, extent := 4 }
def labT : State := { lab with cores := [(0, { lab.core 0 with tiles := [(0, aTile)] })] }

theorem witness_TiledefTakesTheLowestFreeDescriptor :
    let f := { word0 with d := .w 2, b := .w 10 }
    let geometry := fun (extent base : Nat) => 0xF * 2 ^ 50 + 3 * 2 ^ 42 + 63 * 2 ^ 36 + 4 * 2 ^ 28 + base * 2 ^ 14 + extent
    let s := fun (b : Nat) => labT.updThread 0 (fun t => t.setPair 10 (BitVec.ofNat 64 b))
    let tile := fun (b : Nat) => tileOfWords 0 (BitVec.ofNat 64 b) 0
    let full : State := { lab with cores := [(0, { lab.core 0 with tiles := (List.range 256).map (fun i => (i, aTile)) })] }
    let word := fun (b : Nat) => (s b).rd 0 f.b true
    (s (geometry 4 0)).lone 0 f.guard {} (fUses f false false true false) ∧ ((s 0).teamOf 0).isSome = true ∧ (word (geometry 4 0)).toNat = geometry 4 0 ∧
    (s (geometry 4 0)).accessReady 0 ∧
    tileShapeOk (geometry 3 0) 0 (tile (geometry 3 0)) = false ∧ tileShapeOk (geometry 4 0) 0 (tile (geometry 4 0)) = true ∧
    tileInside 4096 (tile (geometry 4 60)) = true ∧ tileInside 4096 (tile (geometry 4 61)) = false ∧
    (Tab.getD (labT.core 0).tiles {} 0).v = true ∧ (Tab.getD (labT.core 0).tiles {} 1).v = false ∧
    (List.range 256).all (fun j => (Tab.getD (full.core 0).tiles {} j).v) = true := by
  unfold State.lone State.accessReady State.quiet; decide +kernel

/-- A descriptor in each state, held and not; w4 names none and w5 the first. -/
theorem witness_TileStatesMoveAsTheTableSays :
    let f := { word0 with d := .w 2, a := .w 9 }
    let s := fun (st : TileSt) (hold : Nat) => labT.setTile 0 0 { aTile with st, hold }
    (∀ st ∈ [TileSt.empty, .filling, .ready, .draining], ∀ hold ∈ [0, 1], (s st hold).lone 0 f.guard {} (fUses f false false false false) ∧
      (s st hold).teamOf 0 = some (0, lab.team 0) ∧ (s st hold).quiet 0 ∧ (s st hold).accessReady 0 ∧
      (s st hold).tileOf 0 ((s st hold).rdNat 0 f.a) = some { aTile with st, hold }) ∧
    labT.lone 0 f.guard {} (fUses { f with a := .w 4 } false false false false) ∧ labT.tileOf 0 (labT.rdNat 0 (.w 4)) = none := by
  unfold State.lone State.accessReady State.quiet; decide +kernel

/-- With and without a rewrite of the table by another group in progress. -/
theorem witness_PermutationFormsFillAndStoreTheTable :
    let s : State := { labT with teams := [(0, { lab.team 0 with matrix := some {} })] }
    let f := { word0 with d := .w 2, a := .w 9, b := .w 11 }
    let ld : State := s.updThread 0 (fun t => (t.setReg 9 64).setReg 11 0x1001)
    let busy : State := s.updCore 0 (fun c => { c with permBefore := some { uid := 9, was := [] } })
    (s.team 0).matrix.isSome = true ∧ s.lone 0 f.guard {} (fUses f false false false false) ∧ s.scratchReady 0 ∧
    (s.core 0).permBefore = none ∧ (busy.core 0).permBefore.isSome = true ∧
    s.tileOf 0 (s.rdNat 0 f.a) = some aTile ∧ aTile.fmt = 0xF ∧ aTile.rowb = 63 ∧ aTile.rows < 128 ∧
    (permRange (ld.rdNat 0 f.a) (ld.rdNat 0 f.b)).isSome = true ∧ 64 + 32 * 2 ≤ (s.team 0).scratchSize ∧ permRange 1 0 = none := by
  unfold State.lone State.scratchReady State.accessReady State.quiet; decide +kernel

/-- Offsets at the ends of what each load admits; banks with and without a change in progress. -/
theorem witness_TableWordsReadAndLoadTheirTables :
    let f := { word0 with d := .w 2, a := .w 9 }
    let at' := fun (a : Nat) => lab.updThread 0 (fun t => t.setReg 9 (BitVec.ofNat 32 a))
    let busy : State := lab.updCore 0 (fun c => { c with banksBefore := some { uid := 9, was := resetBanks } })
    BothPass ∧ (∀ k ∈ lab2.actives word0.guard, lab2.accessReady k) ∧ (lab.core 0).banksBefore = none ∧ (busy.core 0).banksBefore.isSome = true ∧
    lab.teamOf 0 = some (0, lab.team 0) ∧ lab.lone 0 f.guard {} (fUses f false false false false) ∧ lab.scratchReady 0 ∧
    (at' (4096 - 128)).rdNat 0 f.a + 128 ≤ 4096 ∧ (at' 2048).rdNat 0 f.a + 2048 ≤ (lab.team 0).scratchSize ∧
    (at' (4096 - 124)).rdNat 0 f.a % 4 = 0 ∧ (lab.team 0).scratchSize < (at' (4096 - 124)).rdNat 0 f.a + 128 ∧
    (at' 2056).rdNat 0 f.a % 8 = 0 ∧ (lab.team 0).scratchSize < (at' 2056).rdNat 0 f.a + 2048 ∧ (at' 4).rdNat 0 f.a % 8 ≠ 0 ∧
    (at' 2).rdNat 0 f.a % 4 ≠ 0 ∧ 2 ^ 24 ≤ (at' (2 ^ 24)).rdNat 0 f.a ∧ (at' (2 ^ 24 - 1)).rdNat 0 f.a < 2 ^ 24 := by
  refine ⟨both_pass, ?_⟩
  unfold State.lone State.scratchReady State.accessReady State.quiet; decide +kernel

/-- A completing event, one that leaves an arrival pending, and a thread that waits on the barrier. -/
theorem witness_BarrierEventsCompleteThePhase :
    let s : State := (lab.updThread 1 (fun t => { t with st := .atBarrier, waitBar := 3 }))
    let one := fun (b : Bar) => ({ b with pend := 0, txc := 0 } : Bar)
    let two := fun (b : Bar) => ({ b with pend := 1 } : Bar)
    s.team? 0 = some (lab.team 0) ∧ (one (Tab.getD (lab.team 0).bars {} 3)).pend = 0 ∧ (two (Tab.getD (lab.team 0).bars {} 3)).pend ≠ 0 ∧
    0 ∈ s.groupsOf 0 ∧ (s.thread (tkey 0 1)).st = .atBarrier ∧ (s.thread (tkey 0 1)).waitBar = 3 ∧ (s.thread 0).st ≠ .atBarrier := by
  decide +kernel

/-- Barrier 3, the last of four, and barrier 4, which does not exist; counts and byte counts at the ends of their ranges. -/
theorem witness_BarrierWordsActOnTheirEntry :
    let f := { word0 with d := .w 2, a := .w 9, b := .w 10 }
    let s := fun (i n : Nat) => lab.updThread 0 (fun t => (t.setReg 9 (BitVec.ofNat 32 i)).setReg 10 (BitVec.ofNat 32 n))
    (∀ i ∈ [3, 4], (s i 1).lone 0 f.guard {} (fUses f false false false false)) ∧ (s 3 1).barOf 0 f = some (0, 3) ∧ (s 4 1).barOf 0 f = none ∧
    (s 3 2047).rdNat 0 f.b = 2047 ∧ (s 3 2048).rdNat 0 f.b = 2048 ∧ (s 3 1).quiet 0 ∧ (s 3 (2 ^ 24)).rdNat 0 f.b = 2 ^ 24 ∧
    (s 3 (2 ^ 24 - 1)).rdNat 0 f.b = 2 ^ 24 - 1 := by unfold State.lone State.quiet; decide +kernel

theorem witness_BarrierWaitsAndTestsReadThePhase :
    let f := { word0 with a := .w 9, b := .q 1 }
    let s := fun (i : Nat) => lab.updThread 0 (fun t => t.setReg 9 (BitVec.ofNat 32 i))
    (s 3).lone 0 f.guard {} (fUses f false false false false) ∧ (s 3).barOf 0 f = some (0, 3) ∧ (s 4).barOf 0 f = none ∧
    (s 7).cbarOf 0 f = some ([0], 7) ∧ (s 8).cbarOf 0 f = none ∧ (s 3).rdPred 0 f.b = false ∧ (s 3).rdPred 0 (.q 7) = true := by
  unfold State.lone; decide +kernel

theorem witness_ClusterBarrierWordsActOnTheClustersEntry :
    let f := { word0 with d := .w 2, a := .w 9, b := .w 10 }
    let s := fun (i n : Nat) => lab.updThread 0 (fun t => (t.setReg 9 (BitVec.ofNat 32 i)).setReg 10 (BitVec.ofNat 32 n))
    (∀ i ∈ [7, 8], (s i 1).lone 0 f.guard {} (fUses f false false false false)) ∧ (s 7 1).cbarOf 0 f = some ([0], 7) ∧
    (s 8 1).cbarOf 0 f = none ∧ (s 7 1).team? 0 = some (lab.team 0) ∧ (s 7 12288).rdNat 0 f.b = 12288 ∧ (s 7 12289).rdNat 0 f.b = 12289 ∧
    (s 7 0).rdNat 0 f.b = 0 ∧ (s 7 1).quiet 0 := by unfold State.lone State.quiet; decide +kernel

/-- An outstanding entry of class 0 with a threshold of 0 and of 1; PERF at its last index and beyond. -/
theorem witness_CounterWordsReadWaitAndClear :
    let f := { word0 with a := .w 9 }
    let s := fun (n : Nat) => (lab.updThread 0 (fun t => t.setReg 9 (BitVec.ofNat 32 n))).updGroup 0 (fun g => { g with opc := [{ cls := 0, q := 5, w := 0 }] })
    (∀ n ∈ [0, 1, 63, 64], (s n).lone 0 f.guard {} (fUses f false false false false)) ∧
    (s 1).rdNat 0 f.a < 64 ∧ ((s 1).group 0).opcCount 0 ≤ (s 1).rdNat 0 f.a ∧ (s 0).rdNat 0 f.a < ((s 0).group 0).opcCount 0 ∧
    64 ≤ (s 64).rdNat 0 f.a ∧ lab.lone 0 word3.guard {} (fUses { word3 with sub := 15 } false false false false) ∧ (s 7).rdNat 0 f.a = 7 ∧
    (s 8).rdNat 0 f.a = 8 ∧ (s 6).rdNat 0 f.a = 6 := by unfold State.lone; decide +kernel

/-- Queue 5 of owner 0 with 64 slots at DPA 0x210000 and its control block at 0x200000; w9 names it. -/
def labQ : State :=
  { lab.updThread 0 (fun t => t.setReg 9 5) with qbind := [(5, 2 ^ 127 + 6 * 2 ^ 114 + 0x8000 * 2 ^ 70 + 0x8400 * 2 ^ 30)] }

/-- A queue with room, one whose ring is full, with and without a place in its list, one whose control block the host holds, one of another
owner, and a group with 63 entries. -/
theorem witness_CopyQueueWordsClaimAndRead :
    let f := { word0 with d := .w 2, a := .w 9, b := .s 16 }
    let full : State := { labQ with mem := Memory.writeN [] 0x200000 [64] }
    let listed : State := full.updQueue 5 (fun x => { x with listCap := 64 })
    let held : State := { labQ with hostLines := [(0x200000 / 128, false)] }
    let many : State := labQ.updGroup 0 (fun g => { g with opc := List.replicate 63 { cls := 0, q := 5, w := 0 } })
    labQ.lone 0 f.guard {} (fUses f false false false false) ∧ labQ.ownsQueue 0 (labQ.rdNat 0 f.a) = true ∧ lab.ownsQueue 0 5 = false ∧
    labQ.ringRoom 5 = true ∧ (labQ.queue 5).list = [] ∧ (labQ.group 0).opcCount 0 < 63 ∧ 63 ≤ (many.group 0).opcCount 0 ∧
    full.ringRoom 5 = false ∧ (full.queue 5).listCap ≤ (full.queue 5).list.length ∧ labQ.quiet 0 ∧ listed.ringRoom 5 = false ∧
    (listed.queue 5).list.length < (listed.queue 5).listCap ∧ listed.quiet 0 ∧ labQ.hostLinesIn 0x200000 64 = [] ∧
    held.hostLinesIn (qbQcb (held.binding 5)) 64 ≠ [] ∧ held.quiet 0 ∧
    labQ.lone 0 f.guard { long := true } (fUses f true false false false) ∧ labQ.flagFree 0 := by
  unfold State.lone State.quiet State.flagFree; decide +kernel

/-- A launch of two stages with 16-byte items: its queues have room, or are full or closed. -/
def labL (q : StageQueue) : State :=
  { lab with launches := [(0, { handle := 3, isOpen := true, stages := [{}, {}], queues := [(0, q), (1, q)] })] }

theorem witness_PushesAppendOneItem :
    let f := { word0 with d := .w 2, a := .w 9, b := .w 4 }
    let s := fun (q : StageQueue) (a : Word) => (labL q).updThread 0 (fun t => t.setReg 9 a)
    let open' : StageQueue := { cap := 1 }
    (∀ q ∈ [open', { cap := 0 }, { closed := true }], (s q 16).lone 0 f.guard {} (fUses f false false true false) .ordinaryOnly ∧
      (s q 16).lone 0 f.guard {} (fUses f false false false false) .ordinaryOnly ∧ (s q 16).stageFor 0 = some (0, 0) ∧
      (s q 16).lastStage 0 0 = false ∧ (s q 16).stageQ 0 1 = q ∧ (s q 3).openLaunch 0 3 = some 0) ∧
    (s open' 16).quiet 0 ∧ open'.full = false ∧ ({ cap := 0 } : StageQueue).full = true ∧ (s open' 8).rdNat 0 f.a % 16 ≠ 0 ∧
    ((s open' 16).scratchBytes 0 16 16).isOk = true ∧
    (((s open' 3).readPieces 0 ((s open' 3).rd 0 f.b true).toNat 1).map (fun r => r.1.launches == (s open' 3).launches)).toOption = some true ∧
    ((s open' 3).rd 0 f.b true).toNat % 16 = 0 ∧ (s open' 3).blockHeld 0 ((s open' 3).rd 0 f.b true).toNat 1 = [] ∧
    (let u : State := { (s open' 3).updThread 0 (fun t => { t with sysLines := [0x102000 / 128] }) with hostLines := [(0x102000 / 128, false)] }
     u.blockHeld 0 (u.rd 0 f.b true).toNat 1 ≠ [] ∧ u.quiet 0) := by unfold State.lone State.quiet; decide +kernel

theorem witness_PopsAndClosesActOnTheQueue :
    let f := { word0 with d := .w 2, a := .w 9 }
    let s := fun (q : StageQueue) (a : Word) => (labL q).updThread 0 (fun t => t.setReg 9 a)
    let held : StageQueue := { items := [(7, List.replicate 16 1)], cap := 1 }
    let last : State := (s held 16).updTeam 0 (fun t => { t with stage := 1 })
    (s held 16).lone 0 f.guard { long := true } (fUses f false false false false) .ordinaryOnly ∧ (s held 16).flagFree 0 ∧
    (s held 16).stageFor 0 = some (0, 0) ∧ (s held 8).rdNat 0 f.a % 16 ≠ 0 ∧ ((s held 16).scratchFor 0 16 16).isOk = true ∧
    held.take.isSome = true ∧ ({} : StageQueue).take.isNone = true ∧ (s held 16).lone 0 f.guard {} (fUses f false false false false) .ordinaryOnly ∧
    (s held 16).lastStage 0 0 = false ∧ last.stageFor 0 = some (0, 1) ∧ last.lastStage 0 1 = true ∧ (s held 3).openLaunch 0 3 = some 0 ∧
    (s held 4).openLaunch 0 4 = none := by unfold State.lone State.flagFree; decide +kernel

/-- A ring of 32 slots at reserve offset 0x4000: empty, and full; and a reply place that misses. -/
theorem witness_ServiceCallsPostARequest :
    let f := { word0 with d := .w 2, a := .w 16, b := .w 4 }
    let ring : BitVec 128 := 2 ^ 127 + 5 * 2 ^ 123 + 0x100 * 2 ^ 103
    let s : State := lab.updOwner 0 (fun o => { o with sring := ring })
    let full : State := { s with mem := Memory.writeN [] 0x104000 [32] }
    let miss : State := s.updThread 0 (fun t => t.setPair 4 0x30000)
    s.lone 0 f.guard {} [⟨f.d, 1, true⟩, ⟨f.b, 2, false⟩] ∧ srV (lab.owner 0).sring = false ∧ srV (s.owner 0).sring = true ∧
    (s.svcCheck 0 f).isOk = true ∧ (miss.svcCheck 0 f).isOk = false ∧ s.svcRoom 0 1 = true ∧ full.svcRoom 0 1 = false ∧ s.hostLines = [] ∧
    s.quiet 0 := by unfold State.lone State.quiet; decide +kernel

/-- The handler group of depth 1 issues; it holds record 3, whose one waiter is thread 0, and may claim record 4; the frame pool
has one frame of two. -/
def labP : State :=
  { labH with
    cur := { gslot := 510, lanes := [0], len := 8 }
    mem := Memory.writeN labH.mem 0x100100 (leBytes 4 0x110 ++ leBytes 4 2 ++ leBytes 4 1)
    groups := lab.groups ++ [(510, { uid := 8, hdepth := 1, allot := 64, hcls := .xmiss })]
    cores := [(0, { lab.core 0 with recs := [(3, { cls := .xmiss, claimed := some 8, name := 3, waiters := [⟨1, 0⟩], nwait := 1 }), (4, { cls := .xmiss, order := 1 })] })]
    threads := (lab.threads.map (fun e => (e.1, { e.2 with st := .waitHandler }))) ++ [(16320, { pc := bootPc, regs := [(4, 0x2000), (5, 0xFFF0), (9, 3)] })] }

/-- Entries that are formed and held, formed and not held, and not formed; a core with room, and one where the owner's places are full; a
pool that is full, and one without a header. -/
theorem witness_HandlerFormsServeMisses :
    let k := 16320
    let f := { word0 with d := .w 2, a := .w 9 }
    let page : BitVec 128 := 2 ^ 115 + 2 ^ 111 + 2 ^ 16
    let places := fun (s : State) => ((s.core 0).tlb.filter (fun x => !(x.owner == 0 && tlbOverlap x.bits page))).countP (fun x => x.owner == 0)
    let crowd : State := labP.updCore 0 (fun c => { c with tlb := List.replicate 1056 ⟨0, page + 2 ^ 17, none⟩ })
    let full : State := { labP with mem := Memory.writeN labP.mem 0x100108 [2] }
    labP.lone k word3.guard {} (fUses { word3 with d := .zero } false true true false) .handlerOnly ∧
    labP.lone k word3.guard {} (fUses { word3 with d := .zero, b := .zero } false true false false) .handlerOnly ∧
    labP.lone k f.guard {} [⟨.w 8, 4, true⟩] .handlerOnly ∧ labP.lone k f.guard {} (fUses f false false false false) .handlerOnly ∧
    lab.active word0.guard 0 = true ∧ (lab.group 0).hdepth = 0 ∧ tlbFormed page = true ∧ tlbFormed 0 = false ∧
    places labP < 1056 ∧ 1056 ≤ places crowd ∧
    (labP.owner 0).holdsAA (tlbFrame page * 2 ^ 16) (tlbBytes page) = true ∧
    (labP.owner 0).holdsAA (tlbFrame (page + 2 ^ 68) * 2 ^ 16) (2 ^ 16) = false ∧ labP.ops = [] ∧
    ((labP.core 0).oldest (labP.group 510).mayClaim).map (·.1) = some 4 ∧ (labP.core 1).oldest (labP.group 510).mayClaim = none ∧
    labP.rdNat k f.a = 3 ∧ (labP.core 0).heldRec 8 3 = some 3 ∧ (labP.core 0).heldRec 8 4 = none ∧
    labP.quiet k ∧ labP.reserveOps k = [] ∧
    labP.poolHeader 0 = some (0x110, 2, 0 + 1) ∧ full.poolHeader 0 = some (0x110, 2, 2) ∧ labH.poolHeader 0 = none ∧
    (labP.owner 0).holdsAA (3 * 2 ^ 16) (2 ^ 16) = true ∧ (labP.owner 0).holdsAA (16 * 2 ^ 16) (2 ^ 16) = false ∧
    labP.findGroup 1 = some 0 ∧ (labP.core 0).recWaits = [] := by unfold State.lone State.quiet; decide +kernel

/-- The team's stream runs. -/
def labM (x : Tile) (m : Matrix) : State :=
  { lab with
    cores := [(0, { lab.core 0 with tiles := [(0, x)] })], teams := [(0, { lab.team 0 with matrix := some m })]
    groups := [(0, { lab.group 0 with uni := [(6, 99)] })] }

theorem labM_inStream (x : Tile) (units : List Nat) :
    (labM x {}).inStream 0 ((labM x {}).team 0) {} units :=
  ⟨⟨rfl, rfl⟩, by decide, by simp⟩

/-- Tiles that a word accepts, that are not ready, and that do not exist (uniform register 6 holds 99); shapes that MMA, MMA.CONV and
MMAS accept; a format without scales. -/
theorem witness_MatrixWordsLoadAndMultiply :
    let z := { zword0 with d := .acc 1, a := .m 2, u1 := 4 }
    let mm : Tile := { aTile with fmt := 2, rows := 127 }
    let slt : Tile := { aTile with fmt := 7, sve := true, rows := 127 }
    (∀ x units, (labM x {}).inStream 0 ((labM x {}).team 0) {} units) ∧
    (labM aTile {}).tileOf 0 ((labM aTile {}).uniOf 0 z.u1).toNat = some aTile ∧ aTile.st = .ready ∧ aTile.rowb < 64 ∧
    (labM aTile {}).tileOf 0 ((labM aTile {}).uniOf 0 6).toNat = none ∧ ({ aTile with st := .filling } : Tile).st ≠ .ready ∧
    rowScales 9 = 2 ∧ rowScales 0xF = 0 ∧ (let (_, rows, bytes) := mmaShape 2; rows ≤ mm.rows + 1 ∧ bytes ≤ mm.rowb + 1) ∧
    (let (_, rows, _) := mmaShape 2; aTile.rows + 1 < rows) ∧ slt.fmt = 7 ∧ 127 ≤ slt.rows ∧ slt.rowb = 63 ∧
    (1 : BitVec 4).getLsbD 0 = true ∧ hasScales 0 = false ∧ (0 : BitVec 4).getLsbD 0 = false ∧
    Tab.getD ({ zst := [(0, true)] } : Matrix).zst false 0 = true ∧ Tab.getD ({} : Matrix).zst false 0 = false := by
  refine ⟨fun x units => labM_inStream x units, ?_⟩
  decide +kernel

/-- An empty tile that a drain accepts, one of another format, a barrier that exists and one that does not, a tile in and not in the
state waited for, a word in flight, and permutation words whose entries lie in scratch, beyond it, or are malformed. -/
theorem witness_MatrixWordsDrainAndSynchronise :
    let big : Tile := { v := true, team := 0, fmt := 0, rows := 255, rowb := 63, pitch := 4, base := 0, extent := 64 }
    let fly : State := labM aTile { flight := [{ units := [3], drain := some (0, true) }] }
    (∀ x units, (labM x {}).inStream 0 ((labM x {}).team 0) {} units) ∧
    (labM big {}).tileOf 0 0 = some big ∧ big.st = .empty ∧
    256 ≤ big.rows + 1 ∧ 64 ≤ big.rowb + 1 ∧ big.fmt ≠ 1 ∧ (3 : BitVec 6).toNat < (lab.team 0).nbars ∧ (lab.team 0).nbars ≤ (4 : BitVec 6).toNat ∧
    aTile.st.code = (2 : BitVec 4).toNat ∧ aTile.st.code ≠ (0 : BitVec 4).toNat ∧ ((fly.team 0).matrix.map (·.flight.length)) = some 1 ∧
    fly.group0 0 = some 0 ∧ ({} : Matrix).tagOf 2 ≠ 0xF ∧ ({ mtag := [(2, 0xF)] } : Matrix).tagOf 2 = 0xF ∧ permRange 64 0x1001 = some (1, 2) ∧
    64 + 32 * 2 ≤ (lab.team 0).scratchSize ∧ (lab.team 0).scratchSize < 4064 + 32 * 2 ∧ permRange 1 0 = none ∧
    (Tab.getD (lab.team 0).bars {} 3).ph = (0 : BitVec 4).getLsbD 0 ∧ (Tab.getD (lab.team 0).bars {} 3).ph ≠ (1 : BitVec 4).getLsbD 0 := by
  refine ⟨fun x units => labM_inStream x units, ?_⟩
  decide +kernel

/-- A group whose quantum has run out; an expired delay; a group whose threads have exited; a notification; a record to serve; a
closed window whose budget was used up for the fourth time, and one long past; and deficits used up, or one positive that is ready. -/
theorem witness_OrreryEventsEndQuantaWaitsAndGroups :
    let quantum : State := lab.updGroup 0 (fun g => { g with orbit := { g.orbit with qact := true, qcnt := 16 } })
    let back : State := lab.updThread 0 (fun t => { t with st := .backoff })
    let gone : State := (List.range 32).foldl (fun s l => s.updThread l (fun t => { t with st := .exited })) lab
    let rec' : State := { labH with groups := lab.groups, cores := [(0, { lab.core 0 with recs := [(0, { cls := .xmiss, waiters := [⟨1, 0⟩] })] })] }
    let spent : State := { lab with clock := 120000, cores := [(0, { slots := [(0, { owner := 0, deficit := -1 })], walks := [(0, { used := 24000, exhausted := 3 })] })] }
    (quantum.group? 0).any (fun x => x.orbit.qact && x.quant ≤ x.orbit.qcnt) = true ∧
    quantum.isHalting 0 = false ∧ (quantum.updOwner 0 (fun o => { o with ostat := { st := .halting } })).isHalting 0 = true ∧ (back.thread 0).st = .backoff ∧ (back.thread 0).bodly = 0 ∧ (∀ l, l < 32 → (gone.thread (tkey 0 l)).st = .exited) ∧
    (gone.group? 0).any (fun x => x.opc.isEmpty) = true ∧ gone.ops = [] ∧
    (rec'.core 0).slotOf 0 = some 0 ∧ rec'.group? (gkey 0 (509 + 1 - 2 * 0)) = none ∧ rec'.isHalting 0 = false ∧
    ((rec'.core 0).oldest (servesRec 0 1)).map (·.1) = some 0 ∧ rec'.handlerEntry 0 .xmiss 1 = some 0xFFF000001000 ∧
    lab.now / 120000 = (lab.core 0).window ∧ spent.now / 120000 = (spent.core 0).window + 1 ∧ (spent.owner 0).walkbudget ≤ 24000 ∧
    (lab.core 0).window + 1 < ({ lab with clock := 240000 } : State).now / 120000 ∧ (∀ e ∈ (lab.core 0).walks, e.2.exhausted < 3) ∧
    (∀ e ∈ (spent.core 0).slots, ¬(0 < e.2.deficit ∧ spent.ownerReady 0 e.2.owner = true)) ∧ (lab.core 0).nextReplenish ≤ lab.now ∧
    ((lab.updCore 0 (fun c => { c with nextReplenish := 1 })).core 0).nextReplenish > lab.now ∧
    ((lab.updCore 0 (fun c => { c with slots := [(0, { owner := 0, deficit := 5 })] })).ownerReady 0 0) = true := by decide +kernel

/-- A notification that finds its group where the command was issued from, and one whose group has moved; none awaits it in `lab`. -/
theorem witness_OrreryNotification :
    let s : State := { lab.updGroup 0 (fun g => { g with opc := [{ cls := 0, q := 5, w := 0 }] }) with notes := [{ core := 0, gslot := 0, cls := 0, q := 5, w := 0, owner := 0 }, { core := 0, gslot := 7, cls := 0, q := 5, w := 0, owner := 0 }] }
    (s.notes[0]?.map (fun n => (s.noteGroup n, (s.group 0).awaits n))) = some (some 0, true) ∧
    (s.notes[1]?.map s.noteGroup) = some (some 0) ∧ (∀ n ∈ s.notes, ∀ e ∈ lab.groups, e.2.awaits n = false) := by decide +kernel

/-- Queue 5 runs a packet: its kind, kind fields and row length, from AA 0 to AA 0x20000, with its stamp at AA 0x30000. -/
def labE (kind qp len : Nat) (dest : Nat := 0x20000) : State :=
  { labQ with queues := [(5, { st := .running, slot := leBytes 64 (2 ^ 63 + kind * 2 ^ 59 + dest * 2 ^ 128 + (len - 1) * 2 ^ 192 + 0x30000 * 2 ^ 352 + qp * 2 ^ 480) })] }

def engOk (s : State) (word : Nat) (off : Int) (n : Nat) : Bool := (s.engWord 5 word off n).isOk

/-- An iteration of each kind whose accesses pass, and for each check one that fails it; a source that the host holds. -/
theorem witness_PacketIterationsActAsTheirKindSays :
    (∀ kq ∈ [(0, 0), (1, 0), (2, 9 * 16), (3, 0), (4, 0)], let s := labE kq.1 kq.2 128
      (s.queue 5).st = .running ∧ (s.queue 5).done = false ∧ (s.queue 5).ahead = [] ∧ s.servesNext 5 = true ∧ (s.queueOwner 5).any s.isHalting = false ∧ s.switchBars s 5 = false ∧
      Tab.getD s.engineReset false (engineOf 5) = false ∧ (s.srcWord 5 0 0 128).isOk = true ∧
      s.pktIllop 5 (pktOf (s.queue 5).slot) = false ∧ ((pktOf (s.queue 5).slot).part [0, 0, 0, 0, 0]) = (0, 128) ∧
      (s.stampPlace 5 (pktOf (s.queue 5).slot) false).isOk = true ∧ engOk s 0 0 128 = true ∧ engOk s 0x20000 0 128 = true) ∧
    (labE 7 0 128).pktIllop 5 (pktOf ((labE 7 0 128).queue 5).slot) = true ∧ engOk (labE 0 0 128) 0x100000 0 128 = false ∧
    (({ labE 0 0 128 with hostLines := [(0x200000 / 128, false)] } : State).srcWord 5 0 0 128).isOk = false ∧
    (pktOf ((labE 1 2 128).queue 5).slot).qp % 2 ^ 26 % 4 ≠ 0 ∧ (labE 2 (9 * 16) 6).pktIllop 5 (pktOf ((labE 2 (9 * 16) 6).queue 5).slot) = false ∧
    6 % 4 ≠ 0 ∧ 129 % 128 ≠ 0 := by decide +kernel

theorem witness_PacketMigrateAndDecode :
    let m : State := { labE 5 (2 ^ 8) 1 0x400000 with qbind := [(5, 2 ^ 127 + 2 ^ 125 + 6 * 2 ^ 114 + 0x8000 * 2 ^ 70 + 0x8400 * 2 ^ 30)] }
    let b := BitVec.ofNat 128 (2 ^ 127 + 6 * 2 ^ 114 + 0x8000 * 2 ^ 70 + 0x8400 * 2 ^ 30)
    let d : State := { labE 6 (2 ^ 16 + 1) 64 with qbind := [(64, b)], queues := [(64, (labE 6 (2 ^ 16 + 1) 64).queue 5)] }
    m.pktIllop 5 (pktOf (m.queue 5).slot) = false ∧ qbPv (m.binding 5) = true ∧ extV (Tab.getD (m.owner 0).allot 0 1) = true ∧
    0x400000 % 2 ^ 16 = 0 ∧ 1 % 2 ^ 16 ≠ 0 ∧ d.servesNext 64 = true ∧ d.pktIllop 64 (pktOf (d.queue 64).slot) = false ∧
    (d.srcWord 64 0 0 64).isOk = true ∧ (d.engWord 64 0x20000 0 4).isOk = true := by decide +kernel

/-- An idle queue with a packet in its ring; a completed command whose writes are acknowledged, and one whose write is not; a stopped
queue told to resume or to abandon; a delivery, and a part of another of the same tag. -/
theorem witness_EngineEventsRunTheQueues :
    let idle : State := { labQ with mem := Memory.writeN (Memory.writeN [] 0x200000 [1]) 0x210007 [0x80] }
    let done : State := (labE 0 0 128).updQueue 5 (fun x => { x with done := true })
    let unacked : State := { done with sent := [{ q := 5, dev := some 1, addr := 0, data := [] }] }
    let stopped := fun (cmd : Byte) => ({ labQ with mem := Memory.writeN [] 0x200028 [cmd], queues := [(5, { st := .stopped, slot := leBytes 64 (2 ^ 63) })] } : State)
    let part : Delivery := { q := 5, seq := 1, iter := 0, dpa := 0x200100, world := 0, bf16 := false, data := [0, 0, 0, 0] }
    let sent : State := { labQ with deliveries := [part] }
    let parts : State := { labQ with deliveries := [part, part] }
    qbV (idle.binding 5) = true ∧ (idle.queue 5).st = .idle ∧ idle.qRd 5 < idle.qWr 5 ∧ (idle.owner 0).ostat.st = .running ∧
    Tab.getD idle.engineReset false (engineOf 5) = false ∧ (idle.queue 5).slot = [] ∧
    idle.hostLinesIn (idle.slotDpa 5 0) 64 = [] ∧ (idle.slotRead 5 0).poison = [] ∧ 2 ^ 63 ≤ pktNum (idle.slotRead 5 0).bytes 0 8 ∧
    (done.queue 5).done = true ∧ (done.landEngAll 5).deliveries = [] ∧ (done.landEngAll 5).sent = [] ∧ (done.landEngAll 5).snoops = [] ∧
    ((done.landEngAll 5).queue 5).pend = [] ∧ ((stopped 1).queueOwner 5).any (fun o => ((stopped 1).owner o).ostat.st == .halted) = false ∧
    ((stopped 1).updOwner 0 (fun o => { o with ostat := { st := .halted } })).queueOwner 5 = some 0 ∧
    (done.landEngAll 5).stampSealed 5 (pktOf (done.queue 5).slot) = false ∧
    (unacked.landEngAll 5).sent.any (fun o => o.q == 5 && !o.acked) = true ∧
    (done.stampPlace 5 (pktOf (done.queue 5).slot) true).isOk = true ∧
    (stopped 1).qcbRead 5 40 8 = 1 ∧ (stopped 2).qcbRead 5 40 8 = 2 ∧ ((stopped 1).slotRead 5 0).poison = [] ∧
    (stopped 2).engQuiet 5 = true ∧ (stopped 2).stampSealed 5 (pktOf ((stopped 2).queue 5).slot) = false ∧
    sent.deliveries[0]?.map (fun d => tagLater d.seq d.iter (Tab.find (sent.queue 5).lastTags (homeSlice d.dpa))) = some true ∧
    (parts.deliveries.eraseIdx 0).any (fun c => c.q == 5 && homeSlice c.dpa == homeSlice part.dpa && c.seq == 1 && c.iter == 0) = true ∧
    tagLater 1 0 (some (1, 0)) = false := by decide +kernel

/-- A stage with an item whose seat is free; a stage whose input is used up, beside one that has completed or not; a saved team, with one
that was ready before it or not. -/
theorem witness_TeamEventsPlaceCompleteAndEnlarge :
    let seat : Seat := { core := 1, tslot := 0, gslots := [0] }
    let ln : Launch := { isOpen := true, stages := [{ scr := 1, bars := 2 }, {}], queues := [(0, { items := [(0, List.replicate 16 1)], cap := 1 }), (1, { cap := 1 })] }
    let s : State := { lab with teams := [], launches := [(0, ln)] }
    let used := fun (i : Nat) (c : Tab Bool) => ({ s with launches := [(0, { ln with queues := [(i, { closed := true, cap := 1 })], completed := c })] } : State)
    let saved := fun (uid : Nat) => ({ owner := 0, die := 0, teams := [{ team := { uid, scratchSize := 4096 }, groups := [{ group := {}, threads := [] }] }] } : Ctx)
    let back : State := { s with ctxs := [(0, saved 5), (1, saved 6)] }
    let others := fun (x : State) (i : Nat) => ((x.launch? 0).map (fun y => (List.range 2).all (fun j => j == i || Tab.getD y.completed false j))) = some true
    s.eligible 0 0 = true ∧ s.isHalting 0 = false ∧ s.readyCtx 0 = false ∧ s.outranked 0 0 = false ∧ (s.liveTids 0).length + 1 ≤ 65535 ∧
    isRectangle 1 1 [seat] = true ∧ s.seatOk (((s.stageOf 0 0).needs 0).at_ 0) seat = true ∧ s.snoops = [] ∧
    (∀ i ∈ [0, 1], ((used i []).stageQ 0 i).closed = true ∧ ((used i []).stageQ 0 i).len = 0 ∧ (used i []).stageTeams 0 i = [] ∧
      ¬others (used i []) i ∧ others (used i [(1 - i, true)]) i) ∧
    (used 0 []).lastStage 0 0 = false ∧ (used 1 []).lastStage 0 1 = true ∧ s.exists? 0 = true ∧
    back.earlierReady 0 = false ∧ back.earlierReady 1 = true ∧
    (Tab.find back.ctxs 0).any (fun c => c.ready && !c.evicted && (c.teams.zip [seat]).all (fun e => back.seatOk (back.needsOf e.1) e.2) &&
      back.handlersFit [seat] c && back.recsFit [seat] c && c.teams.all (fun sv => !sv.streamEnds)) = true := by decide +kernel

theorem witness_StallEnlarge :
    let q : StageQueue := { items := [(0, [])], cap := 1 }
    let s : State := (({ labL q with clock := 4800 } : State).updThread 0 (fun t => { t with st := .waitOp, waitFor := some (.stage 0 1) })).updOwner 0
      (fun o => { o with stalled := some 0 })
    let s1 : State := (List.range 31).foldl (fun a l => a.updThread (l + 1) (fun t => { t with st := .exited })) s
    let waiting := (s1.ordinaryThreads 0).filterMap (fun k => (s1.thread k).fullQueue.map (fun f => (k, f)))
    (s1.owner 0).stalled = some 0 ∧ (sortBy (fun e => s1.fullRank e.2) waiting).length = 1 ∧ 0 + 4800 ≤ s1.now ∧ s1.stalledNow 0 = true ∧
    (waiting.all (fun e => (s1.owner 0).poolused.toNat + s1.enlargeCost e.2 ≤ (s1.owner 0).poolmax * 1024)) = true ∧
    (waiting.all (fun e => 0 < s1.enlargeCost e.2)) = true ∧ s1.isHalting 0 = false ∧
    (s1.updOwner 0 (fun o => { o with ostat := { st := .halted } })).isHalting 0 = true := by decide +kernel

/-- The parked group of team 0, whose stamp at DPA 0x102000 has come; a free park frame. -/
def labC : State :=
  let s : State := { lab with
    mem := Memory.writeN [] 0x102000 [1]
    owners := [(0, { lab.owner 0 with sring := 2 ^ 127 + 5 * 2 ^ 123 + 0x100 * 2 ^ 103 + 2 * 2 ^ 75 + 2 * 2 ^ 63 })]
    threads := [(0, { pc := bootPc, st := .parked, watch := some 0x102000 })] }
  (List.range 31).foldl (fun a l => a.updThread (l + 1) (fun t => { t with st := .exited })) s

/-- A wake, a comet formed, each way that a monitor's wait ends, a recorded hit, an operation past the limit. -/
theorem witness_WaitingThreadsWakeAndFault :
    let w : Op := { aLoad with kind := .monwait (some 0), dest := .win 2 }
    let mon := fun (hit : Bool) => ({ lab.updThread 0 (fun t => { t with st := .waitOp, monitor := some { line := 0, hit } }) with ops := [w] } : State)
    let hit : State := { lab with hits := [{ uid := 1, lane := 0, pc := bootPc, cls := .debug, addr := 5 }] }
    let late : Op := { anAtomic with scope := 6, acq := true }
    let old : State := { lab with clock := 2400000, hostLines := [(0x102000 / 128, false)], ops := [late] }
    (labC.thread 0).st = .parked ∧ labC.answered 0 (labC.thread 0) = true ∧ (labC.parkFrame 0 0).isSome = true ∧ labC.mayComet 0 = true ∧
    labC.frameFree 0 0 = true ∧ labC.isHalting 0 = false ∧ (lab.thread 0).st ≠ .parked ∧ (∀ p ∈ old.ops, late.heldBy p false = false) ∧ ((mon true).thread 0).monitor.any Monitor.hit = true ∧ w.split = false ∧
    ((mon false).thread 0).monitor.isSome = true ∧ (lab.thread 0).monitor.isSome = false ∧
    ((mon true).threadOps 0).map (·.id) = [1] ∧ w.deadline.any (· ≤ lab.now) = true ∧ (mon true).findGroup w.uid = some 0 ∧
    hit.hits.length = 1 ∧ hit.findGroup 1 = some 0 ∧ (hit.thread (tkey 0 0)).st = .ready ∧ old.op? 1 = some late ∧ old.abandoned late = true := by
  decide +kernel

/-- The comet comes back to a free slot; its frame still holds what the comet left there. -/
theorem witness_CometReenter :
    let s : State := { lab with
      groups := [], mem := Memory.writeN [] 0x220000 (frameBytes 0)
      comets := [{ owner := 0, teamUid := 2, saved := { group := { uid := 1 }, threads := (List.range 32).map (fun j => (j, {})) }, frame := 0
                   frameDpa := 0x220000, frameWorld := 0, drawn := 0 }] }
    s.findTeam 2 = some 0 ∧ s.gslotsOk (0 / 32) 0 [0] = true ∧ s.isHalting 0 = false ∧
    (s.homeRead 0 0x220000 8192).clean 0x220000 = frameBytes 0 := by
  refine ⟨by decide, by decide, by decide, ?_⟩
  have : (frameBytes 0).length = 8192 := by simp only [frameBytes, List.length_map, List.length_range]
  rw [State.homeRead_plain _ _ _ (by decide) rfl rfl, Got.clean_of_no_poison _ _ rfl]
  simpa only [this] using Memory.readN_writeN [] 0x220000 (frameBytes 0)

/-- A cluster of one team that has waited in its handler for longer than PARKTH, and one whose wait has just begun; an owner above SHQ; a
context to bring back, with and without a core of the owner; and the handler's SEAL words on a context that exists or not. The size of an
image is a free value: that a context has room depends on it alone. -/
theorem witness_SealsSaveAndReturnContexts :
    let old : State := ({ lab.updThread 0 (fun t => { t with st := .waitHandler }) with clock := 240000 } : State).updTeam 0
      (fun t => { t with waitSince := some 0 })
    let new : State := old.updTeam 0 (fun t => { t with waitSince := some 1 })
    let c : Ctx := { owner := 0, die := 0, teams := [], room := 8192 }
    let above : State := ({ lab with ctxs := [(7, c)] } : State).updOwner 0 (fun o => { o with shq := 0 })
    let evicted : State := { lab with ctxs := [(7, { c with evicted := true })] }
    let sealer : State := { labP with ctxs := [(3, c)] }
    let f := { word0 with d := .w 2, a := .w 9, b := .w 4 }
    let limit := (old.owner 0).parkth * 1200
    lab.team? 0 = some (lab.team 0) ∧ (lab.team 0).members = [0] ∧ 0 = teamKey 0 0 ∧ lab.isHalting 0 = false ∧
    old.teamWaits (old.team 0) = true ∧ (old.team 0).waitSince = some 0 ∧ 0 + limit ≤ old.now ∧ lab.teamWaits (lab.team 0) = false ∧
    (new.team 0).waitSince.all (fun since => new.now < since + limit) = true ∧
    (∀ m ∈ (old.team 0).members, (old.team m).lastIssue + limit ≤ old.now) ∧ lab.ops = [] ∧
    (∀ e ∈ lab.groups, e.2.rep = none) ∧ lab.queues = [] ∧ (lab.team 0).matrix = none ∧ lab.shadowUsed 0 + 8192 ≤ shadowBytes ∧
    (above.owner 0).shq < above.shused 0 ∧ above.sealAsked 0 false none = false ∧
    above.ctxs.find? (fun c => c.2.owner == 0 && !c.2.evicted) = some (7, c) ∧ (Tab.find evicted.ctxs 7).any (fun c => c.evicted && c.ready) = true ∧
    evicted.sealAsked 0 true (some 7) = false ∧ (evicted.cores.find? (fun c => (c.2.slotOf 0).isSome)).isSome = true ∧
    ({ evicted with cores := [] } : State).cores.find? (fun c => (c.2.slotOf 0).isSome) = none ∧
    (({ evicted with cores := [] } : State).ownerSlotFor 1 0).isSome = true ∧ ({ evicted with cores := [] } : State).groupsOn 1 + 2 ≤ 512 ∧ labH.recordFor 0 0 .seal = none ∧
    lab.farDown 0x102000 = false ∧ ({ lab with portsDown := [(0, true)] } : State).farDown (2 ^ 44) = true ∧
    sealer.lone 16320 f.guard {} (fUses f true false false false) .handlerOnly ∧ sealer.lone 16320 f.guard {} (fUses f false false true false) .handlerOnly ∧
    sealer.quiet 16320 ∧ sealer.rdNat 16320 f.a = 3 ∧ (sealer.rd 16320 f.b true).toNat % 64 = 0 ∧ sealer.ctxOf 0 3 = some c ∧ sealer.ctxOf 0 4 = none := by
  unfold State.lone State.quiet; decide +kernel

theorem witness_ShadowRoom : Config.imageSize lab.nextCtx ≤ shadowBytes → lab.shadowRoom 0 = true := by
  intro h
  simpa [State.shadowRoom, show lab.shadowUsed 0 = 0 by decide +kernel] using h

/-- A handler entry for SEAL (class 13), so that a record can be taken. -/
theorem witness_SealRecord : let s : State := { lab with mem := Memory.writeN [] 0x100068 (leBytes 8 0xFFF000001000) }
    s.recordFor 0 0 .seal = some false ∧ (s.core 0).freeRec 0 0 = some 0 := by decide +kernel

/-- An owner that halts, one that is halted with a halted queue, a new owner's reserve, an owner to destroy, a range to sweep, and a
core without teams. -/
theorem witness_OwnersHaltResumeAppearAndGo :
    let st := fun (x : OState) => lab.updOwner 0 (fun o => { o with ostat := { o.ostat with st := x } })
    let q : State := { st .halted with qbind := labQ.qbind, queues := [(5, { st := .halted })] }
    let e : BitVec 128 := (2 ^ 127 + 2 ^ 126 + 64 * 2 ^ 88 + 16 * 2 ^ 32 + 2 ^ 118 + 1) &&& ~~~((3 : BitVec 128) <<< 118) &&& ~~~(0xFFFFFFFF : BitVec 128)
    e = 2 ^ 127 + 2 ^ 126 + 64 * 2 ^ 88 + 16 * 2 ^ 32 ∧
    ((st .halting).owner 0).ostat.st = .halting ∧ lab.ops = [] ∧ ((st .halted).owner 0).ostat.st = .halted ∧
    (∀ e ∈ lab.threads, e.2.st ≠ .waitHandler) ∧ (st .halted).queues = [] ∧ (q.queue 5).st = .halted ∧ q.queueOf 5 0 = true ∧
    lab.exists? 1 = false ∧ extV e = true ∧ extRsv e = true ∧ extTier e = 0 ∧ extWorld e = 0 ∧ 16 ≤ extLen e / 2 ^ 16 ∧
    extDpa e + extLen e ≤ 2 ^ 39 ∧
    lab.unswept e = false ∧ lab.takenByOther 1 e = false ∧ Tab.find lab.sweeps 1 = none ∧ (st .halted).exists? 0 = true ∧
    ({ lab with sweeps := [(3, [(0x300000, 4096)])] } : State).sweeps = [(3, [(0x300000, 4096)])] ∧ lab.moved = [] ∧ isAlias 0x300000 = false ∧
    isAlias aliasBase = true ∧ fwV (1 <<< 255) = true ∧ fwWorld (1 <<< 255) = 0 ∧ 0 < fwLines (1 <<< 255) ∧ fwAbase (1 <<< 255) = 0 ∧
    lab.served = true ∧ lab.dieServed (dieOf 1) = true ∧
    ((st .halted).updThread 0 (fun t => { t with st := .waitOp, waitFor := some (.count 0 0) })).isFree 0 (.count 0 0) = true ∧
    (lab.groups.map (·.2.uid)).Nodup ∧ (∀ t ∈ lab.teams, t.1 / 32 ≠ 1) := by decide +kernel

theorem witness_OwnerCreatePopulated : extPopulated (2 ^ 127 + 2 ^ 126 + 64 * 2 ^ 88 + 16 * 2 ^ 32) = true := by
  have h1 : extDpa (2 ^ 127 + 2 ^ 126 + 64 * 2 ^ 88 + 16 * 2 ^ 32) = 0x400000 := by decide +kernel
  have h2 : extLen (2 ^ 127 + 2 ^ 126 + 64 * 2 ^ 88 + 16 * 2 ^ 32) = 0x100000 := by decide +kernel
  have h3 : extTier (2 ^ 127 + 2 ^ 126 + 64 * 2 ^ 88 + 16 * 2 ^ 32) = 0 := by decide +kernel
  simp only [extPopulated, h1, h2, h3]
  decide

/-- Entries at the ends of the ranges that each table admits, and beyond them; a queue that is idle and one that runs; an event with the
host, one with a service core before its timer passes, in the last ac, and after it, and one that is done; a service core in reset. -/
theorem witness_ServiceCoresWriteTablesAndDeliverEvents :
    let qb := fun (size : Nat) => BitVec.ofNat 128 (2 ^ 127 + size * 2 ^ 114 + 0x8000 * 2 ^ 70 + 0x8400 * 2 ^ 30)
    let ring := fun (size : Nat) => BitVec.ofNat 128 (2 ^ 127 + size * 2 ^ 123 + 0x100 * 2 ^ 103)
    let ev : Event := { source := 64, h := true, vec := 1, place := .withSc 0, raisedAt := 0 }
    let s : State := { lab with clock := 24001, events := [ev, { ev with place := .withHost }, { ev with h := false }, { ev with place := .done }] }
    let masks : State := { lab with umask := [(1, 0x00FF)] }
    let busy : State := lab.updQueue 5 (fun x => { x with st := .running })
    let next : State := { lab with qbindNew := [(5, qb 6)] }
    lab.served = true ∧ ({ lab with scDown := (List.range 8).map (fun i => (i, true)) } : State).served = false ∧
    lab.exists? 0 = true ∧ lab.exists? 1 = false ∧ lab.power = .ready ∧ (lab.queue 5).st = .idle ∧ (lab.queue 5).slot = [] ∧
    lab.queues = [] ∧ (busy.queue 5).st ≠ .idle ∧ Tab.find next.qbindNew 5 = some (qb 6) ∧ (next.queue 5).st = .idle ∧
    (qb 6).extractLsb' 114 5 = 6 ∧ (qb 16).extractLsb' 114 5 = 16 ∧ (qb 5).extractLsb' 114 5 = 5 ∧ (lab.owner 0).holdsHbm 0x200000 64 = true ∧
    (lab.owner 0).holdsHbm 0x210000 4096 = true ∧ lab.callsInFlight 0 = false ∧ (ring 5).extractLsb' 123 4 = 5 ∧ (ring 13).extractLsb' 123 4 = 13 ∧
    srOff (ring 5) = 0x4000 ∧ srOff (ring 5) + 64 + 128 * 2 ^ 5 ≤ (lab.owner 0).reserveLen ∧
    ((masks.umask.filter (fun y => y.1 / 16 == 0 && y.1 % 16 != 2)).map (·.2)).foldl (· ||| ·) 0 = (0x00FF : BitVec 16) ∧
    (0x00FF : BitVec 16) &&& 0x3F00 = 0 ∧ (List.range 16).countP (fun j => (0x3FFF : BitVec 16).getLsbD j) = 14 ∧
    (List.range 16).countP (fun j => (0x7FFF : BitVec 16).getLsbD j) = 15 ∧ fwV 0 = false ∧ lab.ops = [] ∧
    (s.events[0]?.map (·.place)) = some (.withSc 0) ∧ (s.events[1]?.map (·.place)) = some .withHost ∧ (s.events[2]?.map (·.h)) = some false ∧
    (s.events[3]?.map (·.place)) = some .done ∧ Tab.getD s.scDown false ev.sc = false ∧
    Tab.getD ({ s with scDown := [(0, true)] } : State).scDown false ev.sc = true ∧ lab.deliveries = [] ∧
    0 + 24000 < s.now ∧ ¬(0 + 24000 < ({ lab with clock := 24000 } : State).now) ∧ ev.late = false := by decide +kernel

/-- A record of each kind in owner 0's window, and one with another sequence number; addresses of a peer that its map has and has not; a
line that the host holds. -/
theorem witness_TheHostAndOtherAgentsReachMemory :
    let rec' := fun (kind arg0 arg1 seq : Nat) =>
      (labL { cap := 1 }).updOwner 0 (fun o => { o with winAccepted := [(0, leBytes 64 (2 ^ 63 + kind * 2 ^ 59 + seq + arg0 * 2 ^ 128 + arg1 * 2 ^ 192))] })
    let bad := fun (s : State) => (s.hostRec 0).malformed (s.owner 0).winSeq.toNat
    let held : State := { lab with hostLines := [(0x200000 / 128, false)] }
    lab.power = .ready ∧ isReserved 0x102000 = false ∧ isReserved (2 ^ 39) = true ∧ isReserved (2 ^ 39 - 1) = false ∧
    0x102000 / 128 = (0x102000 + 2 - 1) / 128 ∧ lab.exists? 0 = true ∧ lab.hostLines = [] ∧ lab.queues = [] ∧ lab.snoops = [] ∧ (lab.owner 0).winAccepted = [] ∧ 128 ≤ ((leBytes 8 (2 ^ 63)).getD 7 0).toNat ∧
    Tab.getD ({ lab with hostLines := [(5, true)] } : State).hostLines false 5 = true ∧
    ({ lab with fabid := 1 } : State).fabid ≠ 0 ∧ Tab.getD lab.scDown false 7 = false ∧ lab.farDown 0x200000 = false ∧
    lab.hostLinesIn 0x200000 8 = [] ∧ held.hostLinesIn 0x200000 8 ≠ [] ∧ isAlias 0x200000 = false ∧
    (lab.owner 0).mapAA (lab.owner 0).world 0 8 = some { dpa := 0x200000, world := 0, tier := 0 } ∧
    tagLater 1 0 (Tab.find lab.peerTags 0) = true ∧ tagLater 1 0 (some (1, 0)) = false ∧
    (∀ k ∈ [0, 1, 2], ((rec' k 0 0 0).hostRec 0).valid = true ∧ ((rec' k 0 0 0).hostRec 0).kind = k) ∧
    bad (rec' 0 0 0 0) = false ∧ bad (rec' 0 0 0 1) = true ∧ bad (rec' 1 (2 ^ 16 + 3) 0 0) = false ∧ bad (rec' 2 3 0 0) = false ∧
    (rec' 1 (2 ^ 16 + 3) 0 0).openLaunch 0 3 = some 0 ∧ (rec' 1 (2 ^ 16 + 4) 0 0).openLaunch 0 4 = none ∧
    (lab.owner 0).mapAA (lab.owner 0).world 0 16 = some { dpa := 0x200000, world := 0, tier := 0 } ∧
    (lab.owner 0).mapAA (lab.owner 0).world 0x100000 16 = none := by decide +kernel

/-- Links and dies at the values where their rules begin to act. -/
theorem witness_PackageEventsKeepLinksRatesAndPower :
    let down : State := { lab with links := [(0, { st := .retraining, since := 0 })], clock := 1200000 }
    let cool : State := { lab with clock := 12000000, coolSince := [(0, 0)], dieHot := [(0, 1)] }
    (lab.link 0).st = .up ∧ ({ lab with links := [(0, { due := true })] } : State).links.map (·.2.due) = [true] ∧ (lab.link 0).due = false ∧
    (down.link 0).st = .retraining ∧ (down.link 0).since + 1200000 ≤ down.now ∧ Tab.getD lab.portsDown false 1 = false ∧
    Tab.getD lab.dieHot 0 0 < 1 ∧ Tab.getD cool.dieHot 0 0 ≠ 0 ∧ Tab.find cool.coolSince 0 = some 0 ∧ 0 + 10 * 1200000 ≤ cool.now ∧
    Tab.find lab.coolSince 0 = none ∧ lab.hrt ≤ ([(0, 512)].map (·.2)).sum ∧
    Tab.getD ({ lab with rows := [(7, [(0, 512)])] } : State).rows [] 7 = [(0, 512)] ∧ lab.power = .ready ∧ ([(0, 511)].map (·.2)).sum < lab.hrt ∧
    lab.claims = [] ∧ lab.scRuns 0 = true ∧ ({ lab with scDown := [(1, true)] } : State).scRuns (32 / 32) = false ∧
    ({ lab with power := .training, tape := [.bringUp] } : State).tape = [.bringUp] ∧
    ({ lab with power := .off } : State).power = .off ∧ ({ lab with power := .recovery } : State).power = .recovery ∧
    (lab.core 0).readySince.any (fun a => a + 12000000 ≤ lab.now) = false ∧
    ((cool.updCore 0 (fun c => { c with readySince := some 0 })).core 0).readySince.any (fun a => a + 12000000 ≤ cool.now) = true ∧
    lab.ops = [] ∧ (∀ e ∈ lab.groups, e.1 / 512 = 0 → e.2.rep = none) ∧ (∀ q ∈ cool.queues, q.2.st ≠ .running ∧ q.2.st ≠ .paused) ∧
    (∀ e ∈ lab.teams, e.1 / 32 ≠ 0 ∨ e.2.matrix = none) := by decide +kernel

theorem witness_EncodedInstructionsDecodeToThemselves : wellFormed (.iadd word3) = true ∧ encode (.iadd word3) ≠ [] := by decide

/-- A word of a pipe and one of a stream where the next step fetches it, and an event at the head of the tape; a pipe whose other group
requests it as well, and wins or loses; a run that waits for a flag; a deeper handler group that comes first. -/
theorem witness_AStepRunsTheInstructionThatItsWordsDecodeTo :
    let s := placed 0x00382081BF800000 []
    let s' : State := { s with tape := [] }
    let s0 := ((s'.walkWindowEnd 0).replenish 0).wakeRing 0
    let m := placed 0x66BFFFE000000000 []
    let m' : State := { m with tape := [] }
    let both := fun (lost : Nat) => ((s0.setGroup 256 { uid := 40, team := some 0, lost }).setThread (tkey 256 0) { pc := bootPc })
    let alone := fun (t : State) => (List.range 31).foldl (fun a l => a.setThread (tkey 256 (l + 1)) { st := .exited }) t
    let contest := fun (lost mine : Nat) => (((alone (both lost)).updGroup 0 (fun g => { g with lost := mine })).markEligible 256).markEligible 0
    let deep : State := (List.range 31).foldl (fun a l => a.setThread (tkey 510 (l + 1)) { st := .exited })
      ((s0.setGroup 510 { uid := 41, hdepth := 1 }).setThread (tkey 510 0) { pc := bootPc })
    s.tape = [.issue 0 0] ∧ (s'.group? (gkey 0 0)).any (fun x => x.rep.isNone && x.owner == 0) = true ∧ s0.groupIssues 0 = true ∧
    s0.nextRun 0 = [0] ∧ s0.outrun 0 = false ∧ s0.hits = [] ∧ ((s0.markEligible 256).group 256).eligible = none ∧
    s0.longWaits [0] 0x00382081BF800000 0 = false ∧ deep.outrun 0 = true ∧
    ((contest 0 0).group 256).eligible ≠ none ∧ (contest 2 0).granted 0 256 = false ∧ (contest 0 2).granted 0 256 = true ∧
    ((s0.fetchInstr 0 (s0.thread 0).pc.toNat).map (fun r => decodeWords false r.2.1 r.2.2)).toOption = some (some (.iadd word3, 8)) ∧
    m.tape = [.sequence 0] ∧ ((m'.sequencer 0).any (fun q => !q.2.2.missing && q.2.2.st == .running && m'.ownerIssues q.2.1.owner)) = true ∧
    ((m'.translate 0 0 (some 0) .execute bootPc.toNat 8).map (fun l => decodeWords true (m'.fetchAt 0 0 l).2 0)).toOption =
      some (some (.mend zword0, 8)) ∧ encode (.stallEnlarge 0) = [] ∧ State.reset.tape = [] ∧ s'.ops = [] ∧ s'.farDown bootDpa = false ∧
    isAlias bootDpa = false ∧ s'.poison = [] ∧ (s'.core 0).code = [] := by decide +kernel

/-- Time, and an error that poisons a word, one that is corrected and one of a transfer, at the head of the tape (R93, R202). -/
theorem witness_AStepRuns_choices :
    let t := ran { State.reset with tape := [.tick 3] }
    let u := ran { State.reset with tape := [.error (.memory 5) false (some 0)] }
    let v := ran { lab with tape := [.error (.memory 5) true (some 0)] }
    let w := ran { lab with tape := [.error (.cxl 0) true (some 0)] }
    t.clock = 3 ∧ u.poison = [(5, true)] ∧ (u.homeRead 0 40 8).poison = [5] ∧ (v.owner 0).corr = 1 ∧ v.poison = [] ∧
    (w.owner 0).linkretry = 1 ∧ isTransfer (.cxl 0) = true ∧ isTransfer (.memory 5) = false := by decide +kernel

theorem witness_EveryStepKeepsMemoryCanonical : let s := placed 0x00382081BF800000 []
    s.Inv ∧ (match step s with | .next _ => true | _ => false) = true := by unfold State.Inv; decide +kernel

/-- A load in a clause whose flag is busy makes its run wait; a header needs no grant. -/
theorem witness_AStepRuns_waits :
    let s : State := lab.updThread 0 (fun t => { t with flags := 2, clause := some { left := 1, seta := some 1, setb := none } })
    s.longWaits [0] 0x4038208242040420 0 = true ∧ isHeader (.clause { wait := 9, seta := some 1, setb := some 2, len := 5 }) = true := by
  decide +kernel

end Sys2Proof.Tests
end

section
/-! PROOF. What reset leaves (R19, R146, R366, R400): the accessors of the state read every table's default, since reset lists no
entry in any table. -/

namespace Sys2Proof.Machine

/-! ### The empty table -/

@[simp] theorem Tab.find_nil {α : Type} (k : Nat) : Tab.find ([] : Tab α) k = none := rfl

@[simp] theorem Tab.getD_nil {α : Type} (d : α) (k : Nat) : Tab.getD [] d k = d := rfl

@[simp] theorem Memory.read_nil (a : Nat) : Memory.read [] a = 0 := Tab.getD_nil ..

/-! ### What the accessors read after reset -/

@[simp] theorem State.reset_mem : State.reset.mem = [] := rfl

@[simp] theorem State.reset_core (c : Nat) : State.reset.core c = {} := Tab.getD_nil ..

@[simp] theorem State.reset_group? (g : Nat) : State.reset.group? g = none := Tab.find_nil ..

@[simp] theorem State.reset_owner (o : Nat) : State.reset.owner o = {} := Tab.getD_nil ..

theorem State.reset_inv : State.reset.Inv := Memory.wf_nil

/-! ### The bank modes of R19 -/

theorem resetBanks_getD_scratch {b : Nat} (h : b < 10) (m : BankMode) : resetBanks.getD b m = .scratch := by
  rw [resetBanks, List.getD_append _ _ _ _ (by simpa using h), List.getD_replicate _ h]

theorem resetBanks_getD_cache {b : Nat} (h : 10 ≤ b) (hb : b < 24) (m : BankMode) : resetBanks.getD b m = .cache := by
  rw [resetBanks, List.getD_append_right _ _ _ _ (by simpa using h), List.length_replicate,
    List.getD_replicate _ (by omega)]

/-- Settles O59: reset lists no entry in any table, so each accessor reads its default; the default of a core's banks is
`resetBanks`, ten of scratch and then fourteen of cache. -/
theorem resetMeetsTheInvariantAndTheSpecsValues : Obligations.ResetMeetsTheInvariantAndTheSpecsValues := by
  refine ⟨State.reset_inv, ?memory, ?banks, ?tiles, ?entriesAndRecords, State.reset_group?, ?owners⟩
  case memory => simp
  case banks =>
    intro c b hb
    rw [State.reset_core]
    exact ⟨fun h => resetBanks_getD_scratch h _, fun h => resetBanks_getD_cache h hb _⟩
  case tiles =>
    intro c i
    rw [State.reset_core, Tab.getD_nil]
  case entriesAndRecords =>
    intro c
    rw [State.reset_core]
    exact ⟨rfl, rfl⟩
  case owners =>
    intro o
    rw [State.reset_owner]

end Sys2Proof.Machine
end

section
/-! PROOF. The integer, logic, compare and move words (R97 to R101). The law of computing words, `Gives.of_compute`, is turned into one
law per shape of word: the value is a function of what the sources hold, whatever its widths, and the word's arm of
`exec` (the `rfl` of each row) names that function. The types of a row are read off the shape that its words must have. -/

namespace Sys2Proof.Machine

/-! ### Words whose value is a function of their sources -/

section
variable {i : Instr} {s : State} {f : FWord} {g : IWord}

/-- `xa`, `xb` and `xc` say which sources the value reads as 64 bits; they need not be the widths that the word's uses have. -/
theorem Gives.of_sources {dw aw bw cw : Bool} (xa xb xc : Bool) (val : BitVec 64 → BitVec 64 → BitVec 64 → BitVec 64)
    (hi : exec i s = .next (s.compute f dw aw bw cw (fun s k => val (s.rd k f.a xa) (s.rd k f.b xb) (s.rd k f.c xc)))) :
    Gives i s f dw aw bw cw (fun k => val (s.rd k f.a xa) (s.rd k f.b xb) (s.rd k f.c xc)) :=
  Gives.of_compute hi (fun h k hk => by simp only [State.entryState_rd h f.guard hk])

theorem Gives.of_compute1 (val : BitVec 64 → BitVec 64) (hi : exec i s = .next (s.compute1 f val)) :
    Gives i s f (wide f.ty) (wide f.ty) false false (fun k => val (s.rd k f.a (wide f.ty))) :=
  Gives.of_sources (wide f.ty) false false (fun a _ _ => val a) hi

theorem Gives.of_compute2 (val : BitVec 64 → BitVec 64 → BitVec 64) (hi : exec i s = .next (s.compute2 f val)) :
    Gives i s f (wide f.ty) (wide f.ty) (wide f.ty) false (fun k => val (s.rd k f.a (wide f.ty)) (s.rd k f.b (wide f.ty))) :=
  Gives.of_sources (wide f.ty) (wide f.ty) false (fun a b _ => val a b) hi

theorem Gives.of_compute3 (val : BitVec 64 → BitVec 64 → BitVec 64 → BitVec 64) (hi : exec i s = .next (s.compute3 f val)) :
    Gives i s f (wide f.ty) (wide f.ty) (wide f.ty) (wide f.ty)
      (fun k => val (s.rd k f.a (wide f.ty)) (s.rd k f.b (wide f.ty)) (s.rd k f.c (wide f.ty))) :=
  Gives.of_sources (wide f.ty) (wide f.ty) (wide f.ty) val hi

theorem GivesI.of_source {dw aw : Bool} (xa : Bool) (val : BitVec 64 → BitVec 64)
    (hi : exec i s = .next (s.computeImm g dw aw (fun s k => val (s.rd k g.a xa)))) :
    GivesI i s g dw aw (fun k => val (s.rd k g.a xa)) :=
  GivesI.of_computeImm hi (fun h k hk => by simp only [State.entryState_rd h g.guard hk])

theorem GivesI.of_compute1I (val : BitVec 64 → BitVec 64 → BitVec 64) (hi : exec i s = .next (s.compute1I g val)) :
    GivesI i s g (wide g.ty) (wide g.ty) (fun k => val (s.rd k g.a (wide g.ty)) (immValue g)) :=
  GivesI.of_source (wide g.ty) (fun a => val a (immValue g)) hi

end

/-- The IRSB half of a pair is ISUB with its operands exchanged (R98). -/
theorem State.halfResult_irsb (s : State) {h : Half} (k : Nat) (hop : h.op = .irsb) :
    s.halfResult h k = aluSub h.pty (s.rd k (halfOpd h.a) false) (s.rd k (halfOpd h.d) false) := by
  simp only [State.halfResult, halfVal, hop]

/-! ### What the shape of a word says of its fields -/

theorem formOk_of_wellFormed {i : Instr} (h : wellFormed i = true) : formOk i = true := (Bool.and_eq_true_iff.mp h).1

/-- The operands and fields of a register word that has a shape, as far as the statements of R98 to R101 speak of them. -/
structure FShape.Fields (h : FShape) (f : FWord) : Prop where
  a : h.a.passes h.strict false false f.a = true
  c : h.c.passes h.strict false false f.c = true
  ty : f.ty ∈ h.ty
  sub : f.sub.toNat ∈ h.sub

theorem FShape.ok_fields {h : FShape} {f : FWord} (hf : h.ok f = true) : h.Fields f := by
  simp only [FShape.ok, Bool.and_eq_true, List.contains_iff_mem] at hf
  obtain ⟨⟨⟨⟨⟨⟨⟨⟨⟨⟨⟨-, ha⟩, -⟩, hc⟩, -⟩, -⟩, -⟩, -⟩, hty⟩, -⟩, hsub⟩, -⟩ := hf
  exact ⟨ha, hc, hty, hsub⟩

/-- The same for an immediate word. -/
structure IShape.Fields (h : IShape) (g : IWord) : Prop where
  ty : g.ty ∈ h.ty
  sub : g.sub.toNat ∈ h.sub
  shift : h.shift = true → immUsed g < tyBits g.ty

theorem IShape.ok_fields {h : IShape} {g : IWord} (hg : h.ok g = true) : h.Fields g := by
  simp only [IShape.ok, Bool.and_eq_true, List.contains_iff_mem, Bool.or_eq_true, Bool.not_eq_true', decide_eq_true_eq] at hg
  obtain ⟨⟨⟨⟨-, hty⟩, hsub⟩, -⟩, hshift⟩ := hg
  exact ⟨hty, hsub, fun hs => hshift.resolve_left (by simp [hs])⟩

/-- The static check of a register word is a shape and a rule beside it, most often that of its uniform form (R92). -/
theorem FShape.ok_of_wellFormed {i : Instr} {h : FShape} {f : FWord} {rule : Bool}
    (hi : formOk i = (h.ok f && rule)) (hw : wellFormed i = true) : h.ok f = true :=
  (Bool.and_eq_true_iff.mp (hi ▸ formOk_of_wellFormed hw)).1

theorem FShape.ty_mem {i : Instr} {h : FShape} {f : FWord} {rule : Bool} {tys : List Ty}
    (hi : formOk i = (h.ok f && rule)) (ht : h.ty = tys) (hw : wellFormed i = true) : f.ty ∈ tys :=
  ht ▸ (FShape.ok_fields (FShape.ok_of_wellFormed hi hw)).ty

theorem FShape.ty_eq_or {i : Instr} {h : FShape} {f : FWord} {rule : Bool} {t u : Ty}
    (hi : formOk i = (h.ok f && rule)) (ht : h.ty = [t, u]) (hw : wellFormed i = true) : f.ty = t ∨ f.ty = u :=
  List.mem_pair.mp (FShape.ty_mem hi ht hw)

theorem FShape.ty_eq {i : Instr} {h : FShape} {f : FWord} {rule : Bool} {t : Ty}
    (hi : formOk i = (h.ok f && rule)) (ht : h.ty = [t]) (hw : wellFormed i = true) : f.ty = t :=
  List.mem_singleton.mp (FShape.ty_mem hi ht hw)

/-- The static check of an immediate word is a shape. -/
theorem IShape.ty_mem {i : Instr} {h : IShape} {g : IWord} {tys : List Ty}
    (hi : formOk i = h.ok g) (ht : h.ty = tys) (hw : wellFormed i = true) : g.ty ∈ tys :=
  ht ▸ (IShape.ok_fields (hi ▸ formOk_of_wellFormed hw)).ty

theorem IShape.ty_eq_or {i : Instr} {h : IShape} {g : IWord} {t u : Ty}
    (hi : formOk i = h.ok g) (ht : h.ty = [t, u]) (hw : wellFormed i = true) : g.ty = t ∨ g.ty = u :=
  List.mem_pair.mp (IShape.ty_mem hi ht hw)

theorem tyBits_eq (t : Ty) : tyBits t = 32 ∨ tyBits t = 64 := by cases t <;> decide

/-- A type's operand holds the low 32 bits of a value, or all 64. -/
theorem trunc_toNat (t : Ty) (x : BitVec 64) : (trunc t x).toNat = x.toNat % 2 ^ tyBits t := by
  unfold trunc
  split
  case isTrue h => rw [h, Nat.mod_eq_of_lt x.isLt]
  case isFalse h =>
    rw [(tyBits_eq t).resolve_right h, BitVec.toNat_and]
    exact Nat.and_two_pow_sub_one_eq_mod x.toNat 32

/-- The amount of an immediate shift is below the width (R99). -/
theorem shift_lt_of_wellFormed {i : Instr} {h : IShape} {g : IWord} (hi : formOk i = h.ok g) (hs : h.shift = true)
    (hw : wellFormed i = true) : (trunc g.ty (immValue g)).toNat < tyBits g.ty := by
  rw [trunc_toNat]
  exact (IShape.ok_fields (hi ▸ formOk_of_wellFormed hw)).shift hs

/-- SEL's c is a predicate, or a tile register, which step 6 of R53 refuses. -/
theorem predicate_or_tile_of_passes {o : Opd} (h : Kind.passes .q false false false o = true) :
    (∃ q, o = .q q) ∨ ∃ m, o = .m m := by
  cases o with
  | q i => exact .inl ⟨i, rfl⟩
  | m i => exact .inr ⟨i, rfl⟩
  | _ => simp [Kind.passes, Kind.ok, stepSix] at h

/-- MOVU's a is no uniform register (R101). -/
theorem not_uniform_of_passes {o : Opd} (h : Kind.passes .perThread false false false o = true) (u : Fin 32) : o ≠ .s u := by
  rintro rfl
  simp [Kind.passes, Kind.ok, stepSix] at h

theorem exists_uniform_of_isUni {o : Opd} (h : isUni o = true) : ∃ u, o = .s u := by
  cases o with
  | s u => exact ⟨u, rfl⟩
  | _ => cases h

/-! ### The rows of R98 -/

/-- Settles O1: each row is the law of its word's shape with the row's value; the types are those of its static check. -/
theorem integerWordsGiveTheirResults : Obligations.IntegerWordsGiveTheirResults := by
  intro f g s w a b c v x imm
  refine ⟨.of_compute2 (aluAdd f.ty) rfl, .of_compute1I (fun a i => aluAdd g.ty a (immLanes g.ty i)) rfl,
    .of_compute2 (aluSub f.ty) rfl, .of_compute1I (fun a i => aluSub g.ty (immLanes g.ty i) a) rfl,
    .of_compute2 (aluMul f.ty) rfl, .of_compute1I (fun a i => aluMul g.ty a (immLanes g.ty i)) rfl,
    .of_compute2 (aluMulHi f.ty) rfl, .of_compute3 (aluMad f.ty) rfl,
    .of_sources false false true (aluMadW f.ty) rfl,
    .of_compute2 (aluMin f.ty) rfl, .of_compute2 (aluMax f.ty) rfl, .of_compute1 (aluAbs f.ty) rfl,
    .of_compute2 (aluAddS f.ty) rfl, .of_compute2 (aluSubS f.ty) rfl,
    .of_sources true false false (fun a b _ => aluLea f.ty a b f.mod.toNat) rfl,
    .of_compute1I aluLeaI rfl, fun _ k => s.halfResult_irsb k, ?types⟩
  intro scalar all
  simp only [List.forall_mem_cons, List.not_mem_nil, false_imp_iff, implies_true, and_true]
  refine ⟨?all, ?immediateAll, ?scalar, ?immediateScalar, ?extended, ?signed, ?saturating, ?address⟩
  case all => and_intros <;> exact FShape.ty_mem rfl rfl
  case immediateAll => and_intros <;> exact IShape.ty_mem rfl rfl
  case scalar => and_intros <;> exact FShape.ty_mem rfl rfl
  case immediateScalar => exact IShape.ty_mem rfl rfl
  case extended => and_intros <;> exact FShape.ty_eq_or rfl rfl
  case signed => exact FShape.ty_mem rfl rfl
  case saturating => and_intros <;> exact FShape.ty_mem rfl rfl
  case address => exact fun hw => List.mem_singleton.mp (IShape.ty_mem rfl rfl hw)

/-! ### The rows of R99 -/

/-- Settles O2: each row is the law of its word's shape with the row's value; the types, and the amounts of the immediate shifts, are
those of its static check. -/
theorem logicWordsGiveTheirResults : Obligations.LogicWordsGiveTheirResults := by
  intro f g s w a b v x imm
  simp only [List.forall_mem_cons, List.not_mem_nil, false_imp_iff, implies_true, and_true]
  refine ⟨.of_compute2 (· &&& ·) rfl, .of_compute1I (fun a i => a &&& trunc g.ty i) rfl,
    .of_compute2 (· ||| ·) rfl, .of_compute1I (fun a i => a ||| trunc g.ty i) rfl,
    .of_compute2 (· ^^^ ·) rfl, .of_compute1I (fun a i => a ^^^ trunc g.ty i) rfl,
    .of_compute1 (aluNot f.ty) rfl,
    .of_sources w false false (fun a b _ => aluShl f.ty a b.toNat) rfl,
    .of_compute1I (fun a i => aluShl g.ty a (trunc g.ty i).toNat) rfl,
    .of_sources w false false (fun a b _ => aluShr f.ty a b.toNat) rfl,
    .of_compute1I (fun a i => aluShr g.ty a (trunc g.ty i).toNat) rfl,
    .of_compute3 (aluDsh (f.sub == 1)) rfl,
    .of_sources w false false (fun a b _ => aluBfe f.ty a b) rfl,
    .of_sources w false w (aluBfi f.ty) rfl,
    .of_sources w false false (fun a _ _ => aluPopc f.ty a) rfl,
    .of_sources w false false (fun a _ _ => aluClz f.ty a) rfl,
    .of_compute3 aluPrmt rfl, .of_compute1 (aluBrev f.ty) rfl,
    ?bits, ?immediateBits, ?scalar, ?immediateScalar, ?amounts, ?b32, ?dshSub⟩
  case bits => and_intros <;> exact FShape.ty_eq_or rfl rfl
  case immediateBits => and_intros <;> exact IShape.ty_eq_or rfl rfl
  case scalar => and_intros <;> exact FShape.ty_mem rfl rfl
  case immediateScalar => exact IShape.ty_mem rfl rfl
  case amounts => and_intros <;> exact shift_lt_of_wellFormed rfl rfl
  case b32 => and_intros <;> exact FShape.ty_eq rfl rfl
  case dshSub =>
    intro hw
    have hsub : f.sub.toNat ∈ upto 2 := (FShape.ok_fields (FShape.ok_of_wellFormed rfl hw)).sub
    have hlt : f.sub.toNat < 2 := List.mem_range.mp hsub
    bv_omega

/-! ### The rows of R100 and R101 -/

/-- The static check of SELI: its shape, and q7 for the predicate of its uniform form (R92). -/
theorem ishape_of_wellFormed_seli {g : IWord} (hw : wellFormed (.seli g) = true) :
    IShape.ok { ty := tyB, sub := upto 16, q7 := true } g = true :=
  (Bool.and_eq_true_iff.mp (formOk_of_wellFormed hw)).1

/-- SELI's sub has four bits (R101). -/
theorem seli_sub_bit4 {g : IWord} (hw : wellFormed (.seli g) = true) : g.sub.getLsbD 4 = false := by
  have hsub : g.sub.toNat < 16 := List.mem_range.mp (IShape.ok_fields (ishape_of_wellFormed_seli hw)).sub
  exact Nat.testBit_lt_two_pow hsub

/-- Settles O3: each row is the law of its word's shape with the row's value, a predicate source being bit 0 of what it reads; SELI alone
reads a predicate that is no operand. The types and operands are those of the static check. -/
theorem compareAndMoveWordsGiveTheirResults : Obligations.CompareAndMoveWordsGiveTheirResults := by
  intro f g s w v signed
  simp only [List.forall_mem_cons, List.not_mem_nil, false_imp_iff, implies_true, and_true]
  refine ⟨.of_sources w w false (fun a b c => boolVal (icmpVal f.ty f.sub.toNat f.mod a b (c.getLsbD 0))) rfl,
    .of_source v (fun a => boolVal (cmpInt g.sub.toNat (asInt (tySigned g.ty) (tyBits g.ty) a.toNat)
      (asInt (tySigned g.ty) (tyBits g.ty) (immValue g).toNat))) rfl,
    .of_sources false false false (fun a b c => boolVal (fcmpVal f.sub.toNat f.mod a b (c.getLsbD 0))) rfl,
    .of_sources false false false (fun a b c => boolVal (plogVal f.sub f.mod (a.getLsbD 0) (b.getLsbD 0) (c.getLsbD 0))) rfl,
    .of_sources w w false (fun a b c => if c.getLsbD 0 then a else b) rfl,
    .of_computeImm rfl ?seli, .of_compute1 id rfl, .of_computeImm rfl ?movi, .of_compute1 id rfl,
    ?bits, ?immediateBits, ?selC, seli_sub_bit4, ?movuOperands⟩
  case seli =>
    intro h k hk
    simp only [State.entryState_rd h g.guard hk, State.entryState_thread h g.guard hk, v]
  case movi => exact fun _ _ _ => rfl
  case bits => and_intros <;> exact FShape.ty_eq_or rfl rfl
  case immediateBits =>
    exact ⟨fun hw => List.mem_pair.mp (IShape.ok_fields (ishape_of_wellFormed_seli hw)).ty, IShape.ty_eq_or rfl rfl⟩
  case selC => exact fun hw => predicate_or_tile_of_passes (FShape.ok_fields (FShape.ok_of_wellFormed rfl hw)).c
  case movuOperands =>
    intro hw
    have hd : isUni f.d = true := (Bool.and_eq_true_iff.mp (formOk_of_wellFormed hw)).2
    exact ⟨exists_uniform_of_isUni hd, not_uniform_of_passes (FShape.ok_fields (FShape.ok_of_wellFormed rfl hw)).a⟩

end Sys2Proof.Machine
end
